-- ==== Sys2Proof/Word.lean ====
section
/-! DEFINITION. The widths of the block's registers and fields (00_scope.md R6) and the index types of its
engine memories (10_state.md R54, R57, R58). -/

namespace Sys2Proof

/-- A register, and a command word (R6, R110). -/
abbrev Word := BitVec 32

/-- A byte (R6). -/
abbrev Byte := BitVec 8

/-- An LZW code, `W` = 12 bits (R3, R59). -/
abbrev Code := BitVec 12

/-- A Huffman frequency, 16 bits (R57). -/
abbrev Freq := BitVec 16

/-- A window position `0..N−1` (R54); its addition is addition `mod N` (R165). -/
abbrev Pos := Fin 4096

/-- A Huffman slot `0..T−1` (R250). -/
abbrev Slot := Fin 629

/-- A symbol `0..N_CHAR−1` (R121). -/
abbrev Sym := Fin 315

/-- The index of an LZW table entry: entry `k` of `DICT_P`, `DICT_C` has index `k − 258` (R59). -/
abbrev Entry := Fin 3838

end Sys2Proof
end

