-- ==== Sys2Proof/Syntax.lean ====
section
/-! DEFINITION. The block's commands (30_encoding.md R115): one constructor for each row of the opcode table, with
the operand fields of its format (R111, R112) as they stand in the command word. -/

namespace Sys2Proof

inductive Instr where
  /-- `NOP`, format X: the operand field has no meaning (R117). -/
  | nop
  /-- `RESET`, format Z. -/
  | reset
  /-- `CLRERR`, format Z. -/
  | clrerr
  /-- `BIT_INIT`, format Z. -/
  | bitInit
  /-- `BIT_GET n`, format G. -/
  | bitGet (n : BitVec 5)
  /-- `BIT_PUT n, v`, format B. -/
  | bitPut (n : BitVec 5) (v : BitVec 16)
  /-- `BIT_GETBYTE`, format Z. -/
  | bitGetByte
  /-- `BIT_PUTBYTE b`, format Y. -/
  | bitPutByte (b : Byte)
  /-- `BIT_COUNT`, format Z. -/
  | bitCount
  /-- `BIT_FLUSH`, format Z. -/
  | bitFlush
  /-- `WIN_INIT`, format Z. -/
  | winInit
  /-- `WIN_RD x`, format I. -/
  | winRd (x : BitVec 16)
  /-- `WIN_WR x, b`, format IB. -/
  | winWr (x : BitVec 16) (b : Byte)
  /-- `WIN_INSERT x`, format I. -/
  | winInsert (x : BitVec 16)
  /-- `WIN_DELETE x`, format I. -/
  | winDelete (x : BitVec 16)
  /-- `WIN_FIND x`, format I. -/
  | winFind (x : BitVec 16)
  /-- `HUF_INIT`, format Z. -/
  | hufInit
  /-- `HUF_ENC x`, format I. -/
  | hufEnc (x : BitVec 16)
  /-- `HUF_DEC`, format Z. -/
  | hufDec
  /-- `HUF_UPD x`, format I. -/
  | hufUpd (x : BitVec 16)
  /-- `HUF_ENCPOS x`, format I. -/
  | hufEncPos (x : BitVec 16)
  /-- `HUF_DECPOS`, format Z. -/
  | hufDecPos
  /-- `HUF_RESCALE`, format Z. -/
  | hufRescale
  /-- `HUF_PEEK x`, format I. -/
  | hufPeek (x : BitVec 16)
  /-- `LZH_COMPRESS`, format Z. -/
  | lzhCompress
  /-- `LZH_EXPAND`, format Z. -/
  | lzhExpand
  /-- `LZW_INIT`, format Z. -/
  | lzwInit
  /-- `LZW_ENCBYTE b`, format Y. -/
  | lzwEncByte (b : Byte)
  /-- `LZW_ENCEND`, format Z. -/
  | lzwEncEnd
  /-- `LZW_DECCODE`, format Z. -/
  | lzwDecCode
  /-- `LZW_COMPRESS`, format Z. -/
  | lzwCompress
  /-- `LZW_EXPAND`, format Z. -/
  | lzwExpand
deriving DecidableEq, Repr

end Sys2Proof
end

