-- ==== Sys2Proof/WellFormed.lean ====
section
/-! DEFINITION. The operand ranges of 30_encoding.md R113: a command whose operand is out of range is illegal
(R116). -/

namespace Sys2Proof

/-- The range check of R113 on the command's operands. -/
def Instr.wellFormed : Instr → Bool
  | .nop => true
  | .reset => true
  | .clrerr => true
  | .bitInit => true
  | .bitGet n => decide (n.toNat ≤ 16)
  | .bitPut n _ => decide (n.toNat ≤ 16)
  | .bitGetByte => true
  | .bitPutByte _ => true
  | .bitCount => true
  | .bitFlush => true
  | .winInit => true
  | .winRd x => decide (x.toNat < 4096)
  | .winWr x _ => decide (x.toNat < 4096)
  | .winInsert x => decide (x.toNat < 4096)
  | .winDelete x => decide (x.toNat < 4096)
  | .winFind x => decide (x.toNat < 4096)
  | .hufInit => true
  | .hufEnc x => decide (x.toNat < 315)
  | .hufDec => true
  | .hufUpd x => decide (x.toNat < 315)
  | .hufEncPos x => decide (x.toNat < 4096)
  | .hufDecPos => true
  | .hufRescale => true
  | .hufPeek x => decide (x.toNat < 629)
  | .lzhCompress => true
  | .lzhExpand => true
  | .lzwInit => true
  | .lzwEncByte _ => true
  | .lzwEncEnd => true
  | .lzwDecCode => true
  | .lzwCompress => true
  | .lzwExpand => true

end Sys2Proof
end

