-- ==== Sys2Proof/Decode.lean ====
section
/-! DEFINITION. Command words to commands and back (30_encoding.md R110 to R119): `decode` is total on every word
and rejects an illegal one by the check it fails, in the order of R386; `encode` is written from the same tables. -/

namespace Sys2Proof

/-- Which check of R386 an illegal command word fails first (R116). -/
inductive Illegal where
  /-- `OPC` is not in R115. -/
  | opcode
  /-- A must-be-zero field of the format (R111) is not zero. -/
  | format
  /-- An operand is out of the range of R113. -/
  | range
deriving DecidableEq, Repr

/-- `OPC`, bits 31..24 (R110). -/
def opcodeOf (w : Word) : BitVec 8 := w.extractLsb' 24 8
/-- Operand `n`, bits 20..16 (R112). -/
def fieldN (w : Word) : BitVec 5 := w.extractLsb' 16 5
/-- Operand `v` or `x`, bits 15..0 (R112). -/
def fieldX (w : Word) : BitVec 16 := w.extractLsb' 0 16
/-- Operand `b` of format Y, bits 7..0 (R112). -/
def fieldB (w : Word) : Byte := w.extractLsb' 0 8
/-- Operand `b` of format IB, bits 23..16 (R112). -/
def fieldHigh (w : Word) : Byte := w.extractLsb' 16 8

/-- Format Z (R111): bits 23..0 are zero. -/
def formatZ (w : Word) (i : Instr) : Except Illegal Instr :=
  if w.extractLsb' 0 24 = 0 then .ok i else .error .format

/-- Format G (R111): bits 23..21 and 15..0 are zero. -/
def formatG (w : Word) (i : BitVec 5 → Instr) : Except Illegal Instr :=
  if w.extractLsb' 21 3 = 0 ∧ w.extractLsb' 0 16 = 0 then .ok (i (fieldN w)) else .error .format

/-- Format B (R111): bits 23..21 are zero. -/
def formatB (w : Word) (i : BitVec 5 → BitVec 16 → Instr) : Except Illegal Instr :=
  if w.extractLsb' 21 3 = 0 then .ok (i (fieldN w) (fieldX w)) else .error .format

/-- Format Y (R111): bits 23..8 are zero. -/
def formatY (w : Word) (i : Byte → Instr) : Except Illegal Instr :=
  if w.extractLsb' 8 16 = 0 then .ok (i (fieldB w)) else .error .format

/-- Format I (R111): bits 23..16 are zero. -/
def formatI (w : Word) (i : BitVec 16 → Instr) : Except Illegal Instr :=
  if fieldHigh w = 0 then .ok (i (fieldX w)) else .error .format

/-- Format IB (R111): no must-be-zero bits. -/
def formatIB (w : Word) (i : BitVec 16 → Byte → Instr) : Except Illegal Instr :=
  .ok (i (fieldX w) (fieldHigh w))

/-- The row of R115 for the word's opcode, with its format's check and operands. -/
def decodeRow (w : Word) : Except Illegal Instr :=
  match (opcodeOf w).toNat with
  | 0x00 => .ok .nop
  | 0x01 => formatZ w .reset
  | 0x02 => formatZ w .clrerr
  | 0x10 => formatZ w .bitInit
  | 0x11 => formatG w .bitGet
  | 0x12 => formatB w .bitPut
  | 0x13 => formatZ w .bitGetByte
  | 0x14 => formatY w .bitPutByte
  | 0x15 => formatZ w .bitCount
  | 0x16 => formatZ w .bitFlush
  | 0x20 => formatZ w .winInit
  | 0x21 => formatI w .winRd
  | 0x22 => formatIB w .winWr
  | 0x23 => formatI w .winInsert
  | 0x24 => formatI w .winDelete
  | 0x25 => formatI w .winFind
  | 0x30 => formatZ w .hufInit
  | 0x31 => formatI w .hufEnc
  | 0x32 => formatZ w .hufDec
  | 0x33 => formatI w .hufUpd
  | 0x34 => formatI w .hufEncPos
  | 0x35 => formatZ w .hufDecPos
  | 0x36 => formatZ w .hufRescale
  | 0x37 => formatI w .hufPeek
  | 0x40 => formatZ w .lzhCompress
  | 0x41 => formatZ w .lzhExpand
  | 0x50 => formatZ w .lzwInit
  | 0x51 => formatY w .lzwEncByte
  | 0x52 => formatZ w .lzwEncEnd
  | 0x53 => formatZ w .lzwDecCode
  | 0x54 => formatZ w .lzwCompress
  | 0x55 => formatZ w .lzwExpand
  | _ => .error .opcode

/-- The command a word stands for, or the first check it fails: opcode, then format, then operand range (R386). -/
def decode (w : Word) : Except Illegal Instr :=
  match decodeRow w with
  | .ok i => if i.wellFormed then .ok i else .error .range
  | .error e => .error e

/-- The opcode of R115. -/
def Instr.opcode : Instr → BitVec 8
  | .nop => 0x00
  | .reset => 0x01
  | .clrerr => 0x02
  | .bitInit => 0x10
  | .bitGet _ => 0x11
  | .bitPut _ _ => 0x12
  | .bitGetByte => 0x13
  | .bitPutByte _ => 0x14
  | .bitCount => 0x15
  | .bitFlush => 0x16
  | .winInit => 0x20
  | .winRd _ => 0x21
  | .winWr _ _ => 0x22
  | .winInsert _ => 0x23
  | .winDelete _ => 0x24
  | .winFind _ => 0x25
  | .hufInit => 0x30
  | .hufEnc _ => 0x31
  | .hufDec => 0x32
  | .hufUpd _ => 0x33
  | .hufEncPos _ => 0x34
  | .hufDecPos => 0x35
  | .hufRescale => 0x36
  | .hufPeek _ => 0x37
  | .lzhCompress => 0x40
  | .lzhExpand => 0x41
  | .lzwInit => 0x50
  | .lzwEncByte _ => 0x51
  | .lzwEncEnd => 0x52
  | .lzwDecCode => 0x53
  | .lzwCompress => 0x54
  | .lzwExpand => 0x55

/-- The operand field, bits 23..0, of the command's word (R111, R112). -/
def Instr.operandField : Instr → BitVec 24
  | .nop => 0
  | .reset => 0
  | .clrerr => 0
  | .bitInit => 0
  | .bitGet n => 0#3 ++ n ++ 0#16
  | .bitPut n v => 0#3 ++ n ++ v
  | .bitGetByte => 0
  | .bitPutByte b => 0#16 ++ b
  | .bitCount => 0
  | .bitFlush => 0
  | .winInit => 0
  | .winRd x => 0#8 ++ x
  | .winWr x b => b ++ x
  | .winInsert x => 0#8 ++ x
  | .winDelete x => 0#8 ++ x
  | .winFind x => 0#8 ++ x
  | .hufInit => 0
  | .hufEnc x => 0#8 ++ x
  | .hufDec => 0
  | .hufUpd x => 0#8 ++ x
  | .hufEncPos x => 0#8 ++ x
  | .hufDecPos => 0
  | .hufRescale => 0
  | .hufPeek x => 0#8 ++ x
  | .lzhCompress => 0
  | .lzhExpand => 0
  | .lzwInit => 0
  | .lzwEncByte b => 0#16 ++ b
  | .lzwEncEnd => 0
  | .lzwDecCode => 0
  | .lzwCompress => 0
  | .lzwExpand => 0

/-- The command word of a command (R110); for `NOP` the hint word with a zero operand field (R135). -/
def encode (i : Instr) : Word := i.opcode ++ i.operandField

/-- The operand bits that are fixed for the command's row of spec/opcode_table.json (its mask). -/
def Instr.rowMask : Instr → Word
  | .nop => 0xFF000000
  | .bitGet _ => 0xFFE0FFFF
  | .bitPut _ _ => 0xFFE00000
  | .bitPutByte _ => 0xFFFFFF00
  | .lzwEncByte _ => 0xFFFFFF00
  | .winWr _ _ => 0xFF000000
  | .winRd _ => 0xFFFF0000
  | .winInsert _ => 0xFFFF0000
  | .winDelete _ => 0xFFFF0000
  | .winFind _ => 0xFFFF0000
  | .hufEnc _ => 0xFFFF0000
  | .hufUpd _ => 0xFFFF0000
  | .hufEncPos _ => 0xFFFF0000
  | .hufPeek _ => 0xFFFF0000
  | .reset => 0xFFFFFFFF
  | .clrerr => 0xFFFFFFFF
  | .bitInit => 0xFFFFFFFF
  | .bitGetByte => 0xFFFFFFFF
  | .bitCount => 0xFFFFFFFF
  | .bitFlush => 0xFFFFFFFF
  | .winInit => 0xFFFFFFFF
  | .hufInit => 0xFFFFFFFF
  | .hufDec => 0xFFFFFFFF
  | .hufDecPos => 0xFFFFFFFF
  | .hufRescale => 0xFFFFFFFF
  | .lzhCompress => 0xFFFFFFFF
  | .lzhExpand => 0xFFFFFFFF
  | .lzwInit => 0xFFFFFFFF
  | .lzwEncEnd => 0xFFFFFFFF
  | .lzwDecCode => 0xFFFFFFFF
  | .lzwCompress => 0xFFFFFFFF
  | .lzwExpand => 0xFFFFFFFF

/-- The bits of the command's row under its mask: the opcode in bits 31..24, zeros below (R115). -/
def Instr.rowMatch (i : Instr) : Word := i.opcode ++ 0#24

/-- The command `decode` reads from the `nbits` low bits of `w`, numbered as spec/opcode_table.json numbers them:
a command is one 32-bit word (R110), bit 0 its least significant bit. -/
def decodeTableWord (nbits w : Nat) : Option Instr :=
  match decode (BitVec.ofNat 32 (w % 2 ^ nbits)) with
  | .ok i => some i
  | .error _ => none

end Sys2Proof
end

