-- ==== Sys2Proof/Config.lean ====
section
/-! DEFINITION. The block's fixed geometry (00_scope.md R3, R4), the parameters of one machine (R5), and the free
values: what the spec leaves unspecified, as constants without a body. -/

namespace Sys2Proof

namespace Config

/-- Window size (R3). -/
abbrev N : Nat := 4096
/-- Lookahead and key length (R3). -/
abbrev F : Nat := 60
/-- Match-length threshold (R3). -/
abbrev THRESHOLD : Nat := 2
/-- LZW code width (R3). -/
abbrev W : Nat := 12
/-- Frequency at which the next update rescales (R3). -/
abbrev MAX_FREQ : Nat := 0x8000
/-- Reset value of `OPT.FILL` (R3). -/
abbrev FILL_RESET : Nat := 0x20
/-- Reset value of `MAX_EXPANDED` (R3). -/
abbrev MAXEXP_RESET : Nat := 0x40000000
/-- Shortest match emitted as a match (R4). -/
abbrev MIN_MATCH : Nat := 2
/-- Longest match emitted (R4; 90_conflicts.md C1). -/
abbrev MAX_MATCH : Nat := 59
/-- End-of-stream symbol (R4). -/
abbrev EOS : Nat := 314
/-- Huffman leaves (R4). -/
abbrev N_CHAR : Nat := 315
/-- Huffman slots (R4). -/
abbrev T : Nat := 629
/-- The slot of the Huffman root (R4). -/
abbrev ROOT : Slot := 628
/-- LZW reset code (R4). -/
abbrev CLEAR : Nat := 256
/-- LZW end code (R4). -/
abbrev STOP : Nat := 257
/-- First LZW code given to a new entry (R4). -/
abbrev FIRST_FREE : Nat := 258
/-- LZW table capacity (R4). -/
abbrev DICT_SIZE : Nat := 4096

/-- The IN byte at an address the host has not written since power-on (R411, 93_implementation_defined.md I17):
a free value, given by the number of power-ons and the address. No property may depend on it (log 4). -/
opaque inUnspecified : Nat → Nat → Byte

/-- The OUT byte a host read finds at an address at or above `OUT_LEN` (R81, 93_implementation_defined.md I3):
a free value, given by how often the OUT bytes have become unspecified and the address (log 5). -/
opaque outUnspecified : Nat → Nat → Byte

/-- Which of several matching entries `Lookup` returns (R341 says "a k"): a free value, given by a counter in the
state (log 8). -/
opaque lookupPick : Nat → Nat

/-- `String(k)` for a code outside the domain R342 states: a free value, first byte and rest, given by a counter in
the state (log 9). -/
opaque unstatedString : Nat → Byte × List Byte

end Config

/-- Which node replaces a deleted node with two children (R5, R221). -/
inductive DelMode where
  | succ
  | pred
deriving DecidableEq, Repr

/-- The parameters of one machine (R5): no source fixes them, no step changes them (log 1). R5 and R93 say "platform
addresses" and give them no width: a base is any natural number, and a region runs up from it without wrapping to address 0
(DESIGN CHOICE, log 27). -/
structure Params where
  /-- `IN_CAP`, 1 to 2^32 − 1 (R80). -/
  inCap : Word
  /-- `OUT_CAP`, 1 to 2^32 − 1 (R81). -/
  outCap : Word
  /-- `REG_BASE` (R93). -/
  regBase : Nat
  /-- `IN_BASE` (R93). -/
  inBase : Nat
  /-- `OUT_BASE` (R93). -/
  outBase : Nat
  /-- `DEL_MODE` (R221). -/
  delMode : DelMode
deriving DecidableEq, Repr

namespace Params

/-- Two regions given by base and size have no common address. -/
abbrev apart (base size base' size' : Nat) : Prop := base + size ≤ base' ∨ base' + size' ≤ base

/-- The ranges of R5 and "the regions do not overlap" of R93. -/
abbrev Legal (p : Params) : Prop :=
  1 ≤ p.inCap.toNat ∧ 1 ≤ p.outCap.toNat ∧
  apart p.regBase 256 p.inBase p.inCap.toNat ∧
  apart p.regBase 256 p.outBase p.outCap.toNat ∧
  apart p.inBase p.inCap.toNat p.outBase p.outCap.toNat

/-- DESIGN CHOICE (log 1): the parameters State.reset has. The spec gives no default but for `DEL_MODE`. -/
def standard : Params where
  inCap := 0x100000
  outCap := 0x100000
  regBase := 0
  inBase := 0x100000
  outBase := 0x200000
  delMode := .succ

end Params

end Sys2Proof
end

