-- ==== Sys2Proof/Machine/Memory.lean ====
section
/-! DEFINITION. A byte memory (20_memory.md R80, R81): the bytes that have been written, as a list of cells with
strictly rising addresses. An address that is not listed has not been written and holds no value of its own. -/

namespace Sys2Proof.Machine

/-- The written bytes of a memory, addresses strictly rising. -/
abbrev Memory := List Host.Cell

namespace Memory

/-- Every listed address is above `a`, in strictly rising order. -/
def risingFrom : Option Nat → Memory → Bool
  | _, [] => true
  | low, c :: m => (match low with | none => true | some a => decide (a < c.1)) && risingFrom (some c.1) m

/-- The canonical form: addresses strictly rising. What an unlisted address reads as is "nothing written", so every
listed byte differs from it. -/
def wf (m : Memory) : Bool := risingFrom none m

/-- The byte written last at an address, if one has been. -/
def read (m : Memory) (a : Nat) : Option Byte :=
  match m with
  | [] => none
  | c :: m => if a = c.1 then some c.2 else if a < c.1 then none else read m a

/-- The memory after byte `v` is written at address `a`. -/
def write (m : Memory) (a : Nat) (v : Byte) : Memory :=
  match m with
  | [] => [(a, v)]
  | c :: m =>
    if a < c.1 then (a, v) :: c :: m
    else if a = c.1 then (a, v) :: m
    else c :: write m a v

/-- Byte `i` of a 32-bit value, bits `8i+7..8i` (R84, R88). -/
def byteOf (v : Word) (i : Nat) : Byte := v.extractLsb' (8 * i) 8

/-- The memory after the low bytes `i` to `i+n−1` of `v` are written from address `a + i` on, little-endian (R84). -/
def writeBytes (m : Memory) (a : Nat) (v : Word) (i : Nat) : Nat → Memory
  | 0 => m
  | n + 1 => writeBytes (m.write (a + i) (byteOf v i)) a v (i + 1) n

/-- `Σ byte(i)·2^(8i)` for `i < n`, as a 32-bit value (R84). -/
def joinBytes (byte : Nat → Byte) : Nat → Word
  | 0 => 0
  | n + 1 => joinBytes byte n ||| ((byte n).setWidth 32 <<< (8 * n))

end Memory

end Sys2Proof.Machine
end

