-- ==== Sys2Proof/Table.lean ====
section
/-! DEFINITION. A fixed-size array of the block's engine memories: exactly `n` cells, one shape for each `n`, read
and written by an index below `n`. It is plain data (a balanced binary tree of cells with a check of its shape), so
that two states can be compared and a read costs few steps; `Laws/Table.lean` shows it is an array. -/

namespace Sys2Proof

/-- The cells of an array: even indices in one half, odd indices in the other. -/
inductive Cells (α : Type) where
  | none
  | one (a : α)
  | two (even odd : Cells α)
deriving DecidableEq, Repr

namespace Cells

variable {α : Type}

/-- The one shape an array of `n` cells has. -/
def shaped : Cells α → Nat → Bool
  | .none, n => n == 0
  | .one _, n => n == 1
  | .two e o, n => decide (2 ≤ n) && (e.shaped ((n + 1) / 2) && o.shaped (n / 2))

def get? : Cells α → Nat → Option α
  | .none, _ => Option.none
  | .one a, _ => some a
  | .two e o, i => bif i % 2 == 0 then e.get? (i / 2) else o.get? (i / 2)

def set : Cells α → Nat → α → Cells α
  | .none, _, _ => .none
  | .one _, _, b => .one b
  | .two e o, i, b => bif i % 2 == 0 then .two (e.set (i / 2) b) o else .two e (o.set (i / 2) b)

/-- `n` cells, cell `i` holding `f i`; the first number bounds the depth. -/
def build : Nat → Nat → (Nat → α) → Cells α
  | 0, _, _ => .none
  | d + 1, n, f =>
    if n = 0 then .none
    else if n = 1 then .one (f 0)
    else .two (build d ((n + 1) / 2) fun i => f (2 * i)) (build d (n / 2) fun i => f (2 * i + 1))

theorem get?_isSome {c : Cells α} {n i : Nat} (hs : c.shaped n = true) (hi : i < n) :
    (c.get? i).isSome = true := by
  induction c generalizing n i with
  | none => simp [shaped] at hs; omega
  | one a => simp [get?]
  | two e o ihe iho =>
    simp only [shaped, Bool.and_eq_true] at hs
    simp only [get?, cond_eq_ite, beq_iff_eq]
    split
    · exact ihe hs.2.1 (by omega)
    · exact iho hs.2.2 (by omega)

theorem set_shaped {c : Cells α} {n i : Nat} {a : α} (hs : c.shaped n = true) :
    (c.set i a).shaped n = true := by
  induction c generalizing n i with
  | none => simpa [set] using hs
  | one b => simpa [set, shaped] using hs
  | two e o ihe iho =>
    simp only [shaped, Bool.and_eq_true] at hs
    simp only [set, cond_eq_ite, beq_iff_eq]
    split <;> simp only [shaped, Bool.and_eq_true]
    · exact ⟨hs.1, ihe hs.2.1, hs.2.2⟩
    · exact ⟨hs.1, hs.2.1, iho hs.2.2⟩

theorem build_shaped {f : Nat → α} {d n : Nat} (h : n ≤ d) : (build d n f).shaped n = true := by
  induction d generalizing n f with
  | zero => simp [build, shaped]; omega
  | succ d ih =>
    simp only [build]
    split
    · simp [shaped, *]
    · split
      · simp [shaped, *]
      · simp only [shaped, Bool.and_eq_true, decide_eq_true_eq]
        exact ⟨by omega, ih (by omega), ih (by omega)⟩

end Cells

/-- An array of `n` cells. -/
structure Table (α : Type) (n : Nat) where
  cells : Cells α
  shape : cells.shaped n = true
deriving DecidableEq, Repr

namespace Table

variable {α : Type} {n : Nat}

/-- `A[i]` (R7). -/
def get (t : Table α n) (i : Fin n) : α :=
  (t.cells.get? i.val).get (Cells.get?_isSome t.shape i.isLt)

/-- `A[i] <- v` (R7). -/
def set (t : Table α n) (i : Fin n) (a : α) : Table α n :=
  ⟨t.cells.set i.val a, Cells.set_shaped t.shape⟩

/-- The array whose cell `i` holds `f i`. -/
def tabulate (n : Nat) (f : Nat → α) : Table α n :=
  ⟨Cells.build n n f, Cells.build_shaped (Nat.le_refl n)⟩

end Table

end Sys2Proof
end

