-- ==== Sys2Proof/Machine/Engines.lean ====
section
/-! DEFINITION. The state of the block's engines as plain data (10_state.md §4): one structure for each engine. -/

namespace Sys2Proof.Machine

/-- A node that can have children in the match index: `POS(p)` or `ROOTN(c)` (R55, R210). A link of `DAD` is
`Option Node`, `NIL` being `none`; a link of `LSON`, `RSON`, `ROOT` is `Option Pos`. -/
inductive Node where
  | pos (p : Pos)
  | rootn (c : Byte)
deriving DecidableEq, Repr

/-- The sliding window, the match index and the match result (R54 to R56). -/
structure Window where
  /-- `WIN[0..N−1]`. -/
  win : Table Byte 4096
  /-- `DAD[p]`. -/
  dad : Table (Option Node) 4096
  /-- `LSON[p]`. -/
  lson : Table (Option Pos) 4096
  /-- `RSON[p]`. -/
  rson : Table (Option Pos) 4096
  /-- `ROOT[c]`. -/
  root : Table (Option Pos) 256
  /-- `ML`, 0..60. -/
  ml : BitVec 6
  /-- `MP`. -/
  mp : BitVec 12
deriving DecidableEq, Repr

/-- What `SON[s]` holds (R58): `leaf y` is the number `T + y`; `node s` is the slot `s` of an internal node's 0-child,
whose 1-child is slot `s + 1`, so that `s` is at most `T − 2` (log 13). -/
inductive Son where
  | leaf (y : Sym)
  | node (s : Fin 628)
deriving DecidableEq, Repr

/-- The number the spec gives a `SON` value (R58, R250). -/
def Son.toNat : Son → Nat
  | .leaf y => 629 + y.val
  | .node s => s.val

/-- The adaptive Huffman tree (R57, R58). -/
structure HufTree where
  /-- `FREQ[s]`. -/
  freq : Table Freq 629
  /-- `SON[s]`. -/
  son : Table Son 629
  /-- `PARENT[s]`. -/
  parent : Table Slot 629
  /-- `LEAF[y]`. -/
  leaf : Table Slot 315
deriving DecidableEq, Repr

/-- The LZW unit (R59). -/
structure Lzw where
  /-- `DICT_P[k]`, entry `k` at index `k − 258`. -/
  dictP : Table Code 3838
  /-- `DICT_C[k]`, entry `k` at index `k − 258`. -/
  dictC : Table Byte 3838
  /-- `NEXT`, 258..4096. -/
  next : Nat
  /-- `PREFIX`. -/
  pfx : Option Code
  /-- `STARTED`. -/
  started : Bool
  /-- `PREV`. -/
  prev : Option Code
  /-- `LZW_DONE`, bit 9 of `STATUS`. -/
  done : Bool
  /-- `LZW_OUTCNT`. -/
  outCnt : Word
  /-- The model's own: how many open choices the unit has met, the argument of its free values (log 8, log 9). -/
  freeTick : Nat
deriving DecidableEq, Repr

/-- The bit reader's cursor (R53). -/
structure Reader where
  /-- `RD_POS`, as an unbounded number (R53 allows it; log 7). -/
  pos : Nat
  /-- `RDOVR`, bit 8 of `STATUS`. -/
  ovr : Bool
deriving DecidableEq, Repr

/-- The input side: the IN memory (R80) and `IN_LEN` (R38). -/
structure Input where
  /-- The IN bytes the host has written since power-on. -/
  mem : Memory
  /-- `IN_LEN`. -/
  len : Word
  /-- The model's own: the number of power-ons, the argument of the free value an unwritten IN byte has (log 4). -/
  powerOns : Nat
deriving DecidableEq, Repr

/-- The output side: the OUT memory (R81), `OUT_LEN` (R42) and the bit writer's accumulator (R53). -/
structure Output where
  /-- The OUT bytes the block has written. -/
  mem : Memory
  /-- `OUT_LEN`. -/
  len : Word
  /-- `ACC`. -/
  acc : Byte
  /-- `ACC_N`, 0..7. -/
  accN : Fin 8
  /-- The model's own: how often the OUT bytes have become unspecified, the argument of the free value a host read
  finds at or above `OUT_LEN` (log 5). -/
  epoch : Nat
deriving DecidableEq, Repr

/-- One access or event of the host (R84, R89, R93, R410): what the world outside can do to the block. -/
inductive HostEvent where
  /-- A read of `width` bytes at a platform address. -/
  | read (addr width : Nat)
  /-- A write of the low `width` bytes of `data` at a platform address. -/
  | write (addr width : Nat) (data : Word)
  /-- A power-on reset. -/
  | powerOn
deriving DecidableEq, Repr

end Sys2Proof.Machine
end

