-- ==== Sys2Proof/Machine/Init.lean ====
section
/-! DEFINITION. The contents the `*_INIT` commands and reset give the engines: the initial window (42_window.md
R230), the initial Huffman tree (43_huffman.md R251) and the initial LZW state (45_lzw.md R345). -/

namespace Sys2Proof.Machine

/-- `WinInit` (R230): every byte the fill byte, every link `NIL`, no match. -/
def Window.initial (fill : Byte) : Window where
  win := .tabulate 4096 fun _ => fill
  dad := .tabulate 4096 fun _ => none
  lson := .tabulate 4096 fun _ => none
  rson := .tabulate 4096 fun _ => none
  root := .tabulate 256 fun _ => none
  ml := 0
  mp := 0

namespace HufTree

/-- `FREQ[j]` of R251: 1 for a leaf, else the sum of the two slots `2(j − 315)`, `2(j − 315) + 1` its pass of the
loop joins; the first number bounds the depth. -/
def initialFreq : Nat → Nat → Nat
  | 0, _ => 1
  | d + 1, j =>
    if j < 315 then 1 else initialFreq d (2 * (j - 315)) + initialFreq d (2 * (j - 315) + 1)

/-- `HufInit` (R251). The loop of R251 joins slots `i = 2(j − 315)` and `i + 1` under slot `j`, for `j = 315..628`;
this is the array contents it leaves. -/
def initial : HufTree where
  freq := .tabulate 629 fun j => BitVec.ofNat 16 (initialFreq 12 j)
  son := .tabulate 629 fun j => if j < 315 then .leaf (Fin.ofNat 315 j) else .node (Fin.ofNat 628 (2 * (j - 315)))
  parent := .tabulate 629 fun s => if s < 628 then Fin.ofNat 629 (315 + s / 2) else 0
  leaf := .tabulate 315 fun y => Fin.ofNat 629 y

end HufTree

namespace Lzw

/-- The body of `LZW_INIT` (R345), `ResetTable()` of R340 included: `DICT_P`, `DICT_C` keep what they hold. -/
def init (l : Lzw) : Lzw :=
  { l with next := 258, pfx := none, started := false, prev := none, done := false, outCnt := 0 }

/-- The LZW unit after power-on (R59, R410). DESIGN CHOICE (log 6): `DICT_P`, `DICT_C` hold 0. -/
def initial : Lzw where
  dictP := .tabulate 3838 fun _ => 0
  dictC := .tabulate 3838 fun _ => 0
  next := 258
  pfx := none
  started := false
  prev := none
  done := false
  outCnt := 0
  freeTick := 0

end Lzw

end Sys2Proof.Machine
end

