-- ==== Sys2Proof/Machine/State.lean ====
section
/-! DEFINITION. The whole state of the block (10_state.md, 20_memory.md), the reasons a step can stop, and the state
after reset (70_reset_and_hazards.md R410). -/

namespace Sys2Proof.Machine

/-- Everything the spec gives the machine, and the host's pending accesses. -/
structure State where
  /-- The parameters of this machine (R5); no step changes them. -/
  params : Params
  /-- `STATUS.ERR` (R48). -/
  err : Byte
  /-- `RES0` (R47). -/
  res0 : Word
  /-- `RES1` (R47). -/
  res1 : Word
  /-- `OPT` (R36). -/
  opt : Word
  /-- `IN_OFFSET` (R39). -/
  inOffset : Word
  /-- `OUT_OFFSET` (R40). -/
  outOffset : Word
  /-- `MAX_EXPANDED` (R41). -/
  maxExpanded : Word
  /-- The IN memory and `IN_LEN` (R80, R38). -/
  inp : Input
  /-- `RD_POS` and `RDOVR` (R53). -/
  rd : Reader
  /-- The OUT memory, `OUT_LEN`, `ACC`, `ACC_N` (R81, R42, R53). -/
  out : Output
  /-- The window and the match index (R54 to R56). -/
  win : Window
  /-- The Huffman tree (R57, R58). -/
  huf : HufTree
  /-- The LZW unit (R59). -/
  lzw : Lzw
  /-- `R` (R60). -/
  r : Pos
  /-- The host's accesses that have not happened yet, the next one first (R90; log 2). -/
  host : List HostEvent
  /-- What the host's last read returned (log 3). -/
  hostData : Option Word
deriving DecidableEq, Repr

/-- Why the machine stops with no next state. None is an error of the spec (R380): those are next states. Each stands
for engine contents with which the spec's pseudocode has no next action or never ends, and which no run from reset
reaches. -/
inductive Fault where
  /-- Raised by `WIN_INSERT`, `WIN_DELETE`, `WIN_FIND` and `LZH_COMPRESS`: a walk over `DAD`, `LSON`, `RSON`, `ROOT`
  meets a link that leads nowhere, or does not end within `N` nodes. Safe: the model stops (log 10). -/
  | brokenIndex
  /-- Raised by `HUF_ENC`, `HUF_DEC`, `HUF_UPD` and the LZSS codec: a walk over `PARENT` or `SON` does not end within
  `T` slots. Safe: the model stops (log 10). -/
  | brokenTree
  /-- Raised by `HUF_DECPOS` and the codec commands: a loop passes the bound the spec derives for it. Safe: the model
  stops (log 10). -/
  | endlessLoop
deriving DecidableEq, Repr

/-- Why the model refuses a step. -/
inductive Refusal where
  /-- Raised by `exec` for a command that has no meaning yet. Safe: the model stops. -/
  | notModelled (mnemonic : String)
  /-- Raised by a host access to the register window that is not an aligned 32-bit access (R89, I5: "the model
  refuses it"). Safe: the model stops (log 11). -/
  | registerAccess
  /-- Raised by a host access to the IN or OUT memory that leaves the memory or is not 1, 2 or 4 bytes wide (R84, I4:
  "the model refuses it"). Safe: the model stops (log 11). -/
  | memoryAccess
  /-- Raised by a host access at a platform address in none of the three regions of R93: not an access to the block.
  Safe: the model stops (log 12). -/
  | notThisBlock
deriving DecidableEq, Repr

/-- One step's answer. -/
abbrev Answer := Host.Outcome State Fault Refusal

/-- The state after power-on with parameters `p` (R410, R411): IN and OUT list nothing. -/
def State.resetWith (p : Params) : State where
  params := p
  err := 0
  res0 := 0
  res1 := 0
  opt := 0x00002003
  inOffset := 0
  outOffset := 0
  maxExpanded := 0x40000000
  inp := { mem := [], len := 0, powerOns := 0 }
  rd := { pos := 0, ovr := false }
  out := { mem := [], len := 0, acc := 0, accN := 0, epoch := 0 }
  win := .initial 0x20
  huf := .initial
  lzw := .initial
  r := 4036
  host := []
  hostData := none

/-- The state after power-on (R410), with the parameters of log 1. -/
def State.reset : State := State.resetWith Params.standard

end Sys2Proof.Machine
end

