-- ==== Sys2Proof/Machine/Ops.lean ====
section
/-! DEFINITION. The operations every command is built from: errors and the error entry (60_exceptions.md R380, R384),
leaving the error state (40_control.md R162), reset (70_reset_and_hazards.md R410), memory reads and writes (20_memory.md
R80, R81) and the bit-stream primitives (41_bitio.md R180 to R184). -/

namespace Sys2Proof.Machine

/-- The errors of R380. -/
inductive ErrCode where
  | badHeader
  | alreadyInForm
  | invalidData
  | invalidCode
  | sizeExceeded
  | unexpectedEof
  | io
  | illegalCommand
deriving DecidableEq, Repr

/-- The number of an error (R380). -/
def ErrCode.code : ErrCode → Byte
  | .badHeader => 1
  | .alreadyInForm => 2
  | .invalidData => 3
  | .invalidCode => 4
  | .sizeExceeded => 5
  | .unexpectedEof => 6
  | .io => 7
  | .illegalCommand => 8

/-- Why a procedure ends before its last line. -/
inductive Stop where
  /-- `raise E(info)` (R7, R384). -/
  | raise (e : ErrCode)
  /-- The pseudocode has no next action, or never ends (log 10). -/
  | stuck (why : Fault)
deriving DecidableEq, Repr

/-- A procedure over some state: it returns a value or stops, and what it wrote before stopping stays written (R8). -/
abbrev Engine (σ α : Type) := EStateM Stop σ α

/-- `raise E(info)` (R7). -/
def raise {σ α : Type} (e : ErrCode) : Engine σ α := throw (.raise e)

/-- `if c: raise E(info)`. -/
def raiseIf {σ : Type} (c : Prop) [Decidable c] (e : ErrCode) : Engine σ Unit :=
  if c then raise e else pure ()

/-- `if c: m`. -/
def doIf {σ : Type} (c : Prop) [Decidable c] (m : Engine σ Unit) : Engine σ Unit := if c then m else pure ()

/-- A value that is there, or the named stuck state. -/
def orStuck {σ α : Type} (why : Fault) : Option α → Engine σ α
  | some a => pure a
  | none => throw (.stuck why)

/-- `ErrorEntry(E)` (R384): the first error is kept, the output buffer is discarded, everything else stays. -/
def errorEntry (e : ErrCode) (s : State) : State :=
  { s with
    err := if s.err = 0 then e.code else s.err
    out := { s.out with len := 0, acc := 0, accN := 0, epoch := s.out.epoch + 1 } }

/-- The return from the error state (R162, R387): `STATUS.ERR <- 0` and nothing else. -/
def clearError (s : State) : State := { s with err := 0 }

/-- Run a command's procedure: a raise is the error entry (R160), a stuck procedure the model's fault. -/
def runProcedure (m : Engine State Unit) (s : State) : Answer :=
  match m s with
  | .ok _ s' => .next s'
  | .error (.raise e) s' => .next (errorEntry e s')
  | .error (.stuck why) _ => .fault why

/-- A command other than `NOP`, `RESET`, `CLRERR` (R160): ignored while `ERR ≠ 0`, else its procedure runs. -/
def command (m : Engine State Unit) (s : State) : Answer :=
  if s.err = 0 then runProcedure m s else .next s

/-- The two kinds of reset (R410). -/
inductive ResetKind where
  | power
  | command
deriving DecidableEq, Repr

/-- The IN memory across a reset (R411): kept by `RESET`, unspecified after power-on. -/
def Input.reset (kind : ResetKind) (i : Input) : Input :=
  match kind with
  | .command => { i with len := 0 }
  | .power => { mem := [], len := 0, powerOns := i.powerOns + 1 }

/-- The output side across a reset (R410, R411): no valid byte, the OUT bytes unspecified after either kind. -/
def Output.reset (kind : ResetKind) (o : Output) : Output :=
  match kind with
  | .command => { o with len := 0, acc := 0, accN := 0, epoch := o.epoch + 1 }
  | .power => { mem := [], len := 0, acc := 0, accN := 0, epoch := o.epoch + 1 }

/-- `Reset(kind)` (R410): every register and engine element takes its reset value. The parameters and the host's side
are not the block's. -/
def resetBlock (kind : ResetKind) (s : State) : State :=
  { params := s.params
    err := 0
    res0 := 0
    res1 := 0
    opt := 0x00002003
    inOffset := 0
    outOffset := 0
    maxExpanded := 0x40000000
    inp := s.inp.reset kind
    rd := { pos := 0, ovr := false }
    out := s.out.reset kind
    win := .initial 0x20
    huf := .initial
    lzw := s.lzw.init
    r := 4036
    host := s.host
    hostData := s.hostData }

/-- `RES0 <- v`. -/
def setRes0 (v : Word) : Engine State Unit := modify fun s => { s with res0 := v }

/-- `RES1 <- v`. -/
def setRes1 (v : Word) : Engine State Unit := modify fun s => { s with res1 := v }

/-! ### Memory -/

/-- `MemRead(a, 1)` (R7, R80): the IN byte the host wrote last at `a`, or the free value of a byte it has not written
since power-on (R411; log 4). -/
def Input.byte (i : Input) (a : Nat) : Byte :=
  match i.mem.read a with
  | some v => v
  | none => Config.inUnspecified i.powerOns a

/-- The OUT byte a host read finds at `a` (R81): the byte the block wrote there when `a` is below `OUT_LEN`, else the
free value of log 5. -/
def Output.byte (o : Output) (a : Nat) : Byte :=
  match if a < o.len.toNat then o.mem.read a else none with
  | some v => v
  | none => Config.outUnspecified o.epoch a

/-! ### Bits of a number, most significant first (R86) -/

/-- The `n` low bits of `v`, `v[n−1]` first. -/
def bitsOf (n v : Nat) : List Bool :=
  match n with
  | 0 => []
  | k + 1 => v.testBit k :: bitsOf k v

/-- The number a bit adds below an `n`-bit value read so far: `(v << 1) | bit` (R183). -/
def pushBit (v : Nat) (b : Bool) : Nat := 2 * v + (if b then 1 else 0)

/-! ### Bit reader -/

namespace Reader

/-- `GetBit()` (R180). -/
def getBit (i : Input) (r : Reader) : Bool × Reader :=
  if r.pos / 8 < i.len.toNat then
    ((i.byte (r.pos / 8)).getLsbD (7 - r.pos % 8), { r with pos := r.pos + 1 })
  else
    (false, { pos := r.pos + 1, ovr := true })

/-- The loop of `GetBits(n)` (R183) from the value `v` read so far. -/
def getBitsFrom (i : Input) (n v : Nat) (r : Reader) : Nat × Reader :=
  match n with
  | 0 => (v, r)
  | k + 1 => getBitsFrom i k (pushBit v (r.getBit i).1) (r.getBit i).2

/-- `GetBits(n)` (R183): the first bit read is the most significant. -/
def getBits (i : Input) (n : Nat) (r : Reader) : Nat × Reader := getBitsFrom i n 0 r

end Reader

/-- Read bits in a command: the reader's cursor moves, nothing else changes (R191). -/
def reading {α : Type} (f : Input → Reader → α × Reader) : Engine State α :=
  fun s => .ok (f s.inp s.rd).1 { s with rd := (f s.inp s.rd).2 }

/-- `GetBits(n)` in a command. -/
def getBits (n : Nat) : Engine State Nat := reading fun i r => r.getBits i n

/-! ### Bit writer; `cap` is `OUT_CAP` -/

namespace Output

/-- `OutByte(v)` (R182). -/
def outByte (cap : Word) (v : Byte) : Engine Output Unit := fun o =>
  if o.len = cap then .error (.raise .sizeExceeded) o
  else .ok () { o with mem := o.mem.write o.len.toNat v, len := o.len + 1 }

/-- `PutBit(b)` (R181). -/
def putBit (cap : Word) (b : Bool) : Engine Output Unit := do
  let o ← get
  let acc := (o.acc <<< 1) ||| (if b then 1 else 0)
  if o.accN = 7 then
    outByte cap acc
    modify fun o => { o with acc := 0, accN := 0 }
  else
    set { o with acc := acc, accN := o.accN + 1 }

/-- `for b in bits: PutBit(b)`. -/
def putAll (cap : Word) : List Bool → Engine Output Unit
  | [] => pure ()
  | b :: bits => do
    putBit cap b
    putAll cap bits

/-- `Flush()` (R183): the padded byte, if any bit is waiting. -/
def flush (cap : Word) : Engine Output Unit := do
  let o ← get
  if o.accN = 0 then pure ()
  else
    outByte cap (o.acc <<< (8 - o.accN.val))
    modify fun o => { o with acc := 0, accN := 0 }

end Output

/-- Write in a command: the output side changes, nothing else (R191). -/
def writing {α : Type} (f : Word → Engine Output α) : Engine State α := fun s =>
  match f s.params.outCap s.out with
  | .ok a o => .ok a { s with out := o }
  | .error e o => .error e { s with out := o }

/-- `OutByte(v)` in a command. -/
def outByte (v : Byte) : Engine State Unit := writing fun cap => Output.outByte cap v

/-- `for b in bits: PutBit(b)` in a command. -/
def putAll (bits : List Bool) : Engine State Unit := writing fun cap => Output.putAll cap bits

/-- `PutBits(n, v)` (R183) in a command: `v[n−1]` first, `v[0]` last. -/
def putBits (n v : Nat) : Engine State Unit := putAll (bitsOf n v)

/-- `Flush()` in a command. -/
def flush : Engine State Unit := writing Output.flush

/-- `BitInit`, the body of `BIT_INIT` (R184). The OUT bytes become unspecified to the host (log 5). -/
def bitInit : Engine State Unit := modify fun s =>
  { s with
    rd := { pos := 8 * s.inOffset.toNat, ovr := false }
    out := { s.out with len := 0, acc := 0, accN := 0, epoch := s.out.epoch + 1 } }

end Sys2Proof.Machine
end

