-- ==== Sys2Proof/Machine/Operands.lean ====
section
/-! DEFINITION. The operand forms of the commands with their range checks (30_encoding.md R112, R113): an operand out
of range raises `IllegalCommand` (R116). -/

namespace Sys2Proof.Machine

/-- An operand as an index below `k`, or `IllegalCommand`. -/
def indexBelow {σ : Type} (k : Nat) (x : BitVec 16) : Engine σ (Fin k) :=
  if h : x.toNat < k then pure ⟨x.toNat, h⟩ else raise .illegalCommand

/-- `n`, a bit count 0..16. -/
def bitCount {σ : Type} (n : BitVec 5) : Engine σ Nat :=
  if n.toNat ≤ 16 then pure n.toNat else raise .illegalCommand

/-- `x` as a window position 0..4095. -/
def position (x : BitVec 16) : Engine State Pos := indexBelow 4096 x

/-- `x` as a symbol 0..314. -/
def symbol (x : BitVec 16) : Engine State Sym := indexBelow 315 x

/-- `x` as a distance 0..4095. -/
def distanceOperand (x : BitVec 16) : Engine State (Fin 4096) := indexBelow 4096 x

/-- `x` as a Huffman slot 0..628. -/
def slotOperand (x : BitVec 16) : Engine State Slot := indexBelow 629 x

end Sys2Proof.Machine
end

