-- ==== Sys2Proof/Machine/BitIo.lean ====
section
/-! DEFINITION. The bit engine commands (41_bitio.md R184 to R190). -/

namespace Sys2Proof.Machine

/-- `BIT_INIT` (R184). -/
def execBitInit (s : State) : Answer := command bitInit s

/-- The procedure of `BIT_GET n` (R185). -/
def bitGetProc (n : BitVec 5) : Engine State Unit := do
  let k ← bitCount n
  let v ← getBits k
  setRes0 (BitVec.ofNat 32 v)

/-- `BIT_GET n` (R185). -/
def execBitGet (n : BitVec 5) (s : State) : Answer := command (bitGetProc n) s

/-- The procedure of `BIT_PUT n, v` (R186): bits `v[15:n]` are ignored. -/
def bitPutProc (n : BitVec 5) (v : BitVec 16) : Engine State Unit := do
  let k ← bitCount n
  putBits k v.toNat

/-- `BIT_PUT n, v` (R186). -/
def execBitPut (n : BitVec 5) (v : BitVec 16) (s : State) : Answer := command (bitPutProc n v) s

/-- The procedure of `BIT_GETBYTE` (R187): no alignment. -/
def bitGetByteProc : Engine State Unit := do
  let v ← getBits 8
  setRes0 (BitVec.ofNat 32 v)

/-- `BIT_GETBYTE` (R187). -/
def execBitGetByte (s : State) : Answer := command bitGetByteProc s

/-- `BIT_PUTBYTE b` (R188): no alignment. -/
def execBitPutByte (b : Byte) (s : State) : Answer := command (putBits 8 b.toNat) s

/-- The procedure of `BIT_COUNT` (R189): the two halves of `RD_POS`. -/
def bitCountProc : Engine State Unit := modify fun s =>
  { s with res0 := BitVec.ofNat 32 s.rd.pos, res1 := BitVec.ofNat 32 (s.rd.pos / 2 ^ 32) }

/-- `BIT_COUNT` (R189). -/
def execBitCount (s : State) : Answer := command bitCountProc s

/-- `BIT_FLUSH` (R190). -/
def execBitFlush (s : State) : Answer := command flush s

end Sys2Proof.Machine
end

