-- ==== Sys2Proof/Machine/Control.lean ====
section
/-! DEFINITION. The control commands (40_control.md R161 to R163). They run whatever `ERR` is (R160). -/

namespace Sys2Proof.Machine

/-- `NOP` (R161): nothing. -/
def execNop (s : State) : Answer := .next s

/-- `RESET` (R163): the reset of R410 with `kind = COMMAND`. -/
def execReset (s : State) : Answer := .next (resetBlock .command s)

/-- `CLRERR` (R162): `STATUS.ERR <- 0`. -/
def execClrerr (s : State) : Answer := .next (clearError s)

end Sys2Proof.Machine
end

