-- ==== Sys2Proof/Machine/Flags.lean ====
section
/-! DEFINITION. The fields of `STATUS` (10_state.md R35, R48 to R52) and of `OPT` (R36). -/

namespace Sys2Proof.Machine

namespace State

/-- `OPT.HDR`: 1 is `Lzhuf`, 0 is `None` (R36). -/
def hdr (s : State) : Bool := s.opt.getLsbD 0

/-- `OPT.LZW_STOP` (R36). -/
def lzwStop (s : State) : Bool := s.opt.getLsbD 1

/-- `OPT.LZW_CLRFULL` (R36). -/
def lzwClrFull (s : State) : Bool := s.opt.getLsbD 2

/-- `OPT.FILL` (R36, R213). -/
def fill (s : State) : Byte := s.opt.extractLsb' 8 8

/-- `STATUS.LZW_FULL` (R51): a view of `NEXT`, not a stored bit. -/
def lzwFull (s : State) : Bool := decide (s.lzw.next = 4096)

/-- `STATUS.BUSY` (R52): a command completes before the host's next access, so a read finds 0 (log 17). -/
def busy (_ : State) : Bool := false

/-- `STATUS` (R35). -/
def status (s : State) : Word :=
  BitVec.ofBool s.busy ++ 0#20 ++ BitVec.ofBool s.lzwFull ++ BitVec.ofBool s.lzw.done ++ BitVec.ofBool s.rd.ovr ++ s.err

end State

/-- The bits of `OPT` that a write changes (R33, R36); the reserved ones stay 0. -/
def optMask : Word := 0x0000FF07

end Sys2Proof.Machine
end

