-- ==== Sys2Proof/Machine/HuffmanOps.lean ====
section
/-! DEFINITION. The adaptive Huffman tree's procedures (43_huffman.md R250 to R258) and the distance code (30_encoding.md
R124, R128 to R130; 43_huffman.md R261, R262). A walk answers `none` only on contents that are not a tree, which no run
from reset reaches (log 10). -/

namespace Sys2Proof.Machine

/-- A slot number below `T` as a slot. -/
def slot (n : Nat) : Slot := Fin.ofNat 629 n

namespace HufTree

/-! ### Codewords -/

/-- The walk of `HufEncode` (R255) from slot `k` up to the root, prepending the branch bit `k mod 2`. -/
def climb (t : HufTree) (fuel : Nat) (k : Slot) (bits : List Bool) : Option (List Bool) :=
  match fuel with
  | 0 => none
  | n + 1 =>
    if t.parent.get k = 628 then some (decide (k.val % 2 = 1) :: bits)
    else climb t n (t.parent.get k) (decide (k.val % 2 = 1) :: bits)

/-- The codeword of symbol `y`, root end first (R127, R255). -/
def codeword (t : HufTree) (y : Sym) : Option (List Bool) := t.climb 629 (t.leaf.get y) []

/-- The walk of `HufDecode` (R256) from the `SON` value `c` down to a leaf. -/
def descend (t : HufTree) (i : Input) (fuel : Nat) (c : Son) (r : Reader) : Option (Sym × Reader) :=
  match c with
  | .leaf y => some (y, r)
  | .node s =>
    match fuel with
    | 0 => none
    | n + 1 =>
      descend t i n (t.son.get (if (r.getBit i).1 then s.succ else s.castSucc)) (r.getBit i).2

/-- `HufDecode()` (R256). -/
def decode (t : HufTree) (i : Input) (r : Reader) : Option (Sym × Reader) := t.descend i 629 (t.son.get 628) r

/-! ### Update -/

/-- `LinkParent(v, s)` (R254). -/
def linkParent (t : HufTree) (v : Son) (s : Slot) : HufTree :=
  match v with
  | .leaf y => { t with leaf := t.leaf.set y s }
  | .node c => { t with parent := (t.parent.set c.castSucc s).set c.succ s }

/-- "`while l + 1 <= ROOT and k > FREQ[l+1]: l <- l + 1`" (R254), with `n` slots above `l`. -/
def lastBelow (t : HufTree) (k : Nat) (n : Nat) : Slot :=
  match n with
  | 0 => 628
  | m + 1 => if (t.freq.get (slot (628 - m))).toNat < k then lastBelow t k m else slot (627 - m)

/-- The exchange of R254: slots `c` and `l` swap frequency and subtree; `k` is `FREQ[c]` before. -/
def exchange (t : HufTree) (c l : Slot) (k : Freq) : HufTree :=
  let t := { t with freq := (t.freq.set c (t.freq.get l)).set l k }
  let i := t.son.get c
  let t := t.linkParent i l
  let j := t.son.get l
  let t := { t with son := t.son.set l i }
  let t := t.linkParent j c
  { t with son := t.son.set c j }

/-- One pass of the loop of `HufUpdate` (R254) at slot `c`, up to its exit test: the slot the node is in then. -/
def bump (t : HufTree) (c : Slot) : HufTree × Slot :=
  let k := t.freq.get c + 1
  let t := { t with freq := t.freq.set c k }
  if c.val < 628 ∧ (t.freq.get (slot (c.val + 1))).toNat < k.toNat then
    let l := t.lastBelow k.toNat (628 - (c.val + 1))
    (t.exchange c l k, l)
  else (t, c)

/-- The loop of `HufUpdate` (R254) from slot `c` up to the root. -/
def bumpUp (fuel : Nat) (t : HufTree) (c : Slot) : Option HufTree :=
  match fuel with
  | 0 => none
  | n + 1 =>
    if (t.bump c).2 = 628 then some (t.bump c).1
    else bumpUp n (t.bump c).1 ((t.bump c).1.parent.get (t.bump c).2)

/-! ### Rescale -/

/-- `(f + 1) div 2` (R257). -/
def halve (f : Freq) : Freq := BitVec.ofNat 16 ((f.toNat + 1) / 2)

/-- The first loop of `Rescale` (R257), with `n` slots still to look at and `j` leaves moved down. -/
def gatherLeaves (n j : Nat) (t : HufTree) : HufTree :=
  match n with
  | 0 => t
  | m + 1 =>
    match t.son.get (slot (628 - m)) with
    | .leaf y =>
      gatherLeaves m (j + 1)
        { t with
          freq := t.freq.set (slot j) (halve (t.freq.get (slot (628 - m))))
          son := t.son.set (slot j) (.leaf y) }
    | .node _ => gatherLeaves m j t

/-- "`while f < FREQ[k]: k <- k − 1`" and "`k <- k + 1`" (R257). -/
def insertionSlot (t : HufTree) (f k : Nat) : Nat :=
  match k with
  | 0 => if f < (t.freq.get (slot 0)).toNat then 0 else 1
  | k + 1 => if f < (t.freq.get (slot (k + 1))).toNat then insertionSlot t f k else k + 2

/-- "`for m in j down to k+1: FREQ[m] <- FREQ[m−1]; SON[m] <- SON[m−1]`" (R257), for the `n` slots `k+1..k+n`. -/
def shiftUp (k n : Nat) (t : HufTree) : HufTree :=
  match n with
  | 0 => t
  | m + 1 =>
    shiftUp k m
      { t with
        freq := t.freq.set (slot (k + m + 1)) (t.freq.get (slot (k + m)))
        son := t.son.set (slot (k + m + 1)) (t.son.get (slot (k + m))) }

/-- One pass of the second loop of `Rescale` (R257): slot `j` gets the internal node over slots `i` and `i + 1`. -/
def joinPair (i j : Nat) (t : HufTree) : HufTree :=
  let f := (t.freq.get (slot i)).toNat + (t.freq.get (slot (i + 1))).toNat
  let k := t.insertionSlot f (j - 1)
  let t := t.shiftUp k (j - k)
  { t with
    freq := t.freq.set (slot k) (BitVec.ofNat 16 f)
    son := t.son.set (slot k) (.node (Fin.ofNat 628 i)) }

/-- The second loop of `Rescale` (R257) with `n` passes left: `j = 629 − n`, `i = 2(j − 315)`. -/
def joinPairs (n : Nat) (t : HufTree) : HufTree :=
  match n with
  | 0 => t
  | m + 1 => joinPairs m (t.joinPair (2 * (628 - m - 315)) (628 - m))

/-- "`for s in 0..T−1: LinkParent(SON[s], s)`" (R257), with `n` slots left. -/
def relinkAll (n : Nat) (t : HufTree) : HufTree :=
  match n with
  | 0 => t
  | m + 1 => relinkAll m (t.linkParent (t.son.get (slot (628 - m))) (slot (628 - m)))

/-- `Rescale()` (R257). -/
def rescale (t : HufTree) : HufTree := relinkAll 629 (joinPairs 314 (gatherLeaves 629 0 t))

/-- `HufUpdate(y)` (R254): rescale first when the root's frequency has reached `MAX_FREQ` (R258). -/
def update (t : HufTree) (y : Sym) : Option HufTree :=
  let t := if 0x8000 ≤ (t.freq.get 628).toNat then t.rescale else t
  bumpUp 629 t (t.leaf.get y)

end HufTree

/-- `HufInit` in a command. -/
def hufInit : Engine State Unit := modify fun s => { s with huf := .initial }

/-- `HufEncode(y)` (R255) in a command: the codeword goes out in full, the tree does not change. -/
def hufEncode (y : Sym) : Engine State Unit := do
  let s ← get
  let bits ← orStuck .brokenTree (s.huf.codeword y)
  putAll bits

/-- `HufDecode()` (R256) in a command: the reader moves, the tree does not change. -/
def hufDecode : Engine State Sym := fun s =>
  match s.huf.decode s.inp s.rd with
  | some (y, r) => .ok y { s with rd := r }
  | none => .error (.stuck .brokenTree) s

/-- `HufUpdate(y)` (R254) in a command. -/
def hufUpdate (y : Sym) : Engine State Unit := fun s =>
  match s.huf.update y with
  | some t => .ok () { s with huf := t }
  | none => .error (.stuck .brokenTree) s

/-! ### The distance code -/

/-- `p_len[u]` (R128). -/
def pLen (u : Nat) : Nat :=
  if u < 1 then 3 else if u < 4 then 4 else if u < 12 then 5 else if u < 24 then 6 else if u < 48 then 7 else 8

/-- `p_code[u]` (R129), the table's runs in closed form. -/
def pCode (u : Nat) : Nat :=
  if u < 1 then 0x00 else if u < 4 then 0x20 + 16 * (u - 1) else if u < 12 then 0x50 + 8 * (u - 4)
  else if u < 24 then 0x90 + 4 * (u - 12) else if u < 48 then 0xC0 + 2 * (u - 24) else 0xF0 + (u - 48)

/-- `d_code[i]` (R130). -/
def dCode (i : Nat) : Nat :=
  if i ≤ 0x1F then 0 else if i ≤ 0x4F then (i - 0x20) / 16 + 1 else if i ≤ 0x8F then (i - 0x50) / 8 + 4
  else if i ≤ 0xBF then (i - 0x90) / 4 + 12 else if i ≤ 0xEF then (i - 0xC0) / 2 + 24 else i - 0xF0 + 48

/-- `d_len[i]` (R130). -/
def dLen (i : Nat) : Nat :=
  if i ≤ 0x1F then 3 else if i ≤ 0x4F then 4 else if i ≤ 0x8F then 5
  else if i ≤ 0xBF then 6 else if i ≤ 0xEF then 7 else 8

/-- The prefix codeword of `u` as a number, `p_code[u][7 : 8 − p_len[u]]` (R124). -/
def pCodeword (u : Nat) : Nat := pCode u / 2 ^ (8 - pLen u)

/-- The distance code of `d` (R124, R261): the prefix of the upper 6 bits, then the lower 6 bits. -/
def distanceCode (d : Nat) : List Bool := bitsOf (pLen (d / 64)) (pCodeword (d / 64)) ++ bitsOf 6 (d % 64)

/-- `EncodePos(d)` (R261) in a command. -/
def encodePos (d : Nat) : Engine State Unit := putAll (distanceCode d)

/-- "there is `u` with `p_len[u] = n` and `p_code[u][7 : 8 − n] = v`" (R262). -/
def prefixMatch (n v : Nat) : Option Nat := (List.range 64).find? fun u => pLen u == n && pCodeword u == v

namespace Reader

/-- The loop of `DecodePos` (R262) with at most `fuel` prefix bits to come, `n` bits read so far with value `v`. -/
def decodePosFrom (i : Input) (fuel n v : Nat) (r : Reader) : Option (Nat × Reader) :=
  match fuel with
  | 0 => none
  | m + 1 =>
    match prefixMatch (n + 1) (pushBit v (r.getBit i).1) with
    | some u => some (64 * u + ((r.getBit i).2.getBits i 6).1, ((r.getBit i).2.getBits i 6).2)
    | none => decodePosFrom i m (n + 1) (pushBit v (r.getBit i).1) (r.getBit i).2

/-- `DecodePos()` (R262): the code is complete, so at most 8 prefix bits are read. -/
def decodePos (i : Input) (r : Reader) : Option (Nat × Reader) := r.decodePosFrom i 8 0 0

/-- The table method of R130 and RC §6: peek 8 bits, look up `d_code` and `d_len`, take `d_len − 2` more bits and keep
the last 6 of the `d_len + 6` bits read. -/
def decodePosByTable (i : Input) (r : Reader) : Nat × Reader :=
  let peek := (r.getBits i 8).1
  let bits := r.getBits i (dLen peek + 6)
  (64 * dCode peek + bits.1 % 64, bits.2)

end Reader

/-- `DecodePos()` in a command. -/
def decodePos : Engine State Nat := fun s =>
  match s.rd.decodePos s.inp with
  | some (d, r) => .ok d { s with rd := r }
  | none => .error (.stuck .endlessLoop) s

end Sys2Proof.Machine
end

