-- ==== Sys2Proof/Machine/HuffmanCmd.lean ====
section
/-! DEFINITION. The Huffman commands (43_huffman.md R270 to R277). -/

namespace Sys2Proof.Machine

/-- `HUF_INIT` (R270). -/
def execHufInit (s : State) : Answer := command hufInit s

/-- The procedure of `HUF_ENC x` (R271): the tree is not updated. -/
def hufEncProc (x : BitVec 16) : Engine State Unit := do
  let y ← symbol x
  hufEncode y

/-- `HUF_ENC x` (R271). -/
def execHufEnc (x : BitVec 16) (s : State) : Answer := command (hufEncProc x) s

/-- The procedure of `HUF_DEC` (R272): the tree is not updated. -/
def hufDecProc : Engine State Unit := do
  let y ← hufDecode
  setRes0 (BitVec.ofNat 32 y.val)

/-- `HUF_DEC` (R272). -/
def execHufDec (s : State) : Answer := command hufDecProc s

/-- The procedure of `HUF_UPD x` (R273). -/
def hufUpdProc (x : BitVec 16) : Engine State Unit := do
  let y ← symbol x
  hufUpdate y

/-- `HUF_UPD x` (R273). -/
def execHufUpd (x : BitVec 16) (s : State) : Answer := command (hufUpdProc x) s

/-- The procedure of `HUF_ENCPOS x` (R274). -/
def hufEncPosProc (x : BitVec 16) : Engine State Unit := do
  let d ← distanceOperand x
  encodePos d.val

/-- `HUF_ENCPOS x` (R274). -/
def execHufEncPos (x : BitVec 16) (s : State) : Answer := command (hufEncPosProc x) s

/-- The procedure of `HUF_DECPOS` (R275). -/
def hufDecPosProc : Engine State Unit := do
  let d ← decodePos
  setRes0 (BitVec.ofNat 32 d)

/-- `HUF_DECPOS` (R275). -/
def execHufDecPos (s : State) : Answer := command hufDecPosProc s

/-- The procedure of `HUF_RESCALE` (R277): whatever `FREQ[ROOT]` is. -/
def hufRescaleProc : Engine State Unit := modify fun s => { s with huf := s.huf.rescale }

/-- `HUF_RESCALE` (R277). -/
def execHufRescale (s : State) : Answer := command hufRescaleProc s

/-- The procedure of `HUF_PEEK x` (R276). -/
def hufPeekProc (x : BitVec 16) : Engine State Unit := do
  let i ← slotOperand x
  modify fun s =>
    { s with res0 := (s.huf.freq.get i).setWidth 32, res1 := BitVec.ofNat 32 (s.huf.son.get i).toNat }

/-- `HUF_PEEK x` (R276). -/
def execHufPeek (x : BitVec 16) (s : State) : Answer := command (hufPeekProc x) s

end Sys2Proof.Machine
end

