-- ==== Sys2Proof/Machine/CodecOps.lean ====
section
/-! DEFINITION. The steps the codec commands share (44_lzss_codec.md §1; 45_lzw.md §4). -/

namespace Sys2Proof.Machine

/-- `CheckOffsets()` (R300): nothing is written before this check. -/
def checkOffsets : Engine State Unit := do
  let s ← get
  raiseIf (s.inp.len.toNat < s.inOffset.toNat ∨ s.inp.len.toNat < s.outOffset.toNat) .unexpectedEof

/-- `n_in = IN_LEN − IN_OFFSET` (R302). -/
def rawSize (s : State) : Nat := s.inp.len.toNat - s.inOffset.toNat

/-- The input size check (R302): input exactly at the cap passes. -/
def checkInputSize : Engine State Unit := do
  let s ← get
  raiseIf (s.maxExpanded.toNat < rawSize s) .sizeExceeded

/-- `MemRead(a, 1)` in a command. -/
def readIn (a : Nat) : Engine State Byte := do
  let s ← get
  pure (s.inp.byte a)

/-- `for a' in a..a+n−1: OutByte(MemRead(a', 1))` (R301). -/
def copyBytes (a n : Nat) : Engine State Unit :=
  match n with
  | 0 => pure ()
  | k + 1 => do
    let b ← readIn a
    outByte b
    copyBytes (a + 1) k

/-- `CopyPrefix()` (R301). -/
def copyPrefix : Engine State Unit := do
  let s ← get
  copyBytes 0 s.outOffset.toNat

/-- The results of a compress command (R320, R360): raw bytes read, bytes written after the verbatim ones. -/
def reportCompress : Engine State Unit := modify fun s =>
  { s with res0 := BitVec.ofNat 32 (rawSize s), res1 := s.out.len - s.outOffset }

/-- The results of an expand command (R321, R361): compressed bytes used, bytes written after the verbatim ones. -/
def reportExpand : Engine State Unit := modify fun s =>
  { s with
    res0 := BitVec.ofNat 32 (min s.inp.len.toNat ((s.rd.pos + 7) / 8) - s.inOffset.toNat)
    res1 := s.out.len - s.outOffset }

end Sys2Proof.Machine
end

