-- ==== Sys2Proof/Machine/WindowOps.lean ====
section
/-! DEFINITION. The match finder's procedures (42_window.md R210 to R221) over the window, the links and the match
result. A procedure answers `none` or stops stuck only where the links are not the links of a set of trees, which no
run from reset reaches (log 10). -/

namespace Sys2Proof.Machine

/-- The distance of source `p` at write position `r`: `((r − p) mod N) − 1` (R123). It is used with `p ≠ r` only
(R217; log 14). -/
def distance (r p : Pos) : Nat := (r.val + 4096 - p.val) % 4096 - 1

/-- The match source of distance `d` at write position `r`: `(r − d − 1) mod N` (R123). -/
def source (r : Pos) (d : Nat) : Pos := Fin.ofNat 4096 (r.val + 8192 - d - 1)

namespace Window

/-- `Right(x)` (R210). -/
def right (w : Window) : Node → Option Pos
  | .pos q => w.rson.get q
  | .rootn c => w.root.get c.toFin

/-- `SetRight(x, v)` (R210). -/
def setRight (w : Window) (x : Node) (v : Option Pos) : Window :=
  match x with
  | .pos q => { w with rson := w.rson.set q v }
  | .rootn c => { w with root := w.root.set c.toFin v }

/-- `LSON[x]`; a pseudo-node has no left child (R210, R216). -/
def left (w : Window) : Node → Option Pos
  | .pos q => w.lson.get q
  | .rootn _ => none

/-- `SetDad(v, x)` (R210). -/
def setDad (w : Window) (v : Option Pos) (x : Option Node) : Window :=
  match v with
  | some q => { w with dad := w.dad.set q x }
  | none => w

/-- `LSON[x] <- v`; `none` when `x` is a pseudo-node, which has no left child (log 10). -/
def setLeft (w : Window) (x : Node) (v : Option Pos) : Option Window :=
  match x with
  | .pos q => some { w with lson := w.lson.set q v }
  | .rootn _ => none

/-- "`p` is in the index exactly when `DAD[p] ≠ NIL`" (R210). -/
def indexed (w : Window) (p : Pos) : Bool := (w.dad.get p).isSome

/-- The byte of the window at `p + i`, `mod N` (R211). -/
def keyByte (w : Window) (p : Pos) (i : Nat) : Byte := w.win.get (Fin.ofNat 4096 (p.val + i))

/-- The loop of `Compare(pos, p)` (R211) with `n` bytes of the key left: how many leading bytes agree, and how the
first bytes that differ are ordered. -/
def compareFrom (w : Window) (pos p : Pos) (n : Nat) : Nat × Ordering :=
  match n with
  | 0 => (60, .eq)
  | k + 1 =>
    if w.keyByte pos (59 - k) < w.keyByte p (59 - k) then (59 - k, .lt)
    else if w.keyByte p (59 - k) < w.keyByte pos (59 - k) then (59 - k, .gt)
    else compareFrom w pos p k

/-- `Compare(pos, p)` (R211): byte 0 is skipped. -/
def compare (w : Window) (pos p : Pos) : Nat × Ordering := w.compareFrom pos p 59

/-- `Record(pos, p, i)` (R214): the window with the best match so far, and whether a full key has matched. -/
def record (w : Window) (pos p : Pos) (i : Nat) : Window × Bool :=
  if i < 2 then (w, false)
  else if w.ml.toNat < i then
    ({ w with mp := BitVec.ofNat 12 (distance pos p), ml := BitVec.ofNat 6 i }, decide (60 ≤ i))
  else if i = w.ml.toNat ∧ distance pos p < w.mp.toNat then
    ({ w with mp := BitVec.ofNat 12 (distance pos p) }, false)
  else (w, false)

/-- Where a search ends (R216). -/
inductive Ending where
  /-- At an empty link: the right (`true`) or left (`false`) child of the node. -/
  | empty (x : Node) (toRight : Bool)
  /-- At a node whose whole key matches. -/
  | full (p : Pos)
deriving DecidableEq, Repr

/-- The descent that `Insert` and `Find` share (R216, R217): from node `x`, to its right (`cmp ≥ 0`) or left child;
`none` after the bound on the nodes visited (log 10). -/
def search (pos : Pos) (fuel : Nat) (x : Node) (toRight : Bool) (w : Window) : Option (Ending × Window) :=
  match fuel with
  | 0 => none
  | n + 1 =>
    match if toRight then w.right x else w.left x with
    | none => some (.empty x toRight, w)
    | some p =>
      if (w.record pos p (w.compare pos p).1).2 then some (.full p, (w.record pos p (w.compare pos p).1).1)
      else search pos n (.pos p) ((w.compare pos p).2 != .lt) (w.record pos p (w.compare pos p).1).1

/-- The search from the root of the tree of `WIN[pos]`, which first goes right (R216). At most `N` nodes are visited. -/
def searchRoot (pos : Pos) (w : Window) : Option (Ending × Window) :=
  search pos 4097 (.rootn (w.win.get pos)) true w

/-- Make `pos` the right or left child of `x` (R216). -/
def attach (w : Window) (pos : Pos) (x : Node) (toRight : Bool) : Option Window :=
  if toRight then
    some { w.setRight x (some pos) with dad := w.dad.set pos (some x) }
  else
    (w.setLeft x (some pos)).map fun w' => { w' with dad := w.dad.set pos (some x) }

/-- "`if Right(x) = p: SetRight(x, v) else LSON[x] <- v`" (R218, R219), for the parent `x` of `p`. -/
def relink (w : Window) (x : Option Node) (p : Pos) (v : Option Pos) : Option Window :=
  match x with
  | none => none
  | some x => if w.right x = some p then some (w.setRight x v) else w.setLeft x v

/-- `Replace(p, pos)` (R218). -/
def replace (w : Window) (p pos : Pos) : Option Window :=
  let w := { w with dad := w.dad.set pos (w.dad.get p) }
  let w := { w with lson := w.lson.set pos (w.lson.get p) }
  let w := { w with rson := w.rson.set pos (w.rson.get p) }
  let w := w.setDad (w.lson.get p) (some (.pos pos))
  let w := w.setDad (w.rson.get p) (some (.pos pos))
  (w.relink (w.dad.get p) p (some pos)).map fun w => { w with dad := w.dad.set p none }

/-- The window as `Insert` and `Find` start their search: no match yet (R216, R217). -/
def noMatch (w : Window) : Window := { w with ml := 0, mp := 0 }

/-- `Insert(pos)` (R216), for a position that is not in the index. -/
def insertNew (w : Window) (pos : Pos) : Option Window :=
  match searchRoot pos { w with lson := w.lson.set pos none, rson := w.rson.set pos none }.noMatch with
  | none => none
  | some (.empty x toRight, w') => w'.attach pos x toRight
  | some (.full p, w') => w'.replace p pos

/-- `Insert(pos)` (R216): the raise comes before any write. -/
def insert (w : Window) (pos : Pos) : Except Stop Window :=
  if w.indexed pos then .error (.raise .illegalCommand)
  else
    match w.insertNew pos with
    | some w' => .ok w'
    | none => .error (.stuck .brokenIndex)

/-- `Find(pos)` (R217): the search of `Insert` without linking. -/
def find (w : Window) (pos : Pos) : Except Stop Window :=
  if w.indexed pos then .error (.raise .illegalCommand)
  else
    match searchRoot pos w.noMatch with
    | some (_, w') => .ok w'
    | none => .error (.stuck .brokenIndex)

/-- "`while LSON[q] != NIL: q <- LSON[q]`" (R221). -/
def leftmost (w : Window) (fuel : Nat) (q : Pos) : Option Pos :=
  match fuel with
  | 0 => none
  | n + 1 =>
    match w.lson.get q with
    | none => some q
    | some q' => leftmost w n q'

/-- "`while RSON[q] != NIL: q <- RSON[q]`" (R221). -/
def rightmost (w : Window) (fuel : Nat) (q : Pos) : Option Pos :=
  match fuel with
  | 0 => none
  | n + 1 =>
    match w.rson.get q with
    | none => some q
    | some q' => rightmost w n q'

/-- `DAD[q]` where the rule needs it to be a position. -/
def dadPos (w : Window) (q : Pos) : Option Pos :=
  match w.dad.get q with
  | some (.pos d) => some d
  | some (.rootn _) => none
  | none => none

/-- "`RSON[q] <- RSON[p]`, `DAD[RSON[p]] <- q`" (R221). -/
def takeRight (w : Window) (q p : Pos) : Window :=
  { w with rson := w.rson.set q (w.rson.get p) }.setDad (w.rson.get p) (some (.pos q))

/-- "`LSON[q] <- LSON[p]`, `DAD[LSON[p]] <- q`" (R221). -/
def takeLeft (w : Window) (q p : Pos) : Window :=
  { w with lson := w.lson.set q (w.lson.get p) }.setDad (w.lson.get p) (some (.pos q))

/-- The inner block of `TwoChild(p)`, `DEL_MODE = SUCC` (R221), for `r = RSON[p]` with a left child: the leftmost node
`q` below `r` leaves its place and takes `p`'s right subtree. -/
def takeLeftmost (w : Window) (p r : Pos) : Option (Pos × Window) :=
  match w.leftmost 4097 r with
  | none => none
  | some q =>
    match w.dadPos q with
    | none => none
    | some d =>
      let w := { w with lson := w.lson.set d (w.rson.get q) }
      let w := w.setDad (w.rson.get q) (some (.pos d))
      some (q, w.takeRight q p)

/-- `TwoChild(p)`, `DEL_MODE = SUCC` (R221), for a node whose right child is `r`. -/
def successor (w : Window) (p r : Pos) : Option (Pos × Window) :=
  match if (w.lson.get r).isSome then w.takeLeftmost p r else some (r, w) with
  | none => none
  | some (q, w) => some (q, w.takeLeft q p)

/-- The inner block of `TwoChild(p)`, `DEL_MODE = PRED` (R221), for `l = LSON[p]` with a right child. -/
def takeRightmost (w : Window) (p l : Pos) : Option (Pos × Window) :=
  match w.rightmost 4097 l with
  | none => none
  | some q =>
    match w.dadPos q with
    | none => none
    | some d =>
      let w := { w with rson := w.rson.set d (w.lson.get q) }
      let w := w.setDad (w.lson.get q) (some (.pos d))
      some (q, w.takeLeft q p)

/-- `TwoChild(p)`, `DEL_MODE = PRED` (R221), for a node whose left child is `l`. -/
def predecessor (w : Window) (p l : Pos) : Option (Pos × Window) :=
  match if (w.rson.get l).isSome then w.takeRightmost p l else some (l, w) with
  | none => none
  | some (q, w) => some (q, w.takeRight q p)

/-- The node that takes the place of `p` (R219), after `TwoChild` has moved it (R221). -/
def substitute (mode : DelMode) (w : Window) (p : Pos) : Option (Option Pos × Window) :=
  match w.lson.get p, w.rson.get p with
  | l, none => some (l, w)
  | none, some r => some (some r, w)
  | some l, some r =>
    match mode with
    | .succ => (w.successor p r).map fun (q, w) => (some q, w)
    | .pred => (w.predecessor p l).map fun (q, w) => (some q, w)

/-- `Delete(p)` (R219), for a position in the index. -/
def deleteIndexed (mode : DelMode) (w : Window) (p : Pos) : Option Window :=
  match w.substitute mode p with
  | none => none
  | some (q, w) =>
    let w := w.setDad q (w.dad.get p)
    (w.relink (w.dad.get p) p q).map fun w => { w with dad := w.dad.set p none }

/-- `Delete(p)` (R219): nothing for a position that is not in the index. -/
def delete (mode : DelMode) (w : Window) (p : Pos) : Except Stop Window :=
  if w.indexed p then
    match w.deleteIndexed mode p with
    | some w' => .ok w'
    | none => .error (.stuck .brokenIndex)
  else .ok w

end Window

/-- Change the window in a command; a stop leaves it as it was (R216: "The raise happens before any write"). -/
def onWindow (f : Window → Except Stop Window) : Engine State Unit := fun s =>
  match f s.win with
  | .ok w => .ok () { s with win := w }
  | .error e => .error e s

/-- `Insert(pos)` in a command. -/
def insertPos (pos : Pos) : Engine State Unit := onWindow fun w => w.insert pos

/-- `Find(pos)` in a command. -/
def findPos (pos : Pos) : Engine State Unit := onWindow fun w => w.find pos

/-- `Delete(p)` in a command, with this machine's `DEL_MODE` (R5). -/
def deletePos (p : Pos) : Engine State Unit := fun s => onWindow (fun w => w.delete s.params.delMode p) s

/-- `WIN[p] <- b`: the links are not touched (R232). -/
def writeWin (p : Pos) (b : Byte) : Engine State Unit := modify fun s =>
  { s with win := { s.win with win := s.win.win.set p b } }

/-- `WinInit`, the body of `WIN_INIT` (R230), with the fill byte as `OPT` has it now (R213). -/
def winInit : Engine State Unit := modify fun s => { s with win := .initial s.fill }

/-- `RES0 <- zext_32(ML)`, `RES1 <- zext_32(MP)` (R233, R235). -/
def reportMatch : Engine State Unit := modify fun s =>
  { s with res0 := s.win.ml.setWidth 32, res1 := s.win.mp.setWidth 32 }

end Sys2Proof.Machine
end

