-- ==== Sys2Proof/Machine/LzhOps.lean ====
section
/-! DEFINITION. The LZSS+Huffman sequencer's procedures (44_lzss_codec.md R303 to R312). -/

namespace Sys2Proof.Machine

/-- `for k in 0..3: OutByte(n[8k+7 : 8k])` (R303). -/
def writeHeader (n : Nat) : Engine State Unit := do
  outByte (BitVec.ofNat 8 n)
  outByte (BitVec.ofNat 8 (n / 2 ^ 8))
  outByte (BitVec.ofNat 8 (n / 2 ^ 16))
  outByte (BitVec.ofNat 8 (n / 2 ^ 24))

/-- The symbol of a literal byte (R121). -/
def literal (b : Byte) : Sym := ⟨b.toNat, by omega⟩

/-- `EOS` (R121). -/
def eos : Sym := 314

/-- The symbol of a match of length `len`, 2..59: `256 + len − MIN_MATCH` (R122). -/
def matchSymbol (len : Nat) : Sym := Fin.ofNat 315 (256 + len - 2)

/-- What a compression keeps between its steps (R304, R305): the address of the next raw byte, the write position, and
the number of lookahead bytes not yet coded. -/
structure Encoding where
  ip : Nat
  r : Pos
  len : Nat
deriving DecidableEq, Repr

/-- "`while len < F and ip < IN_LEN: WIN[r + len] <- ReadIn(); len <- len + 1`" (R305), at most `n` more bytes. -/
def loadLookahead (n : Nat) (c : Encoding) : Engine State Encoding :=
  match n with
  | 0 => pure c
  | k + 1 => do
    let s ← get
    if c.ip < s.inp.len.toNat then
      writeWin (c.r + Fin.ofNat 4096 c.len) (s.inp.byte c.ip)
      loadLookahead k { c with ip := c.ip + 1, len := c.len + 1 }
    else pure c

/-- "`for i in 61−n..F: Insert((r − i) mod N)`" (R305). -/
def insertBefore (r : Pos) (n : Nat) : Engine State Unit :=
  match n with
  | 0 => pure ()
  | k + 1 => do
    insertPos (r - Fin.ofNat 4096 (60 - k))
    insertBefore r k

/-- Start of compression (R305). -/
def startEncoding (ip : Nat) : Engine State Encoding := do
  hufInit
  winInit
  let c ← loadLookahead 60 { ip := ip, r := 4036, len := 0 }
  insertBefore c.r 60
  insertPos c.r
  pure c

/-- One pass of the slide of R306: the position that leaves the index is deleted, the next one inserted. -/
def slideOne (c : Encoding) : Engine State Encoding := do
  deletePos (c.r + 60)
  let s ← get
  if c.ip < s.inp.len.toNat then
    writeWin (c.r + 60) (s.inp.byte c.ip)
    insertPos (c.r + 1)
    pure { c with ip := c.ip + 1, r := c.r + 1 }
  else if 1 < c.len then
    insertPos (c.r + 1)
    pure { c with r := c.r + 1, len := c.len - 1 }
  else pure { c with r := c.r + 1, len := c.len - 1 }

/-- "`repeat ml times`" of R306. -/
def slide (n : Nat) (c : Encoding) : Engine State Encoding :=
  match n with
  | 0 => pure c
  | k + 1 => do
    let c ← slideOne c
    slide k c

/-- One symbol with its update (R307): the codeword is written with the tree as it stands, then the tree is updated. -/
def encodeSymbol (y : Sym) : Engine State Unit := do
  hufEncode y
  hufUpdate y

/-- The length the next step codes (R306): `ML` clamped to the longest match and to the bytes not yet coded. -/
def stepLength (ml len : Nat) : Nat := min ml (min 59 len)

/-- One pass of the coding loop (R306): a literal or a match, then the slide. -/
def encodeStep (c : Encoding) : Engine State Encoding := do
  let s ← get
  if stepLength s.win.ml.toNat c.len < 2 then
    encodeSymbol (literal (s.win.win.get c.r))
    slide 1 c
  else
    encodeSymbol (matchSymbol (stepLength s.win.ml.toNat c.len))
    encodePos s.win.mp.toNat
    slide (stepLength s.win.ml.toNat c.len) c

/-- The coding loop (R306). Each pass codes at least one byte, so the number of raw bytes bounds the passes (log 10). -/
def encodeLoop (fuel : Nat) (c : Encoding) : Engine State Encoding :=
  if c.len = 0 then pure c
  else
    match fuel with
    | 0 => throw (.stuck .endlessLoop)
    | n + 1 => do
      let c ← encodeStep c
      encodeLoop n c

/-- End of compression (R308): `EOS` in `Lzhuf` mode, the flush, the final write position. `R` is written here and
nowhere before, so that a failing command keeps the old one, as R384 says; R60 words it as if `R` were set to `N − F` at
the start (DEDUCED, log 28). -/
def endEncoding (r : Pos) : Engine State Unit := do
  let s ← get
  doIf (s.hdr = true) (encodeSymbol eos)
  flush
  modify fun s => { s with r := r }

/-- `LZH_COMPRESS` (R320). -/
def lzhCompress : Engine State Unit := do
  checkOffsets
  checkInputSize
  bitInit
  copyPrefix
  let s ← get
  doIf (s.hdr = true) (writeHeader (rawSize s))
  let c ← startEncoding s.inOffset.toNat
  let c ← encodeLoop (rawSize s) c
  endEncoding c.r
  reportCompress

/-! ### Expansion -/

/-- What an expansion keeps between its steps (R310): the write position and the bytes produced. -/
structure Decoding where
  r : Pos
  count : Nat
deriving DecidableEq, Repr

/-- The header on input (R309): the declared size, or none in `None` mode. -/
def readHeader : Engine State (Option Nat) := do
  let s ← get
  if s.hdr then
    raiseIf (s.inp.len.toNat - s.inOffset.toNat < 4) .unexpectedEof
    let b0 ← getBits 8
    let b1 ← getBits 8
    let b2 ← getBits 8
    let b3 ← getBits 8
    raiseIf (s.maxExpanded.toNat < b0 + b1 * 2 ^ 8 + b2 * 2 ^ 16 + b3 * 2 ^ 24) .sizeExceeded
    pure (some (b0 + b1 * 2 ^ 8 + b2 * 2 ^ 16 + b3 * 2 ^ 24))
  else pure none

/-- One byte of a step's output (R312): to the OUT memory, then to the window. -/
def emitByte (b : Byte) (c : Decoding) : Engine State Decoding := do
  outByte b
  writeWin c.r b
  pure { r := c.r + 1, count := c.count + 1 }

/-- The copy loop of `Emit` (R312), byte by byte so that it may overlap its own output; `n` bytes from window position
`src` on. -/
def copyMatch (n : Nat) (src : Pos) (c : Decoding) : Engine State Decoding :=
  match n with
  | 0 => pure c
  | k + 1 => do
    let s ← get
    let c ← emitByte (s.win.win.get src) c
    copyMatch k (src + 1) c

/-- `Emit(y, d, len)` (R312). -/
def emit (y : Sym) (d len : Nat) (c : Decoding) : Engine State Decoding :=
  if y.val < 256 then emitByte (BitVec.ofNat 8 y.val) c
  else copyMatch len (source c.r d) c

/-- The exit tests at the head of the decoding loop (R310). -/
def expandDone (size : Option Nat) (c : Decoding) (s : State) : Bool :=
  match size with
  | some n => decide (c.count = n)
  | none => decide (8 * s.inp.len.toNat ≤ s.rd.pos)

/-- The distance of a match symbol (R310); a literal or `EOS` has none. -/
def readDistance (y : Sym) : Engine State Nat :=
  if 256 ≤ y.val ∧ y.val < 314 then decodePos else pure 0

/-- The length a symbol stands for (R121, R310). -/
def symbolLength (y : Sym) : Nat := if y.val < 256 then 1 else y.val - 256 + 2

/-- "`count + len > size`" in `Lzhuf` mode (R310). -/
def passesSize (size : Option Nat) (n : Nat) : Bool :=
  match size with
  | some m => decide (m < n)
  | none => false

/-- The checks and the output of one decoded symbol (R310): `none` when the loop ends at `EOS`. -/
def expandSymbol (size : Option Nat) (y : Sym) (d : Nat) (c : Decoding) : Engine State (Option Decoding) := do
  let s ← get
  raiseIf (size.isSome ∧ s.rd.ovr = true) .unexpectedEof
  if y = eos then
    raiseIf size.isSome .invalidData
    pure none
  else
    raiseIf (passesSize size (c.count + symbolLength y) = true) .invalidData
    raiseIf (s.maxExpanded.toNat < c.count + symbolLength y) .sizeExceeded
    let c ← emit y d (symbolLength y) c
    pure (some c)

/-- One pass of the decoding loop (R310) after its exit tests: symbol, update, distance, output. -/
def expandStep (size : Option Nat) (c : Decoding) : Engine State (Option Decoding) := do
  let y ← hufDecode
  hufUpdate y
  let d ← readDistance y
  expandSymbol size y d c

/-- The decoding loop (R310); the bound on its passes is the one R310 derives (log 10). -/
def expandLoop (size : Option Nat) (fuel : Nat) (c : Decoding) : Engine State Decoding := do
  let s ← get
  if expandDone size c s then pure c
  else
    match fuel with
    | 0 => throw (.stuck .endlessLoop)
    | n + 1 => do
      let c' ← expandStep size c
      match c' with
      | none => pure c
      | some c' => expandLoop size n c'

/-- The passes the decoding loop can make (R310): in `Lzhuf` mode each adds a byte to `count ≤ size`, in `None` mode
each reads a bit. -/
def expandBound (size : Option Nat) (s : State) : Nat :=
  match size with
  | some n => n
  | none => 8 * s.inp.len.toNat - s.rd.pos

/-- `LZH_EXPAND` (R321). `R` is written only after the loop (R310, R384; against R60's wording: DEDUCED, log 28). -/
def lzhExpand : Engine State Unit := do
  checkOffsets
  bitInit
  copyPrefix
  let size ← readHeader
  hufInit
  winInit
  let s ← get
  let c ← expandLoop size (expandBound size s) { r := 4036, count := 0 }
  modify fun s => { s with r := c.r }
  reportExpand

end Sys2Proof.Machine
end

