-- ==== Sys2Proof/Machine/LzhCmd.lean ====
section
/-! DEFINITION. The LZSS codec commands (44_lzss_codec.md R320, R321). -/

namespace Sys2Proof.Machine

/-- `LZH_COMPRESS` (R320). -/
def execLzhCompress (s : State) : Answer := command lzhCompress s

/-- `LZH_EXPAND` (R321). -/
def execLzhExpand (s : State) : Answer := command lzhExpand s

end Sys2Proof.Machine
end

