-- ==== Sys2Proof/Machine/LzwOps.lean ====
section
/-! DEFINITION. The LZW unit's procedures (45_lzw.md R340 to R357). -/

namespace Sys2Proof.Machine

namespace Lzw

/-- `ResetTable()` (R340): `DICT_P`, `DICT_C` keep what they hold. -/
def resetTable (l : Lzw) : Lzw := { l with next := 258 }

/-- The index of entry `k` (R59). -/
def entryIndex (k : Nat) : Entry := Fin.ofNat 3838 (k - 258)

/-- `DICT_P[k]`. -/
def prefixOf (l : Lzw) (k : Nat) : Code := l.dictP.get (entryIndex k)

/-- `DICT_C[k]`. -/
def lastByte (l : Lzw) (k : Nat) : Byte := l.dictC.get (entryIndex k)

/-- The entries `k` in `258..NEXT−1` with `DICT_P[k] = p` and `DICT_C[k] = c` (R341). -/
def candidates (l : Lzw) (p : Code) (c : Byte) : List Nat :=
  (List.range' 258 (l.next - 258)).filter fun k => l.prefixOf k == p && l.lastByte k == c

/-- `Lookup(p, c)` (R341). One entry at most matches while one direction at a time uses the table; where several do,
which one is returned is a free value (log 8). -/
def lookup (l : Lzw) (p : Code) (c : Byte) : Option Code × Lzw :=
  match l.candidates p c with
  | [] => (none, l)
  | [k] => (some (BitVec.ofNat 12 k), l)
  | k :: k' :: ks =>
    (some (BitVec.ofNat 12 ((k :: k' :: ks).getD (Config.lookupPick l.freeTick % (ks.length + 2)) k)),
      { l with freeTick := l.freeTick + 1 })

/-- `DICT_P[NEXT] <- p; DICT_C[NEXT] <- c; NEXT <- NEXT + 1`. -/
def addEntry (l : Lzw) (p : Code) (c : Byte) : Lzw :=
  { l with
    dictP := l.dictP.set (entryIndex l.next) p
    dictC := l.dictC.set (entryIndex l.next) c
    next := l.next + 1 }

/-- `String(k)` (R342) where the rule states it: every code on the way is below 256 or in `258..NEXT−1`, and the
recursion ends. The bytes of `tail` follow. -/
def spell (l : Lzw) (fuel k : Nat) (tail : List Byte) : Option (List Byte) :=
  if k < 256 then some (BitVec.ofNat 8 k :: tail)
  else
    match fuel with
    | 0 => none
    | n + 1 =>
      if 258 ≤ k ∧ k < l.next then spell l n (l.prefixOf k).toNat (l.lastByte k :: tail) else none

/-- `String(k)` (R342), or the free value of a code the rule states no string for (log 9). -/
def string (l : Lzw) (k : Nat) : List Byte × Lzw :=
  match l.spell 3838 k [] with
  | some s => (s, l)
  | none =>
    ((Config.unstatedString l.freeTick).1 :: (Config.unstatedString l.freeTick).2, { l with freeTick := l.freeTick + 1 })

end Lzw

/-- Change the LZW unit in a command. -/
def onLzw {α : Type} (f : Lzw → α × Lzw) : Engine State α := fun s =>
  .ok (f s.lzw).1 { s with lzw := (f s.lzw).2 }

/-- Change the LZW unit in a command, with no value. -/
def setLzw (f : Lzw → Lzw) : Engine State Unit := modify fun s => { s with lzw := f s.lzw }

/-- The body of `LZW_INIT` (R345) in a command. -/
def lzwInit : Engine State Unit := setLzw Lzw.init

/-! ### Encoder -/

/-- `EmitCode(k)` (R343): the first data code is preceded by `CLEAR`. -/
def emitCode (k : Code) : Engine State Unit := do
  let s ← get
  if s.lzw.started then putBits 12 k.toNat
  else
    putBits 12 256
    setLzw fun l => { l with started := true }
    putBits 12 k.toNat

/-- The fill `CLEAR` (R347), after an insertion. -/
def clearWhenFull : Engine State Unit := do
  let s ← get
  doIf (s.lzwClrFull = true ∧ s.lzw.next = 4096) do
    putBits 12 256
    setLzw Lzw.resetTable

/-- The insertion of R346. -/
def growTable (p : Code) (c : Byte) : Engine State Unit := do
  let s ← get
  doIf (s.lzw.next < 4096) do
    setLzw fun l => l.addEntry p c
    clearWhenFull

/-- `PREFIX <- k`. -/
def setPrefix (k : Option Code) : Engine State Unit := setLzw fun l => { l with pfx := k }

/-- The step of R346 for a byte `c` that does not extend the prefix `p`. -/
def endPrefix (p : Code) (c : Byte) : Engine State Unit := do
  emitCode p
  growTable p c
  setPrefix (some (c.setWidth 12))

/-- What R346 does with a byte `c` after the prefix `p`, by what `Lookup(p, c)` returned. -/
def extendPrefix (p : Code) (c : Byte) : Option Code → Engine State Unit
  | some k => setPrefix (some k)
  | none => endPrefix p c

/-- `Lookup(p, c)` in a command. -/
def lookupCode (p : Code) (c : Byte) : Engine State (Option Code) := onLzw fun l => l.lookup p c

/-- `String(k)` in a command. -/
def stringOf (k : Nat) : Engine State (List Byte) := onLzw fun l => l.string k

/-- The body of `LZW_ENCBYTE` (R346), by what `PREFIX` holds. -/
def encodeAfter (c : Byte) : Option Code → Engine State Unit
  | none => setPrefix (some (c.setWidth 12))
  | some p => do
    let k ← lookupCode p c
    extendPrefix p c k

/-- The body of `LZW_ENCBYTE` (R346). -/
def lzwEncodeByte (c : Byte) : Engine State Unit := do
  let s ← get
  encodeAfter c s.lzw.pfx

/-- The last prefix of R349, by what `PREFIX` holds. -/
def emitPrefix : Option Code → Engine State Unit
  | none => pure ()
  | some p => do
    emitCode p
    setPrefix none

/-- "`if PREFIX != NIL: EmitCode(PREFIX); PREFIX <- NIL`" (R349). -/
def emitLastPrefix : Engine State Unit := do
  let s ← get
  emitPrefix s.lzw.pfx

/-- The body of `LZW_ENCEND` (R349). -/
def lzwEncodeEnd : Engine State Unit := do
  emitLastPrefix
  let s ← get
  doIf (s.lzwStop = true) (putBits 12 257)
  flush

/-- "`for ip in a..a+n−1: LZW_ENCBYTE body with c = MemRead(ip, 1)`" (R360). -/
def lzwEncodeBytes (a n : Nat) : Engine State Unit :=
  match n with
  | 0 => pure ()
  | k + 1 => do
    let b ← readIn a
    lzwEncodeByte b
    lzwEncodeBytes (a + 1) k

/-- `LZW_COMPRESS` (R360). -/
def lzwCompress : Engine State Unit := do
  checkOffsets
  checkInputSize
  bitInit
  copyPrefix
  lzwInit
  let s ← get
  lzwEncodeBytes s.inOffset.toNat (rawSize s)
  lzwEncodeEnd
  reportCompress

/-! ### Decoder -/

/-- "`for each byte x of s in order: OutByte(x)`" (R351). -/
def outBytes : List Byte → Engine State Unit
  | [] => pure ()
  | b :: bs => do
    outByte b
    outBytes bs

/-- A code's string and the entry it adds after the code `p`, when the table is not full (R351, R354). -/
def knownCode (p : Code) (k next : Nat) : Engine State (List Byte × Option (Code × Byte)) := do
  let str ← stringOf k
  pure (str, if next < 4096 then some (p, str.headD 0) else none)

/-- The string of the code to be assigned next, after the code `p` (R353). -/
def nextCode (p : Code) : Engine State (List Byte × Option (Code × Byte)) := do
  let str ← stringOf p.toNat
  pure (str ++ [str.headD 0], some (p, str.headD 0))

/-- The first code after the start or a `CLEAR` (R351). -/
def firstCode (k : Code) : Engine State (List Byte × Option (Code × Byte)) := do
  raiseIf (256 ≤ k.toNat) .invalidCode
  pure ([k.setWidth 8], none)

/-- The string a data code stands for and the entry it adds (R351), by what `PREV` and `NEXT` hold. -/
def stringAfter (k : Code) (next : Nat) : Option Code → Engine State (List Byte × Option (Code × Byte))
  | none => firstCode k
  | some p =>
    if k.toNat < next then knownCode p k.toNat next
    else if k.toNat = next then nextCode p
    else raise .invalidCode

/-- The string a data code stands for and the entry it adds (R351). -/
def decodeString (k : Code) : Engine State (List Byte × Option (Code × Byte)) := do
  let s ← get
  stringAfter k s.lzw.next s.lzw.prev

/-- "`if new != NIL: …`" (R351). -/
def addNew : Option (Code × Byte) → Engine State Unit
  | none => pure ()
  | some (p, c) => setLzw fun l => l.addEntry p c

/-- What R351 does with a data code `k`; it returns the number of bytes written. -/
def decodeData (k : Code) : Engine State Nat := do
  let out ← decodeString k
  let s ← get
  raiseIf (s.maxExpanded.toNat < s.lzw.outCnt.toNat + out.1.length) .sizeExceeded
  addNew out.2
  outBytes out.1
  setLzw fun l => { l with outCnt := l.outCnt + BitVec.ofNat 32 out.1.length, prev := some k }
  pure out.1.length

/-- `LZW_DONE <- 1`. -/
def setDone : Engine State Unit := setLzw fun l => { l with done := true }

/-- The end of the input (R352). -/
def endOfInput : Engine State Nat := do
  let s ← get
  raiseIf (s.lzwStop = true) .unexpectedEof
  setDone
  pure 0

/-- What R351 does with the code it has read: `CLEAR`, `STOP` (R356) or a data code. -/
def decodeValue (k : Nat) : Engine State Nat :=
  if k = 256 then do
    setLzw fun l => { l.resetTable with prev := none }
    pure 0
  else if k = 257 then do
    setDone
    pure 0
  else decodeData (BitVec.ofNat 12 k)

/-- Read a code and decode it (R351). -/
def decodeNext : Engine State Nat := do
  let k ← getBits 12
  decodeValue k

/-- One code of the decoder (R351): the number of bytes it wrote. The command stores it in `RES0`; `LZW_EXPAND` does
not, so that an error leaves `RES0` as it was (R47; log 15). -/
def lzwDecodeCode : Engine State Nat := do
  let s ← get
  if s.lzw.done then pure 0
  else if 8 * s.inp.len.toNat < s.rd.pos + 12 then endOfInput
  else decodeNext

/-- "`while LZW_DONE = 0: LZW_DECCODE body`" (R361). Each pass reads 12 bits or ends the loop (log 10). -/
def lzwExpandLoop (fuel : Nat) : Engine State Unit := do
  let s ← get
  if s.lzw.done then pure ()
  else
    match fuel with
    | 0 => throw (.stuck .endlessLoop)
    | n + 1 => do
      let _ ← lzwDecodeCode
      lzwExpandLoop n

/-- The passes the decoding loop can make (R361): one for each whole code of the input, and the last. -/
def lzwExpandBound (s : State) : Nat := (8 * s.inp.len.toNat - s.rd.pos) / 12 + 1

/-- `LZW_EXPAND` (R361). -/
def lzwExpand : Engine State Unit := do
  checkOffsets
  bitInit
  copyPrefix
  lzwInit
  let s ← get
  lzwExpandLoop (lzwExpandBound s)
  reportExpand

end Sys2Proof.Machine
end

