-- ==== Sys2Proof/Machine/LzwCmd.lean ====
section
/-! DEFINITION. The LZW commands (45_lzw.md R345 to R361). -/

namespace Sys2Proof.Machine

/-- `LZW_INIT` (R345). -/
def execLzwInit (s : State) : Answer := command lzwInit s

/-- `LZW_ENCBYTE b` (R346). -/
def execLzwEncByte (b : Byte) (s : State) : Answer := command (lzwEncodeByte b) s

/-- `LZW_ENCEND` (R349). -/
def execLzwEncEnd (s : State) : Answer := command lzwEncodeEnd s

/-- The procedure of `LZW_DECCODE` (R351): `RES0` is the number of bytes this code wrote. -/
def lzwDecCodeProc : Engine State Unit := do
  let n ← lzwDecodeCode
  setRes0 (BitVec.ofNat 32 n)

/-- `LZW_DECCODE` (R351). -/
def execLzwDecCode (s : State) : Answer := command lzwDecCodeProc s

/-- `LZW_COMPRESS` (R360). -/
def execLzwCompress (s : State) : Answer := command lzwCompress s

/-- `LZW_EXPAND` (R361). -/
def execLzwExpand (s : State) : Answer := command lzwExpand s

end Sys2Proof.Machine
end

