-- ==== Sys2Proof/Machine/WindowCmd.lean ====
section
/-! DEFINITION. The window commands (42_window.md R230 to R235). -/

namespace Sys2Proof.Machine

/-- `WIN_INIT` (R230). -/
def execWinInit (s : State) : Answer := command winInit s

/-- The procedure of `WIN_RD x` (R231). -/
def winRdProc (x : BitVec 16) : Engine State Unit := do
  let p ← position x
  modify fun s => { s with res0 := (s.win.win.get p).setWidth 32 }

/-- `WIN_RD x` (R231). -/
def execWinRd (x : BitVec 16) (s : State) : Answer := command (winRdProc x) s

/-- The procedure of `WIN_WR x, b` (R232). -/
def winWrProc (x : BitVec 16) (b : Byte) : Engine State Unit := do
  let p ← position x
  writeWin p b

/-- `WIN_WR x, b` (R232). -/
def execWinWr (x : BitVec 16) (b : Byte) (s : State) : Answer := command (winWrProc x b) s

/-- The procedure of `WIN_INSERT x` (R233). -/
def winInsertProc (x : BitVec 16) : Engine State Unit := do
  let p ← position x
  insertPos p
  reportMatch

/-- `WIN_INSERT x` (R233). -/
def execWinInsert (x : BitVec 16) (s : State) : Answer := command (winInsertProc x) s

/-- The procedure of `WIN_DELETE x` (R234). -/
def winDeleteProc (x : BitVec 16) : Engine State Unit := do
  let p ← position x
  deletePos p

/-- `WIN_DELETE x` (R234). -/
def execWinDelete (x : BitVec 16) (s : State) : Answer := command (winDeleteProc x) s

/-- The procedure of `WIN_FIND x` (R235). -/
def winFindProc (x : BitVec 16) : Engine State Unit := do
  let p ← position x
  findPos p
  reportMatch

/-- `WIN_FIND x` (R235). -/
def execWinFind (x : BitVec 16) (s : State) : Answer := command (winFindProc x) s

end Sys2Proof.Machine
end

