-- ==== Sys2Proof/Machine/Dispatch.lean ====
section
/-! DEFINITION. One arm for each command (30_encoding.md R115). -/

namespace Sys2Proof.Machine

def exec (i : Instr) (s : State) : Host.Outcome State Fault Refusal :=
  match i with
  | .nop => Sys2Proof.Machine.execNop s
  | .reset => Sys2Proof.Machine.execReset s
  | .clrerr => Sys2Proof.Machine.execClrerr s
  | .bitInit => Sys2Proof.Machine.execBitInit s
  | .bitGet n => Sys2Proof.Machine.execBitGet n s
  | .bitPut n v => Sys2Proof.Machine.execBitPut n v s
  | .bitGetByte => Sys2Proof.Machine.execBitGetByte s
  | .bitPutByte b => Sys2Proof.Machine.execBitPutByte b s
  | .bitCount => Sys2Proof.Machine.execBitCount s
  | .bitFlush => Sys2Proof.Machine.execBitFlush s
  | .winInit => Sys2Proof.Machine.execWinInit s
  | .winRd x => Sys2Proof.Machine.execWinRd x s
  | .winWr x b => Sys2Proof.Machine.execWinWr x b s
  | .winInsert x => Sys2Proof.Machine.execWinInsert x s
  | .winDelete x => Sys2Proof.Machine.execWinDelete x s
  | .winFind x => Sys2Proof.Machine.execWinFind x s
  | .hufInit => Sys2Proof.Machine.execHufInit s
  | .hufEnc x => Sys2Proof.Machine.execHufEnc x s
  | .hufDec => Sys2Proof.Machine.execHufDec s
  | .hufUpd x => Sys2Proof.Machine.execHufUpd x s
  | .hufEncPos x => Sys2Proof.Machine.execHufEncPos x s
  | .hufDecPos => Sys2Proof.Machine.execHufDecPos s
  | .hufRescale => Sys2Proof.Machine.execHufRescale s
  | .hufPeek x => Sys2Proof.Machine.execHufPeek x s
  | .lzhCompress => Sys2Proof.Machine.execLzhCompress s
  | .lzhExpand => Sys2Proof.Machine.execLzhExpand s
  | .lzwInit => Sys2Proof.Machine.execLzwInit s
  | .lzwEncByte b => Sys2Proof.Machine.execLzwEncByte b s
  | .lzwEncEnd => Sys2Proof.Machine.execLzwEncEnd s
  | .lzwDecCode => Sys2Proof.Machine.execLzwDecCode s
  | .lzwCompress => Sys2Proof.Machine.execLzwCompress s
  | .lzwExpand => Sys2Proof.Machine.execLzwExpand s

end Sys2Proof.Machine
end

