-- ==== Sys2Proof/Machine/Command.lean ====
section
/-! DEFINITION. Executing a command word (40_control.md R160). -/

namespace Sys2Proof.Machine

/-- The opcodes of `RESET` and `CLRERR`, whose words are checked even while `ERR ≠ 0` (R160). -/
def checkedInError (w : Word) : Bool := opcodeOf w == 0x01 || opcodeOf w == 0x02

/-- An illegal command word (R116, R160): while `ERR ≠ 0` it is ignored, but for an illegal `RESET` or `CLRERR`, which
performs the error entry again (R388). -/
def illegalWord (w : Word) (s : State) : State :=
  if s.err ≠ 0 ∧ checkedInError w = false then s else errorEntry .illegalCommand s

/-- A host write of `w` to `CMD` (R34, R160). -/
def issue (w : Word) (s : State) : Answer :=
  match decode w with
  | .ok i => exec i s
  | .error _ => .next (illegalWord w s)

end Sys2Proof.Machine
end

