-- ==== Sys2Proof/Machine/Bus.lean ====
section
/-! DEFINITION. The host's side of the block: the register window (10_state.md R32 to R47), the IN and OUT memories as
the host sees them (20_memory.md R80, R81, R84) and the three regions (R93). -/

namespace Sys2Proof.Machine

/-- The registers of R32. -/
inductive Reg where
  | cmd
  | status
  | res0
  | res1
  | opt
  | geom
  | inLen
  | inOffset
  | outOffset
  | maxExpanded
  | outLen
  | rdPosLo
  | rdPosHi
  | lzwNext
  | rPos
  | inCapR
  | outCapR
  /-- Any other offset of the window (R33). -/
  | reserved
deriving DecidableEq, Repr

/-- The register at an offset of the window (R32). -/
def regAt (off : Nat) : Reg :=
  match off with
  | 0x00 => .cmd
  | 0x04 => .status
  | 0x08 => .res0
  | 0x0C => .res1
  | 0x10 => .opt
  | 0x14 => .geom
  | 0x18 => .inLen
  | 0x1C => .inOffset
  | 0x20 => .outOffset
  | 0x24 => .maxExpanded
  | 0x28 => .outLen
  | 0x2C => .rdPosLo
  | 0x30 => .rdPosHi
  | 0x34 => .lzwNext
  | 0x38 => .rPos
  | 0x3C => .inCapR
  | 0x40 => .outCapR
  | _ => .reserved

/-- What a read of a register returns (R33, R35 to R47). -/
def readReg (r : Reg) (s : State) : Word :=
  match r with
  | .cmd => 0
  | .status => s.status
  | .res0 => s.res0
  | .res1 => s.res1
  | .opt => s.opt
  | .geom => 0x0C023C0C
  | .inLen => s.inp.len
  | .inOffset => s.inOffset
  | .outOffset => s.outOffset
  | .maxExpanded => s.maxExpanded
  | .outLen => s.out.len
  | .rdPosLo => BitVec.ofNat 32 s.rd.pos
  | .rdPosHi => BitVec.ofNat 32 (s.rd.pos / 2 ^ 32)
  | .lzwNext => BitVec.ofNat 32 s.lzw.next
  | .rPos => BitVec.ofNat 32 s.r.val
  | .inCapR => s.params.inCap
  | .outCapR => s.params.outCap
  | .reserved => 0

/-- A host write of a register: a write to `CMD` executes the command (R34); one to a read-only or reserved register is
ignored (R33). -/
def writeReg (r : Reg) (v : Word) (s : State) : Answer :=
  match r with
  | .cmd => issue v s
  | .opt => .next { s with opt := v &&& optMask }
  | .inLen => .next { s with inp := { s.inp with len := if v ≤ s.params.inCap then v else s.params.inCap } }
  | .inOffset => .next { s with inOffset := v }
  | .outOffset => .next { s with outOffset := v }
  | .maxExpanded => .next { s with maxExpanded := v }
  | .status => .next s
  | .res0 => .next s
  | .res1 => .next s
  | .geom => .next s
  | .outLen => .next s
  | .rdPosLo => .next s
  | .rdPosHi => .next s
  | .lzwNext => .next s
  | .rPos => .next s
  | .inCapR => .next s
  | .outCapR => .next s
  | .reserved => .next s

/-- Where a platform address falls (R93). -/
inductive Region where
  /-- Offset in the register window. -/
  | window (off : Nat)
  /-- Address in the IN memory. -/
  | inMem (a : Nat)
  /-- Address in the OUT memory. -/
  | outMem (a : Nat)
  /-- In none of the block's regions. -/
  | elsewhere
deriving DecidableEq, Repr

/-- The region of a platform address (R93); the regions do not overlap (log 12). -/
def regionAt (p : Params) (addr : Nat) : Region :=
  if p.regBase ≤ addr ∧ addr < p.regBase + 256 then .window (addr - p.regBase)
  else if p.inBase ≤ addr ∧ addr < p.inBase + p.inCap.toNat then .inMem (addr - p.inBase)
  else if p.outBase ≤ addr ∧ addr < p.outBase + p.outCap.toNat then .outMem (addr - p.outBase)
  else .elsewhere

/-- A register access the model allows: 32 bits wide and aligned (R89). -/
abbrev registerAccessOk (off width : Nat) : Prop := width = 4 ∧ off % 4 = 0

/-- A memory access the model allows: 1, 2 or 4 bytes, all of them in the memory (R84). -/
abbrev memoryAccessOk (cap : Word) (a width : Nat) : Prop :=
  (width = 1 ∨ width = 2 ∨ width = 4) ∧ a + width ≤ cap.toNat

/-- What a host read of `width` bytes of the IN memory returns (R84). -/
def loadIn (s : State) (a width : Nat) : Word := Memory.joinBytes (fun i => s.inp.byte (a + i)) width

/-- What a host read of `width` bytes of the OUT memory returns (R81, R84). -/
def loadOut (s : State) (a width : Nat) : Word := Memory.joinBytes (fun i => s.out.byte (a + i)) width

/-- A host read: nothing of the block changes (R91); the model keeps what the host sees (log 3). -/
def hostRead (addr width : Nat) (s : State) : Answer :=
  match regionAt s.params addr with
  | .window off =>
    if registerAccessOk off width then .next { s with hostData := some (readReg (regAt off) s) }
    else .refused .registerAccess
  | .inMem a =>
    if memoryAccessOk s.params.inCap a width then .next { s with hostData := some (loadIn s a width) }
    else .refused .memoryAccess
  | .outMem a =>
    if memoryAccessOk s.params.outCap a width then .next { s with hostData := some (loadOut s a width) }
    else .refused .memoryAccess
  | .elsewhere => .refused .notThisBlock

/-- A host write: of a register (R33, R34), of the IN memory (R84), or of the OUT memory, which is ignored (R81). -/
def hostWrite (addr width : Nat) (data : Word) (s : State) : Answer :=
  match regionAt s.params addr with
  | .window off =>
    if registerAccessOk off width then writeReg (regAt off) data s else .refused .registerAccess
  | .inMem a =>
    if memoryAccessOk s.params.inCap a width then
      .next { s with inp := { s.inp with mem := s.inp.mem.writeBytes a data 0 width } }
    else .refused .memoryAccess
  | .outMem a =>
    if memoryAccessOk s.params.outCap a width then .next s else .refused .memoryAccess
  | .elsewhere => .refused .notThisBlock

/-- One access or event of the host. -/
def perform (e : HostEvent) (s : State) : Answer :=
  match e with
  | .read addr width => hostRead addr width s
  | .write addr width data => hostWrite addr width data s
  | .powerOn => .next (resetBlock .power s)

/-- One step: the host's next access; with none pending the block is idle and keeps all its state (R31, R401). -/
def advance (s : State) : Answer :=
  match s.host with
  | [] => .next s
  | e :: rest => perform e { s with host := rest }

/-- The host write of a command word to `CMD` (R34). -/
def commandWrite (p : Params) (w : Word) : HostEvent := .write p.regBase 4 w

end Sys2Proof.Machine
end

