-- ==== Sys2Proof/Machine/Step.lean ====
section
/-! DEFINITION. One step of the machine, and the state in which the next step runs a given command word. -/

namespace Sys2Proof.Machine

/-- One step: the host's next access, in its program order (R90, R92, R95). -/
def step (s : State) : Host.Outcome State Fault Refusal := advance s

/-- `s` with the command word `w` (its `nbits` low bits) as the host's next access: a write to `CMD`, which is where the
block takes its commands from (R34, R100; log 2). -/
def State.withFetchWord (s : State) (nbits w : Nat) : State :=
  { s with host := commandWrite s.params (BitVec.ofNat 32 (w % 2 ^ nbits)) :: s.host }

end Sys2Proof.Machine
end

