-- ==== Sys2Proof/Safety.lean ====
section
/-! DEFINITION. The terms claims are stated in: the bits of the streams, and what a legal and a sound state are (the
invariants of 10_state.md, 42_window.md R210 to R212, 43_huffman.md R259). -/

namespace Sys2Proof.Machine

/-! ### Streams as bits (20_memory.md R85) -/

/-- Bit `k` of the input stream (R53, R180): bit `7 − (k mod 8)` of IN byte `k div 8`, and 0 at or past the end. -/
def Input.bit (i : Input) (k : Nat) : Bool :=
  decide (k / 8 < i.len.toNat) && (i.byte (k / 8)).getLsbD (7 - k % 8)

/-- The `n` bits of the input stream from bit `k` on, in stream order. -/
def Input.bits (i : Input) (k n : Nat) : List Bool := (List.range n).map fun j => i.bit (k + j)

/-- The bits of a byte in stream order (R85). -/
def bitsOfByte (b : Byte) : List Bool := bitsOf 8 b.toNat

/-- The output stream so far (R53, R85): the bits of the valid OUT bytes, then the valid bits of `ACC`, the oldest in
the highest used bit. -/
def Output.bits (o : Output) : List Bool :=
  (List.range o.len.toNat).flatMap (fun a => bitsOfByte (o.byte a)) ++ bitsOf o.accN.val o.acc.toNat

/-- `n` more bits can be put without filling the OUT memory past its end (R182). -/
abbrev Output.hasRoom (o : Output) (cap : Word) (n : Nat) : Prop :=
  (8 * o.len.toNat + o.accN.val + n) / 8 ≤ cap.toNat

/-- What putting the bits `new` does to the output side (R181 to R183): they follow the stream, OUT bytes below the old
length and at or above the new one stay, and those between are written. -/
structure Output.Appends (o o' : Output) (new : List Bool) : Prop where
  bits : o'.bits = o.bits ++ new
  count : 8 * o'.len.toNat + o'.accN.val = 8 * o.len.toNat + o.accN.val + new.length
  epoch : o'.epoch = o.epoch
  outside : ∀ a, a < o.len.toNat ∨ o'.len.toNat ≤ a → o'.mem.read a = o.mem.read a
  inside : ∀ a, o.len.toNat ≤ a → a < o'.len.toNat → (o'.mem.read a).isSome = true

/-! ### Legal registers and memories -/

/-- A memory whose listed addresses lie below `cap`. -/
def Memory.below (m : Memory) (cap : Nat) : Bool := m.all fun c => decide (c.1 < cap)

/-- The values registers and engine fields can hold (10_state.md R35, R36, R38, R42, R53, R56, R59). -/
structure State.LegalRegisters (s : State) : Prop where
  /-- `ERR` holds 0 or a code this block raises (R380). -/
  err : s.err ∈ [0, 3, 4, 5, 6, 8]
  /-- Reserved bits of `OPT` read 0 (R33, R36). -/
  opt : s.opt &&& 0xFFFF00F8 = 0
  /-- `IN_LEN` is at most `IN_CAP` (R38). -/
  inLen : s.inp.len ≤ s.params.inCap
  /-- `OUT_LEN` is at most `OUT_CAP` (R42). -/
  outLen : s.out.len ≤ s.params.outCap
  /-- Only the valid bits of `ACC` can be 1 (R53). -/
  acc : s.out.acc.toNat < 2 ^ s.out.accN.val
  /-- `ML` is 0 or 2..60 (R56, R233). -/
  ml : s.win.ml = 0 ∨ (2 ≤ s.win.ml.toNat ∧ s.win.ml.toNat ≤ 60)
  /-- `MP` is 0 when there is no match (R233). -/
  mp : s.win.ml = 0 → s.win.mp = 0
  /-- `NEXT` is 258..4096 (R59). -/
  next : 258 ≤ s.lzw.next ∧ s.lzw.next ≤ 4096

/-- What the memories hold (20_memory.md R80, R81): both in canonical form and inside their sizes, and every valid OUT
byte is one the block wrote. -/
structure State.LegalMemories (s : State) : Prop where
  inWf : s.inp.mem.wf = true
  inBelow : Memory.below s.inp.mem s.params.inCap.toNat = true
  outWf : s.out.mem.wf = true
  outBelow : Memory.below s.out.mem s.params.outCap.toNat = true
  outValid : ∀ a, a < s.out.len.toNat → (s.out.mem.read a).isSome = true

/-! ### The Huffman tree (43_huffman.md R250 to R253, R259) -/

/-- A slot is a child of the pair that starts at slot `c`. -/
abbrev childOf (s : Slot) (c : Fin 628) : Prop := s = c.castSucc ∨ s = c.succ

/-- R259 with the shape R250, R252 and R253 give the tree. -/
structure HufTree.Sound (t : HufTree) : Prop where
  /-- (a) `FREQ[0] ≤ … ≤ FREQ[T−1]`. -/
  sorted : ∀ c : Fin 628, t.freq.get c.castSucc ≤ t.freq.get c.succ
  /-- (b) An internal node's frequency is the sum of its children's. -/
  sum : ∀ (s : Slot) (c : Fin 628), t.son.get s = .node c →
    (t.freq.get s).toNat = (t.freq.get c.castSucc).toNat + (t.freq.get c.succ).toNat
  /-- (c) `PARENT` is the inverse of `SON`. -/
  parentSon : ∀ (s : Slot) (c : Fin 628), t.son.get s = .node c →
    t.parent.get c.castSucc = s ∧ t.parent.get c.succ = s
  /-- (c) `LEAF` is the inverse of `SON`. -/
  leafSon : ∀ (s : Slot) (y : Sym), t.son.get s = .leaf y → t.leaf.get y = s
  /-- (d) Every symbol has a leaf (one, by `leafSon`). -/
  leafOf : ∀ y : Sym, t.son.get (t.leaf.get y) = .leaf y
  /-- (e) `FREQ[ROOT] ≤ MAX_FREQ`. -/
  rootFreq : (t.freq.get 628).toNat ≤ 0x8000
  /-- Every slot but the root's is a child of its parent (R250, R252). -/
  child : ∀ s : Slot, s ≠ 628 → ∃ c : Fin 628, t.son.get (t.parent.get s) = .node c ∧ childOf s c
  /-- Children lie in lower slots than their parent (R252). -/
  lower : ∀ (s : Slot) (c : Fin 628), t.son.get s = .node c → c.val + 1 < s.val
  /-- `SON` of every internal node is even (R253). -/
  even : ∀ (s : Slot) (c : Fin 628), t.son.get s = .node c → c.val % 2 = 0
  /-- Every frequency is at least 1 (R257). -/
  positive : ∀ s : Slot, 1 ≤ (t.freq.get s).toNat
  /-- `PARENT[ROOT]` is 0 (R252). -/
  rootParent : t.parent.get 628 = 0

/-- The frequency of a symbol: that of its leaf. -/
def HufTree.weight (t : HufTree) (y : Sym) : Nat := (t.freq.get (t.leaf.get y)).toNat

/-- The walk of branch bits from slot `s` down (R253): the symbol of the leaf where exactly these bits end. -/
def HufTree.walk (t : HufTree) (s : Slot) : List Bool → Option Sym
  | [] =>
    match t.son.get s with
    | .leaf y => some y
    | .node _ => none
  | b :: bits =>
    match t.son.get s with
    | .leaf _ => none
    | .node c => t.walk (if b then c.succ else c.castSucc) bits

/-! ### The match index (42_window.md R210, R212) -/

/-- The links form a set of trees (R55, R210): parents and children agree, and no walk over `DAD` returns. -/
structure Window.Linked (w : Window) : Prop where
  /-- An indexed position is a child of its parent. -/
  dadChild : ∀ (p : Pos) (x : Node), w.dad.get p = some x → w.right x = some p ∨ w.left x = some p
  /-- The right child of a node in the index, or of a pseudo-node, has it as parent. -/
  rightDad : ∀ (p q : Pos), w.indexed q = true → w.rson.get q = some p → w.dad.get p = some (.pos q)
  /-- The left child of a node in the index has it as parent. -/
  leftDad : ∀ (p q : Pos), w.indexed q = true → w.lson.get q = some p → w.dad.get p = some (.pos q)
  rootDad : ∀ (p : Pos) (c : Byte), w.root.get c.toFin = some p → w.dad.get p = some (.rootn c)
  /-- No position is both children of one node. -/
  oneSide : ∀ (p q : Pos), w.indexed q = true → w.lson.get q = some p → w.rson.get q ≠ some p
  /-- A parent is in the index. -/
  dadIndexed : ∀ p q : Pos, w.dad.get p = some (.pos q) → w.indexed q = true
  /-- No cycle. -/
  acyclic : ∃ rank : Pos → Nat, ∀ p q : Pos, w.dad.get p = some (.pos q) → rank q < rank p

/-- Position `q` lies in the subtree under position `p`. -/
inductive Window.Under (w : Window) : Pos → Pos → Prop where
  | self (p : Pos) : Under w p p
  | step (p q d : Pos) : w.dad.get q = some (.pos d) → Under w p d → Under w p q

/-- Position `q` is in the tree of first byte `c`. -/
def Window.InTree (w : Window) (c : Byte) (q : Pos) : Prop :=
  ∃ p, w.root.get c.toFin = some p ∧ w.Under p q

/-- The order of the keys of two positions of one tree (R211): lexicographic, bytes as unsigned numbers. -/
def Window.keyOrder (w : Window) (q p : Pos) : Ordering := (w.compare q p).2

/-- The order invariant (R212): every node is in the tree of its first byte; left of a node lie smaller keys, right of
it greater or equal ones. -/
structure Window.Ordered (w : Window) : Prop where
  firstByte : ∀ (c : Byte) (q : Pos), w.InTree c q → w.win.get q = c
  leftSmaller : ∀ p l q : Pos, w.indexed p = true → w.lson.get p = some l → w.Under l q → w.keyOrder q p = .lt
  rightNotSmaller : ∀ p r q : Pos, w.indexed p = true → w.rson.get p = some r → w.Under r q → w.keyOrder q p ≠ .lt
  /-- Only one position per key is kept (R218). -/
  oneKey : ∀ (c : Byte) (p q : Pos), w.InTree c p → w.InTree c q → w.keyOrder q p = .eq → q = p

/-- The keys of two positions agree in their first `n` bytes (R211). -/
abbrev Window.Agree (w : Window) (p q : Pos) (n : Nat) : Prop := ∀ i, i < n → w.keyByte p i = w.keyByte q i

/-- The nodes that the descent of `Insert(p)` and `Find(p)` visits (R215, R216): the root of the tree of `WIN[p]`, and
after a node whose key does not match in full its right child (`cmp ≥ 0`) or its left one. -/
inductive Window.Visits (w : Window) (p : Pos) : Pos → Prop where
  | root (q : Pos) : w.root.get (w.win.get p).toFin = some q → Visits w p q
  | right (q q' : Pos) : Visits w p q → (w.compare p q).1 < 60 → w.keyOrder p q ≠ .lt → w.rson.get q = some q' →
    Visits w p q'
  | left (q q' : Pos) : Visits w p q → w.keyOrder p q = .lt → w.lson.get q = some q' → Visits w p q'

/-- `MP`, `ML` are the smallest distance with the longest length among the visited nodes that share 2 bytes or more, or
both 0 where there is none (R214, R215). -/
structure Window.BestVisited (w : Window) (p : Pos) (ml mp : Nat) : Prop where
  best : ∀ q, w.Visits p q → 2 ≤ (w.compare p q).1 →
    (w.compare p q).1 < ml ∨ ((w.compare p q).1 = ml ∧ mp ≤ distance p q)
  reached : (ml = 0 ∧ mp = 0) ∨
    (2 ≤ ml ∧ ∃ q, w.Visits p q ∧ (w.compare p q).1 = ml ∧ mp = distance p q ∧ q = source p mp)

/-- The left links from a node on end at `e`: the node of its subtree that is first in key order. -/
inductive Window.LeftEnd (w : Window) : Pos → Pos → Prop where
  | here (p : Pos) : w.lson.get p = none → LeftEnd w p p
  | left (p q e : Pos) : w.lson.get p = some q → LeftEnd w q e → LeftEnd w p e

/-- The right links from a node on end at `e`: the node of its subtree that is last in key order. -/
inductive Window.RightEnd (w : Window) : Pos → Pos → Prop where
  | here (p : Pos) : w.rson.get p = none → RightEnd w p p
  | right (p q e : Pos) : w.rson.get p = some q → RightEnd w q e → RightEnd w p e

/-- What takes the place of `p` when it is deleted (R219): nothing, its only child, or for two children the in-order
successor or predecessor (R221). -/
inductive Window.Replacement (w : Window) : DelMode → Pos → Option Pos → Prop where
  | noRight (m : DelMode) (p : Pos) : w.rson.get p = none → Replacement w m p (w.lson.get p)
  | noLeft (m : DelMode) (p r : Pos) : w.lson.get p = none → w.rson.get p = some r → Replacement w m p (some r)
  | succ (p l r q : Pos) : w.lson.get p = some l → w.rson.get p = some r → w.LeftEnd r q →
    Replacement w .succ p (some q)
  | pred (p l r q : Pos) : w.lson.get p = some l → w.rson.get p = some r → w.RightEnd l q →
    Replacement w .pred p (some q)

/-- The links after node `p`, the child of `x`, was deleted and `new` took its place (R219, R221). -/
structure Window.Deleted (w : Window) (m : DelMode) (p : Pos) (x : Node) (new : Option Pos) (w' : Window) : Prop where
  /-- The parent's link to `p` leads to the new node. -/
  link : if w.right x = some p then w'.right x = new else w'.left x = new
  /-- The new node's parent is the parent of `p`. -/
  dad : ∀ q, new = some q → w'.dad.get q = some x
  /-- For two children the new node takes those of `p`, and its own only child takes its old place. -/
  succ : ∀ l r q, m = .succ → w.lson.get p = some l → w.rson.get p = some r → new = some q →
    w'.lson.get q = some l ∧ (q = r → w'.rson.get q = w.rson.get q) ∧
    (q ≠ r → w'.rson.get q = some r ∧ ∀ d, w.dad.get q = some (.pos d) → w'.lson.get d = w.rson.get q)
  pred : ∀ l r q, m = .pred → w.lson.get p = some l → w.rson.get p = some r → new = some q →
    w'.rson.get q = some r ∧ (q = l → w'.lson.get q = w.lson.get q) ∧
    (q ≠ l → w'.lson.get q = some l ∧ ∀ d, w.dad.get q = some (.pos d) → w'.rson.get d = w.lson.get q)
  /-- The roots but the one above `p`, and the children of every position but `p`, its parent, the new node and that
  node's old parent, stay. -/
  roots : ∀ c : Byte, x ≠ .rootn c → w'.root.get c.toFin = w.root.get c.toFin
  others : ∀ z : Pos, z ≠ p → x ≠ .pos z → new ≠ some z → (∀ q, new = some q → w.dad.get q ≠ some (.pos z)) →
    w'.lson.get z = w.lson.get z ∧ w'.rson.get z = w.rson.get z

/-! ### Expansion, symbol by symbol (44_lzss_codec.md R310, R312) -/

/-- Where an expansion stands between two symbols: the tree, the window's bytes, the write position, the next bit, and
the bytes produced so far. -/
structure Expansion where
  tree : HufTree
  win : Table Byte 4096
  r : Pos
  pos : Nat
  bytes : List Byte

/-- The start of the decoding loop (R310) at bit `pos`, with a fill byte. -/
def Expansion.start (fill : Byte) (pos : Nat) : Expansion := ⟨.initial, (Window.initial fill).win, 4036, pos, []⟩

/-- Reading symbol `y` at `e`, for a match with the distance `d` (R310): the codeword by the tree as it stands, the
update, then the distance code by the same input. It leaves the tree `tree` and the next bit at `pos`. -/
structure Input.Reads (i : Input) (e : Expansion) (y : Sym) (d : Nat) (tree : HufTree) (pos : Nat) : Prop where
  updated : e.tree.update y = some tree
  codes : ∃ n, e.tree.walk 628 (i.bits e.pos n) = some y ∧
    if 256 ≤ y.val ∧ y.val < 314 then
      d < 4096 ∧ i.bits (e.pos + n) (distanceCode d).length = distanceCode d ∧
        pos = e.pos + n + (distanceCode d).length
    else pos = e.pos + n

/-- The bytes symbol `y` stands for at `e` (R312): itself, or the bytes from `d + 1` before the write position on, as
many as the match is long; what passes the write position is of the match itself. -/
def Expansion.Means (e : Expansion) (y : Sym) (d : Nat) (new : List Byte) : Prop :=
  if y.val < 256 then new = [BitVec.ofNat 8 y.val]
  else
    new.length = y.val - 254 ∧
    ∀ k, k < new.length →
      new[k]? = if k ≤ d then some (e.win.get (source e.r d + Fin.ofNat 4096 k)) else new[k - d - 1]?

/-- One more byte, in the window and on the output (R312). -/
def Expansion.put (e : Expansion) (b : Byte) : Expansion :=
  { e with win := e.win.set e.r b, r := e.r + 1, bytes := e.bytes ++ [b] }

/-- Some more bytes, one after the other. -/
def Expansion.putAll (e : Expansion) (new : List Byte) : Expansion := new.foldl Expansion.put e

/-- Zero or more symbols other than `EOS`, each begun before the end of the input (R310), lead from one point of an
expansion to another. -/
inductive Input.Expands (i : Input) : Expansion → Expansion → Prop where
  | none (e : Expansion) : Expands i e e
  | symbol (e e' : Expansion) (y : Sym) (d : Nat) (tree : HufTree) (pos : Nat) (new : List Byte) :
    e.pos < 8 * i.len.toNat → i.Reads e y d tree pos → y ≠ 314 → e.Means y d new →
    Expands i (Expansion.putAll { e with tree := tree, pos := pos } new) e' → Expands i e e'

/-- The declared size that four header bytes at IN address `a` spell (R303, R309). -/
def Input.sizeAt (i : Input) (a : Nat) : Nat :=
  (i.byte a).toNat + (i.byte (a + 1)).toNat * 2 ^ 8 + (i.byte (a + 2)).toNat * 2 ^ 16 + (i.byte (a + 3)).toNat * 2 ^ 24

/-! ### The LZW unit (45_lzw.md R342) -/

/-- The string R342 gives a code. -/
inductive Lzw.Spells (l : Lzw) : Nat → List Byte → Prop where
  | byte (k : Nat) : k < 256 → Spells l k [BitVec.ofNat 8 k]
  | entry (k : Nat) (str : List Byte) : 258 ≤ k → k < l.next → Spells l (l.prefixOf k).toNat str →
    Spells l k (str ++ [l.lastByte k])

/-! ### Legal command words (30_encoding.md R111, R113, R115) -/

/-- A row of R115: opcode, must-be-zero bits (R111), and the operand R113 checks as its lowest bit, its width and the
number of legal values. -/
structure Row where
  opcode : BitVec 8
  zero : Word
  low : Nat
  width : Nat
  count : Nat
deriving DecidableEq, Repr

/-- A row without an operand that R113 checks. -/
def unchecked (opcode : BitVec 8) (zero : Word) : Row := ⟨opcode, zero, 0, 0, 1⟩

/-- The rows of formats Z and Y, and `NOP` (R115). -/
def plainRows : List Row :=
  unchecked 0x00 0 :: unchecked 0x14 0x00FFFF00 :: unchecked 0x51 0x00FFFF00 ::
    [0x01, 0x02, 0x10, 0x13, 0x15, 0x16, 0x20, 0x30, 0x32, 0x35, 0x36, 0x40, 0x41, 0x50, 0x52, 0x53, 0x54, 0x55].map
      fun c => unchecked (BitVec.ofNat 8 c) 0x00FFFFFF

/-- The rows of R115. -/
def rows : List Row :=
  plainRows ++
  [⟨0x11, 0x00E0FFFF, 16, 5, 17⟩, ⟨0x12, 0x00E00000, 16, 5, 17⟩, ⟨0x21, 0x00FF0000, 0, 16, 4096⟩,
    ⟨0x22, 0, 0, 16, 4096⟩, ⟨0x23, 0x00FF0000, 0, 16, 4096⟩, ⟨0x24, 0x00FF0000, 0, 16, 4096⟩,
    ⟨0x25, 0x00FF0000, 0, 16, 4096⟩, ⟨0x31, 0x00FF0000, 0, 16, 315⟩, ⟨0x33, 0x00FF0000, 0, 16, 315⟩,
    ⟨0x34, 0x00FF0000, 0, 16, 4096⟩, ⟨0x37, 0x00FF0000, 0, 16, 629⟩]

/-- The word passes a row's format check (R111). -/
abbrev Row.formatOk (r : Row) (w : Word) : Prop := w &&& r.zero = 0

/-- The word passes a row's range check (R113). -/
abbrev Row.rangeOk (r : Row) (w : Word) : Prop := w.toNat / 2 ^ r.low % 2 ^ r.width < r.count

/-- "A command word is illegal when" R116 does not say so. -/
abbrev legalWord (w : Word) : Prop := ∃ r ∈ rows, r.opcode = opcodeOf w ∧ r.formatOk w ∧ r.rangeOk w

/-! ### Whole states -/

/-- Registers and memories are legal. -/
structure State.Legal (s : State) : Prop where
  registers : s.LegalRegisters
  memories : s.LegalMemories

/-- The state every run from reset keeps. -/
structure State.Sound (s : State) : Prop where
  tree : s.huf.Sound
  index : s.win.Linked

/-- The errors a command can raise (60_exceptions.md R381), by their codes. -/
def errorsOf : Instr → List Byte
  | .nop => []
  | .reset => []
  | .clrerr => []
  | .bitInit => []
  | .bitGet _ => [8]
  | .bitPut _ _ => [8, 5]
  | .bitGetByte => []
  | .bitPutByte _ => [5]
  | .bitCount => []
  | .bitFlush => [5]
  | .winInit => []
  | .winRd _ => [8]
  | .winWr _ _ => [8]
  | .winInsert _ => [8]
  | .winDelete _ => [8]
  | .winFind _ => [8]
  | .hufInit => []
  | .hufEnc _ => [8, 5]
  | .hufDec => []
  | .hufUpd _ => [8]
  | .hufEncPos _ => [8, 5]
  | .hufDecPos => []
  | .hufRescale => []
  | .hufPeek _ => [8]
  | .lzhCompress => [6, 5]
  | .lzhExpand => [6, 3, 5]
  | .lzwInit => []
  | .lzwEncByte _ => [5]
  | .lzwEncEnd => [5]
  | .lzwDecCode => [6, 4, 5]
  | .lzwCompress => [6, 5]
  | .lzwExpand => [6, 4, 5]

end Sys2Proof.Machine
end

