-- ==== Sys2Proof/Certificates/Slice0/Obligations.lean ====
section
/-! DEFINITION. The statements about the model, from the spec's numbered rules. A free value (Config) stands in none of
them but as the value a definition of the model gives, so that each holds whatever the free values are. -/

open Sys2Proof Sys2Proof.Machine

/-! ### Encoding (30_encoding.md) -/

/-- Words written out from the encodings of R111 and R115, one for each operand format and unit, and illegal ones. -/
def Obligations.DecodeWrittenWords : Prop :=
  decode 0x00ABCDEF#32 = .ok .nop ∧
  decode 0x01000000#32 = .ok .reset ∧
  decode 0x02000000#32 = .ok .clrerr ∧
  decode 0x110C0000#32 = .ok (.bitGet 12) ∧
  decode 0x12030005#32 = .ok (.bitPut 3 5) ∧
  decode 0x140000C3#32 = .ok (.bitPutByte 0xC3) ∧
  decode 0x22610003#32 = .ok (.winWr 3 0x61) ∧
  decode 0x2300012C#32 = .ok (.winInsert 300) ∧
  decode 0x3100013A#32 = .ok (.hufEnc 314) ∧
  decode 0x40000000#32 = .ok .lzhCompress ∧
  decode 0x51000042#32 = .ok (.lzwEncByte 0x42) ∧
  decode 0x03000000#32 = .error .opcode ∧
  decode 0xF0000000#32 = .error .opcode ∧
  decode 0x10000001#32 = .error .format ∧
  decode 0x11110000#32 = .error .range ∧
  decode 0x3100013B#32 = .error .range

/-- Decoding the word of a well-formed command gives the command back, every operand at every value (R110 to R115). -/
def Obligations.DecodeOfEncodeIsSame : Prop := ∀ i : Instr, i.wellFormed = true → decode (encode i) = .ok i

/-- Encoding what a word decodes to gives the word back, but for the hint space, all of which is `NOP` (R117). -/
def Obligations.EncodeOfDecodeIsSame : Prop :=
  ∀ (w : Word) (i : Instr), decode w = .ok i →
    i.wellFormed = true ∧ (opcodeOf w ≠ 0 → encode i = w) ∧ (opcodeOf w = 0 ↔ i = .nop)

/-- Which check of R386 a word fails first, over the rows of R115 as data: the opcode (R115), then the must-be-zero
fields (R111), then the operand range (R113); no two rows share an opcode. -/
def Obligations.DecodeRejectsByFirstFailedCheck : Prop :=
  (rows.map Row.opcode).Nodup ∧
  ∀ w : Word,
    (decode w = .error .opcode ↔ ∀ r ∈ rows, r.opcode ≠ opcodeOf w) ∧
    (decode w = .error .format ↔ ∃ r ∈ rows, r.opcode = opcodeOf w ∧ ¬ r.formatOk w) ∧
    (decode w = .error .range ↔ ∃ r ∈ rows, r.opcode = opcodeOf w ∧ r.formatOk w ∧ ¬ r.rangeOk w) ∧
    ((∃ i, decode w = .ok i) ↔ legalWord w)

/-! ### Executing a command word (40_control.md R160) -/

/-- When the host's next access (the pending accesses are the model's own list, log 2) is a write to `CMD` of a word that
decodes to `i`, the step is `exec i` in the state where that access is no longer pending (R34, R160); a word that does not
decode is handled as R116 says. -/
def Obligations.StepRunsDecodedCommand : Prop :=
  ∀ (s : State) (w : Word) (rest : List HostEvent), s.host = commandWrite s.params w :: rest →
    (∀ i, decode w = .ok i → step s = exec i { s with host := rest }) ∧
    (∀ e, decode w = .error e → step s = .next (illegalWord w { s with host := rest }))

/-- An illegal command word (R116, over the rows of R115) in a state without an error: the error entry of R384 with
`IllegalCommand`, and no other change. -/
def Obligations.IllegalWordEntersError : Prop :=
  ∀ (s : State) (w : Word), s.err = 0 → ¬ legalWord w →
    ∃ t, issue w s = .next t ∧ t.err = 8 ∧ t.out.len = 0 ∧ t.out.acc = 0 ∧ t.out.accN = 0 ∧
      t.out.mem = s.out.mem ∧ t = { s with err := t.err, out := t.out }

/-- The life of `ERR` (R48, R160): while it is not 0, a command other than `NOP`, `RESET` and `CLRERR`, and every word with
another opcode, changes nothing; and a step that changes it clears it, in a power-on, or in a write to `CMD` of a word of `RESET` or `CLRERR`. -/
def Obligations.ErrorStateIgnoresCommands : Prop :=
  ∀ s : State, s.err ≠ 0 →
    (∀ i : Instr, i ≠ .nop → i ≠ .reset → i ≠ .clrerr → exec i s = .next s) ∧
    (∀ w : Word, opcodeOf w ≠ 0 → opcodeOf w ≠ 1 → opcodeOf w ≠ 2 → issue w s = .next s) ∧
    ∀ t, step s = .next t → t.err ≠ s.err →
      t.err = 0 ∧
      ((∃ rest, s.host = .powerOn :: rest) ∨
        ∃ w rest, s.host = commandWrite s.params w :: rest ∧ (decode w = .ok .reset ∨ decode w = .ok .clrerr))

/-- Every word of the hint space changes nothing, also while `ERR ≠ 0` (R117, R161). -/
def Obligations.NopChangesNothing : Prop :=
  (∀ s : State, exec .nop s = .next s) ∧ ∀ (s : State) (w : Word), opcodeOf w = 0 → issue w s = .next s

/-- `CLRERR` changes `ERR` only, whatever `ERR` is; with a non-zero operand field the word is illegal (R160, R162, R387,
R388): the error entry, which keeps a first code. -/
def Obligations.ClrerrClearsOnlyErr : Prop :=
  (∀ s : State, exec .clrerr s = .next { s with err := 0 }) ∧
  ∀ (s : State) (w : Word), opcodeOf w = 1 ∨ opcodeOf w = 2 → w.extractLsb' 0 24 ≠ 0 →
    ∃ t, issue w s = .next t ∧ t.err = (if s.err = 0 then 8 else s.err) ∧ t.out.len = 0 ∧ t.out.acc = 0 ∧
      t.out.accN = 0 ∧ t.out.mem = s.out.mem ∧ t = { s with err := t.err, out := t.out }

/-- `RESET` gives every register and engine element its reset value (R163, R410, R413), whatever `ERR` is; the IN bytes
stay (R411), and no OUT byte is valid. A power-on does the same, but the IN bytes are no longer those the host wrote: how
the model holds that (nothing listed) is its own choice (log 4). The parameters and the host's side are not the block's. -/
def Obligations.ResetGivesResetValues : Prop :=
  (∀ s : State, ∃ t, exec .reset s = .next t ∧
    t.err = 0 ∧ t.res0 = 0 ∧ t.res1 = 0 ∧ t.opt = 0x00002003#32 ∧ t.inOffset = 0 ∧ t.outOffset = 0 ∧
    t.maxExpanded = 0x40000000#32 ∧ t.inp = { s.inp with len := 0 } ∧ t.rd.pos = 0 ∧ t.rd.ovr = false ∧
    t.out.len = 0 ∧ t.out.acc = 0 ∧ t.out.accN = 0 ∧
    (∀ p, t.win.win.get p = 0x20#8 ∧ t.win.dad.get p = none ∧ t.win.lson.get p = none ∧ t.win.rson.get p = none) ∧
    (∀ c, t.win.root.get c = none) ∧ t.win.ml = 0 ∧ t.win.mp = 0 ∧
    t.huf = .initial ∧ t.lzw.next = 258 ∧ t.lzw.pfx = none ∧ t.lzw.started = false ∧ t.lzw.prev = none ∧
    t.lzw.done = false ∧ t.lzw.outCnt = 0 ∧ t.r = 4036 ∧
    t.params = s.params ∧ t.host = s.host ∧ t.hostData = s.hostData) ∧
  ∀ (s : State) (rest : List HostEvent), s.host = .powerOn :: rest →
    ∃ t u, step s = .next t ∧ exec .reset { s with host := rest } = .next u ∧
      t = { u with inp := t.inp, out := t.out } ∧ t.inp.len = 0 ∧ t.inp.mem = [] ∧
      t.out.len = 0 ∧ t.out.acc = 0 ∧ t.out.accN = 0

/-- The reset values of the register window (R32, R410), for every choice of the parameters (log 1). -/
def Obligations.ResetRegisterWindow : Prop :=
  ∀ p : Params,
    readReg (regAt 0x00) (State.resetWith p) = 0 ∧ readReg (regAt 0x04) (State.resetWith p) = 0 ∧
    readReg (regAt 0x08) (State.resetWith p) = 0 ∧ readReg (regAt 0x0C) (State.resetWith p) = 0 ∧
    readReg (regAt 0x10) (State.resetWith p) = 0x00002003#32 ∧
    readReg (regAt 0x14) (State.resetWith p) = 0x0C023C0C#32 ∧
    readReg (regAt 0x18) (State.resetWith p) = 0 ∧ readReg (regAt 0x1C) (State.resetWith p) = 0 ∧
    readReg (regAt 0x20) (State.resetWith p) = 0 ∧ readReg (regAt 0x24) (State.resetWith p) = 0x40000000#32 ∧
    readReg (regAt 0x28) (State.resetWith p) = 0 ∧ readReg (regAt 0x2C) (State.resetWith p) = 0 ∧
    readReg (regAt 0x30) (State.resetWith p) = 0 ∧ readReg (regAt 0x34) (State.resetWith p) = 258#32 ∧
    readReg (regAt 0x38) (State.resetWith p) = 4036#32 ∧ readReg (regAt 0x3C) (State.resetWith p) = p.inCap ∧
    readReg (regAt 0x40) (State.resetWith p) = p.outCap ∧
    ∀ off, 0x44 ≤ off → readReg (regAt off) (State.resetWith p) = 0

/-! ### Errors (60_exceptions.md) -/

/-- The error entry (R384, R47): a command that ends with an error discards the output and leaves `RES0`, `RES1` and `R` as
they were (that a failing `LZW_EXPAND` leaves `RES0` is the model's reading: log 15). -/
def Obligations.ErrorDiscardsOutput : Prop :=
  ∀ (i : Instr) (s t : State), s.err = 0 → exec i s = .next t → t.err ≠ 0 →
    t.out.len = 0 ∧ t.out.acc = 0 ∧ t.out.accN = 0 ∧ t.res0 = s.res0 ∧ t.res1 = s.res1 ∧ t.r = s.r

/-- Which command raises which error (R381, which the spec itself marks as its inference from the command rules of
40_control.md to 45_lzw.md): no other error appears in `ERR`. -/
def Obligations.ErrorsEachCommandRaises : Prop :=
  ∀ (i : Instr) (s t : State), s.err = 0 → exec i s = .next t → t.err = 0 ∨ t.err ∈ errorsOf i

/-! ### What commands leave alone -/

/-- No command but `RESET` changes a register the host writes, and none changes the IN bytes, the parameters or the
host's pending accesses (R38, R80, R91). -/
def Obligations.FrameHostSide : Prop :=
  ∀ (i : Instr) (s t : State), exec i s = .next t →
    t.params = s.params ∧ t.host = s.host ∧ t.hostData = s.hostData ∧ t.inp.mem = s.inp.mem ∧
    (∀ a, t.inp.byte a = s.inp.byte a) ∧
    (i ≠ .reset → t.opt = s.opt ∧ t.inp.len = s.inp.len ∧ t.inOffset = s.inOffset ∧ t.outOffset = s.outOffset ∧
      t.maxExpanded = s.maxExpanded)

/-- Commands that only read bits or engine contents (`BIT_GET`, `BIT_GETBYTE`, `BIT_COUNT`, `HUF_DEC`, `HUF_DECPOS`,
`WIN_RD`, `HUF_PEEK`): the result registers and the read cursor are all they change without an error; every OUT byte
stays. -/
def Obligations.FrameReadingCommands : Prop :=
  ∀ (n : BitVec 5) (x : BitVec 16) (s t : State),
    exec (.bitGet n) s = .next t ∨ exec .bitGetByte s = .next t ∨ exec .bitCount s = .next t ∨
      exec .hufDec s = .next t ∨ exec .hufDecPos s = .next t ∨ exec (.winRd x) s = .next t ∨
      exec (.hufPeek x) s = .next t →
    t = { s with err := t.err, res0 := t.res0, res1 := t.res1, rd := t.rd, out := t.out } ∧
    t.out.mem = s.out.mem ∧ (t.err = s.err → t.out = s.out)

/-- Commands that append to the output (`BIT_PUT`, `BIT_PUTBYTE`, `BIT_FLUSH`, `HUF_ENC`, `HUF_ENCPOS`, and with the LZW
unit `LZW_ENCBYTE`, `LZW_ENCEND`): the output side, and for the last two the LZW unit, are all they change; OUT bytes
below the old `OUT_LEN`, and without an error those at or above the new one, stay. -/
def Obligations.FrameWritingCommands : Prop :=
  ∀ (n : BitVec 5) (v x : BitVec 16) (b : Byte) (s t : State),
    exec (.bitPut n v) s = .next t ∨ exec (.bitPutByte b) s = .next t ∨ exec .bitFlush s = .next t ∨
      exec (.hufEnc x) s = .next t ∨ exec (.hufEncPos x) s = .next t ∨ exec (.lzwEncByte b) s = .next t ∨
      exec .lzwEncEnd s = .next t →
    t = { s with err := t.err, out := t.out, lzw := t.lzw } ∧
    (exec (.lzwEncByte b) s ≠ .next t → exec .lzwEncEnd s ≠ .next t → t.lzw = s.lzw) ∧
    (s.out.len ≤ s.params.outCap →
      (∀ a, a < s.out.len.toNat → t.out.mem.read a = s.out.mem.read a) ∧
      (t.err = s.err → ∀ a, t.out.len.toNat ≤ a → t.out.mem.read a = s.out.mem.read a))

/-- The window commands: only the window, the match index, the match result and the result registers change, and no OUT
byte; `WIN_DELETE` and `WIN_WR` leave the match result and the result registers, and only `WIN_INIT` and `WIN_WR` change
a window byte. -/
def Obligations.FrameWindowCommands : Prop :=
  ∀ (x : BitVec 16) (b : Byte) (s t : State),
    exec .winInit s = .next t ∨ exec (.winWr x b) s = .next t ∨ exec (.winInsert x) s = .next t ∨
      exec (.winDelete x) s = .next t ∨ exec (.winFind x) s = .next t →
    t = { s with err := t.err, res0 := t.res0, res1 := t.res1, win := t.win, out := t.out } ∧
    t.out.mem = s.out.mem ∧ (t.err = s.err → t.out = s.out) ∧
    (exec (.winDelete x) s = .next t ∨ exec (.winWr x b) s = .next t →
      t.res0 = s.res0 ∧ t.res1 = s.res1 ∧ t.win.ml = s.win.ml ∧ t.win.mp = s.win.mp) ∧
    (exec (.winInsert x) s = .next t ∨ exec (.winDelete x) s = .next t ∨ exec (.winFind x) s = .next t →
      t.win.win = s.win.win)

/-- `HUF_INIT`, `HUF_UPD` and `HUF_RESCALE` change the tree only; `LZW_INIT` and `LZW_DECCODE` nothing of the window, the
tree and `R`; the LZSS codec commands leave the LZW unit alone, the LZW codec commands the window, the tree and `R`. None
of the first four changes an OUT byte, and `LZW_DECCODE` none below the old `OUT_LEN`. -/
def Obligations.FrameTreeAndTableCommands : Prop :=
  ∀ (x : BitVec 16) (s t : State),
    (exec .hufInit s = .next t ∨ exec (.hufUpd x) s = .next t ∨ exec .hufRescale s = .next t →
      t = { s with err := t.err, huf := t.huf, out := t.out } ∧ t.out.mem = s.out.mem ∧
      (t.err = s.err → t.out = s.out)) ∧
    (exec .lzwInit s = .next t → t = { s with lzw := t.lzw }) ∧
    (exec .lzwDecCode s = .next t →
      t = { s with err := t.err, res0 := t.res0, rd := t.rd, lzw := t.lzw, out := t.out } ∧
      (s.out.len ≤ s.params.outCap →
        (∀ a, a < s.out.len.toNat → t.out.mem.read a = s.out.mem.read a) ∧
        (t.err = s.err → ∀ a, t.out.len.toNat ≤ a → t.out.mem.read a = s.out.mem.read a))) ∧
    (exec .lzhCompress s = .next t ∨ exec .lzhExpand s = .next t → t.lzw = s.lzw) ∧
    (exec .lzwCompress s = .next t ∨ exec .lzwExpand s = .next t →
      t.win = s.win ∧ t.huf = s.huf ∧ t.r = s.r)

/-! ### The bit engine (41_bitio.md) -/

/-- `BIT_GET n` for `n ≤ 16` and `BIT_GETBYTE` (R183, R185, R187): `RES0` holds the next bits, the first one most
significant and nothing above them; the cursor advances; `RDOVR` is set when a bit was past the end. `BIT_GET` with
`n > 16` raises `IllegalCommand` and changes nothing else. -/
def Obligations.BitGetReadsNextBits : Prop :=
  ∀ s : State, s.err = 0 →
    (∀ n : BitVec 5, n.toNat ≤ 16 → ∃ t, exec (.bitGet n) s = .next t ∧
      t = { s with res0 := t.res0, rd := t.rd } ∧
      (∀ k, k < n.toNat → t.res0.getLsbD (n.toNat - 1 - k) = s.inp.bit (s.rd.pos + k)) ∧
      t.res0.toNat < 2 ^ n.toNat ∧ t.rd.pos = s.rd.pos + n.toNat ∧
      t.rd.ovr = (s.rd.ovr || decide (0 < n.toNat ∧ 8 * s.inp.len.toNat < s.rd.pos + n.toNat))) ∧
    (∃ t, exec .bitGetByte s = .next t ∧ t = { s with res0 := t.res0, rd := t.rd } ∧
      (∀ k, k < 8 → t.res0.getLsbD (7 - k) = s.inp.bit (s.rd.pos + k)) ∧ t.res0.toNat < 256 ∧
      t.rd.pos = s.rd.pos + 8 ∧ t.rd.ovr = (s.rd.ovr || decide (8 * s.inp.len.toNat < s.rd.pos + 8))) ∧
    (∀ n : BitVec 5, 16 < n.toNat → exec (.bitGet n) s = .next (errorEntry .illegalCommand s))

/-- `BIT_PUT n, v` for `n ≤ 16`, `BIT_PUTBYTE b` and `BIT_FLUSH` (R181 to R183, R186, R188, R190), when the completed bytes
fit: the bits `v[n−1]` to `v[0]`, or `b[7]` to `b[0]`, or zero bits up to the next whole byte, follow the output stream,
and nothing else changes. -/
def Obligations.BitPutAppendsBits : Prop :=
  ∀ s : State, s.err = 0 →
    (∀ (n : BitVec 5) (v : BitVec 16), n.toNat ≤ 16 → s.out.hasRoom s.params.outCap n.toNat →
      ∃ t new, exec (.bitPut n v) s = .next t ∧ t = { s with out := t.out } ∧ s.out.Appends t.out new ∧
        new.length = n.toNat ∧ ∀ k, k < n.toNat → new[k]? = some (v.getLsbD (n.toNat - 1 - k))) ∧
    (∀ b : Byte, s.out.hasRoom s.params.outCap 8 →
      ∃ t new, exec (.bitPutByte b) s = .next t ∧ t = { s with out := t.out } ∧ s.out.Appends t.out new ∧
        new.length = 8 ∧ ∀ k, k < 8 → new[k]? = some (b.getLsbD (7 - k))) ∧
    (s.out.len ≤ s.params.outCap → s.out.accN = 0 ∨ s.out.len ≠ s.params.outCap →
      ∃ t, exec .bitFlush s = .next t ∧ t = { s with out := t.out } ∧
        s.out.Appends t.out (List.replicate ((8 - s.out.accN.val) % 8) false) ∧ t.out.accN = 0)

/-- `SizeExceeded` when a completed byte does not fit (R182, R186, R188, R190, R384); `BIT_PUT` with `n > 16` raises
`IllegalCommand`. -/
def Obligations.BitPutErrorsWhenFull : Prop :=
  ∀ s : State, s.err = 0 → s.out.len ≤ s.params.outCap →
    (∀ (n : BitVec 5) (v : BitVec 16), n.toNat ≤ 16 → ¬ s.out.hasRoom s.params.outCap n.toNat →
      ∃ t, exec (.bitPut n v) s = .next t ∧ t = { s with err := 5, out := t.out } ∧ t.out.len = 0 ∧ t.out.acc = 0 ∧
        t.out.accN = 0) ∧
    (∀ b : Byte, ¬ s.out.hasRoom s.params.outCap 8 →
      ∃ t, exec (.bitPutByte b) s = .next t ∧ t = { s with err := 5, out := t.out } ∧ t.out.len = 0 ∧ t.out.acc = 0 ∧
        t.out.accN = 0) ∧
    (s.out.accN ≠ 0 → s.out.len = s.params.outCap →
      ∃ t, exec .bitFlush s = .next t ∧ t = { s with err := 5, out := t.out } ∧ t.out.len = 0 ∧ t.out.acc = 0 ∧
        t.out.accN = 0) ∧
    (∀ (n : BitVec 5) (v : BitVec 16), 16 < n.toNat → exec (.bitPut n v) s = .next (errorEntry .illegalCommand s))

/-- The four init commands: `BIT_INIT` (R184), `WIN_INIT` (R213, R230), `HUF_INIT` (R251, R270) slot by slot, and
`LZW_INIT` (R340, R345), which leaves the table entries' contents. -/
def Obligations.InitCommandsGiveInitialState : Prop :=
  ∀ s : State, s.err = 0 →
    (∃ t, exec .bitInit s = .next t ∧ t = { s with rd := t.rd, out := t.out } ∧ t.rd.pos = 8 * s.inOffset.toNat ∧
      t.rd.ovr = false ∧ t.out.len = 0 ∧ t.out.acc = 0 ∧ t.out.accN = 0 ∧ t.out.mem = s.out.mem) ∧
    (∃ t, exec .winInit s = .next t ∧ t = { s with win := t.win } ∧
      (∀ p, t.win.win.get p = s.opt.extractLsb' 8 8 ∧ t.win.dad.get p = none ∧ t.win.lson.get p = none ∧
        t.win.rson.get p = none) ∧
      (∀ c, t.win.root.get c = none) ∧ t.win.ml = 0 ∧ t.win.mp = 0) ∧
    (∃ t, exec .hufInit s = .next t ∧ t = { s with huf := t.huf } ∧
      (∀ y : Sym, t.huf.freq.get (slot y.val) = 1 ∧ t.huf.son.get (slot y.val) = .leaf y ∧
        t.huf.leaf.get y = slot y.val) ∧
      (∀ j, 315 ≤ j → j ≤ 628 →
        (t.huf.freq.get (slot j)).toNat =
          (t.huf.freq.get (slot (2 * (j - 315)))).toNat + (t.huf.freq.get (slot (2 * (j - 315) + 1))).toNat ∧
        (t.huf.son.get (slot j)).toNat = 2 * (j - 315) ∧
        t.huf.parent.get (slot (2 * (j - 315))) = slot j ∧ t.huf.parent.get (slot (2 * (j - 315) + 1)) = slot j) ∧
      t.huf.parent.get 628 = 0 ∧ (t.huf.freq.get 628).toNat = 315 ∧ (t.huf.son.get 628).toNat = 626) ∧
    exec .lzwInit s = .next { s with lzw := { s.lzw with
      next := 258, pfx := none, started := false, prev := none, done := false, outCnt := 0 } }

/-! ### The window and the match index (42_window.md) -/

/-- What shows internal state (R400): `BIT_COUNT` (R189), `WIN_RD` (R231) and `HUF_PEEK` (R276) change the result registers
only; and `WIN_WR` (R232) one window byte only. An operand out of range is `IllegalCommand` (R113, R381). -/
def Obligations.ShowCommandsAndRanges : Prop :=
  ∀ (s : State) (x : BitVec 16) (b : Byte), s.err = 0 →
    (∃ t, exec .bitCount s = .next t ∧ t = { s with res0 := t.res0, res1 := t.res1 } ∧
      t.res0.toNat = s.rd.pos % 2 ^ 32 ∧ t.res1.toNat = s.rd.pos / 2 ^ 32 % 2 ^ 32) ∧
    (∀ h : x.toNat < 4096,
      exec (.winRd x) s = .next { s with res0 := (s.win.win.get ⟨x.toNat, h⟩).setWidth 32 } ∧
      ∃ t, exec (.winWr x b) s = .next t ∧ t = { s with win := { s.win with win := t.win.win } } ∧
        t.win.win.get ⟨x.toNat, h⟩ = b ∧ ∀ q : Pos, q.val ≠ x.toNat → t.win.win.get q = s.win.win.get q) ∧
    (∀ h : x.toNat < 629, ∃ t, exec (.hufPeek x) s = .next t ∧ t = { s with res0 := t.res0, res1 := t.res1 } ∧
      t.res0.toNat = (s.huf.freq.get ⟨x.toNat, h⟩).toNat ∧ t.res1.toNat = (s.huf.son.get ⟨x.toNat, h⟩).toNat) ∧
    (4096 ≤ x.toNat →
      exec (.winRd x) s = .next (errorEntry .illegalCommand s) ∧
      exec (.winWr x b) s = .next (errorEntry .illegalCommand s) ∧
      exec (.winInsert x) s = .next (errorEntry .illegalCommand s) ∧
      exec (.winDelete x) s = .next (errorEntry .illegalCommand s) ∧
      exec (.winFind x) s = .next (errorEntry .illegalCommand s) ∧
      exec (.hufEncPos x) s = .next (errorEntry .illegalCommand s)) ∧
    (629 ≤ x.toNat → exec (.hufPeek x) s = .next (errorEntry .illegalCommand s)) ∧
    (315 ≤ x.toNat →
      exec (.hufEnc x) s = .next (errorEntry .illegalCommand s) ∧
      exec (.hufUpd x) s = .next (errorEntry .illegalCommand s))

/-- `WIN_INSERT x` for a position that is not in the index (R214, R216, R218, R233): it completes; the position is in
the index and the links are again a set of trees; `RES0`, `RES1` are the match length and distance; a match of 2 or more
bytes agrees with the bytes at its source; only a full match takes another position out of the index, one with the same
key. `Compare` skips byte 0 (R211): that this byte agrees too, at the source and in the key, is said of a window whose
trees are search trees (R212). -/
def Obligations.WinInsertIndexesPosition : Prop :=
  ∀ (s : State) (x : BitVec 16), s.err = 0 → (h : x.toNat < 4096) → s.win.Linked →
    s.win.indexed ⟨x.toNat, h⟩ = false →
    ∃ t, exec (.winInsert x) s = .next t ∧ t = { s with res0 := t.res0, res1 := t.res1, win := t.win } ∧
      t.win.win = s.win.win ∧ t.win.Linked ∧ t.win.indexed ⟨x.toNat, h⟩ = true ∧
      t.res0.toNat = t.win.ml.toNat ∧ t.res1.toNat = t.win.mp.toNat ∧
      (t.win.ml = 0 ∧ t.win.mp = 0 ∨
        2 ≤ t.win.ml.toNat ∧ t.win.ml.toNat ≤ 60 ∧
        (∀ i, 1 ≤ i → i < t.win.ml.toNat →
          s.win.keyByte ⟨x.toNat, h⟩ i = s.win.keyByte (source ⟨x.toNat, h⟩ t.win.mp.toNat) i) ∧
        (s.win.Ordered → s.win.Agree ⟨x.toNat, h⟩ (source ⟨x.toNat, h⟩ t.win.mp.toNat) t.win.ml.toNat)) ∧
      (t.win.ml.toNat < 60 →
        ∀ q : Pos, q.val ≠ x.toNat → t.win.indexed q = s.win.indexed q) ∧
      (t.win.ml.toNat = 60 →
        ∃ p : Pos, s.win.indexed p = true ∧ t.win.indexed p = false ∧
          (∀ q : Pos, q.val ≠ x.toNat → q ≠ p → t.win.indexed q = s.win.indexed q) ∧
          (∀ i, 1 ≤ i → i < 60 → s.win.keyByte ⟨x.toNat, h⟩ i = s.win.keyByte p i) ∧
          (s.win.Ordered → s.win.Agree ⟨x.toNat, h⟩ p 60))

/-- `WIN_FIND x` for a position that is not in the index (R217, R235): it completes, leaves window and links as they
are, and its results are the ones `WIN_INSERT x` would give in the same state (the spec's inference in R217 from R216 and
R217). -/
def Obligations.WinFindGivesInsertResults : Prop :=
  ∀ (s : State) (x : BitVec 16), s.err = 0 → (h : x.toNat < 4096) → s.win.Linked →
    s.win.indexed ⟨x.toNat, h⟩ = false →
    ∃ t u, exec (.winFind x) s = .next t ∧ exec (.winInsert x) s = .next u ∧
      t = { s with res0 := t.res0, res1 := t.res1, win := { s.win with ml := t.win.ml, mp := t.win.mp } } ∧
      t.win.ml = u.win.ml ∧ t.win.mp = u.win.mp ∧ t.res0 = u.res0 ∧ t.res1 = u.res1 ∧
      t.res0.toNat = t.win.ml.toNat ∧ t.res1.toNat = t.win.mp.toNat

/-- `Find` leaves in `ML`, `MP` what `Insert` would in the same state (the spec's inference in R217), whatever the links
are; both refuse a position in the index with `IllegalCommand` before any write, and so do `WIN_INSERT` and `WIN_FIND` (R216, R217, R233, R235). -/
def Obligations.FindAsInsert : Prop :=
  (∀ (w w' : Window) (p : Pos), w.indexed p = false → w.insert p = .ok w' →
    w.find p = .ok { w with ml := w'.ml, mp := w'.mp }) ∧
  ∀ (s : State) (x : BitVec 16), s.err = 0 → (h : x.toNat < 4096) → s.win.indexed ⟨x.toNat, h⟩ = true →
    exec (.winInsert x) s = .next (errorEntry .illegalCommand s) ∧
    exec (.winFind x) s = .next (errorEntry .illegalCommand s)

/-- `WIN_DELETE x` (R219, R221, R234), for either `DEL_MODE`: it completes; the position is not in the index, every
other one is where it was in or out of the index, and the links are again a set of trees; its place goes to nothing, to
its only child, or for two children to the in-order successor (`SUCC`) or predecessor (`PRED`), with the links as the two
rules write them; a position that was not in the index leaves the state as it is. -/
def Obligations.WinDeleteRemovesPosition : Prop :=
  ∀ (s : State) (x : BitVec 16), s.err = 0 → (h : x.toNat < 4096) → s.win.Linked →
    ∃ t, exec (.winDelete x) s = .next t ∧
      t = { s with win := { s.win with dad := t.win.dad, lson := t.win.lson, rson := t.win.rson, root := t.win.root } } ∧
      t.win.Linked ∧ t.win.indexed ⟨x.toNat, h⟩ = false ∧
      (∀ q : Pos, q.val ≠ x.toNat → t.win.indexed q = s.win.indexed q) ∧
      (s.win.indexed ⟨x.toNat, h⟩ = false → t = s) ∧
      ∀ y : Node, s.win.dad.get ⟨x.toNat, h⟩ = some y →
        ∃ new, s.win.Replacement s.params.delMode ⟨x.toNat, h⟩ new ∧
          s.win.Deleted s.params.delMode ⟨x.toNat, h⟩ y new t.win

/-- `Delete` reads no window byte and writes only links (the spec's inference R220 from R219 and R221): on a window with
other bytes and another match result it does the same to the links. -/
def Obligations.DeleteReadsNoByte : Prop :=
  ∀ (m : DelMode) (w w' : Window) (p : Pos) (bytes : Table Byte 4096) (ml : BitVec 6) (mp : BitVec 12),
    w.delete m p = .ok w' →
    w'.win = w.win ∧ w'.ml = w.ml ∧ w'.mp = w.mp ∧
    { w with win := bytes, ml := ml, mp := mp }.delete m p = .ok { w' with win := bytes, ml := ml, mp := mp }

/-- While no window byte changes, insertion and deletion keep every tree a binary search tree of its positions' keys
(R212), with one position per key (R218). -/
def Obligations.SearchOrderKept : Prop :=
  ∀ (w : Window) (p : Pos), w.Linked → w.Ordered →
    (∀ w', w.insert p = .ok w' → w'.Ordered) ∧ (∀ m w', w.delete m p = .ok w' → w'.Ordered)

/-- What `Find` and `Insert` leave in `ML`, `MP` (R214 to R217): among the nodes their descent visits the longest match
of 2 bytes or more, and of several the one with the smallest distance (R215). On search trees (R212) it is the longest
match: its source is in the tree of the first byte and agrees in `ML` bytes, byte 0 among them, and no position of that
tree shares more leading bytes, but for a share below `MIN_MATCH` (R211). -/
def Obligations.FindReturnsLongestMatch : Prop :=
  ∀ (w w' : Window) (p : Pos), w.Linked → w.find p = .ok w' ∨ w.insert p = .ok w' →
    w.BestVisited p w'.ml.toNat w'.mp.toNat ∧
    (w.Ordered →
      (w'.ml ≠ 0 → w.InTree (w.win.get p) (source p w'.mp.toNat) ∧ w.Agree p (source p w'.mp.toNat) w'.ml.toNat) ∧
      ∀ (q : Pos) (n : Nat), w.InTree (w.win.get p) q → n ≤ 60 → w.Agree p q n → n ≤ w'.ml.toNat ∨ n < 2)

/-! ### The Huffman tree and the distance code (43_huffman.md) -/

/-- `HUF_ENC x` (R127, R255, R271) on a sound tree: there is one sequence of branch bits that leads from the root to the
leaf of `x`, and when it fits the command appends it and changes nothing else. -/
def Obligations.HufEncWritesCodeword : Prop :=
  ∀ (s : State) (x : BitVec 16), s.err = 0 → (h : x.toNat < 315) → s.huf.Sound →
    ∃ bits, s.huf.walk 628 bits = some ⟨x.toNat, h⟩ ∧
      (∀ bits', s.huf.walk 628 bits' = some ⟨x.toNat, h⟩ → bits' = bits) ∧
      (s.out.hasRoom s.params.outCap bits.length →
        ∃ t, exec (.hufEnc x) s = .next t ∧ t = { s with out := t.out } ∧ s.out.Appends t.out bits)

/-- `HUF_DEC` (R256, R260, R272) on a sound tree: it completes; the bits it reads are the codeword of the symbol it
returns. With `HufEncWritesCodeword`: decoding what `HUF_ENC` wrote with the same tree gives the symbol back. -/
def Obligations.HufDecReadsCodeword : Prop :=
  ∀ s : State, s.err = 0 → s.huf.Sound →
    ∃ t y n, exec .hufDec s = .next t ∧ t = { s with res0 := t.res0, rd := t.rd } ∧ t.res0.toNat = y.val ∧
      s.huf.walk 628 (s.inp.bits s.rd.pos n) = some y ∧ t.rd.pos = s.rd.pos + n ∧
      t.rd.ovr = (s.rd.ovr || decide (0 < n ∧ 8 * s.inp.len.toNat < s.rd.pos + n))

/-- `HUF_UPD x` (R254, R258, R273) on a sound tree: it completes; the symbol's frequency grows by one and every other
symbol's stays, after the halving of R257 when the root's had reached `MAX_FREQ`; the tree is sound again. When it had not,
the symbol's leaf is afterwards in the last slot of its old frequency, and what was in that slot is in the leaf's old one:
one exchange, as R254 says. -/
def Obligations.HufUpdAddsOne : Prop :=
  ∀ (s : State) (x : BitVec 16), s.err = 0 → x.toNat < 315 → s.huf.Sound →
    ∃ t, exec (.hufUpd x) s = .next t ∧ t = { s with huf := t.huf } ∧ t.huf.Sound ∧
      (∀ y : Sym, t.huf.weight y =
        (if 0x8000 ≤ (s.huf.freq.get 628).toNat then (s.huf.weight y + 1) / 2 else s.huf.weight y) +
          if y.val = x.toNat then 1 else 0) ∧
      ((s.huf.freq.get 628).toNat < 0x8000 → ∀ y : Sym, y.val = x.toNat →
        s.huf.freq.get (t.huf.leaf.get y) = s.huf.freq.get (s.huf.leaf.get y) ∧
        (∀ c : Slot, s.huf.freq.get c = s.huf.freq.get (s.huf.leaf.get y) → c ≤ t.huf.leaf.get y) ∧
        t.huf.son.get (s.huf.leaf.get y) = s.huf.son.get (t.huf.leaf.get y))

/-- `HUF_RESCALE` (R257, R277) on a sound tree: it completes; every leaf frequency is halved, rounding up, the leaves
keep their order, and the tree is sound again. -/
def Obligations.HufRescaleHalves : Prop :=
  ∀ s : State, s.err = 0 → s.huf.Sound →
    ∃ t, exec .hufRescale s = .next t ∧ t = { s with huf := t.huf } ∧ t.huf.Sound ∧
      (∀ y : Sym, t.huf.weight y = (s.huf.weight y + 1) / 2) ∧
      ∀ y z : Sym, s.huf.leaf.get y < s.huf.leaf.get z → t.huf.leaf.get y < t.huf.leaf.get z

/-- The invariants of R259 hold after `HufInit`, and after every `HufUpdate` and `Rescale` of a tree they hold of; no update
fails to end. -/
def Obligations.TreeInvariantsHold : Prop :=
  HufTree.initial.Sound ∧
  ∀ t : HufTree, t.Sound → t.rescale.Sound ∧ ∀ y, ∃ t', t.update y = some t' ∧ t'.Sound

/-- The prefix tables as the spec supplies them (R128, R129, marked there as general knowledge; log 21): the lengths entry
by entry, a complete code, and `p_code` the canonical code of the lengths. -/
def Obligations.PrefixTablesComplete : Prop :=
  (List.range 64).map pLen =
    [3] ++ List.replicate 3 4 ++ List.replicate 8 5 ++ List.replicate 12 6 ++ List.replicate 24 7 ++ List.replicate 16 8 ∧
  ((List.range 64).map fun u => 2 ^ (8 - pLen u)).sum = 2 ^ 8 ∧
  pCode 0 = 0 ∧ ∀ u, u < 63 → pCode (u + 1) = pCode u + 2 ^ (8 - pLen u)

/-- `HUF_ENCPOS x` and `HUF_DECPOS` (R124, R261, R262, R274, R275): the first appends the `p_len` top bits of `p_code` of
the upper 6 bits and then the lower 6 bits; the second completes in every state and returns the distance whose code the
next bits are. -/
def Obligations.DistanceCodeWrittenAndRead : Prop :=
  ∀ s : State, s.err = 0 →
    (∀ x : BitVec 16, x.toNat < 4096 → s.out.hasRoom s.params.outCap (pLen (x.toNat / 64) + 6) →
      ∃ t new, exec (.hufEncPos x) s = .next t ∧ t = { s with out := t.out } ∧ s.out.Appends t.out new ∧
        new.length = pLen (x.toNat / 64) + 6 ∧
        (∀ k, k < pLen (x.toNat / 64) → new[k]? = some ((pCode (x.toNat / 64)).testBit (7 - k))) ∧
        (∀ k, k < 6 → new[pLen (x.toNat / 64) + k]? = some (x.getLsbD (5 - k)))) ∧
    (∃ t d, exec .hufDecPos s = .next t ∧ t = { s with res0 := t.res0, rd := t.rd } ∧ t.res0.toNat = d ∧ d < 4096 ∧
      t.rd.pos = s.rd.pos + (pLen (d / 64) + 6) ∧
      (∀ k, k < pLen (d / 64) → s.inp.bit (s.rd.pos + k) = (pCode (d / 64)).testBit (7 - k)) ∧
      (∀ k, k < 6 → s.inp.bit (s.rd.pos + (pLen (d / 64) + k)) = d.testBit (5 - k)) ∧
      t.rd.ovr = (s.rd.ovr || decide (8 * s.inp.len.toNat < s.rd.pos + (pLen (d / 64) + 6))))

/-- `DecodePos` bit by bit is the table method of R130 (R262), on every input and at every position. -/
def Obligations.DecodePosByTable : Prop :=
  ∀ (i : Input) (r : Reader), r.decodePos i = some (r.decodePosByTable i)

/-! ### The codec commands' checks (44_lzss_codec.md §1) -/

/-- The checks before anything is written (R300, R302): an offset beyond the input makes each of the four codec commands
raise `UnexpectedEof`; more raw bytes than `MAX_EXPANDED` make both compress commands raise `SizeExceeded`. Nothing but the
error entry happens. -/
def Obligations.CodecChecksComeFirst : Prop :=
  ∀ s : State, s.err = 0 →
    (s.inp.len.toNat < s.inOffset.toNat ∨ s.inp.len.toNat < s.outOffset.toNat →
      ∃ t, exec .lzhCompress s = .next t ∧ exec .lzhExpand s = .next t ∧ exec .lzwCompress s = .next t ∧
        exec .lzwExpand s = .next t ∧ t.err = 6 ∧ t.out.len = 0 ∧ t.out.acc = 0 ∧ t.out.accN = 0 ∧
        t.out.mem = s.out.mem ∧ t = { s with err := t.err, out := t.out }) ∧
    (s.inOffset ≤ s.inp.len → s.outOffset ≤ s.inp.len →
      s.maxExpanded.toNat < s.inp.len.toNat - s.inOffset.toNat →
      ∃ t, exec .lzhCompress s = .next t ∧ exec .lzwCompress s = .next t ∧ t.err = 5 ∧ t.out.len = 0 ∧
        t.out.acc = 0 ∧ t.out.accN = 0 ∧ t.out.mem = s.out.mem ∧ t = { s with err := t.err, out := t.out })

/-! ### The LZSS codec (44_lzss_codec.md) -/

/-- `LZH_COMPRESS` (R301 to R308, R320) in every state, when the offsets and the size are in range and the OUT memory has
room for any codewords: it completes without an error; `RES0`, `RES1` and `R` are as R320 and R308 say; the output begins
with the verbatim bytes and, in `Lzhuf` mode, the header; the input and the LZW unit stay. -/
def Obligations.LzhCompressCompletes : Prop :=
  ∀ s : State, s.err = 0 → s.inOffset ≤ s.inp.len → s.outOffset ≤ s.inp.len →
    s.inp.len.toNat - s.inOffset.toNat ≤ s.maxExpanded.toNat →
    s.outOffset.toNat + 5 + 81 * (s.inp.len.toNat - s.inOffset.toNat + 1) ≤ s.params.outCap.toNat →
    ∃ t, exec .lzhCompress s = .next t ∧ t.err = 0 ∧
      t = { s with res0 := t.res0, res1 := t.res1, rd := t.rd, out := t.out, win := t.win, huf := t.huf, r := t.r } ∧
      t.res0.toNat = s.inp.len.toNat - s.inOffset.toNat ∧ t.res1.toNat + s.outOffset.toNat = t.out.len.toNat ∧
      t.r.val = (4036 + (s.inp.len.toNat - s.inOffset.toNat)) % 4096 ∧
      t.rd.pos = 8 * s.inOffset.toNat ∧ t.rd.ovr = false ∧ t.out.accN = 0 ∧
      (∀ a, a < s.outOffset.toNat → t.out.byte a = s.inp.byte a) ∧
      (s.opt.getLsbD 0 = true → ∀ k, k < 4 →
        (t.out.byte (s.outOffset.toNat + k)).toNat = (s.inp.len.toNat - s.inOffset.toNat) / 2 ^ (8 * k) % 256)

/-- `LZH_EXPAND` in `None` mode (R301, R310 to R312, R321) in every state, when the offsets are in range. Where the caps
leave room for 59 bytes for each input bit it completes without an error and never hangs; `RES0`, `RES1` and `R` are as
R321 and R310 say. Where the input expands symbol by symbol up to its end, or to an `EOS`, and the caps leave room for
those bytes, the output after the verbatim bytes is these bytes, and window bytes, `R`, tree and reader are as the last
symbol left them. A symbol whose bytes would pass `MAX_EXPANDED` raises `SizeExceeded`. -/
def Obligations.LzhExpandNoneCompletes : Prop :=
  ∀ s : State, s.err = 0 → s.opt.getLsbD 0 = false → s.inOffset ≤ s.inp.len → s.outOffset ≤ s.inp.len →
    (472 * (s.inp.len.toNat - s.inOffset.toNat) ≤ s.maxExpanded.toNat →
      s.outOffset.toNat + 472 * (s.inp.len.toNat - s.inOffset.toNat) ≤ s.params.outCap.toNat →
      ∃ t, exec .lzhExpand s = .next t ∧ t.err = 0 ∧
        t = { s with res0 := t.res0, res1 := t.res1, rd := t.rd, out := t.out, win := t.win, huf := t.huf, r := t.r } ∧
        t.res0.toNat = min s.inp.len.toNat ((t.rd.pos + 7) / 8) - s.inOffset.toNat ∧
        t.res1.toNat + s.outOffset.toNat = t.out.len.toNat ∧ t.r.val = (4036 + t.res1.toNat) % 4096 ∧
        t.out.accN = 0 ∧ (∀ a, a < s.outOffset.toNat → t.out.byte a = s.inp.byte a)) ∧
    ∀ e : Expansion, s.inp.Expands (.start (s.opt.extractLsb' 8 8) (8 * s.inOffset.toNat)) e →
      e.bytes.length ≤ s.maxExpanded.toNat → s.outOffset.toNat + e.bytes.length ≤ s.params.outCap.toNat →
      (∀ (tree : HufTree) (pos : Nat),
        (8 * s.inp.len.toNat ≤ e.pos ∧ tree = e.tree ∧ pos = e.pos) ∨
          (e.pos < 8 * s.inp.len.toNat ∧ s.inp.Reads e 314 0 tree pos) →
        ∃ t, exec .lzhExpand s = .next t ∧ t.err = 0 ∧
          t = { s with res0 := t.res0, res1 := t.res1, rd := t.rd, out := t.out, win := t.win, huf := t.huf,
                       r := t.r } ∧
          t.res0.toNat = min s.inp.len.toNat ((pos + 7) / 8) - s.inOffset.toNat ∧ t.res1.toNat = e.bytes.length ∧
          t.rd.pos = pos ∧ t.rd.ovr = decide (8 * s.inp.len.toNat < pos) ∧ t.r = e.r ∧ t.huf = tree ∧
          t.win.win = e.win ∧ t.out.len.toNat = s.outOffset.toNat + e.bytes.length ∧ t.out.accN = 0 ∧
          (∀ a, a < s.outOffset.toNat → t.out.byte a = s.inp.byte a) ∧
          ∀ k, k < e.bytes.length → some (t.out.byte (s.outOffset.toNat + k)) = e.bytes[k]?) ∧
      (∀ (y : Sym) (d : Nat) (tree : HufTree) (pos : Nat), e.pos < 8 * s.inp.len.toNat → s.inp.Reads e y d tree pos →
        y ≠ 314 → s.maxExpanded.toNat < e.bytes.length + (if y.val < 256 then 1 else y.val - 254) →
        ∃ t, exec .lzhExpand s = .next t ∧ t.err = 5 ∧ t.out.len = 0 ∧ t.rd.pos = pos ∧ t.huf = tree)

/-- `LZH_EXPAND` in `Lzhuf` mode. The header (R309) and the declared size 0 (R310, R321): fewer than 4 bytes after the
offset raise `UnexpectedEof`, a declared size above `MAX_EXPANDED` raises `SizeExceeded`, and declared size 0 stops at once
with nothing after the verbatim bytes. The decoding loop (R310, R312), when the caps leave room for the declared size: once
the symbols read from the input have produced the declared size the command completes, with their bytes after the verbatim
ones and the results of R321; before that, a symbol that ends past the input raises `UnexpectedEof`, and else `EOS` or a
match past the declared size raises `InvalidData`, with the reader and the tree as that symbol left them (R384). -/
def Obligations.LzhExpandLzhufMode : Prop :=
  ∀ s : State, s.err = 0 → s.opt.getLsbD 0 = true → s.inOffset ≤ s.inp.len → s.outOffset ≤ s.inp.len →
    s.outOffset ≤ s.params.outCap →
    (s.inp.len.toNat - s.inOffset.toNat < 4 → ∃ t, exec .lzhExpand s = .next t ∧ t.err = 6 ∧ t.out.len = 0) ∧
    (4 ≤ s.inp.len.toNat - s.inOffset.toNat →
      s.maxExpanded.toNat < s.inp.sizeAt s.inOffset.toNat →
      ∃ t, exec .lzhExpand s = .next t ∧ t.err = 5 ∧ t.out.len = 0) ∧
    (4 ≤ s.inp.len.toNat - s.inOffset.toNat →
      (∀ k, k < 4 → s.inp.byte (s.inOffset.toNat + k) = 0) →
      ∃ t, exec .lzhExpand s = .next t ∧ t.err = 0 ∧ t.res0.toNat = 4 ∧ t.res1 = 0 ∧ t.out.len = s.outOffset ∧
        t.r = 4036) ∧
    ∀ (size : Nat) (e : Expansion), 4 ≤ s.inp.len.toNat - s.inOffset.toNat → size = s.inp.sizeAt s.inOffset.toNat →
      size ≤ s.maxExpanded.toNat → s.outOffset.toNat + size ≤ s.params.outCap.toNat →
      s.inp.Expands (.start (s.opt.extractLsb' 8 8) (8 * s.inOffset.toNat + 32)) e →
      e.pos ≤ 8 * s.inp.len.toNat →
      (e.bytes.length = size →
        ∃ t, exec .lzhExpand s = .next t ∧ t.err = 0 ∧
          t = { s with res0 := t.res0, res1 := t.res1, rd := t.rd, out := t.out, win := t.win, huf := t.huf,
                       r := t.r } ∧
          t.res0.toNat = (e.pos + 7) / 8 - s.inOffset.toNat ∧ t.res1.toNat = size ∧
          t.rd.pos = e.pos ∧ t.rd.ovr = false ∧ t.r = e.r ∧ t.huf = e.tree ∧ t.win.win = e.win ∧
          t.out.len.toNat = s.outOffset.toNat + size ∧ t.out.accN = 0 ∧
          (∀ a, a < s.outOffset.toNat → t.out.byte a = s.inp.byte a) ∧
          ∀ k, k < size → some (t.out.byte (s.outOffset.toNat + k)) = e.bytes[k]?) ∧
      (e.bytes.length < size → ∀ (y : Sym) (d : Nat) (tree : HufTree) (pos : Nat), s.inp.Reads e y d tree pos →
        (8 * s.inp.len.toNat < pos →
          ∃ t, exec .lzhExpand s = .next t ∧ t.err = 6 ∧ t.out.len = 0 ∧ t.rd.pos = pos ∧ t.rd.ovr = true ∧
            t.huf = tree) ∧
        (pos ≤ 8 * s.inp.len.toNat → y = 314 ∨ (256 ≤ y.val ∧ size < e.bytes.length + (y.val - 254)) →
          ∃ t, exec .lzhExpand s = .next t ∧ t.err = 3 ∧ t.out.len = 0 ∧ t.rd.pos = pos ∧ t.rd.ovr = false ∧
            t.huf = tree))

/-- Round trip in `Lzhuf` mode (the spec's inference R314 from R306, R310 and R260): expanding what compressing wrote, with the same fill byte, gives the input back. -/
def Obligations.LzhRoundTrip : Prop :=
  ∀ s t u : State, s.err = 0 → s.inOffset = 0 → s.outOffset = 0 → s.opt.getLsbD 0 = true →
    exec .lzhCompress s = .next t → t.err = 0 →
    u.err = 0 → u.inOffset = 0 → u.outOffset = 0 → u.opt.getLsbD 0 = true →
    u.opt.extractLsb' 8 8 = s.opt.extractLsb' 8 8 → u.inp.len = t.out.len →
    (∀ a, a < t.out.len.toNat → u.inp.byte a = t.out.byte a) →
    s.inp.len ≤ u.maxExpanded → s.inp.len ≤ u.params.outCap →
    ∃ v, exec .lzhExpand u = .next v ∧ v.err = 0 ∧ v.out.len = s.inp.len ∧
      ∀ a, a < s.inp.len.toNat → v.out.byte a = s.inp.byte a

/-- Round trip in `None` mode (the spec's inferences R313 and R314): expanding what compressing wrote, with the same fill
byte and room for what may follow, gives the input back and after it the bytes of the padding. The compressor's symbols
expand to the input, with its final tree, window bytes and `R`, and end at bit `pos`; the padding is the bits from there
on, fewer than 8 and all zero; its bytes are what these expand to from there, up to the end of the stream or `EOS`: at most
7 symbols, so at most 413 bytes. -/
def Obligations.LzhNoneRoundTrip : Prop :=
  ∀ s t u : State, s.err = 0 → s.inOffset = 0 → s.outOffset = 0 → s.opt.getLsbD 0 = false →
    exec .lzhCompress s = .next t → t.err = 0 →
    u.err = 0 → u.inOffset = 0 → u.outOffset = 0 → u.opt.getLsbD 0 = false →
    u.opt.extractLsb' 8 8 = s.opt.extractLsb' 8 8 → u.inp.len = t.out.len →
    (∀ a, a < t.out.len.toNat → u.inp.byte a = t.out.byte a) →
    s.inp.len.toNat + 413 ≤ u.maxExpanded.toNat → s.inp.len.toNat + 413 ≤ u.params.outCap.toNat →
    ∃ (v : State) (pos : Nat) (e : Expansion), exec .lzhExpand u = .next v ∧ v.err = 0 ∧
      v.out.len.toNat = s.inp.len.toNat + e.bytes.length ∧ e.bytes.length ≤ 413 ∧
      (∀ a, a < s.inp.len.toNat → v.out.byte a = s.inp.byte a) ∧
      (∀ k, k < e.bytes.length → some (v.out.byte (s.inp.len.toNat + k)) = e.bytes[k]?) ∧
      pos ≤ 8 * u.inp.len.toNat ∧ 8 * u.inp.len.toNat < pos + 8 ∧
      (∀ k, pos ≤ k → k < 8 * u.inp.len.toNat → u.inp.bit k = false) ∧
      u.inp.Expands (.start (u.opt.extractLsb' 8 8) 0)
        ⟨t.huf, t.win.win, t.r, pos, (List.range s.inp.len.toNat).map s.inp.byte⟩ ∧
      u.inp.Expands ⟨t.huf, t.win.win, t.r, pos, []⟩ e ∧
      (8 * u.inp.len.toNat ≤ e.pos ∨ ∃ tree pos', u.inp.Reads e 314 0 tree pos')

/-! ### The LZW unit (45_lzw.md) -/

/-- `LZW_ENCBYTE b` (R341, R343, R346, R347): a first byte starts the prefix; a byte that extends the prefix to the one
matching entry makes that entry the prefix; any other byte emits the prefix, after the first `CLEAR` of the stream, adds
an entry while there is room, and with `LZW_CLRFULL` writes `CLEAR` and empties the table when that entry filled it. -/
def Obligations.LzwEncByteCases : Prop :=
  ∀ (s : State) (b : Byte), s.err = 0 →
    (s.lzw.pfx = none → exec (.lzwEncByte b) s = .next { s with lzw := { s.lzw with pfx := some (b.setWidth 12) } }) ∧
    (∀ (p : Code) (k : Nat), s.lzw.pfx = some p → s.lzw.next ≤ 4096 → 258 ≤ k → k < s.lzw.next →
      s.lzw.prefixOf k = p → s.lzw.lastByte k = b →
      (∀ j, 258 ≤ j → j < s.lzw.next → s.lzw.prefixOf j = p → s.lzw.lastByte j = b → j = k) →
      exec (.lzwEncByte b) s = .next { s with lzw := { s.lzw with pfx := some (BitVec.ofNat 12 k) } }) ∧
    (∀ p : Code, s.lzw.pfx = some p → s.out.hasRoom s.params.outCap 36 → 258 ≤ s.lzw.next → s.lzw.next ≤ 4096 →
      (∀ j, 258 ≤ j → j < s.lzw.next → ¬ (s.lzw.prefixOf j = p ∧ s.lzw.lastByte j = b)) →
      ∃ t, exec (.lzwEncByte b) s = .next t ∧ t = { s with lzw := t.lzw, out := t.out } ∧
        s.out.Appends t.out
          ((if s.lzw.started then [] else bitsOf 12 256) ++ bitsOf 12 p.toNat ++
            if s.lzw.next = 4095 ∧ s.opt.getLsbD 2 = true then bitsOf 12 256 else []) ∧
        t.lzw = { s.lzw with dictP := t.lzw.dictP, dictC := t.lzw.dictC, next := t.lzw.next, started := true,
                             pfx := some (b.setWidth 12) } ∧
        t.lzw.next =
          (if s.lzw.next = 4095 ∧ s.opt.getLsbD 2 = true then 258
           else if s.lzw.next < 4096 then s.lzw.next + 1 else 4096) ∧
        (s.lzw.next < 4096 → t.lzw.prefixOf s.lzw.next = p ∧ t.lzw.lastByte s.lzw.next = b) ∧
        ∀ j, 258 ≤ j → j < 4096 → j ≠ s.lzw.next →
          t.lzw.prefixOf j = s.lzw.prefixOf j ∧ t.lzw.lastByte j = s.lzw.lastByte j)

/-- `LZW_ENCEND` (R343, R349): the last prefix, `STOP` when `LZW_STOP` is 1, and the flush. -/
def Obligations.LzwEncEndWritesEnd : Prop :=
  ∀ s : State, s.err = 0 → s.out.hasRoom s.params.outCap 43 →
    ∃ t stream pad, exec .lzwEncEnd s = .next t ∧ t = { s with lzw := t.lzw, out := t.out } ∧
      t.lzw = { s.lzw with pfx := none, started := s.lzw.started || s.lzw.pfx.isSome } ∧
      stream =
        (match s.lzw.pfx with
          | none => []
          | some p => (if s.lzw.started then [] else bitsOf 12 256) ++ bitsOf 12 p.toNat) ++
        (if s.opt.getLsbD 1 = true then bitsOf 12 257 else []) ∧
      s.out.Appends t.out (stream ++ List.replicate pad false) ∧ pad < 8 ∧ t.out.accN = 0

/-- The end of an LZW stream (R352, R356): with `LZW_DONE` set `LZW_DECCODE` reads nothing; with fewer than 12 bits left
it raises `UnexpectedEof` when `STOP` is required, and else ends the stream; `STOP` ends it. `RES0` is 0 where no error
is raised. -/
def Obligations.LzwDecEndOfStream : Prop :=
  ∀ s : State, s.err = 0 →
    (s.lzw.done = true → exec .lzwDecCode s = .next { s with res0 := 0 }) ∧
    (s.lzw.done = false → 8 * s.inp.len.toNat < s.rd.pos + 12 → s.opt.getLsbD 1 = true →
      exec .lzwDecCode s = .next (errorEntry .unexpectedEof s)) ∧
    (s.lzw.done = false → 8 * s.inp.len.toNat < s.rd.pos + 12 → s.opt.getLsbD 1 = false →
      exec .lzwDecCode s = .next { s with res0 := 0, lzw := { s.lzw with done := true } }) ∧
    (s.lzw.done = false → s.rd.pos + 12 ≤ 8 * s.inp.len.toNat → s.inp.bits s.rd.pos 12 = bitsOf 12 257 →
      exec .lzwDecCode s =
        .next { s with res0 := 0, rd := { s.rd with pos := s.rd.pos + 12 }, lzw := { s.lzw with done := true } }) ∧
    (s.lzw.done = false → s.rd.pos + 12 ≤ 8 * s.inp.len.toNat → s.inp.bits s.rd.pos 12 = bitsOf 12 256 →
      exec .lzwDecCode s =
        .next { s with
          res0 := 0
          rd := { s.rd with pos := s.rd.pos + 12 }
          lzw := { s.lzw with next := 258, prev := none } })

/-- A data code of `LZW_DECCODE` (R342, R351, R353, R354) whose string is `str` and fits the caps: the string goes out, an
entry is added when there is a previous code and room, and `RES0` is the number of bytes. The three cases are a first
code, a known code, and the code that is to be assigned next. -/
def Obligations.LzwDecDataWritesString : Prop :=
  ∀ (s : State) (k : Code) (str : List Byte), s.err = 0 → s.lzw.done = false →
    s.rd.pos + 12 ≤ 8 * s.inp.len.toNat → s.inp.bits s.rd.pos 12 = bitsOf 12 k.toNat →
    k.toNat ≠ 256 → k.toNat ≠ 257 → 258 ≤ s.lzw.next → s.lzw.next ≤ 4096 →
    (s.lzw.prev = none ∧ k.toNat < 256 ∧ str = [BitVec.ofNat 8 k.toNat] ∨
      (∃ p, s.lzw.prev = some p ∧ k.toNat < s.lzw.next ∧ s.lzw.Spells k.toNat str) ∨
      ∃ p pre, s.lzw.prev = some p ∧ k.toNat = s.lzw.next ∧ s.lzw.Spells p.toNat pre ∧ str = pre ++ [pre.headD 0]) →
    s.lzw.outCnt.toNat + str.length ≤ s.maxExpanded.toNat →
    s.out.len.toNat + str.length ≤ s.params.outCap.toNat →
    ∃ t, exec .lzwDecCode s = .next t ∧
      t = { s with res0 := t.res0, rd := { s.rd with pos := s.rd.pos + 12 }, lzw := t.lzw, out := t.out } ∧
      t.res0.toNat = str.length ∧ t.out = { s.out with mem := t.out.mem, len := t.out.len } ∧
      t.out.len.toNat = s.out.len.toNat + str.length ∧
      (∀ j, j < str.length → some (t.out.byte (s.out.len.toNat + j)) = str[j]?) ∧
      (∀ a, a < s.out.len.toNat ∨ t.out.len.toNat ≤ a → t.out.mem.read a = s.out.mem.read a) ∧
      t.lzw = { s.lzw with dictP := t.lzw.dictP, dictC := t.lzw.dictC, next := t.lzw.next, prev := some k,
                           outCnt := s.lzw.outCnt + BitVec.ofNat 32 str.length } ∧
      t.lzw.next = (if s.lzw.prev.isSome ∧ s.lzw.next < 4096 then s.lzw.next + 1 else s.lzw.next) ∧
      (∀ p, s.lzw.prev = some p → s.lzw.next < 4096 →
        t.lzw.prefixOf s.lzw.next = p ∧ t.lzw.lastByte s.lzw.next = str.headD 0) ∧
      (∀ j, 258 ≤ j → j < 4096 → j ≠ s.lzw.next ∨ s.lzw.prev = none →
        t.lzw.prefixOf j = s.lzw.prefixOf j ∧ t.lzw.lastByte j = s.lzw.lastByte j)

/-- The errors of a data code (R351, R355): a first code that is not a byte, or a code beyond the table, is `InvalidCode`;
a string that would pass `MAX_EXPANDED` is `SizeExceeded`, before it changes the table or writes a byte. The 12 bits have
been read; nothing else changes. -/
def Obligations.LzwDecErrorsOnBadCode : Prop :=
  ∀ (s : State) (k : Code), s.err = 0 → s.lzw.done = false →
    s.rd.pos + 12 ≤ 8 * s.inp.len.toNat → s.inp.bits s.rd.pos 12 = bitsOf 12 k.toNat →
    k.toNat ≠ 256 → k.toNat ≠ 257 → 258 ≤ s.lzw.next → s.lzw.next ≤ 4096 →
    (s.lzw.prev = none ∧ 256 ≤ k.toNat ∨ (∃ p, s.lzw.prev = some p ∧ s.lzw.next < k.toNat) →
      exec .lzwDecCode s =
        .next (errorEntry .invalidCode { s with rd := { s.rd with pos := s.rd.pos + 12 } })) ∧
    (∀ str : List Byte,
      s.lzw.prev = none ∧ k.toNat < 256 ∧ str = [BitVec.ofNat 8 k.toNat] ∨
        (∃ p, s.lzw.prev = some p ∧ k.toNat < s.lzw.next ∧ s.lzw.Spells k.toNat str) ∨
        (∃ p pre, s.lzw.prev = some p ∧ k.toNat = s.lzw.next ∧ s.lzw.Spells p.toNat pre ∧
          str = pre ++ [pre.headD 0]) →
      s.maxExpanded.toNat < s.lzw.outCnt.toNat + str.length →
      exec .lzwDecCode s =
        .next (errorEntry .sizeExceeded { s with rd := { s.rd with pos := s.rd.pos + 12 } }))

/-- `LZW_COMPRESS` (R301, R360) in every state, when the offsets and the size are in range and the OUT memory has room:
it completes without an error; `RES0` and `RES1` are as R360 says; the output begins with the verbatim bytes; window, tree
and `R` stay. -/
def Obligations.LzwCompressCompletes : Prop :=
  ∀ s : State, s.err = 0 → s.inOffset ≤ s.inp.len → s.outOffset ≤ s.inp.len →
    s.inp.len.toNat - s.inOffset.toNat ≤ s.maxExpanded.toNat →
    s.outOffset.toNat + 5 * (s.inp.len.toNat - s.inOffset.toNat + 2) ≤ s.params.outCap.toNat →
    ∃ t, exec .lzwCompress s = .next t ∧ t.err = 0 ∧
      t = { s with res0 := t.res0, res1 := t.res1, rd := t.rd, out := t.out, lzw := t.lzw } ∧
      t.res0.toNat = s.inp.len.toNat - s.inOffset.toNat ∧ t.res1.toNat + s.outOffset.toNat = t.out.len.toNat ∧
      t.rd.pos = 8 * s.inOffset.toNat ∧ t.rd.ovr = false ∧ t.out.accN = 0 ∧ t.lzw.pfx = none ∧
      (∀ a, a < s.outOffset.toNat → t.out.byte a = s.inp.byte a)

/-- `LZW_EXPAND` (R361) on a stream of byte codes and `CLEAR`s that ends with `STOP`, in every state: it completes without
an error; the output is the verbatim bytes and then the bytes of the codes; `RES0` and `RES1` are as R361 says. -/
def Obligations.LzwExpandLiterals : Prop :=
  ∀ (s : State) (codes : List Nat), s.err = 0 → s.inOffset ≤ s.inp.len → s.outOffset ≤ s.inp.len →
    (∀ k ∈ codes, k ≤ 256) →
    8 * s.inOffset.toNat + 12 * (codes.length + 1) ≤ 8 * s.inp.len.toNat →
    s.inp.bits (8 * s.inOffset.toNat) (12 * (codes.length + 1)) = (codes ++ [257]).flatMap (bitsOf 12) →
    (codes.filter (· < 256)).length ≤ s.maxExpanded.toNat →
    s.outOffset.toNat + (codes.filter (· < 256)).length ≤ s.params.outCap.toNat →
    ∃ t, exec .lzwExpand s = .next t ∧ t.err = 0 ∧
      t = { s with res0 := t.res0, res1 := t.res1, rd := t.rd, out := t.out, lzw := t.lzw } ∧
      t.res0.toNat = (12 * (codes.length + 1) + 7) / 8 ∧ t.res1.toNat = (codes.filter (· < 256)).length ∧
      t.out.len.toNat = s.outOffset.toNat + (codes.filter (· < 256)).length ∧ t.lzw.done = true ∧
      (∀ a, a < s.outOffset.toNat → t.out.byte a = s.inp.byte a) ∧
      ∀ j, j < (codes.filter (· < 256)).length →
        (t.out.byte (s.outOffset.toNat + j)).toNat = (codes.filter (· < 256)).getD j 0

/-- Round trip (the spec's inference R362 from R346, R351 and R354): expanding what compressing wrote, with the same `LZW_STOP`, gives the input back. -/
def Obligations.LzwRoundTrip : Prop :=
  ∀ s t u : State, s.err = 0 → s.inOffset = 0 → s.outOffset = 0 →
    exec .lzwCompress s = .next t → t.err = 0 →
    u.err = 0 → u.inOffset = 0 → u.outOffset = 0 → u.opt.getLsbD 1 = s.opt.getLsbD 1 → u.inp.len = t.out.len →
    (∀ a, a < t.out.len.toNat → u.inp.byte a = t.out.byte a) →
    s.inp.len ≤ u.maxExpanded → s.inp.len ≤ u.params.outCap →
    ∃ v, exec .lzwExpand u = .next v ∧ v.err = 0 ∧ v.out.len = s.inp.len ∧
      ∀ a, a < s.inp.len.toNat → v.out.byte a = s.inp.byte a

/-! ### The host's side (10_state.md, 20_memory.md) -/

/-- An aligned 32-bit host read of the register window (R33 to R47, R91): it returns the register, 0 for `CMD` and for a
reserved offset, and changes nothing of the block. `STATUS` is given field by field (R35, R51, R52; log 17). What the host
sees is kept in a field of the model's own (log 3). -/
def Obligations.RegisterReadValues : Prop :=
  ∀ (s : State) (off : Nat) (rest : List HostEvent), off < 256 → off % 4 = 0 →
    s.host = .read (s.params.regBase + off) 4 :: rest →
    ∃ v, step s = .next { s with host := rest, hostData := some v } ∧
      (off = 0x00 → v = 0) ∧
      (off = 0x04 → v.extractLsb' 0 8 = s.err ∧ v.getLsbD 8 = s.rd.ovr ∧ v.getLsbD 9 = s.lzw.done ∧
        (v.getLsbD 10 = true ↔ s.lzw.next = 4096) ∧ v.extractLsb' 11 21 = 0) ∧
      (off = 0x08 → v = s.res0) ∧
      (off = 0x0C → v = s.res1) ∧ (off = 0x10 → v = s.opt) ∧ (off = 0x14 → v = 0x0C023C0C#32) ∧
      (off = 0x18 → v = s.inp.len) ∧ (off = 0x1C → v = s.inOffset) ∧ (off = 0x20 → v = s.outOffset) ∧
      (off = 0x24 → v = s.maxExpanded) ∧ (off = 0x28 → v = s.out.len) ∧
      (off = 0x2C → v.toNat = s.rd.pos % 2 ^ 32) ∧ (off = 0x30 → v.toNat = s.rd.pos / 2 ^ 32 % 2 ^ 32) ∧
      (off = 0x34 → s.lzw.next ≤ 4096 → v.toNat = s.lzw.next) ∧ (off = 0x38 → v.toNat = s.r.val) ∧
      (off = 0x3C → v = s.params.inCap) ∧ (off = 0x40 → v = s.params.outCap) ∧ (0x44 ≤ off → v = 0)

/-- An aligned 32-bit host write of the register window other than to `CMD` (R33, R36 to R41): the read-write registers
take the value, `OPT` without its reserved bits and `IN_LEN` at most `IN_CAP`; every other write is ignored. -/
def Obligations.RegisterWriteEffects : Prop :=
  ∀ (s : State) (off : Nat) (v : Word) (rest : List HostEvent), 4 ≤ off → off < 256 → off % 4 = 0 →
    s.host = .write (s.params.regBase + off) 4 v :: rest →
    ∃ t, step s = .next t ∧
      t = { s with host := rest, opt := t.opt, inp := { s.inp with len := t.inp.len }, inOffset := t.inOffset,
                   outOffset := t.outOffset, maxExpanded := t.maxExpanded } ∧
      (∀ k, k < 32 → t.opt.getLsbD k =
        if off = 0x10 then (decide (k ≤ 2 ∨ 8 ≤ k ∧ k ≤ 15) && v.getLsbD k) else s.opt.getLsbD k) ∧
      t.inp.len.toNat = (if off = 0x18 then min v.toNat s.params.inCap.toNat else s.inp.len.toNat) ∧
      t.inOffset = (if off = 0x1C then v else s.inOffset) ∧
      t.outOffset = (if off = 0x20 then v else s.outOffset) ∧
      t.maxExpanded = (if off = 0x24 then v else s.maxExpanded)

/-- Host accesses to the memories (R81, R84): a write of `n` bytes to the IN memory sets byte `a + i` to `v[8i+7:8i]` and
nothing else, one to the OUT memory is ignored; a read of either returns `Σ byte(a+i)·2^(8i)` and changes nothing of the
block; any alignment. What a read returns is held in a field of the model's own (log 3). Where `byte` is one the rules
leave unspecified, an OUT byte at or above `OUT_LEN` (R81) or an IN byte not written since power-on (R411), it is the
model's free value, and that it depends on the address alone between two commands is the model's choice (log 5, log 4). -/
def Obligations.HostMemoryAccesses : Prop :=
  ∀ (s : State) (a n : Nat) (rest : List HostEvent), n = 1 ∨ n = 2 ∨ n = 4 → s.params.Legal →
    (a + n ≤ s.params.inCap.toNat →
      (∀ v : Word, s.host = .write (s.params.inBase + a) n v :: rest →
        ∃ t, step s = .next t ∧ t = { s with host := rest, inp := { s.inp with mem := t.inp.mem } } ∧
          (∀ i, i < n → t.inp.byte (a + i) = v.extractLsb' (8 * i) 8) ∧
          ∀ b, b < a ∨ a + n ≤ b → t.inp.byte b = s.inp.byte b) ∧
      (s.host = .read (s.params.inBase + a) n :: rest →
        ∃ v, step s = .next { s with host := rest, hostData := some v } ∧
          v.toNat = ((List.range n).map fun i => (s.inp.byte (a + i)).toNat * 2 ^ (8 * i)).sum)) ∧
    (a + n ≤ s.params.outCap.toNat →
      (∀ v : Word, s.host = .write (s.params.outBase + a) n v :: rest → step s = .next { s with host := rest }) ∧
      (s.host = .read (s.params.outBase + a) n :: rest →
        ∃ v, step s = .next { s with host := rest, hostData := some v } ∧
          v.toNat = ((List.range n).map fun i => (s.out.byte (a + i)).toNat * 2 ^ (8 * i)).sum))

/-- What the model refuses (R84, R89): a register access that is not an aligned 32-bit one, and an access to the IN or OUT
memory that is not 1, 2 or 4 bytes wide or leaves the memory. -/
def Obligations.AccessesRefused : Prop :=
  ∀ (s : State) (a n : Nat) (v : Word) (rest : List HostEvent), s.params.Legal →
    s.host = .read a n :: rest ∨ s.host = .write a n v :: rest →
    (∀ off, off < 256 → a = s.params.regBase + off → n ≠ 4 ∨ off % 4 ≠ 0 → step s = .refused .registerAccess) ∧
    (∀ b, b < s.params.inCap.toNat → a = s.params.inBase + b →
      ¬ (n = 1 ∨ n = 2 ∨ n = 4) ∨ s.params.inCap.toNat < b + n → step s = .refused .memoryAccess) ∧
    (∀ b, b < s.params.outCap.toNat → a = s.params.outBase + b →
      ¬ (n = 1 ∨ n = 2 ∨ n = 4) ∨ s.params.outCap.toNat < b + n → step s = .refused .memoryAccess)

/-! ### Invariants -/

/-- With no pending access (log 2) the block is idle and keeps all its state (R401); its reset states are legal and
sound. -/
def Obligations.IdleStepAndSoundReset : Prop :=
  (∀ s : State, s.host = [] → step s = .next s) ∧
  (∀ p : Params, (State.resetWith p).Legal ∧ (State.resetWith p).Sound) ∧ State.reset.Legal ∧ State.reset.Sound

/-- Every step keeps registers and memories legal: `ERR` a code this block raises, reserved `OPT` bits 0, `IN_LEN`,
`OUT_LEN`, `NEXT`, `ML`, `ACC` in their ranges, both memories canonical and in their sizes, every byte below `OUT_LEN`
written (R33, R38, R42, R53, R56, R59, R80, R81). -/
def Obligations.EveryStepKeepsLegal : Prop := ∀ s t : State, s.Legal → step s = .next t → t.Legal

/-- Every step keeps the Huffman tree sound (R259) and the match index a set of trees (R210). -/
def Obligations.EveryStepKeepsSound : Prop := ∀ s t : State, s.Sound → step s = .next t → t.Sound

/-- On a sound state no step gets stuck: no walk or loop of any command hangs (R254, R256, R262, R310, R361); and no
command is refused, in any state. -/
def Obligations.NoStepGetsStuck : Prop :=
  (∀ (s : State) (f : Fault), s.Sound → step s ≠ .fault f) ∧
  ∀ (i : Instr) (s : State) (r : Refusal), exec i s ≠ .refused r
end

