-- ==== Sys2Proof/Laws/State.lean ====
section
/-! SUPPORT. What each named update of the state does to each field, so that no proof unfolds a record update. -/

namespace Sys2Proof.Machine

/-! ### The error entry (60_exceptions.md R384) -/

@[simp] theorem errorEntry_params (e : ErrCode) (s : State) : (errorEntry e s).params = s.params := rfl
@[simp] theorem errorEntry_err (e : ErrCode) (s : State) : (errorEntry e s).err = if s.err = 0 then e.code else s.err := rfl
@[simp] theorem errorEntry_res0 (e : ErrCode) (s : State) : (errorEntry e s).res0 = s.res0 := rfl
@[simp] theorem errorEntry_res1 (e : ErrCode) (s : State) : (errorEntry e s).res1 = s.res1 := rfl
@[simp] theorem errorEntry_opt (e : ErrCode) (s : State) : (errorEntry e s).opt = s.opt := rfl
@[simp] theorem errorEntry_inOffset (e : ErrCode) (s : State) : (errorEntry e s).inOffset = s.inOffset := rfl
@[simp] theorem errorEntry_outOffset (e : ErrCode) (s : State) : (errorEntry e s).outOffset = s.outOffset := rfl
@[simp] theorem errorEntry_maxExpanded (e : ErrCode) (s : State) : (errorEntry e s).maxExpanded = s.maxExpanded := rfl
@[simp] theorem errorEntry_inp (e : ErrCode) (s : State) : (errorEntry e s).inp = s.inp := rfl
@[simp] theorem errorEntry_rd (e : ErrCode) (s : State) : (errorEntry e s).rd = s.rd := rfl
@[simp] theorem errorEntry_out (e : ErrCode) (s : State) : (errorEntry e s).out = { s.out with len := 0, acc := 0, accN := 0, epoch := s.out.epoch + 1 } := rfl
@[simp] theorem errorEntry_win (e : ErrCode) (s : State) : (errorEntry e s).win = s.win := rfl
@[simp] theorem errorEntry_huf (e : ErrCode) (s : State) : (errorEntry e s).huf = s.huf := rfl
@[simp] theorem errorEntry_lzw (e : ErrCode) (s : State) : (errorEntry e s).lzw = s.lzw := rfl
@[simp] theorem errorEntry_r (e : ErrCode) (s : State) : (errorEntry e s).r = s.r := rfl
@[simp] theorem errorEntry_host (e : ErrCode) (s : State) : (errorEntry e s).host = s.host := rfl
@[simp] theorem errorEntry_hostData (e : ErrCode) (s : State) : (errorEntry e s).hostData = s.hostData := rfl

/-! ### Leaving the error state (40_control.md R162) -/

@[simp] theorem clearError_params (s : State) : (clearError s).params = s.params := rfl
@[simp] theorem clearError_err (s : State) : (clearError s).err = 0 := rfl
@[simp] theorem clearError_res0 (s : State) : (clearError s).res0 = s.res0 := rfl
@[simp] theorem clearError_res1 (s : State) : (clearError s).res1 = s.res1 := rfl
@[simp] theorem clearError_opt (s : State) : (clearError s).opt = s.opt := rfl
@[simp] theorem clearError_inOffset (s : State) : (clearError s).inOffset = s.inOffset := rfl
@[simp] theorem clearError_outOffset (s : State) : (clearError s).outOffset = s.outOffset := rfl
@[simp] theorem clearError_maxExpanded (s : State) : (clearError s).maxExpanded = s.maxExpanded := rfl
@[simp] theorem clearError_inp (s : State) : (clearError s).inp = s.inp := rfl
@[simp] theorem clearError_rd (s : State) : (clearError s).rd = s.rd := rfl
@[simp] theorem clearError_out (s : State) : (clearError s).out = s.out := rfl
@[simp] theorem clearError_win (s : State) : (clearError s).win = s.win := rfl
@[simp] theorem clearError_huf (s : State) : (clearError s).huf = s.huf := rfl
@[simp] theorem clearError_lzw (s : State) : (clearError s).lzw = s.lzw := rfl
@[simp] theorem clearError_r (s : State) : (clearError s).r = s.r := rfl
@[simp] theorem clearError_host (s : State) : (clearError s).host = s.host := rfl
@[simp] theorem clearError_hostData (s : State) : (clearError s).hostData = s.hostData := rfl

/-! ### Reset (70_reset_and_hazards.md R410) -/

@[simp] theorem resetBlock_params (k : ResetKind) (s : State) : (resetBlock k s).params = s.params := rfl
@[simp] theorem resetBlock_err (k : ResetKind) (s : State) : (resetBlock k s).err = 0 := rfl
@[simp] theorem resetBlock_res0 (k : ResetKind) (s : State) : (resetBlock k s).res0 = 0 := rfl
@[simp] theorem resetBlock_res1 (k : ResetKind) (s : State) : (resetBlock k s).res1 = 0 := rfl
@[simp] theorem resetBlock_opt (k : ResetKind) (s : State) : (resetBlock k s).opt = 0x00002003 := rfl
@[simp] theorem resetBlock_inOffset (k : ResetKind) (s : State) : (resetBlock k s).inOffset = 0 := rfl
@[simp] theorem resetBlock_outOffset (k : ResetKind) (s : State) : (resetBlock k s).outOffset = 0 := rfl
@[simp] theorem resetBlock_maxExpanded (k : ResetKind) (s : State) : (resetBlock k s).maxExpanded = 0x40000000 := rfl
@[simp] theorem resetBlock_inp (k : ResetKind) (s : State) : (resetBlock k s).inp = s.inp.reset k := rfl
@[simp] theorem resetBlock_rd (k : ResetKind) (s : State) : (resetBlock k s).rd = { pos := 0, ovr := false } := rfl
@[simp] theorem resetBlock_out (k : ResetKind) (s : State) : (resetBlock k s).out = s.out.reset k := rfl
@[simp] theorem resetBlock_win (k : ResetKind) (s : State) : (resetBlock k s).win = .initial 0x20 := rfl
@[simp] theorem resetBlock_huf (k : ResetKind) (s : State) : (resetBlock k s).huf = .initial := rfl
@[simp] theorem resetBlock_lzw (k : ResetKind) (s : State) : (resetBlock k s).lzw = s.lzw.init := rfl
@[simp] theorem resetBlock_r (k : ResetKind) (s : State) : (resetBlock k s).r = 4036 := rfl
@[simp] theorem resetBlock_host (k : ResetKind) (s : State) : (resetBlock k s).host = s.host := rfl
@[simp] theorem resetBlock_hostData (k : ResetKind) (s : State) : (resetBlock k s).hostData = s.hostData := rfl

/-! ### The state after power-on -/

@[simp] theorem resetWith_params (p : Params) : (State.resetWith p).params = p := rfl
@[simp] theorem resetWith_err (p : Params) : (State.resetWith p).err = 0 := rfl
@[simp] theorem resetWith_res0 (p : Params) : (State.resetWith p).res0 = 0 := rfl
@[simp] theorem resetWith_res1 (p : Params) : (State.resetWith p).res1 = 0 := rfl
@[simp] theorem resetWith_opt (p : Params) : (State.resetWith p).opt = 0x00002003 := rfl
@[simp] theorem resetWith_inOffset (p : Params) : (State.resetWith p).inOffset = 0 := rfl
@[simp] theorem resetWith_outOffset (p : Params) : (State.resetWith p).outOffset = 0 := rfl
@[simp] theorem resetWith_maxExpanded (p : Params) : (State.resetWith p).maxExpanded = 0x40000000 := rfl
@[simp] theorem resetWith_inp (p : Params) : (State.resetWith p).inp = { mem := [], len := 0, powerOns := 0 } := rfl
@[simp] theorem resetWith_rd (p : Params) : (State.resetWith p).rd = { pos := 0, ovr := false } := rfl
@[simp] theorem resetWith_out (p : Params) : (State.resetWith p).out = { mem := [], len := 0, acc := 0, accN := 0, epoch := 0 } := rfl
@[simp] theorem resetWith_win (p : Params) : (State.resetWith p).win = .initial 0x20 := rfl
@[simp] theorem resetWith_huf (p : Params) : (State.resetWith p).huf = .initial := rfl
@[simp] theorem resetWith_lzw (p : Params) : (State.resetWith p).lzw = .initial := rfl
@[simp] theorem resetWith_r (p : Params) : (State.resetWith p).r = 4036 := rfl
@[simp] theorem resetWith_host (p : Params) : (State.resetWith p).host = [] := rfl
@[simp] theorem resetWith_hostData (p : Params) : (State.resetWith p).hostData = none := rfl

/-! ### The state in which the next step runs a command word -/

@[simp] theorem withFetchWord_params (s : State) (nbits w : Nat) : (s.withFetchWord nbits w).params = s.params := rfl
@[simp] theorem withFetchWord_err (s : State) (nbits w : Nat) : (s.withFetchWord nbits w).err = s.err := rfl
@[simp] theorem withFetchWord_res0 (s : State) (nbits w : Nat) : (s.withFetchWord nbits w).res0 = s.res0 := rfl
@[simp] theorem withFetchWord_res1 (s : State) (nbits w : Nat) : (s.withFetchWord nbits w).res1 = s.res1 := rfl
@[simp] theorem withFetchWord_opt (s : State) (nbits w : Nat) : (s.withFetchWord nbits w).opt = s.opt := rfl
@[simp] theorem withFetchWord_inOffset (s : State) (nbits w : Nat) : (s.withFetchWord nbits w).inOffset = s.inOffset := rfl
@[simp] theorem withFetchWord_outOffset (s : State) (nbits w : Nat) : (s.withFetchWord nbits w).outOffset = s.outOffset := rfl
@[simp] theorem withFetchWord_maxExpanded (s : State) (nbits w : Nat) : (s.withFetchWord nbits w).maxExpanded = s.maxExpanded := rfl
@[simp] theorem withFetchWord_inp (s : State) (nbits w : Nat) : (s.withFetchWord nbits w).inp = s.inp := rfl
@[simp] theorem withFetchWord_rd (s : State) (nbits w : Nat) : (s.withFetchWord nbits w).rd = s.rd := rfl
@[simp] theorem withFetchWord_out (s : State) (nbits w : Nat) : (s.withFetchWord nbits w).out = s.out := rfl
@[simp] theorem withFetchWord_win (s : State) (nbits w : Nat) : (s.withFetchWord nbits w).win = s.win := rfl
@[simp] theorem withFetchWord_huf (s : State) (nbits w : Nat) : (s.withFetchWord nbits w).huf = s.huf := rfl
@[simp] theorem withFetchWord_lzw (s : State) (nbits w : Nat) : (s.withFetchWord nbits w).lzw = s.lzw := rfl
@[simp] theorem withFetchWord_r (s : State) (nbits w : Nat) : (s.withFetchWord nbits w).r = s.r := rfl
@[simp] theorem withFetchWord_host (s : State) (nbits w : Nat) : (s.withFetchWord nbits w).host = commandWrite s.params (BitVec.ofNat 32 (w % 2 ^ nbits)) :: s.host := rfl
@[simp] theorem withFetchWord_hostData (s : State) (nbits w : Nat) : (s.withFetchWord nbits w).hostData = s.hostData := rfl

end Sys2Proof.Machine
end

