-- ==== Sys2Proof/Laws/Engine.lean ====
section
/-! SUPPORT. How a procedure ends: one lemma for each way a procedure is put together, and one for each shared operation,
so that a proof about a command follows its pseudocode line by line. -/

namespace Sys2Proof.Machine

namespace Engine

variable {σ α β : Type}

/-- `m` started in `s` ends with a value and state that satisfy `Q`, or stops with a reason and state that satisfy
`E`. -/
def Ends (m : Engine σ α) (s : σ) (Q : α → σ → Prop) (E : Stop → σ → Prop) : Prop :=
  match m s with
  | .ok a s' => Q a s'
  | .error e s' => E e s'

variable {s : σ} {Q : α → σ → Prop} {E : Stop → σ → Prop}

theorem ends_of_ok {m : Engine σ α} {a : α} {s' : σ} (h : m s = .ok a s') : m.Ends s Q E ↔ Q a s' := by
  simp [Ends, h]

theorem ends_of_error {m : Engine σ α} {e : Stop} {s' : σ} (h : m s = .error e s') : m.Ends s Q E ↔ E e s' := by
  simp [Ends, h]

theorem Ends.mono {m : Engine σ α} {Q' : α → σ → Prop} {E' : Stop → σ → Prop} (h : m.Ends s Q E)
    (hQ : ∀ a s', Q a s' → Q' a s') (hE : ∀ e s', E e s' → E' e s') : m.Ends s Q' E' := by
  unfold Ends at *
  split <;> simp_all

theorem Ends.and {m : Engine σ α} {Q' : α → σ → Prop} {E' : Stop → σ → Prop} (h : m.Ends s Q E)
    (h' : m.Ends s Q' E') : m.Ends s (fun a t => Q a t ∧ Q' a t) (fun e t => E e t ∧ E' e t) := by
  unfold Ends at *
  split <;> simp_all

/-- A procedure that ends whatever happens with `Q` on values and never stops has a value. -/
theorem ok_of_ends {m : Engine σ α} (h : m.Ends s Q fun _ _ => False) : ∃ a t, m s = .ok a t ∧ Q a t := by
  unfold Ends at h
  split at h
  · exact ⟨_, _, by assumption, h⟩
  · exact h.elim

@[simp] theorem ends_pure (a : α) : (pure a : Engine σ α).Ends s Q E ↔ Q a s := Iff.rfl

@[simp] theorem ends_bind (m : Engine σ α) (f : α → Engine σ β) {Q : β → σ → Prop} :
    (m >>= f).Ends s Q E ↔ m.Ends s (fun a s' => (f a).Ends s' Q E) E := by
  simp only [Ends, bind, EStateM.bind]
  cases m s <;> rfl

@[simp] theorem ends_map (f : α → β) (m : Engine σ α) {Q : β → σ → Prop} :
    (f <$> m).Ends s Q E ↔ m.Ends s (fun a s' => Q (f a) s') E := by
  simp only [Ends, Functor.map, EStateM.map]
  cases m s <;> rfl

@[simp] theorem ends_get {Q : σ → σ → Prop} : (get : Engine σ σ).Ends s Q E ↔ Q s s := Iff.rfl

@[simp] theorem ends_set (t : σ) {Q : PUnit → σ → Prop} : (set t : Engine σ PUnit).Ends s Q E ↔ Q () t := Iff.rfl

@[simp] theorem ends_modify (f : σ → σ) {Q : PUnit → σ → Prop} :
    (modify f : Engine σ PUnit).Ends s Q E ↔ Q () (f s) := Iff.rfl

@[simp] theorem ends_throw (e : Stop) : (throw e : Engine σ α).Ends s Q E ↔ E e s := Iff.rfl

@[simp] theorem ends_ite (c : Prop) [Decidable c] (m n : Engine σ α) :
    (if c then m else n).Ends s Q E ↔ if c then m.Ends s Q E else n.Ends s Q E := by
  split <;> rfl

@[simp] theorem ends_raise (e : ErrCode) : (raise e : Engine σ α).Ends s Q E ↔ E (.raise e) s := Iff.rfl

@[simp] theorem ends_raiseIf (c : Prop) [Decidable c] (e : ErrCode) {Q : Unit → σ → Prop} :
    (raiseIf c e : Engine σ Unit).Ends s Q E ↔ if c then E (.raise e) s else Q () s := by
  unfold raiseIf
  split <;> rfl

theorem ends_orStuck (why : Fault) (o : Option α) :
    (orStuck why o : Engine σ α).Ends s Q E ↔ (∀ a, o = some a → Q a s) ∧ (o = none → E (.stuck why) s) := by
  cases o <;> simp [orStuck]

end Engine

/-! ### From a procedure to a command's answer -/

/-- A command that runs (R160) answers by how its procedure ends: a value is its next state, a raise the error entry. -/
theorem runProcedure_ok {m : Engine State Unit} {s t : State} (h : m s = .ok () t) : runProcedure m s = .next t := by
  simp [runProcedure, h]

theorem runProcedure_raise {m : Engine State Unit} {s t : State} {e : ErrCode} (h : m s = .error (.raise e) t) :
    runProcedure m s = .next (errorEntry e t) := by
  simp [runProcedure, h]

theorem runProcedure_stuck {m : Engine State Unit} {s t : State} {why : Fault} (h : m s = .error (.stuck why) t) :
    runProcedure m s = .fault why := by
  simp [runProcedure, h]

theorem runProcedure_cases (m : Engine State Unit) (s : State) :
    (∃ t, m s = .ok () t ∧ runProcedure m s = .next t) ∨
    (∃ e t, m s = .error (.raise e) t ∧ runProcedure m s = .next (errorEntry e t)) ∨
    (∃ why t, m s = .error (.stuck why) t ∧ runProcedure m s = .fault why) := by
  cases h : m s with
  | ok a t => exact .inl ⟨t, rfl, runProcedure_ok h⟩
  | error e t =>
    cases e with
    | raise e => exact .inr (.inl ⟨e, t, rfl, runProcedure_raise h⟩)
    | stuck why => exact .inr (.inr ⟨why, t, rfl, runProcedure_stuck h⟩)

theorem command_run {m : Engine State Unit} {s : State} (h : s.err = 0) : command m s = runProcedure m s := by
  simp [command, h]

theorem command_ignored {m : Engine State Unit} {s : State} (h : s.err ≠ 0) : command m s = .next s :=
  if_neg h

/-- Everything a command can answer (R160). -/
theorem command_cases (m : Engine State Unit) (s : State) :
    (s.err ≠ 0 ∧ command m s = .next s) ∨
    (s.err = 0 ∧ ∃ t, m s = .ok () t ∧ command m s = .next t) ∨
    (s.err = 0 ∧ ∃ e t, m s = .error (.raise e) t ∧ command m s = .next (errorEntry e t)) ∨
    (s.err = 0 ∧ ∃ why t, m s = .error (.stuck why) t ∧ command m s = .fault why) := by
  by_cases h : s.err = 0
  · rw [command_run h]
    rcases runProcedure_cases m s with h' | h' | h'
    · exact .inr (.inl ⟨h, h'⟩)
    · exact .inr (.inr (.inl ⟨h, h'⟩))
    · exact .inr (.inr (.inr ⟨h, h'⟩))
  · exact .inl ⟨h, command_ignored h⟩

/-- A command whose procedure ends so that it can neither stop stuck nor raise completes. -/
theorem command_completes {m : Engine State Unit} {s : State} {Q : State → Prop} (he : s.err = 0)
    (h : m.Ends s (fun _ t => Q t) fun _ _ => False) : ∃ t, command m s = .next t ∧ Q t := by
  obtain ⟨_, t, h1, h2⟩ := Engine.ok_of_ends h
  exact ⟨t, by rw [command_run he, runProcedure_ok h1], h2⟩

/-- What a command's next state satisfies, from what its procedure's ends satisfy. -/
theorem command_next {m : Engine State Unit} {s t : State} {P : State → Prop} (h : command m s = .next t)
    (hs : s.err ≠ 0 → P s)
    (hm : s.err = 0 → m.Ends s (fun _ t => P t) fun e t => ∀ c, e = .raise c → P (errorEntry c t)) : P t := by
  rcases command_cases m s with ⟨he, h'⟩ | ⟨he, t', hm', h'⟩ | ⟨he, e, t', hm', h'⟩ | ⟨he, why, t', hm', h'⟩ <;>
    rw [h'] at h
  · cases h; exact hs he
  · cases h; exact (Engine.ends_of_ok hm').1 (hm he)
  · cases h; exact (Engine.ends_of_error hm').1 (hm he) e rfl
  · cases h

theorem command_not_refused (m : Engine State Unit) (s : State) (r : Refusal) : command m s ≠ .refused r := by
  rcases command_cases m s with ⟨_, h⟩ | ⟨_, _, _, h⟩ | ⟨_, _, _, _, h⟩ | ⟨_, _, _, _, h⟩ <;> rw [h] <;> nofun

/-! ### The shared operations over a state -/

open Engine

variable {s : State} {E : Stop → State → Prop}

@[simp] theorem ends_setRes0 (v : Word) {Q : Unit → State → Prop} :
    (setRes0 v).Ends s Q E ↔ Q () { s with res0 := v } := Iff.rfl

@[simp] theorem ends_setRes1 (v : Word) {Q : Unit → State → Prop} :
    (setRes1 v).Ends s Q E ↔ Q () { s with res1 := v } := Iff.rfl

theorem ends_reading {α : Type} (f : Input → Reader → α × Reader) {Q : α → State → Prop} :
    (reading f).Ends s Q E ↔ Q (f s.inp s.rd).1 { s with rd := (f s.inp s.rd).2 } := Iff.rfl

theorem ends_writing {α : Type} (f : Word → Engine Output α) {Q : α → State → Prop} :
    (writing f).Ends s Q E ↔
      (f s.params.outCap).Ends s.out (fun a o => Q a { s with out := o }) (fun e o => E e { s with out := o }) := by
  simp only [Ends, writing]
  cases f s.params.outCap s.out <;> rfl

@[simp] theorem ends_bitInit {Q : Unit → State → Prop} :
    bitInit.Ends s Q E ↔ Q ()
      { s with
        rd := { pos := 8 * s.inOffset.toNat, ovr := false }
        out := { s.out with len := 0, acc := 0, accN := 0, epoch := s.out.epoch + 1 } } := Iff.rfl

end Sys2Proof.Machine
end

