-- ==== Sys2Proof/Laws/Memory.lean ====
section
/-! SUPPORT. A memory is a byte array in canonical form: a read after a write, what a write leaves alone, and that every
memory operation keeps the form and the bounds. -/

namespace Sys2Proof.Machine.Memory

/-! ### Reading after writing -/

theorem read_write_self (m : Memory) (a : Nat) (v : Byte) : (m.write a v).read a = some v := by
  induction m with
  | nil => simp [write, read]
  | cons c m ih =>
    simp only [write]
    split
    · simp [read]
    · split
      · simp [read]
      · simp [read, *]

theorem read_write_ne {m : Memory} {a b : Nat} (v : Byte) (h : b ≠ a) : (m.write a v).read b = m.read b := by
  induction m with
  | nil => simp [write, read, h]
  | cons c m ih =>
    simp only [write]
    split
    · simp only [read, h, if_false]
      split <;> rename_i h1
      · split
        · omega
        · split
          · rfl
          · omega
      · rfl
    · split
      · next h' => subst h'; simp [read, h]
      · simp only [read, ih]

theorem read_write (m : Memory) (a b : Nat) (v : Byte) :
    (m.write a v).read b = if b = a then some v else m.read b := by
  split
  · next h => rw [h, read_write_self]
  · next h => exact read_write_ne v h

/-! ### The canonical form -/

theorem risingFrom_write {m : Memory} {low : Option Nat} {a : Nat} (v : Byte) (h : risingFrom low m = true)
    (hl : ∀ b, low = some b → b < a) : risingFrom low (m.write a v) = true := by
  induction m generalizing low with
  | nil => cases low <;> simp_all [write, risingFrom]
  | cons c m ih =>
    simp only [risingFrom, Bool.and_eq_true] at h
    simp only [write]
    split
    · cases low <;> simp_all [risingFrom]
    · split
      · next h' => subst h'; cases low <;> simp_all [risingFrom]
      · simp only [risingFrom, Bool.and_eq_true]
        refine ⟨h.1, ih h.2 fun b hb => ?_⟩
        cases hb
        omega

theorem write_wf {m : Memory} (a : Nat) (v : Byte) (h : m.wf = true) : (m.write a v).wf = true :=
  risingFrom_write v h fun _ hb => nomatch hb

theorem writeBytes_wf {m : Memory} (a : Nat) (v : Word) (i n : Nat) (h : m.wf = true) :
    (m.writeBytes a v i n).wf = true := by
  induction n generalizing m i with
  | zero => exact h
  | succ n ih => exact ih (i + 1) (write_wf _ _ h)

theorem nil_wf : wf [] = true := rfl

/-! ### Bounds -/

theorem write_below {m : Memory} {cap a : Nat} (v : Byte) (h : below m cap = true) (ha : a < cap) :
    below (m.write a v) cap = true := by
  induction m with
  | nil => simp [write, below, ha]
  | cons c m ih =>
    simp only [below, List.all_cons, Bool.and_eq_true] at h ih
    simp only [write]
    split
    · simp [below, ha, h]
    · split
      · simpa [below, ha] using h.2
      · simpa [below, h.1] using ih h.2

theorem writeBytes_below {m : Memory} {cap a : Nat} (v : Word) (i n : Nat) (h : below m cap = true)
    (ha : a + i + n ≤ cap) : below (m.writeBytes a v i n) cap = true := by
  induction n generalizing m i with
  | zero => exact h
  | succ n ih => exact ih (i + 1) (write_below _ h (by omega)) (by omega)

/-! ### Several bytes -/

theorem read_writeBytes (m : Memory) (a : Nat) (v : Word) (i n b : Nat) :
    (m.writeBytes a v i n).read b =
      if a + i ≤ b ∧ b < a + i + n then some (byteOf v (b - a)) else m.read b := by
  induction n generalizing m i with
  | zero => simp only [writeBytes]; rw [if_neg (by omega)]
  | succ n ih =>
    simp only [writeBytes, ih, read_write]
    by_cases h : b = a + i
    · subst h
      rw [if_neg (by omega), if_pos rfl, if_pos (by omega)]
      congr 2
      omega
    · rw [if_neg h]
      by_cases h' : a + (i + 1) ≤ b ∧ b < a + (i + 1) + n
      · rw [if_pos h', if_pos (by omega)]
      · rw [if_neg h', if_neg (by omega)]

/-- In a canonical memory an address below every listed one is not listed. -/
theorem read_eq_none_of_rising {m : Memory} {low a : Nat} (h : risingFrom (some low) m = true) (ha : a ≤ low) :
    m.read a = none := by
  cases m with
  | nil => rfl
  | cons c m =>
    simp only [risingFrom, Bool.and_eq_true, decide_eq_true_eq] at h
    simp only [read]
    rw [if_neg (by omega), if_pos (by omega)]

/-- Two canonical memories that read the same are the same list. -/
theorem ext_of_rising {m m' : Memory} {low : Option Nat} (h : risingFrom low m = true)
    (h' : risingFrom low m' = true) (hr : ∀ a, m.read a = m'.read a) : m = m' := by
  induction m generalizing low m' with
  | nil =>
    cases m' with
    | nil => rfl
    | cons c m' => have := hr c.1; simp [read] at this
  | cons c m ih =>
    cases m' with
    | nil => have := hr c.1; simp [read] at this
    | cons c' m' =>
      simp only [risingFrom, Bool.and_eq_true] at h h'
      have hc : c = c' := by
        have h1 := hr c.1
        have h2 := hr c'.1
        simp only [read, if_true] at h1 h2
        rcases Nat.lt_trichotomy c.1 c'.1 with hlt | heq | hgt
        · rw [if_neg (by omega), if_pos hlt] at h1; cases h1
        · rw [if_pos heq] at h1; exact Prod.ext heq (Option.some.inj h1)
        · rw [if_neg (by omega), if_pos hgt] at h2; cases h2
      subst hc
      refine congrArg _ (ih h.2 h'.2 fun a => ?_)
      have := hr a
      simp only [read] at this
      by_cases ha : a ≤ c.1
      · rw [read_eq_none_of_rising h.2 ha, read_eq_none_of_rising h'.2 ha]
      · rwa [if_neg (by omega), if_neg (by omega), if_neg (by omega), if_neg (by omega)] at this

theorem ext {m m' : Memory} (h : m.wf = true) (h' : m'.wf = true) (hr : ∀ a, m.read a = m'.read a) : m = m' :=
  ext_of_rising h h' hr

end Sys2Proof.Machine.Memory
end

