-- ==== Sys2Proof/Laws/BitStream.lean ====
section
/-! SUPPORT. What the bit-stream primitives do (41_bitio.md R180 to R183), said over the streams as sequences of bits. -/

namespace Sys2Proof.Machine

/-! ### Bits of numbers -/

@[simp] theorem length_bitsOf (n v : Nat) : (bitsOf n v).length = n := by
  induction n with
  | zero => rfl
  | succ n ih => simp [bitsOf, ih]

theorem bitsOf_congr {n v w : Nat} (h : ∀ k, k < n → v.testBit k = w.testBit k) : bitsOf n v = bitsOf n w := by
  induction n with
  | zero => rfl
  | succ n ih => simp only [bitsOf, h n (by omega), ih fun k hk => h k (by omega)]

theorem testBit_pushBit_zero (v : Nat) (b : Bool) : (pushBit v b).testBit 0 = b := by
  cases b <;> simp [pushBit, Nat.testBit_zero]

theorem testBit_pushBit_succ (v : Nat) (b : Bool) (k : Nat) : (pushBit v b).testBit (k + 1) = v.testBit k := by
  rw [Nat.testBit_succ]
  congr 1
  cases b
  · simp [pushBit]
  · simp only [pushBit, if_true]; omega

/-- The bits of `(v << 1) | b` are the bits of `v` and then `b`. -/
theorem bitsOf_pushBit (n v : Nat) (b : Bool) : bitsOf (n + 1) (pushBit v b) = bitsOf n v ++ [b] := by
  induction n with
  | zero => simp only [bitsOf, testBit_pushBit_zero, List.nil_append]
  | succ n ih => rw [bitsOf, ih, testBit_pushBit_succ, bitsOf, List.cons_append]

theorem testBit_eq_of_bitsOf {n v w : Nat} (h : bitsOf n v = bitsOf n w) (k : Nat) (hk : k < n) :
    v.testBit k = w.testBit k := by
  induction n with
  | zero => omega
  | succ n ih =>
    simp only [bitsOf, List.cons.injEq] at h
    rcases Nat.lt_succ_iff_lt_or_eq.1 hk with h' | h'
    · exact ih h.2 h'
    · rw [h', h.1]

/-! ### The bit reader (R180, R183) -/

namespace Reader

/-- `GetBit` returns the bit at `RD_POS`, advances the cursor, and notes a read past the end. -/
theorem getBit_eq (i : Input) (r : Reader) :
    r.getBit i = (i.bit r.pos, { pos := r.pos + 1, ovr := r.ovr || decide (8 * i.len.toNat ≤ r.pos) }) := by
  unfold getBit Input.bit
  split
  · next h =>
    have : ¬ 8 * i.len.toNat ≤ r.pos := by omega
    simp [h, this]
  · next h =>
    have : 8 * i.len.toNat ≤ r.pos := by omega
    simp [h, this]

theorem getBitsFrom_eq (i : Input) (n v : Nat) (r : Reader) :
    (getBitsFrom i n v r).2 =
        { pos := r.pos + n, ovr := r.ovr || decide (0 < n ∧ 8 * i.len.toNat < r.pos + n) } ∧
      ∀ m, bitsOf (m + n) (getBitsFrom i n v r).1 = bitsOf m v ++ i.bits r.pos n := by
  induction n generalizing v r with
  | zero => simp [getBitsFrom, Input.bits]
  | succ n ih =>
    obtain ⟨h1, h2⟩ := ih (pushBit v (r.getBit i).1) (r.getBit i).2
    refine ⟨?_, fun m => ?_⟩
    · rw [getBitsFrom, h1, getBit_eq]
      simp only [Reader.mk.injEq, Bool.or_assoc]
      refine ⟨by omega, ?_⟩
      congr 1
      rw [Bool.eq_iff_iff]
      simp only [Bool.or_eq_true, decide_eq_true_eq]
      omega
    · rw [getBitsFrom, show m + (n + 1) = (m + 1) + n by omega, h2, bitsOf_pushBit, getBit_eq]
      simp only [Input.bits, List.range_succ_eq_map, List.map_cons, List.map_map, Nat.add_zero, List.append_assoc,
        List.singleton_append]
      congr 3
      funext j
      simp only [Function.comp_apply]
      congr 1
      omega

theorem getBitsFrom_lt (i : Input) (n v m : Nat) (r : Reader) (hv : v < 2 ^ m) :
    (getBitsFrom i n v r).1 < 2 ^ (m + n) := by
  induction n generalizing v m r with
  | zero => exact hv
  | succ n ih =>
    have : pushBit v (r.getBit i).1 < 2 ^ (m + 1) := by
      rw [Nat.pow_succ]
      unfold pushBit
      split <;> omega
    have := ih (pushBit v (r.getBit i).1) (m + 1) (r.getBit i).2 this
    rwa [show m + (n + 1) = m + 1 + n by omega]

/-- `GetBits(n)` moves the cursor by `n` and notes a read past the end (R183, R185). -/
theorem getBits_reader (i : Input) (n : Nat) (r : Reader) :
    (r.getBits i n).2 = { pos := r.pos + n, ovr := r.ovr || decide (0 < n ∧ 8 * i.len.toNat < r.pos + n) } :=
  (getBitsFrom_eq i n 0 r).1

/-- The value of `GetBits(n)` has exactly the `n` stream bits, the first one most significant (R86, R183). -/
theorem getBits_bits (i : Input) (n : Nat) (r : Reader) : bitsOf n (r.getBits i n).1 = i.bits r.pos n := by
  have := (getBitsFrom_eq i n 0 r).2 0
  rw [Nat.zero_add] at this
  simpa [bitsOf, getBits] using this

theorem getBits_lt (i : Input) (n : Nat) (r : Reader) : (r.getBits i n).1 < 2 ^ n := by
  simpa [getBits] using getBitsFrom_lt i n 0 0 r (by simp)

end Reader

/-! ### The bit writer (R181 to R183) -/

namespace Output

theorem outByte_ok {cap : Word} {v : Byte} {o : Output} (h : o.len ≠ cap) :
    outByte cap v o = .ok () { o with mem := o.mem.write o.len.toNat v, len := o.len + 1 } := if_neg h

theorem outByte_full {cap : Word} {v : Byte} {o : Output} (h : o.len = cap) :
    outByte cap v o = .error (.raise .sizeExceeded) o := if_pos h

/-- The accumulator with one more bit (R181). -/
def shiftIn (o : Output) (b : Bool) : Byte := (o.acc <<< 1) ||| (if b then 1 else 0)

theorem putBit_wait {cap : Word} {b : Bool} {o : Output} (h : o.accN ≠ 7) :
    putBit cap b o = .ok () { o with acc := o.shiftIn b, accN := o.accN + 1 } := by
  simp only [putBit, bind, EStateM.bind, get, getThe, MonadStateOf.get, EStateM.get, if_neg h]
  rfl

theorem putBit_store {cap : Word} {b : Bool} {o : Output} (h : o.accN = 7) (h' : o.len ≠ cap) :
    putBit cap b o =
      .ok () { o with mem := o.mem.write o.len.toNat (o.shiftIn b), len := o.len + 1, acc := 0, accN := 0 } := by
  simp only [putBit, bind, EStateM.bind, get, getThe, MonadStateOf.get, EStateM.get, if_pos h]
  rw [outByte_ok h']
  rfl

theorem putBit_full {cap : Word} {b : Bool} {o : Output} (h : o.accN = 7) (h' : o.len = cap) :
    putBit cap b o = .error (.raise .sizeExceeded) o := by
  simp only [putBit, bind, EStateM.bind, get, getThe, MonadStateOf.get, EStateM.get, if_pos h]
  rw [outByte_full h']

theorem flush_none {cap : Word} {o : Output} (h : o.accN = 0) : flush cap o = .ok () o := by
  simp only [flush, bind, EStateM.bind, get, getThe, MonadStateOf.get, EStateM.get, if_pos h]
  rfl

theorem flush_store {cap : Word} {o : Output} (h : o.accN ≠ 0) (h' : o.len ≠ cap) :
    flush cap o =
      .ok () { o with
        mem := o.mem.write o.len.toNat (o.acc <<< (8 - o.accN.val)), len := o.len + 1, acc := 0, accN := 0 } := by
  simp only [flush, bind, EStateM.bind, get, getThe, MonadStateOf.get, EStateM.get, if_neg h]
  rw [outByte_ok h']
  rfl

theorem flush_full {cap : Word} {o : Output} (h : o.accN ≠ 0) (h' : o.len = cap) :
    flush cap o = .error (.raise .sizeExceeded) o := by
  simp only [flush, bind, EStateM.bind, get, getThe, MonadStateOf.get, EStateM.get, if_neg h]
  rw [outByte_full h']

theorem shiftIn_toNat (o : Output) (b : Bool) (k : Nat) (hk : k < 8) :
    (o.shiftIn b).toNat.testBit k = (pushBit o.acc.toNat b).testBit k := by
  rw [BitVec.testBit_toNat]
  cases k with
  | zero => rw [testBit_pushBit_zero]; cases b <;> simp [shiftIn]
  | succ k =>
    rw [testBit_pushBit_succ, BitVec.testBit_toNat, shiftIn, BitVec.getLsbD_or, BitVec.getLsbD_shiftLeft]
    have : (if b then (1 : Byte) else 0).getLsbD (k + 1) = false := by
      cases b
      · simp
      · simp [BitVec.getLsbD_one]
    rw [this, Bool.or_false]
    simp only [hk, decide_true, Bool.true_and, Nat.add_sub_cancel]
    simp

theorem bitsOf_shiftIn (o : Output) (b : Bool) {n : Nat} (h : n < 8) :
    bitsOf (n + 1) (o.shiftIn b).toNat = bitsOf n o.acc.toNat ++ [b] := by
  rw [← bitsOf_pushBit]
  exact bitsOf_congr fun k hk => shiftIn_toNat o b k (by omega)

/-- A valid byte below the old length is not changed by a byte appended at it. -/
theorem byte_append (o : Output) (v acc : Byte) (n : Fin 8) {a : Nat} (h : o.len.toNat + 1 < 2 ^ 32)
    (ha : a < o.len.toNat + 1) :
    ({ o with mem := o.mem.write o.len.toNat v, len := o.len + 1, acc := acc, accN := n } : Output).byte a =
      if a = o.len.toNat then v else o.byte a := by
  have hl : (o.len + 1).toNat = o.len.toNat + 1 := by bv_omega
  unfold byte
  simp only [hl, if_pos ha, Memory.read_write]
  by_cases h' : a = o.len.toNat
  · simp only [if_pos h']
  · simp only [if_neg h', if_pos (show a < o.len.toNat by omega)]

/-- Appending a byte to the OUT memory appends its bits to the stream of whole bytes. -/
theorem bits_append (o : Output) (v acc : Byte) (n : Fin 8) (h : o.len.toNat + 1 < 2 ^ 32) :
    ({ o with mem := o.mem.write o.len.toNat v, len := o.len + 1, acc := acc, accN := n } : Output).bits =
      (List.range o.len.toNat).flatMap (fun a => bitsOfByte (o.byte a)) ++ bitsOfByte v ++ bitsOf n.val acc.toNat := by
  have hl : (o.len + 1).toNat = o.len.toNat + 1 := by bv_omega
  unfold bits
  simp only [hl, List.range_succ, List.flatMap_append, List.flatMap_cons, List.flatMap_nil, List.append_nil]
  rw [byte_append o v acc n h (by omega), if_pos rfl]
  congr 2
  rw [List.flatMap_congr]
  intro a ha
  rw [List.mem_range] at ha
  rw [byte_append o v acc n h (by omega), if_neg (by omega)]

theorem Appends.refl (o : Output) : Appends o o [] :=
  ⟨by simp, by simp, rfl, fun _ _ => rfl, fun _ _ _ => by omega⟩

theorem Appends.trans {o o' o'' : Output} {x y : List Bool} (h : Appends o o' x) (h' : Appends o' o'' y) :
    Appends o o'' (x ++ y) := by
  have l1 : o.len.toNat ≤ o'.len.toNat := by have := h.count; omega
  have l2 : o'.len.toNat ≤ o''.len.toNat := by have := h'.count; omega
  refine ⟨by rw [h'.bits, h.bits, List.append_assoc], by rw [h'.count, h.count, List.length_append]; omega,
    h'.epoch.trans h.epoch, fun a ha => ?_, fun a h1 h2 => ?_⟩
  · rw [h'.outside a (by omega), h.outside a (by omega)]
  · by_cases h3 : a < o'.len.toNat
    · rw [h'.outside a (.inl h3)]; exact h.inside a h1 h3
    · exact h'.inside a (by omega) h2

theorem putBit_ok {cap : Word} {b : Bool} {o : Output} (h : o.hasRoom cap 1) :
    ∃ o', putBit cap b o = .ok () o' ∧ Appends o o' [b] := by
  have hcap := cap.isLt
  by_cases h7 : o.accN = 7
  · have h7' : o.accN.val = 7 := by rw [h7]; rfl
    have hlen : o.len ≠ cap := by intro e; unfold hasRoom at h; rw [e, h7'] at h; omega
    have hlt : o.len.toNat + 1 < 2 ^ 32 := by unfold hasRoom at h; omega
    have hl : (o.len + 1).toNat = o.len.toNat + 1 := by bv_omega
    refine ⟨_, putBit_store h7 hlen, ?_, ?_, rfl, fun a ha => ?_, fun a h1 h2 => ?_⟩
    · rw [bits_append o (o.shiftIn b) 0 0 hlt, bits, h7']
      simp only [bitsOfByte, bitsOf_shiftIn o b (show 7 < 8 by omega)]
      simp [bitsOf]
    · simp only [hl, h7', List.length_singleton]
      simp only [Fin.val_zero]; omega
    · simp only [hl] at ha
      exact Memory.read_write_ne _ (by omega)
    · simp only [hl] at h2
      rw [show a = o.len.toNat by omega, Memory.read_write_self]; rfl
  · have hn : o.accN.val ≠ 7 := fun e => h7 (Fin.ext e)
    have hv : (o.accN + 1).val = o.accN.val + 1 := by
      have := o.accN.isLt
      rw [Fin.val_add_one_of_lt']
      omega
    refine ⟨_, putBit_wait h7, ?_, ?_, rfl, fun a _ => rfl, fun a h1 h2 => ?_⟩
    · simp only [bits, hv]
      rw [bitsOf_shiftIn o b (by have := o.accN.isLt; omega), List.append_assoc]
      rfl
    · simp only [hv, List.length_singleton]; omega
    · simp only at h2; omega

theorem putAll_ok {cap : Word} {new : List Bool} {o : Output} (h : o.hasRoom cap new.length) :
    ∃ o', putAll cap new o = .ok () o' ∧ Appends o o' new := by
  induction new generalizing o with
  | nil => exact ⟨o, rfl, .refl o⟩
  | cons b new ih =>
    simp only [List.length_cons, hasRoom] at h
    obtain ⟨o1, h1, g1⟩ := putBit_ok (cap := cap) (b := b) (o := o) (by unfold hasRoom; omega)
    have hc := g1.count
    simp only [List.length_singleton] at hc
    obtain ⟨o2, h2, g2⟩ := ih (o := o1) (by unfold hasRoom; omega)
    refine ⟨o2, ?_, by simpa using g1.trans g2⟩
    simp only [putAll, bind, EStateM.bind, h1, h2]

/-- The put that fills the OUT memory past its end raises (R182). -/
theorem putAll_full {cap : Word} {new : List Bool} {o : Output} (hl : o.len ≤ cap)
    (h : ¬ o.hasRoom cap new.length) : ∃ o', putAll cap new o = .error (.raise .sizeExceeded) o' := by
  induction new generalizing o with
  | nil => exact absurd (show o.hasRoom cap 0 by unfold hasRoom; have := o.accN.isLt; bv_omega) h
  | cons b new ih =>
    simp only [putAll, bind, EStateM.bind]
    by_cases h1 : o.hasRoom cap 1
    · obtain ⟨o1, h1', g1⟩ := putBit_ok (b := b) h1
      have hc := g1.count
      simp only [List.length_cons, List.length_nil, hasRoom] at hc h h1
      rw [h1']
      exact ih (by rw [BitVec.le_def]; omega) (by unfold hasRoom; omega)
    · have h7 : o.accN = 7 := by
        apply Fin.ext
        have := o.accN.isLt
        unfold hasRoom at h1
        rw [BitVec.le_def] at hl
        show o.accN.val = 7
        omega
      have hc : o.len = cap := by
        apply BitVec.eq_of_toNat_eq
        have h7' : o.accN.val = 7 := by rw [h7]; rfl
        unfold hasRoom at h1
        rw [BitVec.le_def] at hl
        omega
      rw [putBit_full h7 hc]
      exact ⟨o, rfl⟩

/-- `Flush` pads the waiting bits with zero bits up to a whole byte (R183). -/
theorem flush_ok {cap : Word} {o : Output} (h : o.accN = 0 ∨ o.len ≠ cap) (hl : o.len ≤ cap) :
    ∃ o', flush cap o = .ok () o' ∧ Appends o o' (List.replicate ((8 - o.accN.val) % 8) false) ∧ o'.accN = 0 ∧
      (o.accN ≠ 0 → o'.acc = 0) := by
  by_cases h0 : o.accN = 0
  · refine ⟨o, ?_, ?_, h0, fun h' => absurd h0 h'⟩
    · exact flush_none h0
    · simpa [h0] using Appends.refl o
  · have hne : o.len ≠ cap := h.resolve_left h0
    have hlt : o.len.toNat + 1 < 2 ^ 32 := by
      have := cap.isLt
      have : o.len.toNat ≠ cap.toNat := fun e => hne (BitVec.eq_of_toNat_eq e)
      rw [BitVec.le_def] at hl
      omega
    have hl' : (o.len + 1).toNat = o.len.toNat + 1 := by bv_omega
    have hn : o.accN.val ≠ 0 := fun e => h0 (Fin.ext e)
    have hn8 := o.accN.isLt
    refine ⟨{ o with mem := o.mem.write o.len.toNat (o.acc <<< (8 - o.accN.val)), len := o.len + 1, acc := 0,
                      accN := 0 }, ?_, ⟨?_, ?_, rfl, fun a ha => ?_, fun a h1 h2 => ?_⟩, rfl, fun _ => rfl⟩
    · exact flush_store h0 hne
    · rw [bits_append o _ 0 0 hlt, bits, List.append_assoc, List.append_assoc]
      congr 1
      rw [show bitsOf (0 : Fin 8).val (0 : Byte).toNat = [] from rfl, List.append_nil, bitsOfByte]
      generalize o.accN.val = n at hn hn8 ⊢
      apply List.ext_getElem
      · simp; omega
      · intro k h1 h2
        have key : ∀ (m v k : Nat) (hk : k < (bitsOf m v).length), (bitsOf m v)[k] = v.testBit (m - 1 - k) := by
          intro m
          induction m with
          | zero => intro v k hk; simp at hk
          | succ m ih =>
            intro v k hk
            cases k with
            | zero => simp [bitsOf]
            | succ k => simp only [bitsOf, List.getElem_cons_succ, ih]; congr 1; omega
        simp only [length_bitsOf] at h1
        rw [key, List.getElem_append]
        split
        · next h3 =>
          simp only [length_bitsOf] at h3
          rw [key, BitVec.testBit_toNat, BitVec.testBit_toNat, BitVec.getLsbD_shiftLeft]
          simp only [show 8 - 1 - k < 8 by omega, decide_true, Bool.true_and,
            show ¬ 8 - 1 - k < 8 - n by omega, decide_false, Bool.not_false]
          congr 1
          omega
        · next h3 =>
          simp only [length_bitsOf] at h3
          rw [BitVec.testBit_toNat, BitVec.getLsbD_shiftLeft]
          simp [show 8 - 1 - k < 8 - n by omega]
    · simp only [hl', List.length_replicate, Fin.val_zero]; omega
    · simp only [hl'] at ha
      exact Memory.read_write_ne _ (by omega)
    · simp only [hl'] at h2
      rw [show a = o.len.toNat by omega, Memory.read_write_self]; rfl

end Output

end Sys2Proof.Machine
end

