-- ==== Sys2Proof/Laws/Bounds.lean ====
section
/-! SUPPORT. What each procedure can touch and which errors it can raise (60_exceptions.md R381, R384): one lemma for each
procedure of 41_bitio.md to 45_lzw.md. -/

namespace Sys2Proof.Machine

/-- The parts of the state a procedure may write. -/
structure Parts where
  res0 : Bool := false
  res1 : Bool := false
  rd : Bool := false
  out : Bool := false
  win : Bool := false
  huf : Bool := false
  lzw : Bool := false
  r : Bool := false

/-- Every part of `p` is one of `q`. -/
structure Parts.Within (p q : Parts) : Prop where
  res0 : p.res0 = true → q.res0 = true
  res1 : p.res1 = true → q.res1 = true
  rd : p.rd = true → q.rd = true
  out : p.out = true → q.out = true
  win : p.win = true → q.win = true
  huf : p.huf = true → q.huf = true
  lzw : p.lzw = true → q.lzw = true
  r : p.r = true → q.r = true

theorem Parts.Within.refl (p : Parts) : p.Within p := ⟨id, id, id, id, id, id, id, id⟩

/-- `t` is `s` but for the parts `p`. -/
structure SameBut (p : Parts) (s t : State) : Prop where
  params : t.params = s.params
  err : t.err = s.err
  opt : t.opt = s.opt
  inOffset : t.inOffset = s.inOffset
  outOffset : t.outOffset = s.outOffset
  maxExpanded : t.maxExpanded = s.maxExpanded
  inp : t.inp = s.inp
  host : t.host = s.host
  hostData : t.hostData = s.hostData
  res0 : p.res0 = true ∨ t.res0 = s.res0
  res1 : p.res1 = true ∨ t.res1 = s.res1
  rd : p.rd = true ∨ t.rd = s.rd
  out : p.out = true ∨ t.out = s.out
  win : p.win = true ∨ t.win = s.win
  huf : p.huf = true ∨ t.huf = s.huf
  lzw : p.lzw = true ∨ t.lzw = s.lzw
  r : p.r = true ∨ t.r = s.r

variable {p q : Parts} {E : List ErrCode} {α β : Type}

theorem SameBut.refl (p : Parts) (s : State) : SameBut p s s := by constructor <;> simp

theorem SameBut.trans {s t u : State} (h : SameBut p s t) (h' : SameBut p t u) : SameBut p s u := by
  have key : ∀ {γ : Type} {b : Bool} {x y z : γ}, b = true ∨ y = x → b = true ∨ z = y → b = true ∨ z = x := by
    rintro _ _ _ _ _ (h | rfl) (h' | rfl) <;> simp [*]
  exact ⟨h'.params.trans h.params, h'.err.trans h.err, h'.opt.trans h.opt, h'.inOffset.trans h.inOffset,
    h'.outOffset.trans h.outOffset, h'.maxExpanded.trans h.maxExpanded, h'.inp.trans h.inp, h'.host.trans h.host,
    h'.hostData.trans h.hostData, key h.res0 h'.res0, key h.res1 h'.res1, key h.rd h'.rd, key h.out h'.out,
    key h.win h'.win, key h.huf h'.huf, key h.lzw h'.lzw, key h.r h'.r⟩

theorem SameBut.mono {s t : State} (h : SameBut p s t) (hw : p.Within q) : SameBut q s t :=
  ⟨h.params, h.err, h.opt, h.inOffset, h.outOffset, h.maxExpanded, h.inp, h.host, h.hostData, h.res0.imp_left hw.res0,
    h.res1.imp_left hw.res1, h.rd.imp_left hw.rd, h.out.imp_left hw.out, h.win.imp_left hw.win, h.huf.imp_left hw.huf,
    h.lzw.imp_left hw.lzw, h.r.imp_left hw.r⟩

/-- The procedure writes within `p`, within `q` if it stops, and raises errors of `E` only. -/
def Bounded (p q : Parts) (E : List ErrCode) (m : Engine State α) : Prop :=
  ∀ s, m.Ends s (fun _ t => SameBut p s t) fun e t => SameBut q s t ∧ ∀ c, e = .raise c → c ∈ E

namespace Bounded

theorem pure (a : α) : Bounded p q E (Pure.pure a) := fun s => SameBut.refl p s

/-- Both procedures write within `p`, whether they end or stop. -/
theorem bind {m : Engine State α} {f : α → Engine State β} (hm : Bounded p p E m) (hf : ∀ a, Bounded p p E (f a)) :
    Bounded p p E (m >>= f) := fun s => by
  rw [Engine.ends_bind]
  exact (hm s).mono (fun a t h => (hf a t).mono (fun _ _ h' => h.trans h') fun _ _ h' => ⟨h.trans h'.1, h'.2⟩)
    fun _ _ h => h

/-- A procedure followed by its last writes, after which it cannot stop. -/
theorem bind_last {m : Engine State α} {f : α → Engine State β} (hm : Bounded q q E m)
    (hf : ∀ a, Bounded p q E (f a)) (hw : q.Within p) : Bounded p q E (m >>= f) := fun s => by
  rw [Engine.ends_bind]
  exact (hm s).mono
    (fun a t h => (hf a t).mono (fun _ _ h' => (h.mono hw).trans h') fun _ _ h' => ⟨h.trans h'.1, h'.2⟩)
    fun _ _ h => h

/-- Reading the state touches nothing. -/
theorem get_bind {f : State → Engine State β} (hf : ∀ s, Bounded p q E (f s)) : Bounded p q E (get >>= f) :=
  fun s => by rw [Engine.ends_bind, Engine.ends_get]; exact hf s s

theorem ite {c : Prop} [Decidable c] {m n : Engine State α} (hm : Bounded p q E m) (hn : Bounded p q E n) :
    Bounded p q E (if c then m else n) := by split <;> assumption

theorem doIf {c : Prop} [Decidable c] {m : Engine State Unit} (hm : Bounded p p E m) :
    Bounded p p E (Machine.doIf c m) := ite hm (pure ())

theorem raise {e : ErrCode} (he : e ∈ E) : Bounded p q E (Machine.raise e : Engine State α) :=
  fun s => ⟨SameBut.refl q s, fun _ hc => by cases hc; exact he⟩

theorem raiseIf {c : Prop} [Decidable c] {e : ErrCode} (he : e ∈ E) : Bounded p q E (Machine.raiseIf c e) := by
  unfold Machine.raiseIf
  split
  · exact raise he
  · exact pure ()

theorem stuck (why : Fault) : Bounded p q E (throw (.stuck why) : Engine State α) :=
  fun s => ⟨SameBut.refl q s, nofun⟩

theorem orStuck {why : Fault} {o : Option α} : Bounded p q E (Machine.orStuck why o) := by
  cases o
  · exact stuck why
  · exact pure _

theorem change {f : State → State} (h : ∀ s, SameBut p s (f s)) : Bounded p q E (modify f) := h

theorem setRes0 {v : Word} (h : p.res0 = true) : Bounded p q E (Machine.setRes0 v) :=
  change fun s => by constructor <;> simp [h]

theorem setRes1 {v : Word} (h : p.res1 = true) : Bounded p q E (Machine.setRes1 v) :=
  change fun s => by constructor <;> simp [h]

/-! ### The shared operations -/

theorem reading {f : Input → Reader → α × Reader} (h : p.rd = true) : Bounded p q E (Machine.reading f) :=
  fun s => by constructor <;> simp [h]

theorem writing {f : Word → Engine Output α} (hp : p.out = true) (hq : q.out = true)
    (hf : ∀ cap o e o', f cap o = .error e o' → ∀ c, e = .raise c → c ∈ E) : Bounded p q E (Machine.writing f) :=
  fun s => by
    rw [ends_writing]
    unfold Engine.Ends
    split
    · constructor <;> simp [hp]
    · next h => exact ⟨by constructor <;> simp [hq], hf _ _ _ _ h⟩

theorem outByte_raises {cap : Word} {v : Byte} {o o' : Output} {e : Stop} (h : Output.outByte cap v o = .error e o') :
    e = .raise .sizeExceeded := by
  unfold Output.outByte at h
  split at h <;> cases h
  rfl

theorem putBit_raises {cap : Word} {b : Bool} {o o' : Output} {e : Stop} (h : Output.putBit cap b o = .error e o') :
    e = .raise .sizeExceeded := by
  by_cases h7 : o.accN = 7
  · by_cases hc : o.len = cap
    · rw [Output.putBit_full h7 hc] at h; cases h; rfl
    · rw [Output.putBit_store h7 hc] at h; cases h
  · rw [Output.putBit_wait h7] at h; cases h

theorem putAll_raises {cap : Word} {bits : List Bool} {o o' : Output} {e : Stop}
    (h : Output.putAll cap bits o = .error e o') : e = .raise .sizeExceeded := by
  induction bits generalizing o with
  | nil => cases h
  | cons b bits ih =>
    simp only [Output.putAll, Bind.bind, EStateM.bind] at h
    split at h
    · exact ih h
    · next h' => cases h; exact putBit_raises h'

theorem flush_raises {cap : Word} {o o' : Output} {e : Stop} (h : Output.flush cap o = .error e o') :
    e = .raise .sizeExceeded := by
  by_cases h0 : o.accN = 0
  · rw [Output.flush_none h0] at h; cases h
  · by_cases hc : o.len = cap
    · rw [Output.flush_full h0 hc] at h; cases h; rfl
    · rw [Output.flush_store h0 hc] at h; cases h

theorem outByte {v : Byte} (hp : p.out = true) (hq : q.out = true) (he : .sizeExceeded ∈ E) :
    Bounded p q E (Machine.outByte v) :=
  writing hp hq fun _ _ _ _ h _ hc => by rw [outByte_raises h] at hc; cases hc; exact he

theorem putAll {bits : List Bool} (hp : p.out = true) (hq : q.out = true) (he : .sizeExceeded ∈ E) :
    Bounded p q E (Machine.putAll bits) :=
  writing hp hq fun _ _ _ _ h _ hc => by rw [putAll_raises h] at hc; cases hc; exact he

theorem putBits {n v : Nat} (hp : p.out = true) (hq : q.out = true) (he : .sizeExceeded ∈ E) :
    Bounded p q E (Machine.putBits n v) := putAll hp hq he

theorem flush (hp : p.out = true) (hq : q.out = true) (he : .sizeExceeded ∈ E) : Bounded p q E Machine.flush :=
  writing hp hq fun _ _ _ _ h _ hc => by rw [flush_raises h] at hc; cases hc; exact he

theorem bitInit (hr : p.rd = true) (ho : p.out = true) : Bounded p q E Machine.bitInit :=
  change fun s => by constructor <;> simp [hr, ho]

/-! ### Operands -/

theorem indexBelow {k : Nat} {x : BitVec 16} (he : .illegalCommand ∈ E) :
    Bounded p q E (Machine.indexBelow k x : Engine State (Fin k)) := by
  unfold Machine.indexBelow
  split
  · exact pure _
  · exact raise he

theorem bitCount {n : BitVec 5} (he : .illegalCommand ∈ E) : Bounded p q E (Machine.bitCount n : Engine State Nat) :=
  ite (pure _) (raise he)

/-! ### The window -/

theorem onWindow {f : Window → Except Stop Window} (h : p.win = true)
    (hf : ∀ w e, f w = .error e → ∀ c, e = .raise c → c ∈ E) : Bounded p q E (Machine.onWindow f) := fun s => by
  unfold Engine.Ends Machine.onWindow
  cases h' : f s.win with
  | ok w => constructor <;> simp [h]
  | error e => exact ⟨SameBut.refl q s, hf _ _ h'⟩

theorem insertPos {x : Pos} (h : p.win = true) (he : .illegalCommand ∈ E) : Bounded p q E (Machine.insertPos x) :=
  onWindow h fun w e h' c hc => by
    unfold Window.insert at h'
    split at h'
    · cases h'; cases hc; exact he
    · split at h' <;> cases h'
      cases hc

theorem findPos {x : Pos} (h : p.win = true) (he : .illegalCommand ∈ E) : Bounded p q E (Machine.findPos x) :=
  onWindow h fun w e h' c hc => by
    unfold Window.find at h'
    split at h'
    · cases h'; cases hc; exact he
    · split at h' <;> cases h'
      cases hc

theorem deletePos {x : Pos} (h : p.win = true) : Bounded p q E (Machine.deletePos x) := fun s =>
  onWindow (f := fun w => w.delete s.params.delMode x) h (fun w e h' c hc => by
    unfold Window.delete at h'
    split at h'
    · split at h' <;> cases h'
      cases hc
    · cases h') s

theorem writeWin {x : Pos} {b : Byte} (h : p.win = true) : Bounded p q E (Machine.writeWin x b) :=
  change fun s => by constructor <;> simp [h]

theorem winInit (h : p.win = true) : Bounded p q E Machine.winInit :=
  change fun s => by constructor <;> simp [h]

theorem reportMatch (h0 : p.res0 = true) (h1 : p.res1 = true) : Bounded p q E Machine.reportMatch :=
  change fun s => by constructor <;> simp [h0, h1]

/-! ### The Huffman tree and the distance code -/

theorem hufInit (h : p.huf = true) : Bounded p q E Machine.hufInit :=
  change fun s => by constructor <;> simp [h]

theorem hufEncode {y : Sym} (h : p.out = true) (he : .sizeExceeded ∈ E) : Bounded p p E (Machine.hufEncode y) :=
  get_bind fun _ => bind orStuck fun _ => putAll h h he

theorem hufDecode (h : p.rd = true) : Bounded p q E Machine.hufDecode := fun s => by
  unfold Engine.Ends Machine.hufDecode
  cases s.huf.decode s.inp s.rd with
  | some a => constructor <;> simp [h]
  | none => exact ⟨SameBut.refl q s, nofun⟩

theorem hufUpdate {y : Sym} (h : p.huf = true) : Bounded p q E (Machine.hufUpdate y) := fun s => by
  unfold Engine.Ends Machine.hufUpdate
  cases s.huf.update y with
  | some a => constructor <;> simp [h]
  | none => exact ⟨SameBut.refl q s, nofun⟩

theorem decodePos (h : p.rd = true) : Bounded p q E Machine.decodePos := fun s => by
  unfold Engine.Ends Machine.decodePos
  cases s.rd.decodePos s.inp with
  | some a => constructor <;> simp [h]
  | none => exact ⟨SameBut.refl q s, nofun⟩

/-! ### The codecs' common steps -/

theorem checkOffsets (he : .unexpectedEof ∈ E) : Bounded p q E Machine.checkOffsets := get_bind fun _ => raiseIf he

theorem checkInputSize (he : .sizeExceeded ∈ E) : Bounded p q E Machine.checkInputSize := get_bind fun _ => raiseIf he

theorem readIn {a : Nat} : Bounded p q E (Machine.readIn a) := get_bind fun _ => pure _

theorem copyBytes {a n : Nat} (h : p.out = true) (he : .sizeExceeded ∈ E) : Bounded p p E (Machine.copyBytes a n) := by
  induction n generalizing a with
  | zero => exact pure ()
  | succ n ih => exact bind readIn fun _ => bind (outByte h h he) fun _ => ih

theorem copyPrefix (h : p.out = true) (he : .sizeExceeded ∈ E) : Bounded p p E Machine.copyPrefix :=
  get_bind fun _ => copyBytes h he

theorem reportCompress (h0 : p.res0 = true) (h1 : p.res1 = true) : Bounded p q E Machine.reportCompress :=
  change fun s => by constructor <;> simp [h0, h1]

theorem reportExpand (h0 : p.res0 = true) (h1 : p.res1 = true) : Bounded p q E Machine.reportExpand :=
  change fun s => by constructor <;> simp [h0, h1]

/-! ### The LZSS codec -/

theorem writeHeader {n : Nat} (h : p.out = true) (he : .sizeExceeded ∈ E) : Bounded p p E (Machine.writeHeader n) :=
  bind (outByte h h he) fun _ => bind (outByte h h he) fun _ => bind (outByte h h he) fun _ => outByte h h he

theorem loadLookahead {n : Nat} {c : Encoding} (h : p.win = true) : Bounded p p E (Machine.loadLookahead n c) := by
  induction n generalizing c with
  | zero => exact pure _
  | succ n ih => exact get_bind fun _ => ite (bind (writeWin h) fun _ => ih) (pure _)

theorem insertBefore {r : Pos} {n : Nat} (h : p.win = true) (he : .illegalCommand ∈ E) :
    Bounded p p E (Machine.insertBefore r n) := by
  induction n with
  | zero => exact pure _
  | succ n ih => exact bind (insertPos h he) fun _ => ih

theorem startEncoding {ip : Nat} (hw : p.win = true) (hh : p.huf = true) (he : .illegalCommand ∈ E) :
    Bounded p p E (Machine.startEncoding ip) :=
  bind (hufInit hh) fun _ => bind (winInit hw) fun _ => bind (loadLookahead hw) fun _ =>
    bind (insertBefore hw he) fun _ => bind (insertPos hw he) fun _ => pure _

theorem slideOne {c : Encoding} (hw : p.win = true) (he : .illegalCommand ∈ E) :
    Bounded p p E (Machine.slideOne c) :=
  bind (deletePos hw) fun _ => get_bind fun _ =>
    ite (bind (writeWin hw) fun _ => bind (insertPos hw he) fun _ => pure _)
      (ite (bind (insertPos hw he) fun _ => pure _) (pure _))

theorem slide {n : Nat} {c : Encoding} (hw : p.win = true) (he : .illegalCommand ∈ E) :
    Bounded p p E (Machine.slide n c) := by
  induction n generalizing c with
  | zero => exact pure _
  | succ n ih => exact bind (slideOne hw he) fun _ => ih

theorem encodeSymbol {y : Sym} (ho : p.out = true) (hh : p.huf = true) (he : .sizeExceeded ∈ E) :
    Bounded p p E (Machine.encodeSymbol y) := bind (hufEncode ho he) fun _ => hufUpdate hh

theorem encodeStep {c : Encoding} (ho : p.out = true) (hh : p.huf = true) (hw : p.win = true)
    (he : .sizeExceeded ∈ E) (hi : .illegalCommand ∈ E) : Bounded p p E (Machine.encodeStep c) :=
  get_bind fun _ => ite (bind (encodeSymbol ho hh he) fun _ => slide hw hi)
    (bind (encodeSymbol ho hh he) fun _ => bind (putAll ho ho he) fun _ => slide hw hi)

theorem encodeLoop {n : Nat} {c : Encoding} (ho : p.out = true) (hh : p.huf = true) (hw : p.win = true)
    (he : .sizeExceeded ∈ E) (hi : .illegalCommand ∈ E) : Bounded p p E (Machine.encodeLoop n c) := by
  induction n generalizing c with
  | zero => exact ite (pure _) (stuck _)
  | succ n ih => exact ite (pure _) (bind (encodeStep ho hh hw he hi) fun _ => ih)

theorem readHeader (hr : p.rd = true) (he : .sizeExceeded ∈ E) (hu : .unexpectedEof ∈ E) :
    Bounded p p E Machine.readHeader :=
  get_bind fun _ => ite
    (bind (raiseIf hu) fun _ => bind (reading hr) fun _ => bind (reading hr) fun _ => bind (reading hr) fun _ =>
      bind (reading hr) fun _ => bind (raiseIf he) fun _ => pure _)
    (pure _)

theorem emitByte {b : Byte} {c : Decoding} (ho : p.out = true) (hw : p.win = true) (he : .sizeExceeded ∈ E) :
    Bounded p p E (Machine.emitByte b c) :=
  bind (outByte ho ho he) fun _ => bind (writeWin hw) fun _ => pure _

theorem copyMatch {n : Nat} {x : Pos} {c : Decoding} (ho : p.out = true) (hw : p.win = true)
    (he : .sizeExceeded ∈ E) : Bounded p p E (Machine.copyMatch n x c) := by
  induction n generalizing x c with
  | zero => exact pure _
  | succ n ih => exact get_bind fun _ => bind (emitByte ho hw he) fun _ => ih

theorem emit {y : Sym} {d n : Nat} {c : Decoding} (ho : p.out = true) (hw : p.win = true)
    (he : .sizeExceeded ∈ E) : Bounded p p E (Machine.emit y d n c) :=
  ite (emitByte ho hw he) (copyMatch ho hw he)

theorem readDistance {y : Sym} (hr : p.rd = true) : Bounded p p E (Machine.readDistance y) :=
  ite (decodePos hr) (pure _)

theorem expandSymbol {size : Option Nat} {y : Sym} {d : Nat} {c : Decoding} (ho : p.out = true) (hw : p.win = true)
    (he : .sizeExceeded ∈ E) (hu : .unexpectedEof ∈ E) (hi : .invalidData ∈ E) :
    Bounded p p E (Machine.expandSymbol size y d c) :=
  get_bind fun _ => bind (raiseIf hu) fun _ => ite (bind (raiseIf hi) fun _ => pure _)
    (bind (raiseIf hi) fun _ => bind (raiseIf he) fun _ => bind (emit ho hw he) fun _ => pure _)

theorem expandStep {size : Option Nat} {c : Decoding} (ho : p.out = true) (hw : p.win = true) (hr : p.rd = true)
    (hh : p.huf = true) (he : .sizeExceeded ∈ E) (hu : .unexpectedEof ∈ E) (hi : .invalidData ∈ E) :
    Bounded p p E (Machine.expandStep size c) :=
  bind (hufDecode hr) fun _ => bind (hufUpdate hh) fun _ => bind (readDistance hr) fun _ =>
    expandSymbol ho hw he hu hi

theorem expandLoop {size : Option Nat} {n : Nat} {c : Decoding} (ho : p.out = true) (hw : p.win = true)
    (hr : p.rd = true) (hh : p.huf = true) (he : .sizeExceeded ∈ E) (hu : .unexpectedEof ∈ E)
    (hi : .invalidData ∈ E) : Bounded p p E (Machine.expandLoop size n c) := by
  induction n generalizing c with
  | zero => exact get_bind fun _ => ite (pure _) (stuck _)
  | succ n ih =>
    refine get_bind fun _ => ite (pure _) (bind (expandStep ho hw hr hh he hu hi) fun a => ?_)
    cases a
    · exact pure _
    · exact ih

/-! ### The LZW unit -/

theorem onLzw {f : Lzw → α × Lzw} (h : p.lzw = true) : Bounded p q E (Machine.onLzw f) :=
  fun s => by constructor <;> simp [h]

theorem setLzw {f : Lzw → Lzw} (h : p.lzw = true) : Bounded p q E (Machine.setLzw f) :=
  change fun s => by constructor <;> simp [h]

theorem emitCode {k : Code} (ho : p.out = true) (hl : p.lzw = true) (he : .sizeExceeded ∈ E) :
    Bounded p p E (Machine.emitCode k) :=
  get_bind fun _ =>
    ite (putBits ho ho he) (bind (putBits ho ho he) fun _ => bind (setLzw hl) fun _ => putBits ho ho he)

theorem clearWhenFull (ho : p.out = true) (hl : p.lzw = true) (he : .sizeExceeded ∈ E) :
    Bounded p p E Machine.clearWhenFull :=
  get_bind fun _ => doIf (bind (putBits ho ho he) fun _ => setLzw hl)

theorem growTable {k : Code} {b : Byte} (ho : p.out = true) (hl : p.lzw = true) (he : .sizeExceeded ∈ E) :
    Bounded p p E (Machine.growTable k b) :=
  get_bind fun _ => doIf (bind (setLzw hl) fun _ => clearWhenFull ho hl he)

theorem setPrefix {k : Option Code} (hl : p.lzw = true) : Bounded p q E (Machine.setPrefix k) := setLzw hl

theorem endPrefix {k : Code} {b : Byte} (ho : p.out = true) (hl : p.lzw = true) (he : .sizeExceeded ∈ E) :
    Bounded p p E (Machine.endPrefix k b) :=
  bind (emitCode ho hl he) fun _ => bind (growTable ho hl he) fun _ => setPrefix hl

theorem lookupCode {k : Code} {b : Byte} (hl : p.lzw = true) : Bounded p q E (Machine.lookupCode k b) := onLzw hl

theorem stringOf {k : Nat} (hl : p.lzw = true) : Bounded p q E (Machine.stringOf k) := onLzw hl

theorem extendPrefix {k : Code} {b : Byte} {o : Option Code} (ho : p.out = true) (hl : p.lzw = true)
    (he : .sizeExceeded ∈ E) : Bounded p p E (Machine.extendPrefix k b o) := by
  cases o
  · exact endPrefix ho hl he
  · exact setPrefix hl

theorem encodeAfter {b : Byte} {o : Option Code} (ho : p.out = true) (hl : p.lzw = true) (he : .sizeExceeded ∈ E) :
    Bounded p p E (Machine.encodeAfter b o) := by
  cases o with
  | none => exact setPrefix hl
  | some k =>
    show Bounded p p E (Machine.lookupCode k b >>= fun o => Machine.extendPrefix k b o)
    refine bind ?_ ?_
    · exact lookupCode hl
    · intro o
      exact extendPrefix ho hl he

theorem lzwEncodeByte {b : Byte} (ho : p.out = true) (hl : p.lzw = true) (he : .sizeExceeded ∈ E) :
    Bounded p p E (Machine.lzwEncodeByte b) := get_bind fun _ => encodeAfter ho hl he

theorem emitPrefix {o : Option Code} (ho : p.out = true) (hl : p.lzw = true) (he : .sizeExceeded ∈ E) :
    Bounded p p E (Machine.emitPrefix o) := by
  cases o
  · exact pure _
  · exact bind (emitCode ho hl he) fun _ => setPrefix hl

theorem emitLastPrefix (ho : p.out = true) (hl : p.lzw = true) (he : .sizeExceeded ∈ E) :
    Bounded p p E Machine.emitLastPrefix := get_bind fun _ => emitPrefix ho hl he

theorem lzwEncodeEnd (ho : p.out = true) (hl : p.lzw = true) (he : .sizeExceeded ∈ E) :
    Bounded p p E Machine.lzwEncodeEnd :=
  bind (emitLastPrefix ho hl he) fun _ => get_bind fun _ =>
    bind (doIf (putBits ho ho he)) fun _ => flush ho ho he

theorem lzwEncodeBytes {a n : Nat} (ho : p.out = true) (hl : p.lzw = true) (he : .sizeExceeded ∈ E) :
    Bounded p p E (Machine.lzwEncodeBytes a n) := by
  induction n generalizing a with
  | zero => exact pure _
  | succ n ih => exact bind readIn fun _ => bind (lzwEncodeByte ho hl he) fun _ => ih

theorem outBytes {bs : List Byte} (ho : p.out = true) (he : .sizeExceeded ∈ E) :
    Bounded p p E (Machine.outBytes bs) := by
  induction bs with
  | nil => exact pure _
  | cons b bs ih => exact bind (outByte ho ho he) fun _ => ih

theorem decodeString {k : Code} (hl : p.lzw = true) (hi : .invalidCode ∈ E) :
    Bounded p p E (Machine.decodeString k) := by
  refine get_bind fun s => ?_
  cases s.lzw.prev with
  | none => exact bind (raiseIf hi) fun _ => pure _
  | some k' =>
    exact ite (bind (stringOf hl) fun _ => pure _) (ite (bind (stringOf hl) fun _ => pure _) (raise hi))

theorem addNew {new : Option (Code × Byte)} (hl : p.lzw = true) : Bounded p p E (Machine.addNew new) := by
  cases new with
  | none => exact pure _
  | some e => exact setLzw (f := fun l => l.addEntry e.1 e.2) hl

theorem decodeData {k : Code} (ho : p.out = true) (hl : p.lzw = true) (he : .sizeExceeded ∈ E)
    (hi : .invalidCode ∈ E) : Bounded p p E (Machine.decodeData k) :=
  bind (decodeString hl hi) fun _ => get_bind fun _ => bind (raiseIf he) fun _ => bind (addNew hl) fun _ =>
    bind (outBytes ho he) fun _ => bind (setLzw hl) fun _ => pure _

theorem endOfInput (hl : p.lzw = true) (hu : .unexpectedEof ∈ E) : Bounded p p E Machine.endOfInput :=
  get_bind fun _ => bind (raiseIf hu) fun _ => bind (setLzw hl) fun _ => pure _

theorem decodeValue {k : Nat} (ho : p.out = true) (hl : p.lzw = true) (he : .sizeExceeded ∈ E)
    (hi : .invalidCode ∈ E) : Bounded p p E (Machine.decodeValue k) :=
  ite (bind (setLzw hl) fun _ => pure _) (ite (bind (setLzw hl) fun _ => pure _) (decodeData ho hl he hi))

theorem lzwDecodeCode (hr : p.rd = true) (ho : p.out = true) (hl : p.lzw = true) (he : .sizeExceeded ∈ E)
    (hi : .invalidCode ∈ E) (hu : .unexpectedEof ∈ E) : Bounded p p E Machine.lzwDecodeCode :=
  get_bind fun _ => ite (pure _) (ite (endOfInput hl hu) (bind (reading hr) fun _ => decodeValue ho hl he hi))

theorem lzwExpandLoop {n : Nat} (hr : p.rd = true) (ho : p.out = true) (hl : p.lzw = true) (he : .sizeExceeded ∈ E)
    (hi : .invalidCode ∈ E) (hu : .unexpectedEof ∈ E) : Bounded p p E (Machine.lzwExpandLoop n) := by
  induction n with
  | zero => exact get_bind fun _ => ite (pure _) (stuck _)
  | succ n ih => exact get_bind fun _ => ite (pure _) (bind (lzwDecodeCode hr ho hl he hi hu) fun _ => ih)

/-! ### The codec commands; their last lines write the results and cannot stop -/

/-- What the LZSS codec commands write before their results. -/
def lzhParts : Parts := { rd := true, out := true, win := true, huf := true }

/-- What the LZSS codec commands write in all. -/
def lzhResults : Parts := { lzhParts with res0 := true, res1 := true, r := true }

/-- What the LZW codec commands write before their results. -/
def lzwParts : Parts := { rd := true, out := true, lzw := true }

/-- What the LZW codec commands write in all. -/
def lzwResults : Parts := { lzwParts with res0 := true, res1 := true }

theorem lzhWithin : lzhParts.Within lzhResults := by constructor <;> simp [lzhParts, lzhResults]

theorem lzwWithin : lzwParts.Within lzwResults := by constructor <;> simp [lzwParts, lzwResults]

theorem endEncoding {r : Pos} (he : .sizeExceeded ∈ E) : Bounded lzhResults lzhParts E (Machine.endEncoding r) :=
  get_bind fun _ => bind_last (doIf (encodeSymbol rfl rfl he))
    (fun _ => bind_last (flush rfl rfl he) (fun _ => change fun s => by constructor <;> simp [lzhResults]) lzhWithin)
    lzhWithin

/-- The last writes after a part that can stop. -/
theorem bind_then {m : Engine State α} {f : α → Engine State β} (hm : Bounded p q E m)
    (hf : ∀ a s, (f a).Ends s (fun _ t => SameBut p s t) fun _ _ => False) : Bounded p q E (m >>= f) := fun s => by
  rw [Engine.ends_bind]
  exact (hm s).mono (fun a t h => (hf a t).mono (fun _ _ h' => h.trans h') fun _ _ h' => h'.elim) fun _ _ h => h

theorem lzhCompress (he : .sizeExceeded ∈ E) (hu : .unexpectedEof ∈ E) (hi : .illegalCommand ∈ E) :
    Bounded lzhResults lzhParts E Machine.lzhCompress :=
  bind_last (checkOffsets hu) (fun _ => bind_last (checkInputSize he) (fun _ => bind_last (bitInit rfl rfl) (fun _ =>
    bind_last (copyPrefix rfl he) (fun _ => get_bind fun _ => bind_last (doIf (writeHeader rfl he)) (fun _ =>
      bind_last (startEncoding rfl rfl hi) (fun _ => bind_last (encodeLoop rfl rfl rfl he hi) (fun _ =>
        bind_then (endEncoding he) fun _ s => by constructor <;> simp [lzhResults]) lzhWithin) lzhWithin)
      lzhWithin) lzhWithin) lzhWithin) lzhWithin) lzhWithin

theorem lzhExpand (he : .sizeExceeded ∈ E) (hu : .unexpectedEof ∈ E) (hi : .invalidData ∈ E) :
    Bounded lzhResults lzhParts E Machine.lzhExpand :=
  bind_last (checkOffsets hu) (fun _ => bind_last (bitInit rfl rfl) (fun _ => bind_last (copyPrefix rfl he) (fun _ =>
    bind_last (readHeader rfl he hu) (fun _ => bind_last (hufInit rfl) (fun _ => bind_last (winInit rfl) (fun _ =>
      get_bind fun _ => bind_last (expandLoop rfl rfl rfl rfl he hu hi) (fun _ => bind_then
        (change fun s => by constructor <;> simp [lzhResults])
        fun _ s => by constructor <;> simp [lzhResults]) lzhWithin)
      lzhWithin) lzhWithin) lzhWithin) lzhWithin) lzhWithin) lzhWithin

theorem lzwCompress (he : .sizeExceeded ∈ E) (hu : .unexpectedEof ∈ E) :
    Bounded lzwResults lzwParts E Machine.lzwCompress :=
  bind_last (checkOffsets hu) (fun _ => bind_last (checkInputSize he) (fun _ => bind_last (bitInit rfl rfl) (fun _ =>
    bind_last (copyPrefix rfl he) (fun _ => bind_last (setLzw rfl) (fun _ => get_bind fun _ =>
      bind_last (lzwEncodeBytes rfl rfl he) (fun _ => bind_last (lzwEncodeEnd rfl rfl he)
        (fun _ => reportCompress rfl rfl) lzwWithin) lzwWithin) lzwWithin) lzwWithin) lzwWithin) lzwWithin) lzwWithin

theorem lzwExpand (he : .sizeExceeded ∈ E) (hu : .unexpectedEof ∈ E) (hi : .invalidCode ∈ E) :
    Bounded lzwResults lzwParts E Machine.lzwExpand :=
  bind_last (checkOffsets hu) (fun _ => bind_last (bitInit rfl rfl) (fun _ => bind_last (copyPrefix rfl he) (fun _ =>
    bind_last (setLzw rfl) (fun _ => get_bind fun _ => bind_last (lzwExpandLoop rfl rfl rfl he hi hu)
      (fun _ => reportExpand rfl rfl) lzwWithin) lzwWithin) lzwWithin) lzwWithin) lzwWithin

end Bounded

end Sys2Proof.Machine
end

