-- ==== Sys2Proof/Laws/Commands.lean ====
section
/-! SUPPORT. Each command by its procedure: what it may write when it ends, what when it stops, and the errors it may
raise. -/

namespace Sys2Proof.Machine

/-- The procedure of a command that R160 gates; nothing for the control commands. -/
def procedure : Instr → Engine State Unit
  | .nop => pure ()
  | .reset => pure ()
  | .clrerr => pure ()
  | .bitInit => bitInit
  | .bitGet n => bitGetProc n
  | .bitPut n v => bitPutProc n v
  | .bitGetByte => bitGetByteProc
  | .bitPutByte b => putBits 8 b.toNat
  | .bitCount => bitCountProc
  | .bitFlush => flush
  | .winInit => winInit
  | .winRd x => winRdProc x
  | .winWr x b => winWrProc x b
  | .winInsert x => winInsertProc x
  | .winDelete x => winDeleteProc x
  | .winFind x => winFindProc x
  | .hufInit => hufInit
  | .hufEnc x => hufEncProc x
  | .hufDec => hufDecProc
  | .hufUpd x => hufUpdProc x
  | .hufEncPos x => hufEncPosProc x
  | .hufDecPos => hufDecPosProc
  | .hufRescale => hufRescaleProc
  | .hufPeek x => hufPeekProc x
  | .lzhCompress => lzhCompress
  | .lzhExpand => lzhExpand
  | .lzwInit => lzwInit
  | .lzwEncByte b => lzwEncodeByte b
  | .lzwEncEnd => lzwEncodeEnd
  | .lzwDecCode => lzwDecCodeProc
  | .lzwCompress => lzwCompress
  | .lzwExpand => lzwExpand

/-- A command other than the control commands runs its procedure behind the gate of R160. -/
theorem exec_eq_command {i : Instr} (s : State) (h1 : i ≠ .nop) (h2 : i ≠ .reset) (h3 : i ≠ .clrerr) :
    exec i s = command (procedure i) s := by
  cases i <;> first | rfl | contradiction

/-- What a command's procedure may write when it ends. -/
def partsOf : Instr → Parts
  | .nop => {}
  | .reset => {}
  | .clrerr => {}
  | .bitInit => { rd := true, out := true }
  | .bitGet _ => { res0 := true, rd := true }
  | .bitPut _ _ => { out := true }
  | .bitGetByte => { res0 := true, rd := true }
  | .bitPutByte _ => { out := true }
  | .bitCount => { res0 := true, res1 := true }
  | .bitFlush => { out := true }
  | .winInit => { win := true }
  | .winRd _ => { res0 := true }
  | .winWr _ _ => { win := true }
  | .winInsert _ => { res0 := true, res1 := true, win := true }
  | .winDelete _ => { win := true }
  | .winFind _ => { res0 := true, res1 := true, win := true }
  | .hufInit => { huf := true }
  | .hufEnc _ => { out := true }
  | .hufDec => { res0 := true, rd := true }
  | .hufUpd _ => { huf := true }
  | .hufEncPos _ => { out := true }
  | .hufDecPos => { res0 := true, rd := true }
  | .hufRescale => { huf := true }
  | .hufPeek _ => { res0 := true, res1 := true }
  | .lzhCompress => Bounded.lzhResults
  | .lzhExpand => Bounded.lzhResults
  | .lzwInit => { lzw := true }
  | .lzwEncByte _ => { out := true, lzw := true }
  | .lzwEncEnd => { out := true, lzw := true }
  | .lzwDecCode => { res0 := true, rd := true, out := true, lzw := true }
  | .lzwCompress => Bounded.lzwResults
  | .lzwExpand => Bounded.lzwResults

/-- What a command's procedure may have written when it stops: all but the result registers and `R` (R384). -/
def stopPartsOf (i : Instr) : Parts := { partsOf i with res0 := false, res1 := false, r := false }

theorem stopParts_within (i : Instr) : (stopPartsOf i).Within (partsOf i) := by
  constructor <;> simp [stopPartsOf]

/-- The errors a command's procedure may raise: those of R381, and for `LZH_COMPRESS` the one its insertions could, which
R306 rules out. -/
def raisesOf : Instr → List ErrCode
  | .nop => []
  | .reset => []
  | .clrerr => []
  | .bitInit => []
  | .bitGet _ => [.illegalCommand]
  | .bitPut _ _ => [.illegalCommand, .sizeExceeded]
  | .bitGetByte => []
  | .bitPutByte _ => [.sizeExceeded]
  | .bitCount => []
  | .bitFlush => [.sizeExceeded]
  | .winInit => []
  | .winRd _ => [.illegalCommand]
  | .winWr _ _ => [.illegalCommand]
  | .winInsert _ => [.illegalCommand]
  | .winDelete _ => [.illegalCommand]
  | .winFind _ => [.illegalCommand]
  | .hufInit => []
  | .hufEnc _ => [.illegalCommand, .sizeExceeded]
  | .hufDec => []
  | .hufUpd _ => [.illegalCommand]
  | .hufEncPos _ => [.illegalCommand, .sizeExceeded]
  | .hufDecPos => []
  | .hufRescale => []
  | .hufPeek _ => [.illegalCommand]
  | .lzhCompress => [.unexpectedEof, .sizeExceeded, .illegalCommand]
  | .lzhExpand => [.unexpectedEof, .invalidData, .sizeExceeded]
  | .lzwInit => []
  | .lzwEncByte _ => [.sizeExceeded]
  | .lzwEncEnd => [.sizeExceeded]
  | .lzwDecCode => [.unexpectedEof, .invalidCode, .sizeExceeded]
  | .lzwCompress => [.unexpectedEof, .sizeExceeded]
  | .lzwExpand => [.unexpectedEof, .invalidCode, .sizeExceeded]

namespace Bounded

variable {p q : Parts} {E : List ErrCode} {α β : Type}

/-- The parts a procedure writes may be enlarged. -/
theorem mono {p' q' : Parts} {m : Engine State α} (h : Bounded p q E m) (hp : p.Within p') (hq : q.Within q') :
    Bounded p' q' E m := fun s => (h s).mono (fun _ _ h => h.mono hp) fun _ _ h => ⟨h.1.mono hq, h.2⟩

/-- A procedure that writes within the smaller parts only. -/
theorem enlarge {m : Engine State α} (h : Bounded q q E m) (hw : q.Within p) : Bounded p q E m :=
  h.mono hw (.refl q)

/-- What every command's procedure may write and raise. -/
theorem ofProcedure (i : Instr) : Bounded (partsOf i) (stopPartsOf i) (raisesOf i) (Machine.procedure i) := by
  have hw := stopParts_within i
  cases i
  case nop => exact pure ()
  case reset => exact pure ()
  case clrerr => exact pure ()
  case bitInit => exact bitInit rfl rfl
  case bitGet n =>
    exact bind_last (bitCount (by simp [raisesOf])) (fun _ => bind_last (reading rfl) (fun _ => setRes0 rfl) hw) hw
  case bitPut n v => exact bind_last (bitCount (by simp [raisesOf])) (fun _ => putBits rfl rfl (by simp [raisesOf])) hw
  case bitGetByte => exact bind_last (reading rfl) (fun _ => setRes0 rfl) hw
  case bitPutByte b => exact putBits rfl rfl (by simp [raisesOf])
  case bitCount => exact change fun s => by constructor <;> simp [partsOf]
  case bitFlush => exact flush rfl rfl (by simp [raisesOf])
  case winInit => exact winInit rfl
  case winRd x =>
    exact bind_last (indexBelow (by simp [raisesOf])) (fun _ => change fun s => by constructor <;> simp [partsOf]) hw
  case winWr x b => exact bind_last (indexBelow (by simp [raisesOf])) (fun _ => writeWin rfl) hw
  case winInsert x =>
    exact bind_last (indexBelow (by simp [raisesOf]))
      (fun _ => bind_last (insertPos rfl (by simp [raisesOf])) (fun _ => reportMatch rfl rfl) hw) hw
  case winDelete x => exact bind_last (indexBelow (by simp [raisesOf])) (fun _ => deletePos rfl) hw
  case winFind x =>
    exact bind_last (indexBelow (by simp [raisesOf]))
      (fun _ => bind_last (findPos rfl (by simp [raisesOf])) (fun _ => reportMatch rfl rfl) hw) hw
  case hufInit => exact hufInit rfl
  case hufEnc x =>
    exact bind_last (indexBelow (by simp [raisesOf])) (fun _ => enlarge (hufEncode rfl (by simp [raisesOf])) hw) hw
  case hufDec => exact bind_last (hufDecode rfl) (fun _ => setRes0 rfl) hw
  case hufUpd x => exact bind_last (indexBelow (by simp [raisesOf])) (fun _ => hufUpdate rfl) hw
  case hufEncPos x => exact bind_last (indexBelow (by simp [raisesOf])) (fun _ => putAll rfl rfl (by simp [raisesOf])) hw
  case hufDecPos => exact bind_last (decodePos rfl) (fun _ => setRes0 rfl) hw
  case hufRescale => exact change fun s => by constructor <;> simp [partsOf]
  case hufPeek x =>
    exact bind_last (indexBelow (by simp [raisesOf])) (fun _ => change fun s => by constructor <;> simp [partsOf]) hw
  case lzhCompress => exact lzhCompress (by simp [raisesOf]) (by simp [raisesOf]) (by simp [raisesOf])
  case lzhExpand => exact lzhExpand (by simp [raisesOf]) (by simp [raisesOf]) (by simp [raisesOf])
  case lzwInit => exact setLzw rfl
  case lzwEncByte b => exact enlarge (lzwEncodeByte rfl rfl (by simp [raisesOf])) hw
  case lzwEncEnd => exact enlarge (lzwEncodeEnd rfl rfl (by simp [raisesOf])) hw
  case lzwDecCode =>
    exact bind_last (lzwDecodeCode rfl rfl rfl (by simp [raisesOf]) (by simp [raisesOf]) (by simp [raisesOf]))
      (fun _ => setRes0 rfl) hw
  case lzwCompress => exact lzwCompress (by simp [raisesOf]) (by simp [raisesOf])
  case lzwExpand => exact lzwExpand (by simp [raisesOf]) (by simp [raisesOf]) (by simp [raisesOf])

end Bounded

/-- Everything a gated command can answer, with what it changed (R160, R384). -/
theorem exec_cases {i : Instr} (s : State) (h1 : i ≠ .nop) (h2 : i ≠ .reset) (h3 : i ≠ .clrerr) :
    (s.err ≠ 0 ∧ exec i s = .next s) ∨
    (s.err = 0 ∧ ∃ t, exec i s = .next t ∧ SameBut (partsOf i) s t) ∨
    (s.err = 0 ∧ ∃ e u, e ∈ raisesOf i ∧ exec i s = .next (errorEntry e u) ∧ SameBut (stopPartsOf i) s u) ∨
    (s.err = 0 ∧ ∃ why, exec i s = .fault why) := by
  rw [exec_eq_command s h1 h2 h3]
  have hb := Bounded.ofProcedure i s
  rcases command_cases (procedure i) s with h | ⟨he, t, hm, h⟩ | ⟨he, e, t, hm, h⟩ | ⟨he, why, t, hm, h⟩
  · exact .inl h
  · exact .inr (.inl ⟨he, t, h, (Engine.ends_of_ok hm).1 hb⟩)
  · have := (Engine.ends_of_error hm).1 hb
    exact .inr (.inr (.inl ⟨he, e, t, this.2 e rfl, h, this.1⟩))
  · exact .inr (.inr (.inr ⟨he, why, h⟩))

end Sys2Proof.Machine
end

