-- ==== Sys2Proof/Laws/Table.lean ====
section
/-! SUPPORT. A `Table` is an array: what a read gives after a write, and after `tabulate`. -/

namespace Sys2Proof

namespace Cells

variable {α : Type}

theorem get?_even {e o : Cells α} {i : Nat} (h : i % 2 = 0) : (two e o).get? i = e.get? (i / 2) := by simp [get?, h]

theorem get?_odd {e o : Cells α} {i : Nat} (h : i % 2 = 1) : (two e o).get? i = o.get? (i / 2) := by simp [get?, h]

theorem set_even {e o : Cells α} {i : Nat} {a : α} (h : i % 2 = 0) :
    (two e o).set i a = two (e.set (i / 2) a) o := by simp [set, h]

theorem set_odd {e o : Cells α} {i : Nat} {a : α} (h : i % 2 = 1) :
    (two e o).set i a = two e (o.set (i / 2) a) := by simp [set, h]

theorem get?_set_self {c : Cells α} {n i : Nat} {a : α} (hs : c.shaped n = true) (hi : i < n) :
    (c.set i a).get? i = some a := by
  induction c generalizing n i with
  | none => simp [shaped] at hs; omega
  | one b => simp [set, get?]
  | two e o ihe iho =>
    simp only [shaped, Bool.and_eq_true] at hs
    rcases Nat.mod_two_eq_zero_or_one i with h | h
    · rw [set_even h, get?_even h, ihe hs.2.1 (by omega)]
    · rw [set_odd h, get?_odd h, iho hs.2.2 (by omega)]

theorem get?_set_ne {c : Cells α} {n i j : Nat} {a : α} (hs : c.shaped n = true) (hi : i < n) (hj : j < n)
    (hij : i ≠ j) : (c.set i a).get? j = c.get? j := by
  induction c generalizing n i j with
  | none => simp [shaped] at hs; omega
  | one b => simp [shaped] at hs; omega
  | two e o ihe iho =>
    simp only [shaped, Bool.and_eq_true] at hs
    rcases Nat.mod_two_eq_zero_or_one i with h | h <;> rcases Nat.mod_two_eq_zero_or_one j with h' | h'
    · rw [set_even h, get?_even h', get?_even h', ihe hs.2.1 (by omega) (by omega) (by omega)]
    · rw [set_even h, get?_odd h', get?_odd h']
    · rw [set_odd h, get?_even h', get?_even h']
    · rw [set_odd h, get?_odd h', get?_odd h', iho hs.2.2 (by omega) (by omega) (by omega)]

theorem get?_build {f : Nat → α} {d n i : Nat} (h : n ≤ d) (hi : i < n) : (build d n f).get? i = some (f i) := by
  induction d generalizing n f i with
  | zero => omega
  | succ d ih =>
    simp only [build]
    split
    · omega
    · split
      · simp only [get?, Option.some.injEq]
        congr 1
        omega
      · rcases Nat.mod_two_eq_zero_or_one i with h' | h' <;> simp only [get?, h']
        · rw [show (0 == 0) = true from rfl, cond_true, ih (by omega) (by omega)]
          congr 2
          omega
        · rw [show (1 == 0) = false from rfl, cond_false, ih (by omega) (by omega)]
          congr 2
          omega

theorem ext {c c' : Cells α} {n : Nat} (hs : c.shaped n = true) (hs' : c'.shaped n = true)
    (h : ∀ i, i < n → c.get? i = c'.get? i) : c = c' := by
  induction c generalizing c' n with
  | none =>
    cases c' with
    | none => rfl
    | one b => simp [shaped] at hs hs'; omega
    | two e' o' => simp [shaped] at hs hs'; omega
  | one a =>
    cases c' with
    | none => simp [shaped] at hs hs'; omega
    | one b => simp only [shaped, beq_iff_eq] at hs; simpa [get?] using h 0 (by omega)
    | two e' o' => simp [shaped] at hs hs'; omega
  | two e o ihe iho =>
    cases c' with
    | none => simp [shaped] at hs hs'; omega
    | one b => simp [shaped] at hs hs'; omega
    | two e' o' =>
      simp only [shaped, Bool.and_eq_true, decide_eq_true_eq] at hs hs'
      rw [ihe hs.2.1 hs'.2.1 fun i hi => ?_, iho hs.2.2 hs'.2.2 fun i hi => ?_]
      · have := h (2 * i + 1) (by omega)
        simpa [get?, show (2 * i + 1) % 2 = 1 by omega, show (2 * i + 1) / 2 = i by omega] using this
      · have := h (2 * i) (by omega)
        simpa [get?] using this

end Cells

namespace Table

variable {α : Type} {n : Nat}

theorem some_get (t : Table α n) (i : Fin n) : some (t.get i) = t.cells.get? i.val := by simp [get]

@[simp] theorem get_set_self (t : Table α n) (i : Fin n) (a : α) : (t.set i a).get i = a :=
  Option.some.inj (by rw [some_get]; exact Cells.get?_set_self t.shape i.isLt)

@[simp] theorem get_set_ne (t : Table α n) {i j : Fin n} (a : α) (h : i ≠ j) : (t.set i a).get j = t.get j :=
  Option.some.inj (by
    rw [some_get, some_get]
    exact Cells.get?_set_ne t.shape i.isLt j.isLt fun e => h (Fin.ext e))

theorem get_set (t : Table α n) (i j : Fin n) (a : α) : (t.set i a).get j = if j = i then a else t.get j := by
  split
  · next h => rw [h, get_set_self]
  · next h => exact get_set_ne t a fun e => h e.symm

@[simp] theorem get_tabulate (f : Nat → α) (i : Fin n) : (tabulate n f).get i = f i.val :=
  Option.some.inj (by rw [some_get]; exact Cells.get?_build (Nat.le_refl n) i.isLt)

theorem ext {t t' : Table α n} (h : ∀ i, t.get i = t'.get i) : t = t' := by
  obtain ⟨c, hs⟩ := t
  obtain ⟨c', hs'⟩ := t'
  have : c = c' := Cells.ext hs hs' fun i hi => by
    rw [← some_get ⟨c, hs⟩ ⟨i, hi⟩, ← some_get ⟨c', hs'⟩ ⟨i, hi⟩, h]
  subst this
  rfl

end Table

end Sys2Proof
end

