-- ==== Sys2Proof/Laws/Expansion.lean ====
section
/-! SUPPORT. The terms about expansions and searches (Safety.lean): what each field of an `Expansion` is after some bytes,
that symbols only add bytes, and that a search of a linked window visits indexed positions of one tree. -/

namespace Sys2Proof.Machine

namespace Expansion

@[simp] theorem put_tree (e : Expansion) (b : Byte) : (e.put b).tree = e.tree := rfl
@[simp] theorem put_pos (e : Expansion) (b : Byte) : (e.put b).pos = e.pos := rfl
@[simp] theorem put_r (e : Expansion) (b : Byte) : (e.put b).r = e.r + 1 := rfl
@[simp] theorem put_bytes (e : Expansion) (b : Byte) : (e.put b).bytes = e.bytes ++ [b] := rfl
@[simp] theorem put_win (e : Expansion) (b : Byte) : (e.put b).win = e.win.set e.r b := rfl

@[simp] theorem putAll_nil (e : Expansion) : e.putAll [] = e := rfl
@[simp] theorem putAll_cons (e : Expansion) (b : Byte) (new : List Byte) :
    e.putAll (b :: new) = (e.put b).putAll new := rfl

theorem putAll_append (e : Expansion) (new new' : List Byte) : e.putAll (new ++ new') = (e.putAll new).putAll new' :=
  List.foldl_append

@[simp] theorem putAll_tree (e : Expansion) (new : List Byte) : (e.putAll new).tree = e.tree := by
  induction new generalizing e with
  | nil => rfl
  | cons b new ih => exact (ih _).trans rfl

@[simp] theorem putAll_pos (e : Expansion) (new : List Byte) : (e.putAll new).pos = e.pos := by
  induction new generalizing e with
  | nil => rfl
  | cons b new ih => exact (ih _).trans rfl

@[simp] theorem putAll_bytes (e : Expansion) (new : List Byte) : (e.putAll new).bytes = e.bytes ++ new := by
  induction new generalizing e with
  | nil => simp
  | cons b new ih => simp [ih]

/-- The write position wraps modulo `N` (R60). -/
theorem putAll_r (e : Expansion) (new : List Byte) : (e.putAll new).r.val = (e.r.val + new.length) % 4096 := by
  induction new generalizing e with
  | nil => simp [Nat.mod_eq_of_lt e.r.isLt]
  | cons b new ih =>
    have : (e.r + 1 : Pos).val = (e.r.val + 1) % 4096 := Fin.val_add _ _
    rw [putAll_cons, ih, put_r, this, List.length_cons]
    omega

/-- A symbol stands for one byte at least (R310: the loop always ends). -/
theorem Means.pos {e : Expansion} {y : Sym} {d : Nat} {new : List Byte} (h : e.Means y d new) : 1 ≤ new.length := by
  unfold Means at h
  split at h
  · simp [h]
  · have := h.1
    omega

/-- How many bytes a match stands for (R122). -/
theorem Means.length {e : Expansion} {y : Sym} {d : Nat} {new : List Byte} (h : e.Means y d new)
    (hy : 256 ≤ y.val) : new.length = y.val - 254 := by
  rw [Means, if_neg (by omega)] at h
  exact h.1

end Expansion

namespace Input

variable {i : Input} {e e' : Expansion} {y : Sym} {d pos : Nat} {tree : HufTree}

/-- Reading a symbol does not move back. -/
theorem Reads.le (h : i.Reads e y d tree pos) : e.pos ≤ pos := by
  obtain ⟨n, -, h⟩ := h.codes
  split at h <;> omega

/-- The bytes produced stay, and symbols only add to them. -/
theorem Expands.prefix (h : i.Expands e e') : e.bytes <+: e'.bytes := by
  induction h with
  | none e => exact List.prefix_refl _
  | symbol e e' y d tree pos new _ _ _ _ _ ih =>
    rw [Expansion.putAll_bytes] at ih
    exact (List.prefix_append _ _).trans ih

theorem Expands.pos_le (h : i.Expands e e') : e.pos ≤ e'.pos := by
  induction h with
  | none e => exact Nat.le_refl _
  | symbol e e' y d tree pos new _ hr _ _ _ ih =>
    rw [Expansion.putAll_pos] at ih
    exact hr.le.trans ih

theorem Expands.trans {e'' : Expansion} (h : i.Expands e e') (h' : i.Expands e' e'') : i.Expands e e'' := by
  induction h with
  | none e => exact h'
  | symbol e e' y d tree pos new h1 h2 h3 h4 _ ih => exact .symbol _ _ y d tree pos new h1 h2 h3 h4 (ih h')

end Input

namespace Window

variable {w : Window}

/-- The children of a visited node, and the root, are in the index and under the root (R210). -/
theorem Visits.inTree (hl : w.Linked) {p q : Pos} (h : w.Visits p q) :
    w.indexed q = true ∧ w.InTree (w.win.get p) q := by
  induction h with
  | root q e =>
    exact ⟨by rw [indexed, hl.rootDad q _ e]; rfl, q, e, .self q⟩
  | right q q' _ _ _ e ih =>
    obtain ⟨h1, r, h2, h3⟩ := ih
    have h4 := hl.rightDad q' q h1 e
    exact ⟨by rw [indexed, h4]; rfl, r, h2, .step r q' q h4 h3⟩
  | left q q' _ _ e ih =>
    obtain ⟨h1, r, h2, h3⟩ := ih
    have h4 := hl.leftDad q' q h1 e
    exact ⟨by rw [indexed, h4]; rfl, r, h2, .step r q' q h4 h3⟩

/-- The source of the distance from `p` to another position is that position (R123). -/
theorem source_distance {p q : Pos} (h : q ≠ p) : source p (distance p q) = q := by
  have h1 := p.isLt
  have h2 := q.isLt
  have h3 : q.val ≠ p.val := fun e => h (Fin.ext e)
  apply Fin.ext
  simp only [source, distance, Fin.val_ofNat]
  omega

end Window

end Sys2Proof.Machine
end

