-- ==== Sys2Proof/Laws/HuffmanUpdate.lean ====
section
/-! SUPPORT. `HufUpdate` on a sound tree (43_huffman.md R254, R259): the loop keeps everything R259 says but the one sum it
is about to mend, so it ends, and the tree is sound again. -/

namespace Sys2Proof.Machine

theorem slot_val {n : Nat} (h : n < 629) : (slot n).val = n := Nat.mod_eq_of_lt h

theorem slot_eq (s : Slot) : slot s.val = s := Fin.ext (slot_val s.isLt)

namespace HufTree

/-- The frequency of slot `n` as a number. -/
def F (t : HufTree) (n : Nat) : Nat := (t.freq.get (slot n)).toNat

theorem F_val (t : HufTree) (s : Slot) : t.F s.val = (t.freq.get s).toNat := by rw [F, slot_eq]

theorem Sound.sorted_F {t : HufTree} (h : t.Sound) {m n : Nat} (hmn : m ≤ n) (hn : n < 629) : t.F m ≤ t.F n := by
  induction n with
  | zero => rw [Nat.le_zero.1 hmn]
  | succ n ih =>
    rcases Nat.lt_or_eq_of_le hmn with h' | h'
    · refine (ih (by omega) (by omega)).trans ?_
      have := h.sorted ⟨n, by omega⟩
      rw [BitVec.le_def, ← F_val, ← F_val] at this
      exact this
    · rw [h']

/-- Everything R259 says of a tree, but that the internal node in slot `c` has one less than its children's sum: the tree
inside `HufUpdate`, before `c` is incremented. -/
structure Pending (t : HufTree) (c : Slot) : Prop where
  sorted : ∀ m n, m ≤ n → n < 629 → t.F m ≤ t.F n
  sum : ∀ (s : Slot) (x : Fin 628), t.son.get s = .node x →
    t.F s.val + (if s = c then 1 else 0) = t.F x.castSucc.val + t.F x.succ.val
  parentSon : ∀ (s : Slot) (x : Fin 628), t.son.get s = .node x →
    t.parent.get x.castSucc = s ∧ t.parent.get x.succ = s
  leafSon : ∀ (s : Slot) (y : Sym), t.son.get s = .leaf y → t.leaf.get y = s
  leafOf : ∀ y : Sym, t.son.get (t.leaf.get y) = .leaf y
  rootFreq : t.F 628 < 0x8000
  child : ∀ s : Slot, s ≠ 628 → ∃ x : Fin 628, t.son.get (t.parent.get s) = .node x ∧ childOf s x
  lower : ∀ (s : Slot) (x : Fin 628), t.son.get s = .node x → x.val + 1 < s.val
  even : ∀ (s : Slot) (x : Fin 628), t.son.get s = .node x → x.val % 2 = 0
  positive : ∀ n, n < 629 → 1 ≤ t.F n
  rootParent : t.parent.get 628 = 0

theorem Sound.pending {t : HufTree} (h : t.Sound) (hr : t.F 628 < 0x8000) (y : Sym) :
    t.Pending (t.leaf.get y) where
  sorted := fun _ _ hmn hn => h.sorted_F hmn hn
  sum := fun s x hs => by
    have hne : s ≠ t.leaf.get y := by
      rintro rfl
      rw [h.leafOf] at hs
      cases hs
    rw [if_neg hne, F_val, F_val, F_val]
    exact h.sum s x hs
  parentSon := h.parentSon
  leafSon := h.leafSon
  leafOf := h.leafOf
  rootFreq := hr
  child := h.child
  lower := h.lower
  even := h.even
  positive := fun n hn => by have := h.positive (slot n); rwa [← F_val, slot_val hn] at this
  rootParent := h.rootParent

/-! ### The scan for the last slot of a run -/

theorem lastBelow_spec (t : HufTree) (k n : Nat) (hn : n ≤ 628) :
    628 - n ≤ (t.lastBelow k n).val ∧ (∀ x, 628 - n < x → x ≤ (t.lastBelow k n).val → t.F x < k) ∧
      ((t.lastBelow k n).val < 628 → k ≤ t.F ((t.lastBelow k n).val + 1)) := by
  induction n with
  | zero =>
    refine ⟨Nat.le_refl _, fun x h1 h2 => ?_, fun h => absurd h (Nat.lt_irrefl 628)⟩
    have : (628 : Slot).val = 628 := rfl
    simp only [lastBelow] at h2
    omega
  | succ n ih =>
    simp only [lastBelow]
    split
    · next h =>
      obtain ⟨h1, h2, h3⟩ := ih (by omega)
      refine ⟨by omega, fun x hx hx' => ?_, h3⟩
      by_cases hx2 : 628 - n < x
      · exact h2 x hx2 hx'
      · rw [show x = 628 - n by omega]; exact h
    · next h =>
      have hv : (slot (627 - n)).val = 627 - n := slot_val (by omega)
      refine ⟨by omega, fun x hx hx' => by omega, fun _ => ?_⟩
      rw [hv, show 627 - n + 1 = 628 - n by omega]
      exact Nat.le_of_not_lt h

/-! ### One pass of the loop -/

/-- Moving a `SON` value to slot `s` makes `PARENT` and `LEAF` say so. -/
theorem linkParent_freq (t : HufTree) (v : Son) (s : Slot) : (t.linkParent v s).freq = t.freq := by cases v <;> rfl

theorem linkParent_son (t : HufTree) (v : Son) (s : Slot) : (t.linkParent v s).son = t.son := by cases v <;> rfl

theorem linkParent_parent (t : HufTree) (v : Son) (s a : Slot) :
    (t.linkParent v s).parent.get a =
      if ∃ x, v = .node x ∧ childOf a x then s else t.parent.get a := by
  cases v with
  | leaf y => simp [linkParent]
  | node x =>
    simp only [linkParent, Table.get_set, Son.node.injEq, exists_eq_left', childOf]
    by_cases h1 : a = x.succ
    · simp [h1]
    · by_cases h2 : a = x.castSucc
      · simp [h2]
      · simp [h1, h2]

theorem linkParent_leaf (t : HufTree) (v : Son) (s : Slot) (y : Sym) :
    (t.linkParent v s).leaf.get y = if v = .leaf y then s else t.leaf.get y := by
  cases v with
  | node x => simp [linkParent]
  | leaf z =>
    simp only [linkParent, Table.get_set, Son.leaf.injEq]
    by_cases h : y = z
    · simp [h]
    · rw [if_neg h, if_neg fun e => h e.symm]

/-- The exchange of slots `c` and `l`, array by array. -/
theorem exchange_freq (t : HufTree) (c l : Slot) (k : Freq) :
    (t.exchange c l k).freq = (t.freq.set c (t.freq.get l)).set l k := by
  simp [exchange, linkParent_freq]

theorem exchange_son (t : HufTree) (c l s : Slot) (k : Freq) :
    (t.exchange c l k).son.get s =
      if s = c then t.son.get l else if s = l then t.son.get c else t.son.get s := by
  simp [exchange, linkParent_son, Table.get_set]

theorem exchange_parent (t : HufTree) (c l a : Slot) (k : Freq) :
    (t.exchange c l k).parent.get a =
      if ∃ x, t.son.get l = .node x ∧ childOf a x then c
      else if ∃ x, t.son.get c = .node x ∧ childOf a x then l
      else t.parent.get a := by
  simp [exchange, linkParent_son, linkParent_parent]

theorem exchange_leaf (t : HufTree) (c l : Slot) (k : Freq) (y : Sym) :
    (t.exchange c l k).leaf.get y =
      if t.son.get l = .leaf y then c else if t.son.get c = .leaf y then l else t.leaf.get y := by
  simp [exchange, linkParent_son, linkParent_leaf]

/-- The frequency of a symbol after a pass at slot `c`: one more for the leaf in slot `c`, if it is one. -/
def gain (t : HufTree) (c : Slot) (y : Sym) : Nat := if t.son.get c = .leaf y then 1 else 0

/-- What a pass at slot `c` leaves: the incremented node in slot `l`. -/
structure Passed (t t' : HufTree) (c l : Slot) : Prop where
  above : c.val ≤ l.val
  pending : l ≠ 628 → t'.Pending (t'.parent.get l) ∧ l.val < (t'.parent.get l).val ∧
    (∀ y, t'.son.get (t'.parent.get l) ≠ .leaf y)
  sound : l = 628 → t'.Sound
  weight : ∀ y, t'.weight y = t.weight y + t.gain c y

namespace Pending

variable {t : HufTree} {c : Slot}

theorem son_inj (h : t.Pending c) {s s' : Slot} (e : t.son.get s = t.son.get s') : s = s' := by
  cases hs : t.son.get s with
  | leaf y => rw [← h.leafSon s y hs, ← h.leafSon s' y (e ▸ hs)]
  | node x => rw [← (h.parentSon s x hs).1, ← (h.parentSon s' x (e ▸ hs)).1]

/-- A slot is a child of its parent only. -/
theorem parent_of_child (h : t.Pending c) {s a : Slot} {x : Fin 628} (hs : t.son.get s = .node x) (ha : childOf a x) :
    t.parent.get a = s := by
  rcases ha with rfl | rfl
  · exact (h.parentSon s x hs).1
  · exact (h.parentSon s x hs).2

theorem child_lt (h : t.Pending c) {s a : Slot} {x : Fin 628} (hs : t.son.get s = .node x) (ha : childOf a x) :
    a.val < s.val := by
  have := h.lower s x hs
  rcases ha with rfl | rfl <;> simp only [Fin.val_castSucc, Fin.val_succ] <;> omega

theorem parent_gt (h : t.Pending c) {a : Slot} (ha : a ≠ 628) : a.val < (t.parent.get a).val := by
  obtain ⟨x, hx, hc⟩ := h.child a ha
  exact h.child_lt hx hc

theorem root_not_child (h : t.Pending c) {s : Slot} {x : Fin 628} (hs : t.son.get s = .node x) :
    ¬ childOf 628 x := by
  intro hc
  have := h.child_lt hs hc
  have := s.isLt
  have : (628 : Slot).val = 628 := rfl
  omega

/-- A node other than the pending one is larger than each of its children. -/
theorem child_less (h : t.Pending c) {s a : Slot} {x : Fin 628} (hs : t.son.get s = .node x) (hne : s ≠ c)
    (ha : childOf a x) : t.F a.val < t.F s.val := by
  have h1 := h.sum s x hs
  rw [if_neg hne] at h1
  have h2 := h.positive x.castSucc.val x.castSucc.isLt
  have h3 := h.positive x.succ.val x.succ.isLt
  rcases ha with rfl | rfl <;> omega

end Pending

/-- The arrays after a pass, whichever way it went, as a tree whose frequencies are the old ones but for one more in slot
`l`, and whose slots `c` and `l` are exchanged. -/
theorem passed_of_arrays {t t' : HufTree} {c l : Slot} (h : t.Pending c) (hcl : c.val ≤ l.val)
    (hrun : t.F l.val = t.F c.val) (hnext : l.val < 628 → t.F c.val + 1 ≤ t.F (l.val + 1))
    (hF : ∀ n, n < 629 → t'.F n = if n = l.val then t.F c.val + 1 else t.F n)
    (hson : ∀ s, t'.son.get s = if s = c then t.son.get l else if s = l then t.son.get c else t.son.get s)
    (hpar : ∀ a, t'.parent.get a =
      if ∃ x, t.son.get l = .node x ∧ childOf a x then c
      else if ∃ x, t.son.get c = .node x ∧ childOf a x then l
      else t.parent.get a)
    (hleaf : ∀ y, t'.leaf.get y =
      if t.son.get l = .leaf y then c else if t.son.get c = .leaf y then l else t.leaf.get y) :
    Passed t t' c l := by
  have hl := l.isLt
  have hcl' : c ≠ l → c.val < l.val := fun hne => by
    rcases Nat.lt_or_eq_of_le hcl with h' | h'
    · exact h'
    · exact absurd (Fin.ext h') hne
  -- the son of slot `l` is now the old son of slot `c`, and the other way round
  have hsonl : t'.son.get l = t.son.get c := by
    rw [hson]
    by_cases e : l = c
    · rw [if_pos e, e]
    · rw [if_neg e, if_pos rfl]
  have hsonc : t'.son.get c = t.son.get l := by rw [hson, if_pos rfl]
  have hsono : ∀ s, s ≠ c → s ≠ l → t'.son.get s = t.son.get s := fun s h1 h2 => by rw [hson, if_neg h1, if_neg h2]
  -- children of the node in slot `l` lie below slot `c`
  have hlow : ∀ x a, t.son.get l = .node x → childOf a x → a.val < c.val := fun x a hx ha => by
    by_cases e : l = c
    · rw [← e]; exact h.child_lt hx ha
    · have h1 := h.child_less hx e ha
      by_contra h2
      have := h.sorted c.val a.val (by omega) a.isLt
      omega
  -- neither slot is a child of a node in either
  have hnl : ∀ s x, (s = c ∨ s = l) → t.son.get s = .node x → ¬ childOf l x := fun s x hs hx hc => by
    rcases hs with rfl | rfl
    · have := h.child_lt hx hc; omega
    · have := h.child_lt hx hc; omega
  have hsorted : ∀ m n, m ≤ n → n < 629 → t'.F m ≤ t'.F n := fun m n hmn hn => by
    rw [hF m (by omega), hF n hn]
    have h0 := h.sorted m n hmn hn
    split <;> split
    · exact Nat.le_refl _
    · next h1 h2 =>
      subst h1
      exact (hnext (by omega)).trans (h.sorted (l.val + 1) n (by omega) hn)
    · next h1 h2 => subst h2; omega
    · exact h0
  have hparentSon : ∀ (s : Slot) (x : Fin 628), t'.son.get s = .node x → ∀ a, childOf a x → t'.parent.get a = s := by
    intro s x hs a ha
    rw [hson] at hs
    rw [hpar]
    by_cases e1 : s = c
    · subst e1
      rw [if_pos rfl] at hs
      rw [if_pos ⟨x, hs, ha⟩]
    · rw [if_neg e1] at hs
      by_cases e2 : s = l
      · subst e2
        rw [if_pos rfl] at hs
        have hno : ¬ ∃ x', t.son.get s = .node x' ∧ childOf a x' := by
          rintro ⟨x', hx', ha'⟩
          have h1 := h.parent_of_child hs ha
          have h2 := h.parent_of_child hx' ha'
          exact e1 (h2.symm.trans h1)
        rw [if_neg hno, if_pos ⟨x, hs, ha⟩]
      · rw [if_neg e2] at hs
        have hp := h.parent_of_child hs ha
        have hno1 : ¬ ∃ x', t.son.get l = .node x' ∧ childOf a x' := by
          rintro ⟨x', hx', ha'⟩
          exact e2 (hp.symm.trans (h.parent_of_child hx' ha'))
        have hno2 : ¬ ∃ x', t.son.get c = .node x' ∧ childOf a x' := by
          rintro ⟨x', hx', ha'⟩
          exact e1 (hp.symm.trans (h.parent_of_child hx' ha'))
        rw [if_neg hno1, if_neg hno2, hp]
  have hleafSon : ∀ (s : Slot) (y : Sym), t'.son.get s = .leaf y → t'.leaf.get y = s := by
    intro s y hs
    rw [hson] at hs
    rw [hleaf]
    by_cases e1 : s = c
    · subst e1
      rw [if_pos rfl] at hs
      rw [if_pos hs]
    · rw [if_neg e1] at hs
      by_cases e2 : s = l
      · subst e2
        rw [if_pos rfl] at hs
        rw [if_neg fun e => e1 (h.son_inj (e.trans hs.symm)), if_pos hs]
      · rw [if_neg e2] at hs
        rw [if_neg fun e => e2 (h.son_inj (hs.trans e.symm)), if_neg fun e => e1 (h.son_inj (hs.trans e.symm))]
        exact h.leafSon s y hs
  have hleafOf : ∀ y : Sym, t'.son.get (t'.leaf.get y) = .leaf y := by
    intro y
    rw [hleaf]
    by_cases e1 : t.son.get l = .leaf y
    · rw [if_pos e1, hsonc, e1]
    · rw [if_neg e1]
      by_cases e2 : t.son.get c = .leaf y
      · rw [if_pos e2, hsonl, e2]
      · rw [if_neg e2]
        have h1 := h.leafOf y
        rw [hsono _ (fun e => e2 (e ▸ h1)) (fun e => e1 (e ▸ h1)), h1]
  have hchild : ∀ s : Slot, s ≠ 628 → ∃ x : Fin 628, t'.son.get (t'.parent.get s) = .node x ∧ childOf s x := by
    intro s hs
    obtain ⟨x, hx, hc⟩ := h.child s hs
    rw [hpar]
    by_cases e1 : ∃ x', t.son.get l = .node x' ∧ childOf s x'
    · rw [if_pos e1, hsonc]; exact e1
    · rw [if_neg e1]
      by_cases e2 : ∃ x', t.son.get c = .node x' ∧ childOf s x'
      · rw [if_pos e2, hsonl]; exact e2
      · rw [if_neg e2]
        refine ⟨x, ?_, hc⟩
        rw [hsono, hx]
        · rintro e; exact e2 ⟨x, e ▸ hx, hc⟩
        · rintro e; exact e1 ⟨x, e ▸ hx, hc⟩
  have hlower : ∀ (s : Slot) (x : Fin 628), t'.son.get s = .node x → x.val + 1 < s.val := by
    intro s x hs
    rw [hson] at hs
    by_cases e1 : s = c
    · subst e1
      rw [if_pos rfl] at hs
      have := hlow x x.succ hs (.inr rfl)
      simpa using this
    · rw [if_neg e1] at hs
      by_cases e2 : s = l
      · subst e2
        rw [if_pos rfl] at hs
        have := h.lower c x hs
        omega
      · rw [if_neg e2] at hs
        exact h.lower s x hs
  have heven : ∀ (s : Slot) (x : Fin 628), t'.son.get s = .node x → x.val % 2 = 0 := by
    intro s x hs
    rw [hson] at hs
    split at hs
    · exact h.even _ _ hs
    · split at hs <;> exact h.even _ _ hs
  have hpositive : ∀ n, n < 629 → 1 ≤ t'.F n := by
    intro n hn
    rw [hF n hn]
    split
    · omega
    · exact h.positive n hn
  have hroot0 : t'.parent.get 628 = 0 := by
    rw [hpar, if_neg, if_neg, h.rootParent]
    · rintro ⟨x, hx, hc⟩; exact h.root_not_child hx hc
    · rintro ⟨x, hx, hc⟩; exact h.root_not_child hx hc
  -- the sums: the node in slot `l` is mended, its parent is pending
  have hparl : t'.parent.get l = t.parent.get l := by
    rw [hpar, if_neg, if_neg]
    · rintro ⟨x, hx, hc⟩; exact hnl c x (.inl rfl) hx hc
    · rintro ⟨x, hx, hc⟩; exact hnl l x (.inr rfl) hx hc
  have hsum : ∀ (s : Slot) (x : Fin 628), t'.son.get s = .node x →
      t'.F s.val + (if childOf l x then 1 else 0) = t'.F x.castSucc.val + t'.F x.succ.val := by
    intro s x hs
    have hx1 := x.castSucc.isLt
    have hx2 := x.succ.isLt
    rw [hF s.val s.isLt, hF _ hx1, hF _ hx2]
    have hs' := hs
    rw [hson] at hs
    have split2 : ∀ {a b : Slot}, a.val ≠ b.val ↔ a ≠ b := fun {a b} => by rw [Ne, Ne, Fin.ext_iff]
    by_cases e1 : s = c
    · subst e1
      rw [if_pos rfl] at hs
      have n1 : ¬ childOf l x := hnl l x (.inr rfl) hs
      have m1 : x.castSucc.val ≠ l.val := fun e => n1 (.inl (Fin.ext e.symm))
      have m2 : x.succ.val ≠ l.val := fun e => n1 (.inr (Fin.ext e.symm))
      rw [if_neg n1, if_neg m1, if_neg m2]
      have hsm := h.sum l x hs
      by_cases e2 : l = s
      · rw [if_pos e2] at hsm; rw [if_pos (by rw [e2])]; omega
      · rw [if_neg e2] at hsm
        rw [if_neg fun e => e2 (Fin.ext e.symm)]
        omega
    · rw [if_neg e1] at hs
      by_cases e2 : s = l
      · subst e2
        rw [if_pos rfl] at hs
        have n1 : ¬ childOf s x := hnl c x (.inl rfl) hs
        have m1 : x.castSucc.val ≠ s.val := fun e => n1 (.inl (Fin.ext e.symm))
        have m2 : x.succ.val ≠ s.val := fun e => n1 (.inr (Fin.ext e.symm))
        rw [if_neg n1, if_neg m1, if_neg m2, if_pos rfl]
        have hsm := h.sum c x hs
        rw [if_pos rfl] at hsm
        omega
      · rw [if_neg e2] at hs
        have hsm := h.sum s x hs
        rw [if_neg e1] at hsm
        rw [if_neg fun e => e2 (Fin.ext e)]
        have hx : x.castSucc.val ≠ x.succ.val := by simp
        by_cases m1 : x.castSucc.val = l.val
        · rw [if_pos m1, if_neg (show ¬ x.succ.val = l.val from fun e => hx (m1.trans e.symm)),
            if_pos (show childOf l x from .inl (Fin.ext m1.symm))]
          rw [m1] at hsm
          omega
        · by_cases m2 : x.succ.val = l.val
          · rw [if_neg m1, if_pos m2, if_pos (show childOf l x from .inr (Fin.ext m2.symm))]
            rw [m2] at hsm
            omega
          · have n1 : ¬ childOf l x := by
              rintro (e | e)
              · exact m1 (by rw [e])
              · exact m2 (by rw [e])
            rw [if_neg m1, if_neg m2, if_neg n1]
            omega
  have hrootF : t'.F 628 ≤ 0x8000 := by
    rw [hF 628 (by omega)]
    have := h.rootFreq
    split
    · next e => have := h.sorted c.val 628 (by have := c.isLt; omega) (by omega); omega
    · omega
  refine ⟨hcl, fun hl8 => ?_, fun hl8 => ?_, fun y => ?_⟩
  · have hgt : l.val < (t'.parent.get l).val := by rw [hparl]; exact h.parent_gt hl8
    obtain ⟨x0, hx0, hc0⟩ := hchild l hl8
    refine ⟨⟨hsorted, fun s x hs => ?_, fun s x hs => ⟨hparentSon s x hs _ (.inl rfl), hparentSon s x hs _ (.inr rfl)⟩,
      hleafSon, hleafOf, ?_, hchild, hlower, heven, hpositive, hroot0⟩, hgt, fun y hy => by rw [hx0] at hy; cases hy⟩
    · rw [← hsum s x hs]
      congr 1
      by_cases hc : childOf l x
      · rw [if_pos hc, if_pos (hparentSon s x hs l hc).symm]
      · rw [if_neg hc, if_neg]
        rintro rfl
        rw [hx0] at hs
        cases hs
        exact hc hc0
    · rw [hF 628 (by omega), if_neg fun e => hl8 (Fin.ext e.symm)]
      exact h.rootFreq
  · refine ⟨fun x => ?_, fun s x hs => ?_, fun s x hs => ⟨hparentSon s x hs _ (.inl rfl), hparentSon s x hs _ (.inr rfl)⟩,
      hleafSon, hleafOf, hrootF, hchild, hlower, heven, fun s => ?_, hroot0⟩
    · rw [BitVec.le_def, ← F_val, ← F_val]
      exact hsorted _ _ (by simp) x.succ.isLt
    · have hno : ¬ childOf l x := by
        rintro hc
        have := hlower s x hs
        have h2 := s.isLt
        have h3 : l.val = 628 := by rw [hl8]; rfl
        rcases hc with e | e <;> rw [e] at h3 <;> simp only [Fin.val_castSucc, Fin.val_succ] at h3 <;> omega
      have := hsum s x hs
      rw [if_neg hno] at this
      rw [← F_val, ← F_val, ← F_val]
      exact this
    · rw [← F_val]; exact hpositive _ s.isLt
  · simp only [weight, gain, ← F_val]
    rw [hF _ (t'.leaf.get y).isLt, hleaf]
    by_cases e1 : t.son.get l = .leaf y
    · rw [if_pos e1]
      have hy := h.leafSon l y e1
      by_cases e2 : c = l
      · rw [if_pos (by rw [e2]), hy, e2, if_pos e1]
      · rw [if_neg fun e => e2 (Fin.ext e), if_neg fun e => e2 (h.son_inj (e.trans e1.symm)), hy]
        omega
    · rw [if_neg e1]
      by_cases e2 : t.son.get c = .leaf y
      · rw [if_pos e2, if_pos rfl, if_pos e2, h.leafSon c y e2]
      · rw [if_neg e2, if_neg e2]
        have hy := h.leafOf y
        rw [if_neg fun e => e1 (by rw [← Fin.ext e]; exact hy)]
        rfl

/-- The numbers of one pass (R254). -/
theorem bump_passed {t : HufTree} {c : Slot} (h : t.Pending c) : Passed t (t.bump c).1 c (t.bump c).2 := by
  have hc := c.isLt
  have hsmall : t.F c.val < 0x8000 :=
    Nat.lt_of_le_of_lt (h.sorted c.val 628 (by omega) (by omega)) h.rootFreq
  unfold bump
  simp only
  generalize hkd : t.freq.get c + 1 = k
  have hk : k.toNat = t.F c.val + 1 := by
    rw [F_val] at *
    rw [← hkd]
    bv_omega
  generalize ht1 : ({ t with freq := t.freq.set c k } : HufTree) = t1
  have hset : ∀ n, n < 629 → t1.F n = if n = c.val then t.F c.val + 1 else t.F n := by
    intro n hn
    rw [← ht1]
    simp only [F, Table.get_set]
    by_cases e : n = c.val
    · rw [if_pos e, if_pos (by rw [e, slot_eq]), hk, F]
    · rw [if_neg e, if_neg fun e' => e (by rw [← e', slot_val hn])]
  have hcond1 : ((t.freq.set c k).get (slot (c.val + 1))).toNat = t1.F (c.val + 1) := by rw [← ht1, F]
  rw [hcond1]
  have hson1 : t1.son = t.son := by rw [← ht1]
  have hpar1 : t1.parent = t.parent := by rw [← ht1]
  have hleaf1 : t1.leaf = t.leaf := by rw [← ht1]
  have hge : c.val < 628 → t.F c.val ≤ t.F (c.val + 1) := fun h1 => h.sorted _ _ (by omega) (by omega)
  split
  · next hcond =>
    obtain ⟨h1, h2⟩ := hcond
    obtain ⟨l1, l2, l3⟩ := lastBelow_spec t1 k.toNat (628 - (c.val + 1)) (by omega)
    generalize t1.lastBelow k.toNat (628 - (c.val + 1)) = l at *
    rw [hk] at h2 l2 l3
    have h2' : t.F (c.val + 1) < t.F c.val + 1 := by
      have := hset (c.val + 1) (by omega)
      rw [if_neg (by omega)] at this
      rw [← this]
      exact h2
    have hlc : c.val + 1 ≤ l.val := by omega
    have hrun : t.F l.val = t.F c.val := by
      have hge' := h.sorted c.val l.val (by omega) l.isLt
      by_cases e : l.val = c.val + 1
      · rw [e] at hge' ⊢; omega
      · have := l2 l.val (by omega) (Nat.le_refl _)
        rw [hset l.val l.isLt, if_neg (by omega)] at this
        omega
    refine passed_of_arrays h (by simp only; omega) hrun (fun hl8 => ?_) (fun n hn => ?_) (fun s => ?_) (fun a => ?_)
      fun y => ?_
    · have := l3 hl8
      rwa [hset _ (by simp only at hl8; omega), if_neg (by omega)] at this
    · rw [F, exchange_freq]
      simp only [Table.get_set]
      by_cases e : n = l.val
      · rw [if_pos e, if_pos (by rw [e, slot_eq]), hk]
      · rw [if_neg e, if_neg fun e' => e (by rw [← e', slot_val hn])]
        by_cases e2 : n = c.val
        · rw [if_pos (by rw [e2, slot_eq]), ← F_val, hset _ l.isLt, if_neg (by omega), hrun, e2]
        · rw [if_neg fun e' => e2 (by rw [← e', slot_val hn])]
          have := hset n hn
          rwa [if_neg e2] at this
    · rw [exchange_son, hson1]
    · rw [exchange_parent, hson1, hpar1]
    · rw [exchange_leaf, hson1, hleaf1]
  · next hcond =>
    refine passed_of_arrays h (Nat.le_refl _) rfl (fun hc8 => ?_) hset (fun s => ?_) (fun a => ?_) fun y => ?_
    · have h2 : ¬ (t1.F (c.val + 1) < t.F c.val + 1) := fun h2 => hcond ⟨hc8, by rw [hk]; exact h2⟩
      have hc8 : c.val < 628 := hc8
      rw [hset _ (by omega), if_neg (by omega)] at h2
      exact Nat.le_of_not_lt h2
    · rw [hson1]
      split
      · next e => rw [e]
      · rfl
    · rw [hpar1]
      split
      · next e => obtain ⟨x, hx, ha⟩ := e; exact h.parent_of_child hx ha
      · rfl
    · rw [hleaf1]
      split
      · next e => exact h.leafSon c y e
      · rfl

/-- The loop of `HufUpdate` ends with a sound tree. -/
theorem bumpUp_sound {n : Nat} {t : HufTree} {c : Slot} (h : t.Pending c) (hn : 629 ≤ n + c.val) :
    ∃ t', bumpUp n t c = some t' ∧ t'.Sound ∧ ∀ y, t'.weight y = t.weight y + t.gain c y := by
  induction n generalizing t c with
  | zero => have := c.isLt; omega
  | succ n ih =>
    have hp := bump_passed h
    simp only [bumpUp]
    by_cases e : (t.bump c).2 = 628
    · rw [if_pos e]
      exact ⟨_, rfl, hp.sound e, hp.weight⟩
    · rw [if_neg e]
      obtain ⟨h1, h2, h3⟩ := hp.pending e
      have := hp.above
      obtain ⟨t', ht, hs, hw⟩ := ih h1 (by omega)
      refine ⟨t', ht, hs, fun y => ?_⟩
      have h0 : (t.bump c).1.gain ((t.bump c).1.parent.get (t.bump c).2) y = 0 := if_neg (h3 y)
      rw [hw y, hp.weight y, h0, Nat.add_zero]

/-- `HufUpdate` when no rescale is due. -/
theorem bumpUp_of_sound {t : HufTree} (h : t.Sound) (hr : t.F 628 < 0x8000) (y : Sym) :
    ∃ t', bumpUp 629 t (t.leaf.get y) = some t' ∧ t'.Sound ∧
      ∀ z, t'.weight z = t.weight z + if z = y then 1 else 0 := by
  obtain ⟨t', ht, hs, hw⟩ := bumpUp_sound (h.pending hr y) (n := 629) (by omega)
  refine ⟨t', ht, hs, fun z => ?_⟩
  rw [hw z, gain, h.leafOf]
  by_cases e : z = y
  · rw [if_pos e, if_pos (by rw [e])]
  · rw [if_neg e, if_neg (by simp only [Son.leaf.injEq]; exact fun e' => e e'.symm)]

end HufTree

end Sys2Proof.Machine
end

