-- ==== Sys2Proof/Laws/HuffmanRescale.lean ====
section
/-! SUPPORT. `Rescale` on a sound tree (43_huffman.md R257, R259): what each loop leaves, and that the rebuilt tree is
sound, with every leaf frequency halved, rounding up, and the leaves in their old order. -/

namespace Sys2Proof.Machine

namespace HufTree

/-- The `SON` value of slot `n`. -/
def S (t : HufTree) (n : Nat) : Son := t.son.get (slot n)

theorem S_val (t : HufTree) (s : Slot) : t.S s.val = t.son.get s := by rw [S, slot_eq]

/-- `FREQ[a] <- f; SON[a] <- v`. -/
def put (t : HufTree) (a : Nat) (f : Freq) (v : Son) : HufTree :=
  { t with freq := t.freq.set (slot a) f, son := t.son.set (slot a) v }

theorem slot_inj {a n : Nat} (ha : a < 629) (hn : n < 629) : slot a = slot n ↔ a = n :=
  ⟨fun h => by rw [← slot_val ha, ← slot_val hn, h], fun h => by rw [h]⟩

theorem F_put (t : HufTree) {a n : Nat} (f : Freq) (v : Son) (ha : a < 629) (hn : n < 629) :
    (t.put a f v).F n = if n = a then f.toNat else t.F n := by
  simp only [F, put, Table.get_set]
  by_cases e : n = a
  · rw [if_pos e, if_pos (by rw [e])]
  · rw [if_neg e, if_neg fun e' => e ((slot_inj hn ha).1 e')]

theorem S_put (t : HufTree) {a n : Nat} (f : Freq) (v : Son) (ha : a < 629) (hn : n < 629) :
    (t.put a f v).S n = if n = a then v else t.S n := by
  simp only [S, put, Table.get_set]
  by_cases e : n = a
  · rw [if_pos e, if_pos (by rw [e])]
  · rw [if_neg e, if_neg fun e' => e ((slot_inj hn ha).1 e')]

theorem halve_toNat (f : Freq) : (halve f).toNat = (f.toNat + 1) / 2 := by
  have := f.isLt
  rw [halve, BitVec.toNat_ofNat]
  omega

/-! ### The first loop: the leaves, in slot order -/

/-- After the slots below `i` of `t`, the `j` leaves among them are at the front of `t'`, in their order, halved; `L` gives
the slot each one came from. -/
structure Gathered (t t' : HufTree) (i j : Nat) (L : Nat → Nat) : Prop where
  le : j ≤ i
  rest : ∀ n, j ≤ n → n < 629 → t'.F n = t.F n ∧ t'.S n = t.S n
  front : ∀ n, n < j → t'.F n = (t.F (L n) + 1) / 2 ∧ t'.S n = t.S (L n)
  isLeaf : ∀ n, n < j → L n < i ∧ ∃ y, t.S (L n) = .leaf y
  mono : ∀ m n, m < n → n < j → L m < L n
  all : ∀ m y, m < i → t.S m = .leaf y → ∃ n, n < j ∧ L n = m
  parent : t'.parent = t.parent
  leaf : t'.leaf = t.leaf

theorem gather_spec {t t' : HufTree} {n j : Nat} {L : Nat → Nat} (hn : n ≤ 629) (h : Gathered t t' (629 - n) j L) :
    ∃ j' L', Gathered t (gatherLeaves n j t') 629 j' L' := by
  induction n generalizing t' j L with
  | zero => exact ⟨j, L, h⟩
  | succ n ih =>
    have hle := h.le
    obtain ⟨hF, hS⟩ := h.rest (628 - n) (by omega) (by omega)
    simp only [gatherLeaves]
    cases hv : t'.son.get (slot (628 - n)) with
    | node x =>
      refine ih (by omega) (j := j) (L := L) ?_
      have hnode : t.S (628 - n) = .node x := by rw [← hS]; exact hv
      exact ⟨by omega, h.rest, h.front, fun m hm => ⟨by have := (h.isLeaf m hm).1; omega, (h.isLeaf m hm).2⟩, h.mono,
        fun m y hm hy => by
          by_cases e : m = 628 - n
          · rw [e, hnode] at hy; cases hy
          · exact h.all m y (by omega) hy,
        h.parent, h.leaf⟩
    | leaf y =>
      have hy : t.S (628 - n) = .leaf y := by rw [← hS]; exact hv
      refine ih (t' := t'.put j (halve (t'.freq.get (slot (628 - n)))) (.leaf y)) (by omega) (j := j + 1)
        (L := fun m => if m = j then 628 - n else L m) ?_
      refine ⟨by omega, fun m hm hm' => ?_, fun m hm => ?_, fun m hm => ?_, fun m m' hmm hm' => ?_,
        fun m z hm hz => ?_, h.parent, h.leaf⟩
      · rw [F_put _ _ _ (by omega) hm', S_put _ _ _ (by omega) hm', if_neg (by omega), if_neg (by omega)]
        exact h.rest m (by omega) hm'
      · rw [F_put _ _ _ (by omega) (by omega), S_put _ _ _ (by omega) (by omega)]
        by_cases e : m = j
        · simp only [if_pos e]
          exact ⟨by rw [halve_toNat, ← hF]; rfl, hy.symm⟩
        · simp only [if_neg e]
          exact h.front m (by omega)
      · by_cases e : m = j
        · simp only [if_pos e]; exact ⟨by omega, y, hy⟩
        · simp only [if_neg e]
          have := h.isLeaf m (by omega)
          exact ⟨by omega, this.2⟩
      · by_cases e : m' = j
        · have := (h.isLeaf m (by omega)).1
          simp only [if_pos e, if_neg (show m ≠ j by omega)]
          omega
        · simp only [if_neg e, if_neg (show m ≠ j by omega)]
          exact h.mono m m' hmm (by omega)
      · by_cases e : m = 628 - n
        · exact ⟨j, by omega, by simp only [if_true]; exact e.symm⟩
        · obtain ⟨n', hn', hL⟩ := h.all m z (by omega) hz
          exact ⟨n', by omega, by simp only [if_neg (show n' ≠ j by omega)]; exact hL⟩

theorem gather_start (t : HufTree) : Gathered t t 0 0 fun _ => 0 :=
  ⟨Nat.le_refl _, fun _ _ _ => ⟨rfl, rfl⟩, fun n h => absurd h (Nat.not_lt_zero n), fun n h => absurd h (Nat.not_lt_zero n),
    fun _ n _ h => absurd h (Nat.not_lt_zero n), fun m _ h => absurd h (Nat.not_lt_zero m), rfl, rfl⟩

/-- In a sound tree there are 315 leaves. -/
theorem gathered_count {t t' : HufTree} {j : Nat} {L : Nat → Nat} (h : t.Sound) (g : Gathered t t' 629 j L) :
    j = 315 := by
  have hL : ∀ n : Fin j, ∃ y, t.S (L n.val) = .leaf y := fun n => (g.isLeaf n.val n.isLt).2
  choose y hy using hL
  have hleaf : ∀ n : Fin j, (t.leaf.get (y n)).val = L n.val := fun n => by
    have h1 := (g.isLeaf n.val n.isLt).1
    have h2 := hy n
    rw [S] at h2
    rw [h.leafSon _ _ h2, slot_val h1]
  have hinj : Function.Injective y := fun a b e => by
    have h1 := hleaf a
    rw [e, hleaf b] at h1
    rcases Nat.lt_trichotomy a.val b.val with h2 | h2 | h2
    · have := g.mono _ _ h2 b.isLt; omega
    · exact Fin.ext h2
    · have := g.mono _ _ h2 a.isLt; omega
  have hsur : Function.Surjective y := fun z => by
    have h1 := h.leafOf z
    rw [← S_val] at h1
    obtain ⟨n, hn, hLn⟩ := g.all _ z (t.leaf.get z).isLt h1
    refine ⟨⟨n, hn⟩, ?_⟩
    have h2 := hy ⟨n, hn⟩
    simp only [hLn, h1, Son.leaf.injEq] at h2
    exact h2.symm
  have := Fintype.card_of_bijective ⟨hinj, hsur⟩
  simpa using this

/-! ### The sum of the leaves' frequencies -/

theorem even_child {t : HufTree} (h : t.Sound) (m : Fin 314) :
    ∃ x : Fin 628, x.val = 2 * m.val ∧ t.son.get (t.parent.get (slot (2 * m.val))) = .node x := by
  have hm := m.isLt
  have hv : (slot (2 * m.val)).val = 2 * m.val := slot_val (by omega)
  obtain ⟨x, hx, hc⟩ := h.child (slot (2 * m.val)) fun e => by
    rw [e] at hv
    have : (628 : Slot).val = 628 := rfl
    omega
  have he := h.even _ _ hx
  refine ⟨x, ?_, hx⟩
  rcases hc with e | e <;> rw [e] at hv <;> simp only [Fin.val_castSucc, Fin.val_succ] at hv <;> omega

/-- In a sound tree the leaves' frequencies add up to the root's. -/
theorem sum_weights {t : HufTree} (h : t.Sound) : ∑ y : Sym, t.weight y = t.F 628 := by
  let e : Sym ⊕ Fin 314 → Slot := Sum.elim (fun y => t.leaf.get y) fun m => t.parent.get (slot (2 * m.val))
  have hsonl : ∀ y : Sym, t.son.get (e (.inl y)) = .leaf y := fun y => h.leafOf y
  have hsonr : ∀ m : Fin 314, ∃ x : Fin 628, x.val = 2 * m.val ∧ t.son.get (e (.inr m)) = .node x :=
    fun m => even_child h m
  have hbij : Function.Bijective e := by
    refine ⟨fun a b hab => ?_, fun s => ?_⟩
    · have hs : t.son.get (e a) = t.son.get (e b) := by rw [hab]
      rcases a with y | m <;> rcases b with z | m'
      · rw [hsonl, hsonl] at hs; cases hs; rfl
      · obtain ⟨x, _, hx⟩ := hsonr m'; rw [hsonl, hx] at hs; cases hs
      · obtain ⟨x, _, hx⟩ := hsonr m; rw [hsonl, hx] at hs; cases hs
      · obtain ⟨x, hx1, hx⟩ := hsonr m
        obtain ⟨x', hx1', hx'⟩ := hsonr m'
        rw [hx, hx'] at hs
        cases hs
        congr 1
        apply Fin.ext
        omega
    · cases hs : t.son.get s with
      | leaf y => exact ⟨.inl y, h.leafSon s y hs⟩
      | node x =>
        have he := h.even s x hs
        refine ⟨.inr ⟨x.val / 2, by omega⟩, ?_⟩
        have h1 := (h.parentSon s x hs).1
        have h2 : slot (2 * (x.val / 2)) = x.castSucc := Fin.ext (by
          rw [slot_val (by omega)]
          simp only [Fin.val_castSucc]
          omega)
        show t.parent.get (slot (2 * (x.val / 2))) = s
        rw [h2, h1]
  have hall : ∑ s : Slot, t.F s.val = ∑ y : Sym, t.weight y + ∑ m : Fin 314, t.F (e (.inr m)).val := by
    rw [← (Equiv.ofBijective e hbij).sum_comp, Fintype.sum_sum_type]
    exact congrArg (· + ∑ m : Fin 314, t.F (e (.inr m)).val)
      (Finset.sum_congr rfl fun y _ => by rw [weight, ← F_val]; rfl)
  have hpairs : ∀ n, ∑ k ∈ Finset.range (2 * n), t.F k = ∑ m ∈ Finset.range n, (t.F (2 * m) + t.F (2 * m + 1)) := by
    intro n
    induction n with
    | zero => rfl
    | succ n ih =>
      rw [show 2 * (n + 1) = 2 * n + 1 + 1 by omega, Finset.sum_range_succ, Finset.sum_range_succ, ih,
        Finset.sum_range_succ]
      omega
  have hsum : ∑ s : Slot, t.F s.val = ∑ m ∈ Finset.range 314, (t.F (2 * m) + t.F (2 * m + 1)) + t.F 628 := by
    rw [Fin.sum_univ_eq_sum_range (fun k => t.F k) 629, Finset.sum_range_succ, ← hpairs 314]
  have hnode : ∑ m : Fin 314, t.F (e (.inr m)).val = ∑ m ∈ Finset.range 314, (t.F (2 * m) + t.F (2 * m + 1)) := by
    rw [← Fin.sum_univ_eq_sum_range (fun m => t.F (2 * m) + t.F (2 * m + 1)) 314]
    refine Finset.sum_congr rfl fun m _ => ?_
    obtain ⟨x, hx1, hx⟩ := hsonr m
    have h1 := h.sum _ x hx
    rw [← F_val, ← F_val, ← F_val] at h1
    simp only [Fin.val_castSucc, Fin.val_succ] at h1
    rw [h1, hx1]
  omega

/-! ### The second loop -/

/-- The loop before slot `j` is filled: slots below `j` hold all leaves, with frequencies `w`, and the internal nodes joined
so far, in the order of their frequencies; the slots not yet joined add up to `W`. -/
structure Joined (t : HufTree) (j : Nat) (w : Sym → Nat) (rank : Sym → Nat) (W : Nat) : Prop where
  sorted : ∀ m n, m ≤ n → n < j → t.F m ≤ t.F n
  positive : ∀ n, n < j → 1 ≤ t.F n
  inj : ∀ m n, m < j → n < j → t.S m = t.S n → m = n
  hasLeaf : ∀ y, ∃ n, n < j ∧ t.S n = .leaf y ∧ t.F n = w y
  hasNode : ∀ x : Fin 628, x.val % 2 = 0 → x.val + 1 < 2 * (j - 315) → ∃ n, n < j ∧ t.S n = .node x
  nodes : ∀ n (x : Fin 628), n < j → t.S n = .node x →
    x.val % 2 = 0 ∧ x.val + 1 < 2 * (j - 315) ∧ x.val + 1 < n ∧ t.F n = t.F x.val + t.F (x.val + 1)
  total : ∑ n ∈ Finset.Ico (2 * (j - 315)) j, t.F n = W
  order : ∀ m n y z, m < j → n < j → t.S m = .leaf y → t.S n = .leaf z → rank y < rank z → m < n

theorem insertionSlot_spec (t : HufTree) (f k : Nat) :
    t.insertionSlot f k ≤ k + 1 ∧ (∀ x, t.insertionSlot f k ≤ x → x ≤ k → f < t.F x) ∧
      (0 < t.insertionSlot f k → t.F (t.insertionSlot f k - 1) ≤ f) := by
  induction k with
  | zero =>
    simp only [insertionSlot]
    split
    · next h => exact ⟨by omega, fun x _ hx => by rw [show x = 0 by omega]; exact h, fun h' => absurd h' (by omega)⟩
    · next h => exact ⟨by omega, fun x h1 h2 => by omega, fun _ => Nat.le_of_not_lt h⟩
  | succ k ih =>
    simp only [insertionSlot]
    split
    · next h =>
      obtain ⟨h1, h2, h3⟩ := ih
      refine ⟨by omega, fun x hx hx' => ?_, h3⟩
      by_cases e : x ≤ k
      · exact h2 x hx e
      · rw [show x = k + 1 by omega]; exact h
    · next h => exact ⟨by omega, fun x h1 h2 => by omega, fun _ => Nat.le_of_not_lt h⟩

theorem shiftUp_spec (t : HufTree) {k n : Nat} (h : k + n < 629) :
    (∀ x, x < 629 → (shiftUp k n t).F x = if k < x ∧ x ≤ k + n then t.F (x - 1) else t.F x) ∧
      (∀ x, x < 629 → (shiftUp k n t).S x = if k < x ∧ x ≤ k + n then t.S (x - 1) else t.S x) ∧
      (shiftUp k n t).parent = t.parent ∧ (shiftUp k n t).leaf = t.leaf := by
  induction n generalizing t with
  | zero =>
    exact ⟨fun x _ => by rw [if_neg (by omega)]; rfl, fun x _ => by rw [if_neg (by omega)]; rfl, rfl, rfl⟩
  | succ n ih =>
    obtain ⟨h1, h2, h3, h4⟩ := ih (t.put (k + n + 1) (t.freq.get (slot (k + n))) (t.son.get (slot (k + n)))) (by omega)
    refine ⟨fun x hx => ?_, fun x hx => ?_, h3, h4⟩
    · have := h1 x hx
      rw [shiftUp]
      refine this.trans ?_
      by_cases e : k < x ∧ x ≤ k + n
      · rw [if_pos e, if_pos (by omega), F_put _ _ _ (by omega) (by omega), if_neg (by omega)]
      · rw [if_neg e, F_put _ _ _ (by omega) hx]
        by_cases e2 : x = k + n + 1
        · rw [if_pos e2, if_pos (by omega), show x - 1 = k + n by omega]; rfl
        · rw [if_neg e2, if_neg (by omega)]
    · have := h2 x hx
      rw [shiftUp]
      refine this.trans ?_
      by_cases e : k < x ∧ x ≤ k + n
      · rw [if_pos e, if_pos (by omega), S_put _ _ _ (by omega) (by omega), if_neg (by omega)]
      · rw [if_neg e, S_put _ _ _ (by omega) hx]
        by_cases e2 : x = k + n + 1
        · rw [if_pos e2, if_pos (by omega), show x - 1 = k + n by omega]; rfl
        · rw [if_neg e2, if_neg (by omega)]

theorem joinPair_joined {t : HufTree} {j : Nat} {w rank : Sym → Nat} {W : Nat} (h : Joined t j w rank W)
    (hj : 315 ≤ j) (hj' : j ≤ 628) (hW : W ≤ 0x8000) :
    Joined (t.joinPair (2 * (j - 315)) j) (j + 1) w rank W ∧
      (t.joinPair (2 * (j - 315)) j).parent = t.parent := by
  generalize hi : 2 * (j - 315) = i
  have hij : i + 2 ≤ j := by omega
  have hi' : 2 * (j + 1 - 315) = i + 2 := by rw [Nat.sub_add_comm hj, Nat.mul_add, hi]
  have hpi := h.positive i (by omega)
  have hpi1 := h.positive (i + 1) (by omega)
  have hfW : t.F i + t.F (i + 1) ≤ W := by
    rw [← h.total, hi]
    have h1 : ∑ n ∈ Finset.Ico i j, t.F n = ∑ n ∈ Finset.Ico i (i + 2), t.F n + ∑ n ∈ Finset.Ico (i + 2) j, t.F n :=
      (Finset.sum_Ico_consecutive _ (by omega) hij).symm
    have h2 : ∑ n ∈ Finset.Ico i (i + 2), t.F n = t.F i + t.F (i + 1) := by
      rw [Finset.sum_Ico_succ_top (by omega), Finset.sum_Ico_succ_top (by omega), Finset.Ico_self, Finset.sum_empty,
        Nat.zero_add]
    omega
  obtain ⟨k1, k2, k3⟩ := t.insertionSlot_spec (t.F i + t.F (i + 1)) (j - 1)
  have hdef : t.joinPair i j =
      (shiftUp (t.insertionSlot (t.F i + t.F (i + 1)) (j - 1)) (j - t.insertionSlot (t.F i + t.F (i + 1)) (j - 1)) t).put
        (t.insertionSlot (t.F i + t.F (i + 1)) (j - 1)) (BitVec.ofNat 16 (t.F i + t.F (i + 1)))
        (.node (Fin.ofNat 628 i)) := rfl
  generalize t.insertionSlot (t.F i + t.F (i + 1)) (j - 1) = k at *
  generalize hf : t.F i + t.F (i + 1) = f at *
  have hki : i + 2 ≤ k := by
    by_contra hlt
    have h1 := k2 (i + 1) (by omega) (by omega)
    omega
  have hkj : k ≤ j := by omega
  have hfv : (BitVec.ofNat 16 f).toNat = f := by rw [BitVec.toNat_ofNat]; omega
  have hxv : (Fin.ofNat 628 i : Fin 628).val = i := Nat.mod_eq_of_lt (by omega)
  obtain ⟨s1, s2, s3, _⟩ := t.shiftUp_spec (k := k) (n := j - k) (by omega)
  rw [hdef]
  generalize ht' : (shiftUp k (j - k) t).put k (BitVec.ofNat 16 f) (.node (Fin.ofNat 628 i)) = t'
  have hF : ∀ n, n < 629 → t'.F n = if n = k then f else if k < n ∧ n ≤ j then t.F (n - 1) else t.F n := by
    intro n hn
    rw [← ht', F_put _ _ _ (by omega) hn, hfv, s1 n hn, show k + (j - k) = j by omega]
  have hS : ∀ n, n < 629 → t'.S n =
      if n = k then .node (Fin.ofNat 628 i) else if k < n ∧ n ≤ j then t.S (n - 1) else t.S n := by
    intro n hn
    rw [← ht', S_put _ _ _ (by omega) hn, s2 n hn, show k + (j - k) = j by omega]
  -- where a slot's contents come from
  have hsrc : ∀ n, n ≤ j → n ≠ k → ∃ m, m < j ∧ t'.F n = t.F m ∧ t'.S n = t.S m ∧ m ≤ n ∧ (n < k → m = n) ∧
      (k < n → m + 1 = n) := by
    intro n hn hnk
    by_cases e : n < k
    · refine ⟨n, by omega, ?_, ?_, Nat.le_refl _, fun _ => rfl, fun h' => by omega⟩
      · rw [hF n (by omega), if_neg hnk, if_neg (by omega)]
      · rw [hS n (by omega), if_neg hnk, if_neg (by omega)]
    · refine ⟨n - 1, by omega, ?_, ?_, by omega, fun h' => by omega, fun _ => by omega⟩
      · rw [hF n (by omega), if_neg hnk, if_pos (by omega)]
      · rw [hS n (by omega), if_neg hnk, if_pos (by omega)]
  -- where old contents go
  have hdst : ∀ m, m < j → ∃ n, n ≤ j ∧ n ≠ k ∧ t'.F n = t.F m ∧ t'.S n = t.S m ∧ (m < k → n = m) ∧
      (k ≤ m → n = m + 1) := by
    intro m hm
    by_cases e : m < k
    · refine ⟨m, by omega, by omega, ?_, ?_, fun _ => rfl, fun h' => by omega⟩
      · rw [hF m (by omega), if_neg (by omega), if_neg (by omega)]
      · rw [hS m (by omega), if_neg (by omega), if_neg (by omega)]
    · refine ⟨m + 1, by omega, by omega, ?_, ?_, fun h' => by omega, fun _ => rfl⟩
      · rw [hF (m + 1) (by omega), if_neg (by omega), if_pos (by omega)]; rfl
      · rw [hS (m + 1) (by omega), if_neg (by omega), if_pos (by omega)]; rfl
  have hSk : t'.S k = .node (Fin.ofNat 628 i) := by rw [hS k (by omega), if_pos rfl]
  have hFk : t'.F k = f := by rw [hF k (by omega), if_pos rfl]
  have hlowF : ∀ n, n < k → t'.F n = t.F n := fun n hn => by
    rw [hF n (by omega), if_neg (by omega), if_neg (by omega)]
  have hnew : ∀ m, m < j → t.S m ≠ .node (Fin.ofNat 628 i) := fun m hm e => by
    have := (h.nodes m _ hm e).2.1
    rw [hxv, hi] at this
    omega
  refine ⟨⟨?_, ?_, ?_, ?_, ?_, ?_, ?_, ?_⟩, by rw [← ht']; exact s3⟩
  · -- sorted
    have step : ∀ n, n < j → t'.F n ≤ t'.F (n + 1) := by
      intro n hn
      by_cases e1 : n + 1 < k
      · rw [hlowF n (by omega), hlowF (n + 1) e1]; exact h.sorted _ _ (by omega) (by omega)
      · by_cases e2 : n + 1 = k
        · rw [hlowF n (by omega), e2, hFk]
          have := k3 (by omega)
          rwa [show k - 1 = n by omega] at this
        · by_cases e3 : n = k
          · rw [e3, hFk, hF (k + 1) (by omega), if_neg (by omega), if_pos (by omega), Nat.add_sub_cancel]
            exact (k2 k (Nat.le_refl _) (by omega)).le
          · rw [hF n (by omega), if_neg e3, if_pos (by omega), hF (n + 1) (by omega), if_neg (by omega),
              if_pos (by omega), Nat.add_sub_cancel]
            exact h.sorted _ _ (by omega) hn
    intro m n hmn hn
    induction n with
    | zero => rw [Nat.le_zero.1 hmn]
    | succ n ih =>
      rcases Nat.lt_or_eq_of_le hmn with h' | h'
      · exact (ih (by omega) (by omega)).trans (step n (by omega))
      · rw [h']
  · -- positive
    intro n hn
    by_cases e : n = k
    · rw [e, hFk]; omega
    · obtain ⟨m, hm, h1, _⟩ := hsrc n (by omega) e
      rw [h1]
      exact h.positive m hm
  · -- injective
    intro m n hm hn e
    by_cases e1 : m = k
    · by_cases e2 : n = k
      · omega
      · obtain ⟨n', hn', _, h2, _⟩ := hsrc n (by omega) e2
        rw [e1, hSk, h2] at e
        exact absurd e.symm (hnew n' hn')
    · obtain ⟨m', hm', _, h2, _, h4, h5⟩ := hsrc m (by omega) e1
      by_cases e2 : n = k
      · rw [e2, hSk, h2] at e
        exact absurd e (hnew m' hm')
      · obtain ⟨n', hn', _, h2', _, h4', h5'⟩ := hsrc n (by omega) e2
        rw [h2, h2'] at e
        have := h.inj m' n' hm' hn' e
        rcases Nat.lt_or_gt_of_ne e1 with a | a <;> rcases Nat.lt_or_gt_of_ne e2 with b | b
        · rw [← h4 a, ← h4' b, this]
        · have := h4 a; have := h5' b; omega
        · have := h5 a; have := h4' b; omega
        · have := h5 a; have := h5' b; omega
  · intro y
    obtain ⟨m, hm, h1, h2⟩ := h.hasLeaf y
    obtain ⟨n, hn, _, h3, h4, _⟩ := hdst m hm
    exact ⟨n, by omega, h4.trans h1, h3.trans h2⟩
  · intro x hx hx'
    by_cases e : x.val = i
    · exact ⟨k, by omega, hSk.trans (congrArg Son.node (Fin.ext (by rw [hxv, e])))⟩
    · obtain ⟨m, hm, h1⟩ := h.hasNode x hx (by rw [hi'] at hx'; rw [hi]; omega)
      obtain ⟨n, hn, _, _, h4, _⟩ := hdst m hm
      exact ⟨n, by omega, h4.trans h1⟩
  · intro n x hn hx
    by_cases e : n = k
    · rw [e, hSk] at hx
      cases hx
      rw [e, hFk, hxv, hlowF i (by omega), hlowF (i + 1) (by omega)]
      exact ⟨by omega, by rw [hi']; omega, by omega, hf.symm⟩
    · obtain ⟨m, hm, h1, h2, h3, _⟩ := hsrc n (by omega) e
      rw [h2] at hx
      obtain ⟨a, b, c, d⟩ := h.nodes m x hm hx
      rw [h1, hlowF x.val (by omega), hlowF (x.val + 1) (by omega)]
      rw [hi] at b
      exact ⟨a, by rw [hi']; omega, by omega, d⟩
  · -- the total
    have h1 : ∑ n ∈ Finset.Ico i j, t.F n = f + ∑ n ∈ Finset.Ico (i + 2) j, t.F n := by
      rw [← Finset.sum_Ico_consecutive _ (show i ≤ i + 2 by omega) hij, ← hf]
      rw [Finset.sum_Ico_succ_top (show i ≤ i + 1 by omega), Finset.sum_Ico_succ_top (show i ≤ i by omega),
        Finset.Ico_self, Finset.sum_empty, Nat.zero_add]
    have h2 : ∑ n ∈ Finset.Ico (i + 2) (j + 1), t'.F n =
        ∑ n ∈ Finset.Ico (i + 2) k, t'.F n + ∑ n ∈ Finset.Ico k (j + 1), t'.F n :=
      (Finset.sum_Ico_consecutive _ hki (by omega)).symm
    have h3 : ∑ n ∈ Finset.Ico (i + 2) k, t'.F n = ∑ n ∈ Finset.Ico (i + 2) k, t.F n :=
      Finset.sum_congr rfl fun n hn => hlowF n (Finset.mem_Ico.1 hn).2
    have h4 : ∑ n ∈ Finset.Ico k (j + 1), t'.F n = f + ∑ n ∈ Finset.Ico k j, t.F n := by
      rw [Finset.sum_eq_sum_Ico_succ_bot (by omega), hFk, Finset.sum_Ico_add' t'.F k j 1 |>.symm]
      refine congrArg (f + ·) (Finset.sum_congr rfl fun n hn => ?_)
      have hn := Finset.mem_Ico.1 hn
      rw [hF (n + 1) (by omega), if_neg (by omega), if_pos (by omega), Nat.add_sub_cancel]
    have h5 : ∑ n ∈ Finset.Ico (i + 2) k, t.F n + ∑ n ∈ Finset.Ico k j, t.F n = ∑ n ∈ Finset.Ico (i + 2) j, t.F n :=
      Finset.sum_Ico_consecutive _ hki hkj
    have h6 := h.total
    rw [hi] at h6
    rw [hi', h2, h3, h4]
    omega
  · intro m n y z hm hn hy hz hr
    have e1 : m ≠ k := fun e => by rw [e, hSk] at hy; cases hy
    have e2 : n ≠ k := fun e => by rw [e, hSk] at hz; cases hz
    obtain ⟨m', hm', _, h2, _, h4, h5⟩ := hsrc m (by omega) e1
    obtain ⟨n', hn', _, h2', _, h4', h5'⟩ := hsrc n (by omega) e2
    have := h.order m' n' y z hm' hn' (h2 ▸ hy) (h2' ▸ hz) hr
    rcases Nat.lt_or_gt_of_ne e1 with a | a <;> rcases Nat.lt_or_gt_of_ne e2 with b | b
    · have := h4 a; have := h4' b; omega
    · omega
    · have := h5 a; have := h4' b; omega
    · have := h5 a; have := h5' b; omega

theorem joinPairs_joined {t : HufTree} {n : Nat} {w rank : Sym → Nat} {W : Nat} (hn : n ≤ 314)
    (h : Joined t (629 - n) w rank W) (hW : W ≤ 0x8000) :
    Joined (joinPairs n t) 629 w rank W ∧ (joinPairs n t).parent = t.parent := by
  induction n generalizing t with
  | zero => exact ⟨h, rfl⟩
  | succ n ih =>
    obtain ⟨h1, h2⟩ := joinPair_joined (j := 628 - n) (by rwa [show 629 - (n + 1) = 628 - n by omega] at h) (by omega)
      (by omega) hW
    rw [show 628 - n + 1 = 629 - n by omega] at h1
    obtain ⟨h3, h4⟩ := ih (by omega) h1
    exact ⟨h3, h4.trans h2⟩

/-! ### The last loop -/

theorem relinkAll_spec (t : HufTree) {n : Nat} (hn : n ≤ 629) :
    (relinkAll n t).freq = t.freq ∧ (relinkAll n t).son = t.son ∧
      (∀ a : Slot, (∀ s : Slot, 629 - n ≤ s.val → ¬ ∃ x, t.son.get s = .node x ∧ childOf a x) →
        (relinkAll n t).parent.get a = t.parent.get a) ∧
      (∀ (a s : Slot) (x : Fin 628), 629 - n ≤ s.val → t.son.get s = .node x → childOf a x →
        (∀ s' x', t.son.get s' = .node x' → childOf a x' → s' = s) → (relinkAll n t).parent.get a = s) ∧
      (∀ y : Sym, (∀ s : Slot, 629 - n ≤ s.val → t.son.get s ≠ .leaf y) →
        (relinkAll n t).leaf.get y = t.leaf.get y) ∧
      (∀ (y : Sym) (s : Slot), 629 - n ≤ s.val → t.son.get s = .leaf y →
        (∀ s', t.son.get s' = .leaf y → s' = s) → (relinkAll n t).leaf.get y = s) := by
  induction n generalizing t with
  | zero =>
    exact ⟨rfl, rfl, fun _ _ => rfl, fun a s x h => by have := s.isLt; omega, fun _ _ => rfl,
      fun y s h => by have := s.isLt; omega⟩
  | succ n ih =>
    have hv : (slot (628 - n)).val = 628 - n := slot_val (by omega)
    obtain ⟨h1, h2, h3, h4, h5, h6⟩ :=
      ih (t.linkParent (t.son.get (slot (628 - n))) (slot (628 - n))) (by omega)
    rw [linkParent_freq] at h1
    rw [linkParent_son] at h2 h3 h4 h5 h6
    refine ⟨h1, h2, fun a ha => ?_, fun a s x hs hx hc hu => ?_, fun y hy => ?_, fun y s hs hy hu => ?_⟩
    · rw [relinkAll, h3 a fun s hs => ha s (by omega), linkParent_parent, if_neg (ha _ (by omega))]
    · rw [relinkAll]
      by_cases e : s = slot (628 - n)
      · rw [h3 a, linkParent_parent, if_pos ⟨x, by rw [← e]; exact hx, hc⟩, e]
        rintro s' hs' ⟨x', hx', hc'⟩
        have h7 := hu s' x' hx' hc'
        rw [e] at h7
        rw [h7, hv] at hs'
        omega
      · refine h4 a s x ?_ hx hc hu
        have : s.val ≠ 628 - n := fun e' => e (Fin.ext (e'.trans hv.symm))
        omega
    · rw [relinkAll, h5 y fun s hs => hy s (by omega), linkParent_leaf, if_neg (hy _ (by omega))]
    · rw [relinkAll]
      by_cases e : s = slot (628 - n)
      · rw [h5 y, linkParent_leaf, if_pos (by rw [← e]; exact hy), e]
        intro s' hs' hy'
        have h7 := hu s' hy'
        rw [e] at h7
        rw [h7, hv] at hs'
        omega
      · refine h6 y s ?_ hy hu
        have : s.val ≠ 628 - n := fun e' => e (Fin.ext (e'.trans hv.symm))
        omega

/-! ### The whole of `Rescale` -/

/-- `Rescale` on a sound tree gives a sound tree, with every leaf frequency halved, rounding up, and the leaves in their
old order. -/
theorem rescale_sound {t : HufTree} (h : t.Sound) :
    t.rescale.Sound ∧ (∀ y, t.rescale.weight y = (t.weight y + 1) / 2) ∧
      ∀ y z, t.leaf.get y < t.leaf.get z → t.rescale.leaf.get y < t.rescale.leaf.get z := by
  obtain ⟨j, L, g⟩ := gather_spec (t := t) (t' := t) (n := 629) (j := 0) (L := fun _ => 0) (Nat.le_refl _) (gather_start t)
  have hj := gathered_count h g
  subst hj
  unfold rescale
  generalize gatherLeaves 629 0 t = t1 at *
  -- the symbol at each of the first slots
  have hsym : ∀ n : Fin 315, ∃ y, t.S (L n.val) = .leaf y := fun n => (g.isLeaf n.val n.isLt).2
  choose sym hsym using hsym
  have hleaf : ∀ n : Fin 315, (t.leaf.get (sym n)).val = L n.val := fun n => by
    have h1 := (g.isLeaf n.val n.isLt).1
    have h2 := hsym n
    rw [S] at h2
    rw [h.leafSon _ _ h2, slot_val h1]
  have hLmono : ∀ m n : Fin 315, L m.val = L n.val → m = n := fun m n e => by
    rcases Nat.lt_trichotomy m.val n.val with h2 | h2 | h2
    · have := g.mono _ _ h2 n.isLt; omega
    · exact Fin.ext h2
    · have := g.mono _ _ h2 m.isLt; omega
  have hinj : Function.Injective sym := fun a b e => hLmono a b (by rw [← hleaf, ← hleaf, e])
  have hbij : Function.Bijective sym := ⟨hinj, Finite.surjective_of_injective hinj⟩
  have hw : ∀ n : Fin 315, t1.F n.val = (t.weight (sym n) + 1) / 2 := fun n => by
    rw [(g.front n.val n.isLt).1, weight, ← F_val, hleaf]
  have hS1 : ∀ n : Fin 315, t1.S n.val = .leaf (sym n) := fun n => by rw [(g.front n.val n.isLt).2, hsym]
  have hW : ∑ n ∈ Finset.Ico 0 315, t1.F n ≤ 0x8000 := by
    have h1 : ∑ n ∈ Finset.Ico 0 315, t1.F n = ∑ y : Sym, (t.weight y + 1) / 2 := by
      rw [← (Equiv.ofBijective sym hbij).sum_comp, ← Finset.range_eq_Ico,
        ← Fin.sum_univ_eq_sum_range (fun k => t1.F k) 315]
      exact Finset.sum_congr rfl fun n _ => hw n
    have h2 : ∑ y : Sym, (t.weight y + 1) / 2 ≤ ∑ y : Sym, t.weight y :=
      Finset.sum_le_sum fun y _ => by
        have := h.positive (t.leaf.get y)
        rw [weight]
        omega
    have h3 := sum_weights h
    have h4 := h.rootFreq
    rw [← F_val] at h4
    have h5 : (628 : Slot).val = 628 := rfl
    rw [h5] at h4
    omega
  have hJ : Joined t1 315 (fun y => (t.weight y + 1) / 2) (fun y => (t.leaf.get y).val)
      (∑ n ∈ Finset.Ico 0 315, t1.F n) := by
    refine ⟨fun m n hmn hn => ?_, fun n hn => ?_, fun m n hm hn e => ?_, fun y => ?_, fun x _ hx => by omega,
      fun n x hn hx => ?_, rfl, fun m n y z hm hn hy hz hr => ?_⟩
    · rw [(g.front m (by omega)).1, (g.front n hn).1]
      have : t.F (L m) ≤ t.F (L n) := by
        rcases Nat.lt_or_eq_of_le hmn with h' | h'
        · exact h.sorted_F (g.mono m n h' hn).le (g.isLeaf n hn).1
        · rw [h']
      omega
    · rw [(g.front n hn).1]
      have := h.positive (slot (L n))
      rw [← F_val, slot_val (g.isLeaf n hn).1] at this
      omega
    · have h1 := hS1 ⟨m, hm⟩
      have h2 := hS1 ⟨n, hn⟩
      simp only at h1 h2
      rw [h1, h2, Son.leaf.injEq] at e
      have := hinj e
      rw [Fin.ext_iff] at this
      exact this
    · obtain ⟨n, rfl⟩ := hbij.2 y
      exact ⟨n.val, n.isLt, hS1 n, hw n⟩
    · have h1 := hS1 ⟨n, hn⟩
      simp only at h1
      rw [h1] at hx
      cases hx
    · have h1 := hS1 ⟨m, hm⟩
      have h2 := hS1 ⟨n, hn⟩
      simp only at h1 h2
      rw [h1, Son.leaf.injEq] at hy
      rw [h2, Son.leaf.injEq] at hz
      rw [← hy, ← hz, hleaf, hleaf] at hr
      simp only at hr
      by_contra hle
      rcases Nat.lt_or_eq_of_le (Nat.le_of_not_lt hle) with h' | h'
      · have := g.mono n m h' hm; omega
      · rw [h'] at hr; omega
  obtain ⟨hJ', hpar⟩ := joinPairs_joined (n := 314) (Nat.le_refl _) hJ hW
  generalize hWv : ∑ n ∈ Finset.Ico 0 315, t1.F n = W at *
  generalize joinPairs 314 t1 = t2 at *
  obtain ⟨r1, r2, r3, r4, r5, r6⟩ := relinkAll_spec t2 (n := 629) (Nat.le_refl _)
  generalize relinkAll 629 t2 = t3 at *
  have hF3 : ∀ n, t3.F n = t2.F n := fun n => by rw [F, F, r1]
  have hson3 : ∀ s, t3.son.get s = t2.S s.val := fun s => by rw [r2, S_val]
  have hinj2 : ∀ s s' : Slot, t2.son.get s = t2.son.get s' → s = s' := fun s s' e =>
    Fin.ext (hJ'.inj s.val s'.val s.isLt s'.isLt (by rw [S_val, S_val, e]))
  have hnodes : ∀ (s : Slot) (x : Fin 628), t2.son.get s = .node x →
      x.val % 2 = 0 ∧ x.val + 1 < 628 ∧ x.val + 1 < s.val ∧ t2.F s.val = t2.F x.val + t2.F (x.val + 1) :=
    fun s x hx => hJ'.nodes s.val x s.isLt (by rw [S_val, hx])
  have hpair : ∀ (a : Slot) (x x' : Fin 628), x.val % 2 = 0 → x'.val % 2 = 0 → childOf a x → childOf a x' → x = x' := by
    intro a x x' h1 h2 h3 h4
    apply Fin.ext
    rcases h3 with e | e <;> rcases h4 with e' | e' <;> rw [e] at e' <;>
      simp only [Fin.ext_iff, Fin.val_castSucc, Fin.val_succ] at e' <;> omega
  have huniq : ∀ (a s s' : Slot) (x x' : Fin 628), t2.son.get s = .node x → childOf a x → t2.son.get s' = .node x' →
      childOf a x' → s' = s := by
    intro a s s' x x' hx hc hx' hc'
    have := hpair a x x' (hnodes s x hx).1 (hnodes s' x' hx').1 hc hc'
    exact hinj2 s' s (by rw [hx, hx', this])
  have hparent : ∀ (s : Slot) (x : Fin 628) (a : Slot), t2.son.get s = .node x → childOf a x → t3.parent.get a = s :=
    fun s x a hx hc => r4 a s x (by omega) hx hc fun s' x' hx' hc' => huniq a s s' x x' hx hc hx' hc'
  have hleaf3 : ∀ (s : Slot) (y : Sym), t2.son.get s = .leaf y → t3.leaf.get y = s :=
    fun s y hy => r6 y s (by omega) hy fun s' hy' => hinj2 s' s (by rw [hy, hy'])
  have hleafOf : ∀ y : Sym, ∃ s : Slot, t2.son.get s = .leaf y ∧ t2.F s.val = (t.weight y + 1) / 2 := fun y => by
    obtain ⟨n, hn, h1, h2⟩ := hJ'.hasLeaf y
    exact ⟨slot n, by rw [← h1]; rfl, by rw [slot_val hn]; exact h2⟩
  refine ⟨⟨fun c => ?_, fun s x hx => ?_, fun s x hx => ?_, fun s y hy => ?_, fun y => ?_, ?_, fun s hs => ?_,
    fun s x hx => ?_, fun s x hx => ?_, fun s => ?_, ?_⟩, fun y => ?_, fun y z hyz => ?_⟩
  · rw [BitVec.le_def, ← F_val, ← F_val, hF3, hF3]
    exact hJ'.sorted _ _ (by simp) c.succ.isLt
  · rw [r2] at hx
    rw [← F_val, ← F_val, ← F_val, hF3, hF3, hF3]
    exact (hnodes s x hx).2.2.2
  · rw [r2] at hx
    exact ⟨hparent s x _ hx (.inl rfl), hparent s x _ hx (.inr rfl)⟩
  · rw [r2] at hy
    exact hleaf3 s y hy
  · obtain ⟨s, hs, _⟩ := hleafOf y
    rw [hleaf3 s y hs, r2, hs]
  · have h1 := hJ'.total
    rw [show 2 * (629 - 315) = 628 from rfl, Finset.sum_Ico_succ_top (by omega), Finset.Ico_self, Finset.sum_empty,
      Nat.zero_add] at h1
    rw [← F_val, hF3]
    have h2 : (628 : Slot).val = 628 := rfl
    rw [h2]
    omega
  · have hsv : s.val ≠ 628 := fun e => hs (Fin.ext e)
    have hlt := s.isLt
    obtain ⟨n, hn, hx⟩ := hJ'.hasNode ⟨2 * (s.val / 2), by omega⟩ (by simp only; omega) (by simp only; omega)
    have hc : childOf s ⟨2 * (s.val / 2), by omega⟩ := by
      rcases Nat.mod_two_eq_zero_or_one s.val with e | e
      · left; apply Fin.ext; simp only [Fin.val_castSucc]; omega
      · right; apply Fin.ext; simp only [Fin.val_succ]; omega
    refine ⟨_, ?_, hc⟩
    rw [hparent (slot n) _ s hx hc, r2]
    exact hx
  · rw [r2] at hx
    exact (hnodes s x hx).2.2.1
  · rw [r2] at hx
    exact (hnodes s x hx).1
  · rw [← F_val, hF3]
    exact hJ'.positive _ s.isLt
  · rw [r3 628, hpar, g.parent, h.rootParent]
    rintro s _ ⟨x, hx, hc⟩
    have h1 := hnodes s x hx
    have h2 := s.isLt
    have h3 : (628 : Slot).val = 628 := rfl
    rcases hc with e | e <;> rw [e] at h3 <;> simp only [Fin.val_castSucc, Fin.val_succ] at h3 <;> omega
  · obtain ⟨s, hs, hw⟩ := hleafOf y
    rw [weight, ← F_val, hleaf3 s y hs, hF3, hw]
  · obtain ⟨s, hs, _⟩ := hleafOf y
    obtain ⟨s', hs', _⟩ := hleafOf z
    rw [hleaf3 s y hs, hleaf3 s' z hs', Fin.lt_def]
    exact hJ'.order s.val s'.val y z s.isLt s'.isLt (by rw [S_val, hs]) (by rw [S_val, hs']) (Fin.lt_def.1 hyz)

/-- `HufUpdate` on a sound tree (R254, R258, R259). -/
theorem update_sound {t : HufTree} (h : t.Sound) (y : Sym) :
    ∃ t', t.update y = some t' ∧ t'.Sound ∧
      ∀ z, t'.weight z =
        (if 0x8000 ≤ t.F 628 then (t.weight z + 1) / 2 else t.weight z) + if z = y then 1 else 0 := by
  have hF : ∀ u : HufTree, (u.freq.get 628).toNat = u.F 628 := fun u => by rw [← F_val]; rfl
  unfold update
  rw [hF]
  by_cases hr : 0x8000 ≤ t.F 628
  · simp only [if_pos hr]
    obtain ⟨h1, h2, _⟩ := rescale_sound h
    have hlt : t.rescale.F 628 < 0x8000 := by
      have h3 := sum_weights h1
      have h4 := sum_weights h
      have h5 : ∑ z : Sym, t.rescale.weight z = ∑ z : Sym, (t.weight z + 1) / 2 :=
        Finset.sum_congr rfl fun z _ => h2 z
      have h6 : ∑ z : Sym, 2 * ((t.weight z + 1) / 2) ≤ ∑ z : Sym, (t.weight z + 1) :=
        Finset.sum_le_sum fun z _ => by omega
      rw [← Finset.mul_sum, Finset.sum_add_distrib] at h6
      have h7 : ∑ _z : Sym, 1 = 315 := by simp
      have h8 := h.rootFreq
      rw [hF] at h8
      omega
    obtain ⟨t', a, b, c⟩ := bumpUp_of_sound h1 hlt y
    exact ⟨t', a, b, fun z => by rw [c z, h2 z]⟩
  · simp only [if_neg hr]
    exact bumpUp_of_sound h (by omega) y

end HufTree

end Sys2Proof.Machine
end

