-- ==== Sys2Proof/Laws/Initial.lean ====
section
/-! SUPPORT. The contents after reset: the initial tree is sound (43_huffman.md R251, R259), trees with every root frequency
exist (R254), and windows with an empty index or one indexed position are legal (42_window.md R210, R212). -/

namespace Sys2Proof.Machine

namespace HufTree

/-- What the frequencies of R251 satisfy, checked slot by slot. -/
theorem initialFreq_table :
    (∀ c < 628, initialFreq 12 c ≤ initialFreq 12 (c + 1)) ∧
      (∀ j < 629, 1 ≤ initialFreq 12 j ∧ initialFreq 12 j ≤ 315 ∧ (315 ≤ j →
        initialFreq 12 j = initialFreq 12 (2 * (j - 315)) + initialFreq 12 (2 * (j - 315) + 1))) := by
  decide +kernel

theorem initial_F {n : Nat} (h : n < 629) : initial.F n = initialFreq 12 n := by
  have := (initialFreq_table.2 n h).2.1
  rw [F, initial, Table.get_tabulate, slot_val h, BitVec.toNat_ofNat, Nat.mod_eq_of_lt (by omega)]

theorem initial_son (s : Slot) :
    initial.son.get s = if s.val < 315 then .leaf (Fin.ofNat 315 s.val) else .node (Fin.ofNat 628 (2 * (s.val - 315))) := by
  rw [initial, Table.get_tabulate]

theorem initial_node {s : Slot} {c : Fin 628} (h : initial.son.get s = .node c) :
    315 ≤ s.val ∧ c.val = 2 * (s.val - 315) := by
  have := s.isLt
  rw [initial_son] at h
  split at h
  · cases h
  · rw [Son.node.injEq] at h
    have h' : c.val = 2 * (s.val - 315) % 628 := by rw [← h, Fin.val_ofNat]
    rw [Nat.mod_eq_of_lt (by omega)] at h'
    exact ⟨by omega, h'⟩

theorem initial_parent (s : Slot) :
    initial.parent.get s = if s.val < 628 then Fin.ofNat 629 (315 + s.val / 2) else 0 := by
  rw [initial, Table.get_tabulate]

/-- The tree of R251 is sound. -/
theorem initial_sound : initial.Sound where
  sorted c := by
    rw [BitVec.le_def, ← F_val, ← F_val, initial_F c.castSucc.isLt, initial_F c.succ.isLt]
    exact initialFreq_table.1 c.val c.isLt
  sum s c h := by
    obtain ⟨h1, h2⟩ := initial_node h
    rw [← F_val, ← F_val, ← F_val, initial_F s.isLt, initial_F c.castSucc.isLt, initial_F c.succ.isLt, Fin.val_castSucc,
      Fin.val_succ, h2]
    exact (initialFreq_table.2 s.val s.isLt).2.2 h1
  parentSon s c h := by
    obtain ⟨h1, h2⟩ := initial_node h
    have h3 := s.isLt
    have h4 := c.isLt
    rw [initial_parent, initial_parent, Fin.val_castSucc, Fin.val_succ, if_pos h4, if_pos (by omega)]
    constructor <;> apply Fin.ext <;> rw [Fin.val_ofNat] <;> omega
  leafSon s y h := by
    rw [initial_son] at h
    split at h
    · cases h
      next h' =>
      rw [initial, Table.get_tabulate]
      apply Fin.ext
      simp only [Fin.val_ofNat]
      omega
    · cases h
  leafOf y := by
    have := y.isLt
    have h1 : (initial.leaf.get y).val = y.val := by
      rw [initial, Table.get_tabulate, Fin.val_ofNat]
      omega
    rw [initial_son, h1, if_pos this]
    congr 1
    apply Fin.ext
    rw [Fin.val_ofNat]
    omega
  rootFreq := by
    have := (initialFreq_table.2 628 (by omega)).2.1
    rw [← F_val, initial_F (Fin.isLt _)]
    exact this.trans (by omega)
  child s hs := by
    have h1 := s.isLt
    have h2 : s.val ≠ 628 := fun e => hs (Fin.ext e)
    have h3 : (initial.parent.get s).val = 315 + s.val / 2 := by
      rw [initial_parent, if_pos (by omega), Fin.val_ofNat]
      omega
    refine ⟨Fin.ofNat 628 (2 * (s.val / 2)), ?_, ?_⟩
    · rw [initial_son, h3, if_neg (by omega), Nat.add_sub_cancel_left]
    · rcases Nat.mod_two_eq_zero_or_one s.val with e | e
      · left
        apply Fin.ext
        simp only [Fin.val_castSucc, Fin.val_ofNat]
        omega
      · right
        apply Fin.ext
        simp only [Fin.val_succ, Fin.val_ofNat]
        omega
  lower s c h := by
    obtain ⟨h1, h2⟩ := initial_node h
    have := s.isLt
    omega
  even s c h := by
    obtain ⟨h1, h2⟩ := initial_node h
    omega
  positive s := by
    rw [← F_val, initial_F s.isLt]
    exact (initialFreq_table.2 s.val s.isLt).1
  rootParent := by rw [initial_parent, if_neg (by decide)]

theorem exists_sound_add (k : Nat) (h : 315 + k ≤ 0x8000) : ∃ t : HufTree, t.Sound ∧ t.F 628 = 315 + k := by
  induction k with
  | zero => exact ⟨initial, initial_sound, (initial_F (by omega)).trans (by decide +kernel)⟩
  | succ k ih =>
    obtain ⟨t, h1, h2⟩ := ih (by omega)
    obtain ⟨t', -, h3, h4⟩ := update_sound h1 0
    refine ⟨t', h3, ?_⟩
    have h5 : ∑ z : Sym, t'.weight z = ∑ z : Sym, (t.weight z + if z = 0 then 1 else 0) :=
      Finset.sum_congr rfl fun z _ => by rw [h4 z, if_neg (by omega)]
    rw [Finset.sum_add_distrib, sum_weights h1, sum_weights h3, Finset.sum_ite_eq' Finset.univ (0 : Sym),
      if_pos (Finset.mem_univ _)] at h5
    omega

/-- A sound tree for every root frequency from 315 to `MAX_FREQ`. -/
theorem exists_sound {f : Nat} (h : 315 ≤ f) (h' : f ≤ 0x8000) :
    ∃ t : HufTree, t.Sound ∧ (t.freq.get 628).toNat = f := by
  obtain ⟨t, h1, h2⟩ := exists_sound_add (f - 315) (by omega)
  refine ⟨t, h1, ?_⟩
  rw [← F_val]
  exact h2.trans (by omega)

end HufTree

namespace Window

/-- A window with no position in the index. -/
structure Empty (w : Window) : Prop where
  dad : ∀ p, w.dad.get p = none
  root : ∀ c : Fin 256, w.root.get c = none

theorem initial_empty (b : Byte) : (initial b).Empty :=
  ⟨fun p => by rw [initial, Table.get_tabulate], fun c => by rw [initial, Table.get_tabulate]⟩

theorem Empty.indexed {w : Window} (h : w.Empty) (p : Pos) : w.indexed p = false := by
  rw [Window.indexed, h.dad]
  rfl

/-- A window with one position in the index, the root of the tree of its first byte. -/
structure Single (w : Window) (p : Pos) : Prop where
  dad : ∀ q, w.dad.get q = if q = p then some (.rootn (w.win.get p)) else none
  root : ∀ c : Fin 256, w.root.get c = if c = (w.win.get p).toFin then some p else none
  lson : w.lson.get p = none
  rson : w.rson.get p = none

theorem Empty.linked {w : Window} (h : w.Empty) : w.Linked where
  dadChild p x e := by rw [h.dad] at e; cases e
  rightDad p q e := by rw [h.indexed] at e; cases e
  leftDad p q e := by rw [h.indexed] at e; cases e
  rootDad p c e := by rw [h.root] at e; cases e
  oneSide p q e := by rw [h.indexed] at e; cases e
  dadIndexed p q e := by rw [h.dad] at e; cases e
  acyclic := ⟨fun _ => 0, fun p q e => by rw [h.dad] at e; cases e⟩

theorem Empty.ordered {w : Window} (h : w.Empty) : w.Ordered where
  firstByte c q e := by
    obtain ⟨p, hp, _⟩ := e
    rw [h.root] at hp
    cases hp
  leftSmaller p l q e := by rw [h.indexed] at e; cases e
  rightNotSmaller p r q e := by rw [h.indexed] at e; cases e
  oneKey c p q e := by
    obtain ⟨p, hp, _⟩ := e
    rw [h.root] at hp
    cases hp

theorem Single.indexed {w : Window} {p : Pos} (h : w.Single p) (q : Pos) : w.indexed q = decide (q = p) := by
  rw [Window.indexed, h.dad]
  by_cases e : q = p
  · rw [if_pos e, decide_eq_true e]; rfl
  · rw [if_neg e, decide_eq_false e]; rfl

theorem Single.indexed_eq {w : Window} {p q : Pos} (h : w.Single p) (e : w.indexed q = true) : q = p := by
  rw [h.indexed, decide_eq_true_eq] at e
  exact e

theorem Single.not_pos {w : Window} {p q d : Pos} (h : w.Single p) (e : w.dad.get q = some (.pos d)) : False := by
  rw [h.dad] at e
  split at e <;> cases e

theorem Single.under {w : Window} {p q d : Pos} (h : w.Single p) (e : w.Under d q) : q = d := by
  cases e with
  | self => rfl
  | step _ _ e1 _ => exact (h.not_pos e1).elim

theorem Single.inTree {w : Window} {p q : Pos} {c : Byte} (h : w.Single p) : w.InTree c q ↔ c = w.win.get p ∧ q = p := by
  constructor
  · rintro ⟨d, hd, hu⟩
    rw [h.root] at hd
    split at hd
    · next e =>
      cases hd
      exact ⟨BitVec.toFin_inj.1 e, h.under hu⟩
    · cases hd
  · rintro ⟨rfl, rfl⟩
    exact ⟨q, by rw [h.root, if_pos rfl], .self q⟩

theorem Single.linked {w : Window} {p : Pos} (h : w.Single p) : w.Linked where
  dadChild q x e := by
    rw [h.dad] at e
    split at e
    · next e' =>
      cases e
      left
      show w.root.get _ = _
      rw [h.root, if_pos rfl, e']
    · cases e
  rightDad q d e e' := by
    rw [h.indexed_eq e, h.rson] at e'
    cases e'
  leftDad q d e e' := by
    rw [h.indexed_eq e, h.lson] at e'
    cases e'
  rootDad q c e := by
    rw [h.root] at e
    split at e
    · next e' =>
      cases e
      rw [h.dad, if_pos rfl, BitVec.toFin_inj.1 e']
    · cases e
  oneSide q d e e' := by
    rw [h.indexed_eq e, h.lson] at e'
    cases e'
  dadIndexed q d e := (h.not_pos e).elim
  acyclic := ⟨fun _ => 0, fun q d e => (h.not_pos e).elim⟩

theorem Single.ordered {w : Window} {p : Pos} (h : w.Single p) : w.Ordered where
  firstByte c q e := by
    obtain ⟨h1, h2⟩ := h.inTree.1 e
    rw [h1, h2]
  leftSmaller d l q e e' := by
    rw [h.indexed_eq e, h.lson] at e'
    cases e'
  rightNotSmaller d r q e e' := by
    rw [h.indexed_eq e, h.rson] at e'
    cases e'
  oneKey c d q e e' _ := by rw [(h.inTree.1 e).2, (h.inTree.1 e').2]

end Window

end Sys2Proof.Machine
end

