-- ==== Sys2Proof/Laws/PerInstr.lean ====
section
/-! SUPPORT. Facts about every command as syntax, one lemma for each constructor: the encoded word carries the command's
opcode in bits 31..24 and, under the mask of its row of spec/opcode_table.json, the row's bits (30_encoding.md R110, R111,
R115). -/

namespace Sys2Proof.Laws.Rows

/-- The encoded word belongs to the command's row. -/
def Statement (i : Instr) : Prop := opcodeOf (encode i) = i.opcode ∧ encode i &&& i.rowMask = i.rowMatch

/-- The opcode of an assembled word is its upper byte. -/
theorem opcode_append (c : BitVec 8) (f : BitVec 24) : (c ++ f).extractLsb' 24 8 = c := by
  ext k hk
  simp only [BitVec.getElem_extractLsb', BitVec.getLsbD_append]
  rw [if_neg (by omega), show 24 + k - 24 = k by omega]
  exact BitVec.getLsbD_eq_getElem hk

theorem append_and {n m : Nat} (a c : BitVec n) (b d : BitVec m) : (a ++ b) &&& (c ++ d) = (a &&& c) ++ (b &&& d) := by
  apply BitVec.eq_of_getLsbD_eq
  intro k hk
  simp only [BitVec.getLsbD_and, BitVec.getLsbD_append]
  split <;> rfl

/-- A row mask that keeps the opcode keeps of the operand field what its lower part keeps. -/
theorem mask_append (c : BitVec 8) (f m : BitVec 24) : (c ++ f) &&& (0xFF#8 ++ m) = c ++ (f &&& m) := by
  rw [append_and]
  congr 1
  exact BitVec.and_allOnes

theorem of_field {i : Instr} (m : BitVec 24) (hm : i.rowMask = 0xFF#8 ++ m) (hf : i.operandField &&& m = 0#24) :
    Statement i := by
  refine ⟨opcode_append _ _, ?_⟩
  rw [encode, hm, mask_append, hf]
  rfl

/-- Format I keeps bits 23..16 (R111). -/
theorem field_index (x : BitVec 16) : (0#8 ++ x) &&& 0xFF0000#24 = 0#24 := by
  rw [show (0xFF0000#24) = 0xFF#8 ++ 0#16 from rfl, append_and]
  simp

/-- Format Y keeps bits 23..8 (R111). -/
theorem field_byte (b : Byte) : (0#16 ++ b) &&& 0xFFFF00#24 = 0#24 := by
  rw [show (0xFFFF00#24) = 0xFFFF#16 ++ 0#8 from rfl, append_and]
  simp

/-- Format G keeps bits 23..21 and 15..0 (R111). -/
theorem field_count (n : BitVec 5) : (0#3 ++ n ++ 0#16) &&& 0xE0FFFF#24 = 0#24 := by
  rw [show (0xE0FFFF#24) = (0x7#3 ++ 0#5) ++ 0xFFFF#16 from rfl, append_and, append_and]
  simp

/-- Format B keeps bits 23..21 (R111). -/
theorem field_value (n : BitVec 5) (v : BitVec 16) : (0#3 ++ n ++ v) &&& 0xE00000#24 = 0#24 := by
  rw [show (0xE00000#24) = (0x7#3 ++ 0#5) ++ 0#16 from rfl, append_and, append_and]
  simp

theorem nop : Statement .nop := of_field 0 rfl rfl
theorem reset : Statement .reset := of_field 0xFFFFFF rfl rfl
theorem clrerr : Statement .clrerr := of_field 0xFFFFFF rfl rfl
theorem bitInit : Statement .bitInit := of_field 0xFFFFFF rfl rfl
theorem bitGet (n : BitVec 5) : Statement (.bitGet n) := of_field 0xE0FFFF rfl (field_count n)
theorem bitPut (n : BitVec 5) (v : BitVec 16) : Statement (.bitPut n v) := of_field 0xE00000 rfl (field_value n v)
theorem bitGetByte : Statement .bitGetByte := of_field 0xFFFFFF rfl rfl
theorem bitPutByte (b : Byte) : Statement (.bitPutByte b) := of_field 0xFFFF00 rfl (field_byte b)
theorem bitCount : Statement .bitCount := of_field 0xFFFFFF rfl rfl
theorem bitFlush : Statement .bitFlush := of_field 0xFFFFFF rfl rfl
theorem winInit : Statement .winInit := of_field 0xFFFFFF rfl rfl
theorem winRd (x : BitVec 16) : Statement (.winRd x) := of_field 0xFF0000 rfl (field_index x)
theorem winWr (x : BitVec 16) (b : Byte) : Statement (.winWr x b) := of_field 0 rfl (BitVec.and_zero)
theorem winInsert (x : BitVec 16) : Statement (.winInsert x) := of_field 0xFF0000 rfl (field_index x)
theorem winDelete (x : BitVec 16) : Statement (.winDelete x) := of_field 0xFF0000 rfl (field_index x)
theorem winFind (x : BitVec 16) : Statement (.winFind x) := of_field 0xFF0000 rfl (field_index x)
theorem hufInit : Statement .hufInit := of_field 0xFFFFFF rfl rfl
theorem hufEnc (x : BitVec 16) : Statement (.hufEnc x) := of_field 0xFF0000 rfl (field_index x)
theorem hufDec : Statement .hufDec := of_field 0xFFFFFF rfl rfl
theorem hufUpd (x : BitVec 16) : Statement (.hufUpd x) := of_field 0xFF0000 rfl (field_index x)
theorem hufEncPos (x : BitVec 16) : Statement (.hufEncPos x) := of_field 0xFF0000 rfl (field_index x)
theorem hufDecPos : Statement .hufDecPos := of_field 0xFFFFFF rfl rfl
theorem hufRescale : Statement .hufRescale := of_field 0xFFFFFF rfl rfl
theorem hufPeek (x : BitVec 16) : Statement (.hufPeek x) := of_field 0xFF0000 rfl (field_index x)
theorem lzhCompress : Statement .lzhCompress := of_field 0xFFFFFF rfl rfl
theorem lzhExpand : Statement .lzhExpand := of_field 0xFFFFFF rfl rfl
theorem lzwInit : Statement .lzwInit := of_field 0xFFFFFF rfl rfl
theorem lzwEncByte (b : Byte) : Statement (.lzwEncByte b) := of_field 0xFFFF00 rfl (field_byte b)
theorem lzwEncEnd : Statement .lzwEncEnd := of_field 0xFFFFFF rfl rfl
theorem lzwDecCode : Statement .lzwDecCode := of_field 0xFFFFFF rfl rfl
theorem lzwCompress : Statement .lzwCompress := of_field 0xFFFFFF rfl rfl
theorem lzwExpand : Statement .lzwExpand := of_field 0xFFFFFF rfl rfl

end Sys2Proof.Laws.Rows
end

