-- ==== Sys2Proof/Machine/Assembler.lean ====
section
/-! DEFINITION. The assembler syntax and the pseudo-instructions (30_encoding.md R134, R135): a line of text to the host
accesses it stands for. -/

namespace Sys2Proof.Machine

/-! ### Pseudo-instructions -/

/-- The pseudo-instructions of R135. -/
inductive Pseudo where
  | hufSym (x : BitVec 16)
  | lzhLit (b : Byte)
  | lzhMatch (len : Nat) (d : BitVec 16)
  | lzhEos
  | bitPutW (n : Nat) (v : Word)
  | bitGetW (n : Nat)
  | winStr (x : Nat) (bytes : List Byte)
  | lzwEncStr (bytes : List Byte)
deriving DecidableEq, Repr

/-- One symbol step: `HUF_ENC x ; HUF_UPD x` (R135). -/
def symbolStep (x : BitVec 16) : List Instr := [.hufEnc x, .hufUpd x]

/-- The symbol of a match of length `len` (R122). -/
def matchOperand (len : Nat) : BitVec 16 := BitVec.ofNat 16 (256 + len - 2)

/-- `WIN_WR x, s[0] ; WIN_WR x+1, s[1] ; …`, positions `mod N` (R135). -/
def winWrites (x : Nat) : List Byte → List Instr
  | [] => []
  | b :: bs => .winWr (BitVec.ofNat 16 (x % 4096)) b :: winWrites (x + 1) bs

/-- The expansions of R135; `none` where an operand is outside the range R135 gives it. -/
def Pseudo.expand : Pseudo → Option (List Instr)
  | .hufSym x => some (symbolStep x)
  | .lzhLit b => some (symbolStep (b.setWidth 16))
  | .lzhMatch len d =>
    if 2 ≤ len ∧ len ≤ 59 then some (symbolStep (matchOperand len) ++ [.hufEncPos d]) else none
  | .lzhEos => some (symbolStep 314)
  | .bitPutW n v =>
    if 17 ≤ n ∧ n ≤ 32 then
      some [.bitPut (BitVec.ofNat 5 (n - 16)) (v.extractLsb' 16 16), .bitPut 16 (v.extractLsb' 0 16)]
    else none
  | .bitGetW n => if 17 ≤ n ∧ n ≤ 32 then some [.bitGet (BitVec.ofNat 5 (n - 16)), .bitGet 16] else none
  | .winStr x bytes => some (winWrites x bytes)
  | .lzwEncStr bytes => some (bytes.map Instr.lzwEncByte)

/-! ### Words of a line -/

/-- The words of a line (R134). -/
inductive Token where
  | word (cs : List Char)
  | char (c : Char)
  | text (cs : List Char)
  | comma
  | colon
deriving DecidableEq, Repr

/-- A character of a name or a number. -/
def wordChar (c : Char) : Bool := c.isAlphanum || c == '_' || c == '.'

/-- The characters up to the closing double quote, and the rest; there are no escape sequences (DESIGN CHOICE, log 30). -/
def quotedText : List Char → List Char → Option (List Char × List Char)
  | _, [] => none
  | acc, '"' :: cs => some (acc.reverse, cs)
  | acc, c :: cs => quotedText (c :: acc) cs

/-- The words of a line up to its comment (R134); `none` for a character that starts no word. -/
def lex : Nat → List Char → Option (List Token)
  | _, [] => some []
  | 0, _ :: _ => none
  | n + 1, c :: cs =>
    if c == ' ' || c == '\t' then lex n cs
    else if c == ';' then some []
    else if c == ',' then (lex n cs).map (Token.comma :: ·)
    else if c == ':' then (lex n cs).map (Token.colon :: ·)
    else if c == '\'' then
      match cs with
      | d :: '\'' :: rest => (lex n rest).map (Token.char d :: ·)
      | _ => none
    else if c == '"' then
      match quotedText [] cs with
      | some (t, rest) => (lex n rest).map (Token.text t :: ·)
      | none => none
    else if wordChar c then
      (lex n ((c :: cs).dropWhile wordChar)).map (Token.word ((c :: cs).takeWhile wordChar) :: ·)
    else none

/-- The value of a digit in a base up to 16. -/
def digit (base : Nat) (c : Char) : Option Nat :=
  let v :=
    if '0' ≤ c ∧ c ≤ '9' then c.toNat - '0'.toNat
    else if 'a' ≤ c ∧ c ≤ 'f' then c.toNat - 'a'.toNat + 10
    else if 'A' ≤ c ∧ c ≤ 'F' then c.toNat - 'A'.toNat + 10
    else 16
  if v < base then some v else none

/-- Digits to a number, after the value `v` of those before them. -/
def digits (base v : Nat) : List Char → Option Nat
  | [] => some v
  | c :: cs =>
    match digit base c with
    | some d => digits base (base * v + d) cs
    | none => none

/-- Every `_` stands between two digits, and there is a digit; the flag says whether the last character was one. -/
def separatorsBetween (afterDigit : Bool) : List Char → Bool
  | [] => afterDigit
  | c :: cs => if c == '_' then afterDigit && separatorsBetween false cs else separatorsBetween true cs

/-- Digits with `_` between them, which stands for nothing. DESIGN CHOICE (log 29): R134 does not name the separator, and
the program texts of R135 and of 40_control.md R163 write `0x0000_0000`. -/
def numeral (base : Nat) (cs : List Char) : Option Nat :=
  if separatorsBetween false cs then digits base 0 (cs.filter (· != '_')) else none

/-- "A number is decimal, `0x` hexadecimal or `0b` binary" (R134). -/
def number : List Char → Option Nat
  | '0' :: 'x' :: cs => numeral 16 cs
  | '0' :: 'b' :: cs => numeral 2 cs
  | cs => numeral 10 cs

/-- A byte from a character: its ASCII code (R9). R9 speaks of ASCII only: a character with a code from 0x80 to 0xFF stands
for the byte of its code point, and one above is rejected (DESIGN CHOICE, log 30). -/
def byteOfChar (c : Char) : Option Byte := if c.toNat < 256 then some (BitVec.ofNat 8 c.toNat) else none

/-- The bytes of a string (R9). -/
def bytesOfText (cs : List Char) : Option (List Byte) := cs.mapM byteOfChar

/-- An operand: a number, a character as its byte, or a string. -/
inductive Operand where
  | num (n : Nat)
  | text (bytes : List Byte)
deriving DecidableEq, Repr

/-- One operand. -/
def operand : Token → Option Operand
  | .word cs => (number cs).map Operand.num
  | .char c => (byteOfChar c).map fun b => Operand.num b.toNat
  | .text cs => (bytesOfText cs).map Operand.text
  | .comma => none
  | .colon => none

/-- Operands separated by commas. -/
def operands : List Token → Option (List Operand)
  | [] => some []
  | [t] => (operand t).map ([·])
  | t :: .comma :: ts =>
    match operand t, operands ts with
    | some o, some os => if os = [] then none else some (o :: os)
    | _, _ => none
  | _ :: _ :: _ => none

/-- A number that fits `k` bits, as an operand field (R112). -/
def field (k n : Nat) : Option (BitVec k) := if n < 2 ^ k then some (BitVec.ofNat k n) else none

/-- No operand. -/
def plain {α : Type} (a : α) (os : List Operand) : Option α := if os = [] then some a else none

/-- One number that fits `k` bits. -/
def oneField {α : Type} (k : Nat) (f : BitVec k → α) : List Operand → Option α
  | [.num n] => (field k n).map f
  | _ => none

/-- Two numbers that fit `j` and `k` bits. -/
def twoFields {α : Type} (j k : Nat) (f : BitVec j → BitVec k → α) : List Operand → Option α
  | [.num m, .num n] =>
    match field j m, field k n with
    | some m, some n => some (f m n)
    | _, _ => none
  | _ => none

/-- A number and one that fits `k` bits. -/
def countAndField {α : Type} (k : Nat) (f : Nat → BitVec k → α) : List Operand → Option α
  | [.num m, .num n] => (field k n).map (f m)
  | _ => none

/-- One number. -/
def oneNumber {α : Type} (f : Nat → α) : List Operand → Option α
  | [.num n] => some (f n)
  | _ => none

/-- A number and a string. -/
def numberAndText {α : Type} (f : Nat → List Byte → α) : List Operand → Option α
  | [.num n, .text bs] => some (f n bs)
  | _ => none

/-- A string. -/
def oneText {α : Type} (f : List Byte → α) : List Operand → Option α
  | [.text bs] => some (f bs)
  | _ => none

/-- Mnemonics with their operand forms (R134). -/
abbrev OperandForms (α : Type) := List (String × (List Operand → Option α))

/-- The control commands and the bit engine's, as the mnemonic column of R115 shows them. -/
def bitMnemonics : OperandForms Instr :=
  [("NOP", plain .nop), ("RESET", plain .reset), ("CLRERR", plain .clrerr), ("BIT_INIT", plain .bitInit),
    ("BIT_GET", oneField 5 .bitGet), ("BIT_PUT", twoFields 5 16 .bitPut), ("BIT_GETBYTE", plain .bitGetByte),
    ("BIT_PUTBYTE", oneField 8 .bitPutByte), ("BIT_COUNT", plain .bitCount), ("BIT_FLUSH", plain .bitFlush)]

/-- The window's commands. -/
def winMnemonics : OperandForms Instr :=
  [("WIN_INIT", plain .winInit), ("WIN_RD", oneField 16 .winRd), ("WIN_WR", twoFields 16 8 .winWr),
    ("WIN_INSERT", oneField 16 .winInsert), ("WIN_DELETE", oneField 16 .winDelete),
    ("WIN_FIND", oneField 16 .winFind)]

/-- The Huffman unit's commands. -/
def hufMnemonics : OperandForms Instr :=
  [("HUF_INIT", plain .hufInit), ("HUF_ENC", oneField 16 .hufEnc), ("HUF_DEC", plain .hufDec),
    ("HUF_UPD", oneField 16 .hufUpd), ("HUF_ENCPOS", oneField 16 .hufEncPos), ("HUF_DECPOS", plain .hufDecPos),
    ("HUF_RESCALE", plain .hufRescale), ("HUF_PEEK", oneField 16 .hufPeek)]

/-- The codecs' and the LZW unit's commands. -/
def codecMnemonics : OperandForms Instr :=
  [("LZH_COMPRESS", plain .lzhCompress), ("LZH_EXPAND", plain .lzhExpand), ("LZW_INIT", plain .lzwInit),
    ("LZW_ENCBYTE", oneField 8 .lzwEncByte), ("LZW_ENCEND", plain .lzwEncEnd), ("LZW_DECCODE", plain .lzwDecCode),
    ("LZW_COMPRESS", plain .lzwCompress), ("LZW_EXPAND", plain .lzwExpand)]

/-- The commands' mnemonics and operands (R115, R134). -/
def mnemonics : OperandForms Instr := bitMnemonics ++ winMnemonics ++ hufMnemonics ++ codecMnemonics

/-- The pseudo-instructions' mnemonics and operands (R135). -/
def pseudoMnemonics : OperandForms Pseudo :=
  [("HUF_SYM", oneField 16 .hufSym), ("LZH_LIT", oneField 8 .lzhLit), ("LZH_MATCH", countAndField 16 .lzhMatch),
    ("LZH_EOS", plain .lzhEos), ("BIT_PUTW", countAndField 32 .bitPutW), ("BIT_GETW", oneNumber .bitGetW),
    ("WIN_STR", numberAndText .winStr), ("LZW_ENCSTR", oneText .lzwEncStr)]

/-- The commands of a line: one for a mnemonic of R115, its expansion for a pseudo-instruction of R135. -/
def commandsOf (mnemonic : String) (os : List Operand) : Option (List Instr) :=
  match mnemonics.lookup mnemonic with
  | some f => (f os).map ([·])
  | none =>
    match pseudoMnemonics.lookup mnemonic with
    | some f => (f os).bind Pseudo.expand
    | none => none

/-- The registers' names (R32). -/
def registerNames : List (String × Nat) :=
  [("CMD", 0x00), ("STATUS", 0x04), ("RES0", 0x08), ("RES1", 0x0C), ("OPT", 0x10), ("GEOM", 0x14), ("IN_LEN", 0x18),
    ("IN_OFFSET", 0x1C), ("OUT_OFFSET", 0x20), ("MAX_EXPANDED", 0x24), ("OUT_LEN", 0x28), ("RD_POS_LO", 0x2C),
    ("RD_POS_HI", 0x30), ("LZW_NEXT", 0x34), ("R_POS", 0x38), ("IN_CAP_R", 0x3C), ("OUT_CAP_R", 0x40)]

/-- The offset of a named register (R32). -/
def regOffset (name : List Char) : Option Nat := registerNames.lookup (String.ofList name)

/-- A byte of an `in` line. "Bytes are hexadecimal" (95_test_vectors.md "Conventions"): a word is hexadecimal digits, so
that `0b1` is 0xB1. A prefix `0x` and a character in single quotes, which R134 gives for numbers and bytes, are read too
(DESIGN CHOICE, log 31). -/
def lineByte : Token → Option Byte
  | .word ('0' :: 'x' :: c :: cs) => (digits 16 0 (c :: cs)).bind (field 8)
  | .word cs => (digits 16 0 cs).bind (field 8)
  | .char c => byteOfChar c
  | .text _ => none
  | .comma => none
  | .colon => none

/-- Host writes of bytes to the IN memory from address `a` on. -/
def byteWrites (p : Params) (a : Nat) : List Byte → List HostEvent
  | [] => []
  | b :: bs => .write (p.inBase + a) 1 (b.setWidth 32) :: byteWrites p (a + 1) bs

/-- `.word w`: a raw command word (R134). -/
def rawWord (p : Params) : List Token → Option (List HostEvent)
  | [.word w] => ((number w).bind (field 32)).map fun w => [commandWrite p w]
  | _ => none

/-- `wr REG, v`: a register write (R134). -/
def registerWrite (p : Params) : List Token → Option (List HostEvent)
  | [.word r, .comma, .word v] =>
    match regOffset r, (number v).bind (field 32) with
    | some off, some v => some [.write (p.regBase + off) 4 v]
    | _, _ => none
  | _ => none

/-- `rd REG`: a register read (R134). -/
def registerRead (p : Params) : List Token → Option (List HostEvent)
  | [.word r] => (regOffset r).map fun off => [.read (p.regBase + off) 4]
  | _ => none

/-- `in a: b0 b1 …`: host writes of bytes to the IN memory from address `a` (R134). -/
def memoryWrite (p : Params) : List Token → Option (List HostEvent)
  | .word a :: .colon :: bytes =>
    match number a, bytes.mapM lineByte with
    | some a, some bs => some (byteWrites p a bs)
    | _, _ => none
  | _ => none

/-- A mnemonic with its operands: writes of the command words to `CMD`. -/
def commandWrites (p : Params) (mnemonic : String) (ts : List Token) : Option (List HostEvent) :=
  ((operands ts).bind (commandsOf mnemonic)).map fun is => is.map fun i => commandWrite p (encode i)

/-- The host accesses of a line's words (R134). -/
def accesses (p : Params) : List Token → Option (List HostEvent)
  | [] => some []
  | .word m :: rest =>
    if m = ".word".toList then rawWord p rest
    else if m = "wr".toList then registerWrite p rest
    else if m = "rd".toList then registerRead p rest
    else if m = "in".toList then memoryWrite p rest
    else commandWrites p (String.ofList m) rest
  | _ :: _ => none

/-- A line of a program (R134) to the host accesses it stands for; `none` for a line that is not in the syntax. -/
def assembleLine (p : Params) (line : List Char) : Option (List HostEvent) :=
  match lex line.length line with
  | some ts => accesses p ts
  | none => none

/-- A program's lines to the host's accesses, in program order (R90, R134). -/
def assemble (p : Params) : List (List Char) → Option (List HostEvent)
  | [] => some []
  | l :: ls =>
    match assembleLine p l, assemble p ls with
    | some es, some es' => some (es ++ es')
    | _, _ => none

end Sys2Proof.Machine
end

