-- ==== Sys2Proof/Tests/Slice0.lean ====
section
/-! SUPPORT. Tests of the model: the checks of WellFormed, words written out from the encodings of 30_encoding.md, steps
whose results 95_test_vectors.md gives (named V-*), and for each statement with hypotheses a state that meets them. -/

namespace Sys2Proof.Tests

open Sys2Proof.Machine

-- One theorem after another: each waiting thread reserves a stack, and many of them exhaust the memory limit.
set_option Elab.async false

/-! ### Small states -/

/-- Whether an answer is a next state with a property. -/
def nextIs (a : Answer) (p : State → Bool) : Bool :=
  match a with
  | .next t => p t
  | .fault _ => false
  | .refused _ => false

theorem exists_next {a : Answer} {p : State → Bool} (h : nextIs a p = true) : ∃ t, a = .next t ∧ p t = true := by
  cases a with
  | next t => exact ⟨t, rfl, h⟩
  | fault f => cases h
  | refused r => cases h

/-- The reset state with input bytes. -/
def withInput (bytes : List Byte) : State :=
  { State.reset with
    inp := { mem := bytes.zipIdx.map fun c => (c.2, c.1), len := BitVec.ofNat 32 bytes.length, powerOns := 0 } }

/-- The reset state with an error. -/
def inError (e : Byte) : State := { State.reset with err := e }

/-- The reset state with the reader at bit `pos` of some input. -/
def readingAt (bytes : List Byte) (pos : Nat) : State := { withInput bytes with rd := { pos := pos, ovr := false } }

/-- The reset state with bits waiting in `ACC`. -/
def waiting (acc : Byte) (n : Fin 8) : State :=
  { State.reset with out := { State.reset.out with acc := acc, accN := n } }

/-- The reset state with a full OUT memory of no bytes, and seven bits waiting. -/
def fullOutput : State :=
  { State.reset with
    params := { Params.standard with outCap := 1 }
    out := { mem := [(0, 0xAA)], len := 1, acc := 0x2A, accN := 7, epoch := 0 } }

/-- A window with a text at a position. -/
def textAt (w : Window) : Nat → List Byte → Window
  | _, [] => w
  | p, b :: bs => textAt { w with win := w.win.set (Fin.ofNat 4096 p) b } (p + 1) bs

/-- A window with an empty index and a text. -/
def text (p : Nat) (bytes : List Byte) : Window := textAt (.initial 0x20) p bytes

/-- The window with one position put into its empty index. -/
def one (w : Window) (p : Pos) : Window :=
  { w with
    dad := w.dad.set p (some (.rootn (w.win.get p)))
    root := w.root.set (w.win.get p).toFin (some p) }

/-- The reset state with a window. -/
def withWindow (w : Window) : State := { State.reset with win := w }

/-- The reset state with an LZW unit whose entry 258 is `AB`. -/
def withEntry : State :=
  { State.reset with
    lzw := { Lzw.initial with
      dictP := Lzw.initial.dictP.set 0 65, dictC := Lzw.initial.dictC.set 0 0x42, next := 259, pfx := some 65 } }

/-- The reset state with a host access pending. -/
def pending (e : HostEvent) : State := { State.reset with host := [e] }

/-! ### WellFormed (R113): an ill-formed term for each check, and the last well-formed one -/

theorem test_bitGet_range : (Instr.bitGet 17).wellFormed = false ∧ (Instr.bitGet 16).wellFormed = true := by decide
theorem test_bitPut_range : (Instr.bitPut 17 0).wellFormed = false ∧ (Instr.bitPut 16 0xFFFF).wellFormed = true := by decide
theorem test_winRd_range : (Instr.winRd 4096).wellFormed = false ∧ (Instr.winRd 4095).wellFormed = true := by decide
theorem test_winWr_range : (Instr.winWr 4096 0).wellFormed = false ∧ (Instr.winWr 4095 255).wellFormed = true := by decide
theorem test_winInsert_range : (Instr.winInsert 4096).wellFormed = false ∧ (Instr.winInsert 4095).wellFormed = true := by
  decide
theorem test_winDelete_range : (Instr.winDelete 4096).wellFormed = false ∧ (Instr.winDelete 4095).wellFormed = true := by
  decide
theorem test_winFind_range : (Instr.winFind 4096).wellFormed = false ∧ (Instr.winFind 4095).wellFormed = true := by decide
theorem test_hufEnc_range : (Instr.hufEnc 315).wellFormed = false ∧ (Instr.hufEnc 314).wellFormed = true := by decide
theorem test_hufUpd_range : (Instr.hufUpd 315).wellFormed = false ∧ (Instr.hufUpd 314).wellFormed = true := by decide
theorem test_hufEncPos_range : (Instr.hufEncPos 4096).wellFormed = false ∧ (Instr.hufEncPos 4095).wellFormed = true := by
  decide
theorem test_hufPeek_range : (Instr.hufPeek 629).wellFormed = false ∧ (Instr.hufPeek 628).wellFormed = true := by decide

/-! ### Decoding: words put together from the fields of R110 to R112 and the opcodes of R115, for every constructor -/

theorem test_decode_control :
    decode (0x00#8 ++ 0xABCDEF#24) = .ok .nop ∧
    decode (0x01#8 ++ 0#24) = .ok .reset ∧
    decode (0x02#8 ++ 0#24) = .ok .clrerr := by decide

theorem test_decode_bits :
    decode (0x10#8 ++ 0#24) = .ok .bitInit ∧
    decode (0x11#8 ++ 0b000#3 ++ 0b01100#5 ++ 0#16) = .ok (.bitGet 12) ∧
    decode (0x12#8 ++ 0b000#3 ++ 0b10000#5 ++ 0xBEEF#16) = .ok (.bitPut 16 0xBEEF) ∧
    decode (0x13#8 ++ 0#24) = .ok .bitGetByte ∧
    decode (0x14#8 ++ 0#16 ++ 0b11000011#8) = .ok (.bitPutByte 0xC3) ∧
    decode (0x15#8 ++ 0#24) = .ok .bitCount ∧
    decode (0x16#8 ++ 0#24) = .ok .bitFlush := by decide

theorem test_decode_window :
    decode (0x20#8 ++ 0#24) = .ok .winInit ∧
    decode (0x21#8 ++ 0#8 ++ 0x0FFF#16) = .ok (.winRd 4095) ∧
    decode (0x22#8 ++ 0x61#8 ++ 0x0003#16) = .ok (.winWr 3 0x61) ∧
    decode (0x23#8 ++ 0#8 ++ 0x012C#16) = .ok (.winInsert 300) ∧
    decode (0x24#8 ++ 0#8 ++ 0x0800#16) = .ok (.winDelete 2048) ∧
    decode (0x25#8 ++ 0#8 ++ 0x0007#16) = .ok (.winFind 7) := by decide

theorem test_decode_huffman :
    decode (0x30#8 ++ 0#24) = .ok .hufInit ∧
    decode (0x31#8 ++ 0#8 ++ 0x013A#16) = .ok (.hufEnc 314) ∧
    decode (0x32#8 ++ 0#24) = .ok .hufDec ∧
    decode (0x33#8 ++ 0#8 ++ 0x0041#16) = .ok (.hufUpd 65) ∧
    decode (0x34#8 ++ 0#8 ++ 0x03E8#16) = .ok (.hufEncPos 1000) ∧
    decode (0x35#8 ++ 0#24) = .ok .hufDecPos ∧
    decode (0x36#8 ++ 0#24) = .ok .hufRescale ∧
    decode (0x37#8 ++ 0#8 ++ 0x0274#16) = .ok (.hufPeek 628) := by decide

theorem test_decode_codecs :
    decode (0x40#8 ++ 0#24) = .ok .lzhCompress ∧
    decode (0x41#8 ++ 0#24) = .ok .lzhExpand ∧
    decode (0x50#8 ++ 0#24) = .ok .lzwInit ∧
    decode (0x51#8 ++ 0#16 ++ 0x42#8) = .ok (.lzwEncByte 0x42) ∧
    decode (0x52#8 ++ 0#24) = .ok .lzwEncEnd ∧
    decode (0x53#8 ++ 0#24) = .ok .lzwDecCode ∧
    decode (0x54#8 ++ 0#24) = .ok .lzwCompress ∧
    decode (0x55#8 ++ 0#24) = .ok .lzwExpand := by decide

/-- V-CT-2, V-CT-6 to V-CT-11, V-BI-12, V-BI-13: illegal words, with the check of R386 each fails. -/
theorem test_decode_illegal :
    decode 0x03000000 = .error .opcode ∧ decode 0xF0000000 = .error .opcode ∧
    decode 0x10010000 = .error .format ∧ decode 0x01000001 = .error .format ∧ decode 0x11000001 = .error .format ∧
    decode 0x11200000 = .error .format ∧ decode 0x14000100 = .error .format ∧ decode 0x21010000 = .error .format ∧
    decode 0x21001000 = .error .range ∧ decode 0x3100013B = .error .range ∧ decode 0x37000275 = .error .range ∧
    decode 0x12110000 = .error .range := by decide

/-- The fetch of a table word: `BIT_GET 4`. -/
theorem test_table_word : decodeTableWord 32 0x11040000 = some (.bitGet 4) := by decide

/-! ### Steps: control -/

/-- V-CT-12: `RESET` leaves the error state and keeps the IN bytes. -/
theorem test_reset :
    nextIs (step ({ withInput [0x41] with err := 5, opt := 0 }.withFetchWord 32 0x01000000))
      (fun t => t.err == 0 && t.opt == 0x2003 && t.inp.len == 0 && t.inp.byte 0 == 0x41) = true := by decide +kernel

/-- V-CT-5, V-CT-4: `CLRERR`, and `CLRERR` with a non-zero field, which keeps the first error. -/
theorem test_clrerr :
    nextIs (step ((inError 8).withFetchWord 32 0x02000000)) (fun t => t.err == 0) = true ∧
    nextIs (step ((inError 5).withFetchWord 32 0x02000001)) (fun t => t.err == 5) = true := by decide +kernel

/-- V-CT-1, V-CT-3: `NOP` in the error state; another command is ignored there. -/
theorem test_error_state :
    nextIs (step ((inError 8).withFetchWord 32 0x00ABCDEF)) (fun t => t.err == 8) = true ∧
    nextIs (step ({ inError 8 with inOffset := 1 }.withFetchWord 32 0x10000000)) (fun t => t.rd.pos == 0) = true := by
  decide +kernel

/-! ### Steps: the bit engine -/

/-- V-BI-1 with another offset: `BIT_INIT` starts at bit `8·IN_OFFSET`. -/
theorem test_bitInit :
    nextIs (exec .bitInit { waiting 5 3 with inOffset := 3 })
      (fun t => t.rd.pos == 24 && t.out.len == 0 && t.out.accN == 0 && t.out.acc == 0) = true := by decide +kernel

/-- V-BI-3 and V-BI-4. -/
theorem test_bitGet :
    nextIs (exec (.bitGet 12) (readingAt [0xA5, 0xF0] 4))
      (fun t => t.res0 == 0x5F0 && t.rd == { pos := 16, ovr := false }) = true ∧
    nextIs (exec (.bitGet 4) (readingAt [0xA5, 0xF0] 16)) (fun t => t.res0 == 0 && t.rd == { pos := 20, ovr := true }) = true
    := by decide +kernel

/-- V-BI-6. -/
theorem test_bitGetByte :
    nextIs (exec .bitGetByte (readingAt [0xA5, 0xF0] 4)) (fun t => t.res0 == 0x5F && t.rd.pos == 12) = true := by
  decide +kernel

/-- V-BI-7: the second `BIT_PUT`. -/
theorem test_bitPut :
    nextIs (exec (.bitPut 7 0x55) (waiting 0b101 3))
      (fun t => t.out.mem == [(0, 0xB5)] && t.out.len == 1 && t.out.acc == 0b01 && t.out.accN == 2) = true := by
  decide +kernel

/-- V-BI-15: the second byte does not fit. -/
theorem test_bitPut_full :
    nextIs (exec (.bitPut 16 0xABCD) { State.reset with params := { Params.standard with outCap := 1 } })
      (fun t => t.err == 5 && t.out.len == 0 && t.out.accN == 0) = true := by decide +kernel

/-- V-BI-8. -/
theorem test_bitFlush :
    nextIs (exec .bitFlush (waiting 0b01 2)) (fun t => t.out.mem == [(0, 0x40)] && t.out.len == 1 && t.out.accN == 0) = true
    := by decide +kernel

/-- V-BI-10, on an unaligned stream (D20): 3 waiting bits, the first byte has 5 of the new ones. -/
theorem test_bitPutByte :
    nextIs (exec (.bitPutByte 0xC3) (waiting 0b101 3))
      (fun t => t.out.mem == [(0, 0xB8)] && t.out.acc == 0b011 && t.out.accN == 3) = true := by decide +kernel

/-- R189: the two halves of `RD_POS`. -/
theorem test_bitCount :
    nextIs (exec .bitCount (readingAt [] (2 ^ 32 + 20))) (fun t => t.res0 == 20 && t.res1 == 1) = true := by decide +kernel

/-! ### Steps: the window -/

theorem test_winInit :
    nextIs (exec .winInit { withWindow (one (text 0 [0x61]) 0) with opt := 0x5500 })
      (fun t => t.win.win.get 0 == 0x55 && t.win.win.get 4095 == 0x55 && t.win.indexed 0 == false) = true := by
  decide +kernel

/-- V-WI-5. -/
theorem test_winRd :
    nextIs (exec (.winRd 7) (withWindow (text 0 [0x61, 0x62, 0x63, 0x61, 0x62, 0x63, 0x61, 0x62])))
      (fun t => t.res0 == 0x62) = true := by decide +kernel

/-- P3. -/
theorem test_winWr :
    nextIs (exec (.winWr 3 0x61) State.reset) (fun t => t.win.win.get 3 == 0x61 && t.win.win.get 2 == 0x20) = true := by
  decide +kernel

/-- V-WI-1: `WIN_INSERT 3`, which becomes the left child of position 0. -/
theorem test_winInsert :
    nextIs (exec (.winInsert 3) (withWindow (one (text 0 [0x61, 0x62, 0x63, 0x61, 0x62, 0x63, 0x61, 0x62]) 0)))
      (fun t => t.res0 == 5 && t.res1 == 2 && t.win.lson.get 0 == some 3 && t.win.dad.get 3 == some (.pos 0)) = true := by
  decide +kernel

/-- V-WI-2: a full key takes the place of the position it matches. -/
theorem test_winInsert_full :
    nextIs (exec (.winInsert 200) (withWindow (one (.initial 0x20) 100)))
      (fun t => t.res0 == 60 && t.res1 == 99 && t.win.dad.get 100 == none && t.win.root.get 0x20 == some 200) = true := by
  decide +kernel

/-- V-WI-2: `WIN_FIND 300`. -/
theorem test_winFind :
    nextIs (exec (.winFind 300) (withWindow (one (.initial 0x20) 200)))
      (fun t => t.res0 == 60 && t.res1 == 99 && t.win.indexed 300 == false) = true := by decide +kernel

/-- The links of V-WI-4. -/
def sevenNodes : Window :=
  let w := Window.initial 0x20
  let w := { w with root := w.root.set 0x6B (some 0), dad := w.dad.set 0 (some (.rootn 0x6B)) }
  let w := { w with lson := ((w.lson.set 0 (some 100)).set 100 (some 300)).set 200 (some 500) }
  let w := { w with rson := ((w.rson.set 0 (some 200)).set 100 (some 400)).set 200 (some 600) }
  { w with
    dad := (((((w.dad.set 100 (some (.pos 0))).set 200 (some (.pos 0))).set 300 (some (.pos 100))).set 400
      (some (.pos 100))).set 500 (some (.pos 200))).set 600 (some (.pos 200)) }

/-- V-WI-4, `DEL_MODE = SUCC`. -/
theorem test_winDelete_succ :
    nextIs (exec (.winDelete 0) (withWindow sevenNodes))
      (fun t => t.win.root.get 0x6B == some 500 && t.win.dad.get 100 == some (.pos 500) &&
        t.win.dad.get 200 == some (.pos 500) && t.win.lson.get 200 == none && t.win.lson.get 500 == some 100 &&
        t.win.rson.get 500 == some 200 && t.win.dad.get 0 == none) = true := by decide +kernel

/-- V-WI-4, `DEL_MODE = PRED`. -/
theorem test_winDelete_pred :
    nextIs (exec (.winDelete 0) { withWindow sevenNodes with params := { Params.standard with delMode := .pred } })
      (fun t => t.win.root.get 0x6B == some 400 && t.win.dad.get 100 == some (.pos 400) &&
        t.win.dad.get 200 == some (.pos 400) && t.win.rson.get 100 == none && t.win.lson.get 400 == some 100 &&
        t.win.rson.get 400 == some 200 && t.win.dad.get 0 == none) = true := by decide +kernel

/-! ### Steps: the Huffman tree and the distance code -/

/-- V-HU-1. -/
theorem test_hufInit :
    nextIs (exec .hufInit State.reset)
      (fun t => t.huf.freq.get 626 == 128 && t.huf.freq.get 627 == 187 && (t.huf.son.get 627).toNat == 624 &&
        (t.huf.son.get 472).toNat == 314 && t.huf.parent.get 314 == 472 && t.huf.parent.get 315 == 472) = true := by
  decide +kernel

/-- V-HU-7: the codeword `111001011`. -/
theorem test_hufEnc :
    nextIs (exec (.hufEnc 65) State.reset) (fun t => t.out.mem == [(0, 0xE5)] && t.out.acc == 1 && t.out.accN == 1) = true
    := by decide +kernel

/-- P2, decoding. -/
theorem test_hufDec :
    nextIs (exec .hufDec (withInput [0xE5, 0xE2])) (fun t => t.res0 == 65 && t.rd == { pos := 9, ovr := false }) = true := by
  decide +kernel

/-- V-HU-3. -/
theorem test_hufUpd :
    nextIs (exec (.hufUpd 65) State.reset)
      (fun t => t.huf.leaf.get 65 == 314 && t.huf.freq.get 314 == 2 && t.huf.leaf.get 314 == 65 &&
        t.huf.freq.get 628 == 316) = true := by decide +kernel

/-- V-HU-2. -/
theorem test_hufPeek :
    nextIs (exec (.hufPeek 628) State.reset) (fun t => t.res0 == 315 && t.res1 == 626) = true ∧
    nextIs (exec (.hufPeek 0) State.reset) (fun t => t.res0 == 1 && t.res1 == 629) = true := by decide +kernel

/-- §2.4, `d = 1000`: `100111 101000`. -/
theorem test_hufEncPos :
    nextIs (exec (.hufEncPos 1000) State.reset)
      (fun t => t.out.mem == [(0, 0x9E)] && t.out.acc == 0b1000 && t.out.accN == 4) = true := by decide +kernel

/-- §2.4: the row `d = 4095`, and exhausted input. -/
theorem test_hufDecPos :
    nextIs (exec .hufDecPos (withInput [0xFF, 0xFC])) (fun t => t.res0 == 4095 && t.rd.pos == 14 && !t.rd.ovr) = true ∧
    nextIs (exec .hufDecPos State.reset) (fun t => t.res0 == 0 && t.rd == { pos := 9, ovr := true }) = true := by
  decide +kernel

/-! ### Assembler text -/

/-- The example of R163 and the expansion of `NOP` in R135, with the separator of log 29. -/
theorem test_assembler_separator :
    assemble Params.standard ["wr OPT, 0x0000_0000".toList, ".word 0x0000_0000 ; NOP".toList] =
      some [.write 0x10 4 0, commandWrite Params.standard 0] ∧
    assembleLine Params.standard "BIT_GET 1_".toList = none := by decide +kernel

/-- The bytes of an `in` line in hexadecimal (95_test_vectors.md "Conventions") and in the forms of log 31. -/
theorem test_assembler_bytes :
    assembleLine Params.standard "in 2: C4 0b1 0x41 'a'".toList =
      some [.write 0x100002 1 0xC4, .write 0x100003 1 0xB1, .write 0x100004 1 0x41, .write 0x100005 1 0x61] := by
  decide +kernel

/-! ### Steps: the codecs -/

/-- V-LZ-26. -/
theorem test_lzhCompress_offset :
    nextIs (exec .lzhCompress { withInput [0x61, 0x62] with inOffset := 3 }) (fun t => t.err == 6) = true := by
  decide +kernel

/-- V-LZ-1. -/
theorem test_lzhCompress :
    nextIs (exec .lzhCompress State.reset)
      (fun t => t.err == 0 && t.out.mem == [(0, 0), (1, 0), (2, 0), (3, 0), (4, 0xC4)] && t.out.len == 5 && t.r == 4036) =
      true := by decide +kernel

/-- V-LZ-4: one trailing byte in `None` mode. -/
theorem test_lzhExpand :
    nextIs (exec .lzhExpand { withInput [0xF5, 0x80] with opt := 0x2002 })
      (fun t => t.err == 0 && t.out.mem == [(0, 0x61), (1, 0x76)] && t.rd.ovr && t.r == 4038 && t.res1 == 2) = true := by
  decide +kernel

/-- V-LZ-22: the header's size passes `MAX_EXPANDED`. -/
theorem test_lzhExpand_cap :
    nextIs (exec .lzhExpand { withInput [0x0C, 0, 0, 0, 0xF5] with maxExpanded := 11 })
      (fun t => t.err == 5 && t.rd.pos == 32) = true := by decide +kernel

theorem test_lzwInit :
    nextIs (exec .lzwInit withEntry)
      (fun t => t.lzw.next == 258 && t.lzw.pfx == none && t.lzw.prefixOf 258 == 65) = true := by decide +kernel

/-- P4: the second byte writes `CLEAR` and 65 and adds `AB`. -/
theorem test_lzwEncByte :
    nextIs (exec (.lzwEncByte 0x42) { State.reset with lzw := { Lzw.initial with pfx := some 65 } })
      (fun t => t.out.mem == [(0, 0x10), (1, 0x00), (2, 0x41)] && t.lzw.next == 259 && t.lzw.prefixOf 258 == 65 &&
        t.lzw.lastByte 258 == 0x42 && t.lzw.pfx == some 0x42 && t.lzw.started) = true := by decide +kernel

/-- R346: a byte that extends the prefix to an entry. -/
theorem test_lzwEncByte_known :
    nextIs (exec (.lzwEncByte 0x42) withEntry) (fun t => t.out.len == 0 && t.lzw.pfx == some 258) = true := by decide +kernel

/-- V-LW-3, the end: 65, `STOP` and the padding after `CLEAR`. -/
theorem test_lzwEncEnd :
    nextIs (exec .lzwEncEnd { State.reset with lzw := { Lzw.initial with pfx := some 65 } })
      (fun t => t.out.mem == [(0, 0x10), (1, 0x00), (2, 0x41), (3, 0x10), (4, 0x10)] && t.lzw.pfx == none) = true := by
  decide +kernel

/-- V-LW-11: the code to be assigned next, after 65. -/
theorem test_lzwDecCode :
    nextIs (exec .lzwDecCode { readingAt [0x04, 0x11, 0x02] 12 with lzw := { Lzw.initial with prev := some 65 } })
      (fun t => t.out.mem == [(0, 0x41), (1, 0x41)] && t.res0 == 2 && t.lzw.next == 259 && t.lzw.prev == some 258 &&
        t.lzw.prefixOf 258 == 65 && t.lzw.lastByte 258 == 0x41) = true := by decide +kernel

/-- V-LW-8: an unknown code. -/
theorem test_lzwDecCode_invalid :
    nextIs (exec .lzwDecCode (withInput [0x12, 0xC0])) (fun t => t.err == 4 && t.rd.pos == 12) = true := by decide +kernel

/-- V-LW-6. -/
theorem test_lzwCompress :
    nextIs (exec .lzwCompress (withInput [0x61, 0x61, 0x61, 0x61, 0x61, 0x61, 0x61]))
      (fun t => t.err == 0 && t.out.len == 9 && t.res0 == 7 && t.out.mem ==
        [(0, 0x10), (1, 0x00), (2, 0x61), (3, 0x10), (4, 0x21), (5, 0x03), (6, 0x06), (7, 0x11), (8, 0x01)]) = true := by
  decide +kernel

/-- V-LW-4, expanding. -/
theorem test_lzwExpand :
    nextIs (exec .lzwExpand (withInput [0x10, 0x00, 0x41, 0x04, 0x21, 0x02, 0x10, 0x41, 0x01]))
      (fun t => t.err == 0 && t.res0 == 9 && t.lzw.next == 261 && t.lzw.done && t.out.mem ==
        [(0, 0x41), (1, 0x42), (2, 0x41), (3, 0x42), (4, 0x41), (5, 0x42), (6, 0x41)]) = true := by decide +kernel

/-! ### The host's side -/

/-- R84, R88: a 32-bit write of the IN memory, byte 1 of it, and a read of `GEOM` (R37). -/
theorem test_host :
    nextIs (step (pending (.write 0x100005 4 0x11223344))) (fun t => t.inp.byte 5 == 0x44 && t.inp.byte 6 == 0x33) = true ∧
    nextIs (step (pending (.read 0x14 4))) (fun t => t.hostData == some 0x0C023C0C) = true ∧
    nextIs (step (pending (.write 0x18 4 0xFFFFFFFF))) (fun t => t.inp.len == 0x100000) = true := by decide +kernel

/-! ### Witnesses: states and operands that meet the hypotheses of the statements -/

theorem witness_DecodeOfEncodeIsSame :
    (Instr.bitPut 16 0xFFFF).wellFormed = true ∧ (Instr.winWr 4095 255).wellFormed = true ∧
    (Instr.hufPeek 628).wellFormed = true ∧ (Instr.hufEnc 314).wellFormed = true := by decide

theorem witness_EncodeOfDecodeIsSame :
    ∃ (w : Word) (i : Instr), decode w = .ok i ∧ opcodeOf w ≠ 0 := ⟨0x37000274, .hufPeek 628, by decide, by decide⟩

theorem witness_StepRunsDecodedCommand :
    (∃ (s : State) (w : Word) (rest : List HostEvent) (i : Instr),
      s.host = commandWrite s.params w :: rest ∧ decode w = .ok i) ∧
    ∃ (s : State) (w : Word) (rest : List HostEvent) (e : Illegal),
      s.host = commandWrite s.params w :: rest ∧ decode w = .error e :=
  ⟨⟨pending (commandWrite Params.standard 0x11040000), 0x11040000, [], .bitGet 4, rfl, by decide⟩,
    ⟨pending (commandWrite Params.standard 0x11110000), 0x11110000, [], .range, rfl, by decide⟩⟩

/-- One illegal word for each reason of R116. -/
theorem witness_IllegalWordEntersError :
    ∃ s : State, s.err = 0 ∧ ¬ legalWord 0x03000000#32 ∧ ¬ legalWord 0x10010000#32 ∧ ¬ legalWord 0x11110000#32 :=
  ⟨State.reset, rfl, by decide, by decide, by decide⟩

theorem witness_ErrorStateIgnoresCommands :
    (∃ s t : State, s.err ≠ 0 ∧ step s = .next t ∧ t.err ≠ s.err ∧ s.host = [.powerOn]) ∧
    (∃ s t : State, s.err ≠ 0 ∧ step s = .next t ∧ t.err ≠ s.err ∧ s.host = [commandWrite s.params 0x02000000]) ∧
    ∃ w : Word, opcodeOf w ≠ 0 ∧ opcodeOf w ≠ 1 ∧ opcodeOf w ≠ 2 :=
  ⟨⟨{ inError 8 with host := [.powerOn] }, resetBlock .power (inError 8), by decide, rfl, by decide, rfl⟩,
    ⟨{ inError 8 with host := [commandWrite Params.standard 0x02000000] }, clearError (inError 8), by decide, rfl,
      by decide, rfl⟩,
    0x03000000, by decide⟩

theorem witness_NopChangesNothing : ∃ w : Word, opcodeOf w = 0 ∧ w ≠ 0 := ⟨0x00ABCDEF, by decide⟩

theorem witness_ClrerrClearsOnlyErr :
    ∃ (s s' : State) (w w' : Word), s.err = 0 ∧ s'.err ≠ 0 ∧ opcodeOf w = 1 ∧ opcodeOf w' = 2 ∧
      w.extractLsb' 0 24 ≠ 0 ∧ w'.extractLsb' 0 24 ≠ 0 :=
  ⟨State.reset, inError 255, 0x01000001, 0x02800000, by decide⟩

theorem witness_ResetGivesResetValues : ∃ (s : State) (rest : List HostEvent), s.host = .powerOn :: rest := ⟨pending .powerOn, [], rfl⟩

theorem witness_ErrorDiscardsOutput : ∃ (i : Instr) (s t : State), s.err = 0 ∧ exec i s = .next t ∧ t.err ≠ 0 :=
  ⟨.hufEnc 315, State.reset, errorEntry .illegalCommand State.reset, rfl, rfl, by decide⟩

theorem witness_ErrorsEachCommandRaises : ∃ (i : Instr) (s t : State), s.err = 0 ∧ exec i s = .next t ∧ t.err ≠ 0 :=
  witness_ErrorDiscardsOutput

theorem witness_FrameHostSide : ∃ (i : Instr) (s t : State), i ≠ .reset ∧ exec i s = .next t :=
  ⟨.clrerr, State.reset, clearError State.reset, by decide, rfl⟩

theorem witness_FrameReadingCommands :
    ∃ s : State, s.err = 0 ∧ (∃ t, exec (.bitGet 16) s = .next t) ∧ (∃ t, exec .bitGetByte s = .next t) ∧
      (∃ t, exec .bitCount s = .next t) ∧ (∃ t, exec .hufDec s = .next t) ∧ (∃ t, exec .hufDecPos s = .next t) ∧
      (∃ t, exec (.winRd 4095) s = .next t) ∧ ∃ t, exec (.hufPeek 628) s = .next t :=
  have k {a : Answer} (h : nextIs a (fun t => t.err == 0) = true) : ∃ t, a = .next t :=
    (exists_next h).imp fun _ h => h.1
  ⟨withInput [0xA5, 0xF0], rfl, k (by decide +kernel), k (by decide +kernel), k (by decide +kernel), k (by decide +kernel),
    k (by decide +kernel), k (by decide +kernel), k (by decide +kernel)⟩

theorem witness_FrameWritingCommands :
    ∃ s : State, s.err = 0 ∧ s.out.len ≤ s.params.outCap ∧ (∃ t, exec (.bitPut 16 5) s = .next t ∧ t.err = s.err) ∧
      (∃ t, exec (.bitPutByte 5) s = .next t ∧ t.err = s.err) ∧ (∃ t, exec .bitFlush s = .next t ∧ t.err = s.err) ∧
      (∃ t, exec (.hufEnc 314) s = .next t ∧ t.err = s.err) ∧ (∃ t, exec (.hufEncPos 4095) s = .next t ∧ t.err = s.err) ∧
      (∃ t, exec (.lzwEncByte 5) s = .next t ∧ t.err = s.err) ∧ ∃ t, exec .lzwEncEnd s = .next t ∧ t.err = s.err :=
  have k {a : Answer} (h : nextIs a (fun t => t.err == 0) = true) : ∃ t, a = .next t ∧ t.err = 0 :=
    (exists_next h).imp fun _ h => ⟨h.1, eq_of_beq h.2⟩
  ⟨waiting 5 3, rfl, by decide, k (by decide +kernel), k (by decide +kernel), k (by decide +kernel), k (by decide +kernel),
    k (by decide +kernel), k (by decide +kernel), k (by decide +kernel)⟩

theorem witness_FrameWindowCommands :
    ∃ s : State, s.err = 0 ∧ (∃ t, exec .winInit s = .next t) ∧ (∃ t, exec (.winWr 4095 5) s = .next t) ∧
      (∃ t, exec (.winInsert 4095) s = .next t) ∧ (∃ t, exec (.winDelete 4095) s = .next t) ∧
      ∃ t, exec (.winFind 4095) s = .next t :=
  have k {a : Answer} (h : nextIs a (fun t => t.err == 0) = true) : ∃ t, a = .next t :=
    (exists_next h).imp fun _ h => h.1
  ⟨State.reset, rfl, k (by decide +kernel), k (by decide +kernel), k (by decide +kernel), k (by decide +kernel),
    k (by decide +kernel)⟩

theorem witness_FrameTreeAndTableCommands :
    ∃ s : State, s.err = 0 ∧ s.out.len ≤ s.params.outCap ∧ (∃ t, exec .hufInit s = .next t) ∧
      (∃ t, exec (.hufUpd 314) s = .next t) ∧ (∃ t, exec .hufRescale s = .next t) ∧ (∃ t, exec .lzwInit s = .next t) ∧
      (∃ t, exec .lzwDecCode s = .next t) ∧ (∃ t, exec .lzhExpand s = .next t) ∧ (∃ t, exec .lzwCompress s = .next t) ∧
      ∃ t, exec .lzwExpand s = .next t :=
  have k {a : Answer} (h : nextIs a (fun t => t.err == 0) = true) : ∃ t, a = .next t :=
    (exists_next h).imp fun _ h => h.1
  ⟨{ withInput [0x06, 0x11, 0x01] with opt := 0x2002 }, rfl, by decide, k (by decide +kernel),
    k (a := exec (.hufUpd 314) _) (by decide +kernel), ⟨_, rfl⟩,
    k (by decide +kernel), k (by decide +kernel), k (by decide +kernel), k (by decide +kernel), k (by decide +kernel)⟩

theorem witness_BitGetReadsNextBits :
    ∃ (s : State) (n m : BitVec 5), s.err = 0 ∧ n.toNat ≤ 16 ∧ n.toNat = 16 ∧ m.toNat = 17 :=
  ⟨State.reset, 16, 17, rfl, by decide⟩

/-- The last bit that fits: one byte of room, seven bits waiting. -/
theorem witness_BitPutAppendsBits :
    (∃ (s : State) (n : BitVec 5), s.err = 0 ∧ n.toNat ≤ 16 ∧ s.out.hasRoom s.params.outCap n.toNat ∧
      ¬ s.out.hasRoom s.params.outCap (n.toNat + 1)) ∧
    (∃ s : State, s.err = 0 ∧ s.out.hasRoom s.params.outCap 8 ∧ ¬ s.out.hasRoom s.params.outCap 9) ∧
    (∃ s : State, s.err = 0 ∧ s.out.len ≤ s.params.outCap ∧ s.out.accN = 0 ∧ s.out.len = s.params.outCap) ∧
    ∃ s : State, s.err = 0 ∧ s.out.len ≤ s.params.outCap ∧ s.out.accN ≠ 0 ∧ s.out.len ≠ s.params.outCap :=
  ⟨⟨{ fullOutput with out := { fullOutput.out with len := 0 } }, 8, by decide⟩,
    ⟨{ fullOutput with out := { fullOutput.out with len := 0 } }, by decide⟩,
    ⟨{ fullOutput with out := { fullOutput.out with accN := 0, acc := 0 } }, by decide⟩, ⟨waiting 5 3, by decide⟩⟩

theorem witness_BitPutErrorsWhenFull :
    ∃ (s : State) (n m : BitVec 5), s.err = 0 ∧ s.out.len ≤ s.params.outCap ∧ n.toNat ≤ 16 ∧
      ¬ s.out.hasRoom s.params.outCap n.toNat ∧ ¬ s.out.hasRoom s.params.outCap 8 ∧ s.out.accN ≠ 0 ∧
      s.out.len = s.params.outCap ∧ m.toNat = 17 := ⟨fullOutput, 1, 17, by decide⟩

theorem witness_InitCommandsGiveInitialState : ∃ s : State, s.err = 0 := ⟨waiting 5 3, rfl⟩

theorem witness_ShowCommandsAndRanges :
    ∃ (s : State) (x x' y y' z : BitVec 16), s.err = 0 ∧ x.toNat = 4095 ∧ x'.toNat = 4096 ∧ y.toNat = 628 ∧
      y'.toNat = 629 ∧ z.toNat = 315 := ⟨State.reset, 4095, 4096, 628, 629, 315, by decide⟩

theorem one_single {w : Window} {p : Pos} (h : w.Empty) (hl : w.lson.get p = none) (hr : w.rson.get p = none) :
    (one w p).Single p :=
  ⟨fun q => by rw [one, Table.get_set, h.dad], fun c => by rw [one, Table.get_set, h.root], hl, hr⟩

theorem initial_single (p : Pos) : (one (.initial 0x20) p).Single p :=
  one_single (Window.initial_empty _) (by rw [Window.initial, Table.get_tabulate])
    (by rw [Window.initial, Table.get_tabulate])

/-- The last position, into an empty index and into one where it finds a full match (V-WI-2). -/
theorem witness_WinInsertIndexesPosition :
    ∃ (s s' : State) (x : BitVec 16) (h : x.toNat < 4096), x.toNat = 4095 ∧
      s.err = 0 ∧ s.win.Linked ∧ s.win.indexed ⟨x.toNat, h⟩ = false ∧
      s'.err = 0 ∧ s'.win.Linked ∧ s'.win.indexed ⟨x.toNat, h⟩ = false ∧ s'.win.Ordered ∧
      ∃ t, exec (.winInsert x) s' = .next t ∧ t.win.ml.toNat = 60 :=
  ⟨State.reset, withWindow (one (.initial 0x20) 100), 4095, by decide, by decide, rfl,
    (Window.initial_empty _).linked, (Window.initial_empty _).indexed _, rfl, (initial_single 100).linked,
    ((initial_single 100).indexed _).trans (by decide), (initial_single 100).ordered,
    (exists_next (p := fun t => t.win.ml == 60) (by decide +kernel)).imp
      fun _ h => ⟨h.1, by rw [eq_of_beq h.2]; rfl⟩⟩

theorem witness_WinFindGivesInsertResults :
    ∃ (s : State) (x : BitVec 16) (h : x.toNat < 4096), s.err = 0 ∧ s.win.Linked ∧
      s.win.indexed ⟨x.toNat, h⟩ = false :=
  ⟨withWindow (one (.initial 0x20) 100), 4095, by decide, rfl, (initial_single 100).linked,
    ((initial_single 100).indexed _).trans (by decide)⟩

theorem witness_FindAsInsert :
    (∃ (w w' : Window) (p : Pos), w.indexed p = false ∧ w.insert p = .ok w') ∧
    ∃ (s : State) (x : BitVec 16) (h : x.toNat < 4096), s.err = 0 ∧ s.win.indexed ⟨x.toNat, h⟩ = true :=
  ⟨⟨.initial 0x20, one (.initial 0x20) 4095, 4095, (Window.initial_empty _).indexed _, by decide +kernel⟩,
    ⟨withWindow (one (.initial 0x20) 4095), 4095, by decide, rfl, ((initial_single 4095).indexed _).trans (by decide)⟩⟩

/-- Position 100 with the children 50 and 200, and 150 left of 200. -/
def four : Window :=
  { Window.initial 0x20 with
    dad := ((((Window.initial 0x20).dad.set 100 (some (.rootn 0x20))).set 50 (some (.pos 100))).set 200
      (some (.pos 100))).set 150 (some (.pos 200))
    lson := ((Window.initial 0x20).lson.set 100 (some 50)).set 200 (some 150)
    rson := (Window.initial 0x20).rson.set 100 (some 200)
    root := (Window.initial 0x20).root.set 32 (some 100) }

theorem four_dad (q : Pos) : four.dad.get q =
    if q = 150 then some (.pos 200) else if q = 200 then some (.pos 100) else if q = 50 then some (.pos 100)
    else if q = 100 then some (.rootn 0x20) else none := by
  simp only [four, Table.get_set, Window.initial, Table.get_tabulate]

theorem four_lson (q : Pos) : four.lson.get q = if q = 200 then some 150 else if q = 100 then some 50 else none := by
  simp only [four, Table.get_set, Window.initial, Table.get_tabulate]

theorem four_rson (q : Pos) : four.rson.get q = if q = 100 then some 200 else none := by
  simp only [four, Table.get_set, Window.initial, Table.get_tabulate]

theorem four_root (c : Fin 256) : four.root.get c = if c = 32 then some 100 else none := by
  simp only [four, Table.get_set, Window.initial, Table.get_tabulate]

theorem four_linked : four.Linked where
  dadChild p x e := by
    rw [four_dad] at e
    split at e
    · cases e; right; subst p; exact (four_lson _).trans (by decide)
    · split at e
      · cases e; left; subst p; exact (four_rson _).trans (by decide)
      · split at e
        · cases e; right; subst p; exact (four_lson _).trans (by decide)
        · split at e
          · cases e; left; subst p; exact (four_root _).trans (by decide)
          · cases e
  rightDad p q _ e := by
    rw [four_rson] at e
    split at e
    · cases e; subst q; exact (four_dad _).trans (by decide)
    · cases e
  leftDad p q _ e := by
    rw [four_lson] at e
    split at e
    · cases e; subst q; exact (four_dad _).trans (by decide)
    · split at e
      · cases e; subst q; exact (four_dad _).trans (by decide)
      · cases e
  rootDad p c e := by
    rw [four_root] at e
    split at e
    · next h =>
      cases e
      rw [BitVec.toFin_inj.1 (h : c.toFin = (0x20#8).toFin)]
      exact (four_dad _).trans (by decide)
    · cases e
  oneSide p q _ e e' := by
    rw [four_rson] at e'
    split at e'
    · cases e'; subst q; rw [four_lson] at e; revert e; decide
    · cases e'
  dadIndexed p q e := by
    rw [four_dad] at e
    rw [Window.indexed, four_dad]
    split at e
    · cases e; decide
    · split at e
      · cases e; decide
      · split at e
        · cases e; decide
        · split at e <;> cases e
  acyclic := by
    refine ⟨fun p => if p = 100 then 0 else if p = 150 then 2 else 1, fun p q e => ?_⟩
    rw [four_dad] at e
    split at e
    · cases e; subst p; decide
    · split at e
      · cases e; subst p; decide
      · split at e
        · cases e; subst p; decide
        · split at e <;> cases e
/-- A node with two children for each `DEL_MODE`, one with its successor below the right child, and a position that is
not in the index. -/
theorem witness_WinDeleteRemovesPosition :
    ∃ (s s' : State) (x y : BitVec 16) (h : x.toNat < 4096) (h' : y.toNat < 4096), s.err = 0 ∧ s'.err = 0 ∧
      s.win = four ∧ s.win.Linked ∧ s'.win = s.win ∧ s.params.delMode = .succ ∧ s'.params.delMode = .pred ∧
      s.win.dad.get ⟨x.toNat, h⟩ = some (.rootn 0x20) ∧ s.win.indexed ⟨y.toNat, h'⟩ = false ∧
      s.win.Replacement .succ ⟨x.toNat, h⟩ (some 150) ∧ s.win.Replacement .pred ⟨x.toNat, h⟩ (some 50) :=
  ⟨withWindow four, { withWindow four with params := { Params.standard with delMode := .pred } }, 100, 0, by decide,
    by decide, rfl, rfl, rfl, four_linked, rfl, rfl, rfl, (four_dad _).trans (by decide),
    by rw [withWindow, Window.indexed, four_dad]; decide,
    .succ _ 50 200 150 ((four_lson _).trans (by decide)) ((four_rson _).trans (by decide))
      (.left _ 150 _ ((four_lson _).trans (by decide)) (.here _ ((four_lson _).trans (by decide)))),
    .pred _ 50 200 50 ((four_lson _).trans (by decide)) ((four_rson _).trans (by decide))
      (.here _ ((four_rson _).trans (by decide)))⟩

theorem witness_DeleteReadsNoByte : ∃ (m : DelMode) (w w' : Window) (p : Pos), w.indexed p = true ∧ w.delete m p = .ok w' :=
  have h : ∃ w', (one (.initial 0x20) 4095).delete .succ 4095 = .ok w' := by
    cases e : (one (.initial 0x20) 4095).delete .succ 4095 with
    | ok w' => exact ⟨w', rfl⟩
    | error x =>
      have : ((one (.initial 0x20) 4095).delete .succ 4095).isOk = true := by decide +kernel
      rw [e] at this
      cases this
  ⟨.succ, _, h.choose, 4095, ((initial_single 4095).indexed _).trans (by decide), h.choose_spec⟩

theorem witness_SearchOrderKept :
    ∃ (w w' w'' : Window) (p q : Pos), w.Linked ∧ w.Ordered ∧ w.insert p = .ok w' ∧ w.delete .pred q = .ok w'' :=
  have h : ∃ w', (one (.initial 0x20) 100).insert 200 = .ok w' := by
    cases e : (one (.initial 0x20) 100).insert 200 with
    | ok w' => exact ⟨w', rfl⟩
    | error x =>
      have : ((one (.initial 0x20) 100).insert 200).isOk = true := by decide +kernel
      rw [e] at this
      cases this
  ⟨one (.initial 0x20) 100, h.choose, one (.initial 0x20) 100, 200, 300, (initial_single 100).linked,
    (initial_single 100).ordered, h.choose_spec, by
      rw [Window.delete, (initial_single 100).indexed, if_neg (by decide)]⟩

/-- A full key, `n = 60`. -/
theorem witness_FindReturnsLongestMatch :
    ∃ (w w' : Window) (p q : Pos), w.Linked ∧ w.Ordered ∧ w.find p = .ok w' ∧ w'.ml ≠ 0 ∧ w.Visits p q ∧
      w.InTree (w.win.get p) q ∧ w.Agree p q 60 :=
  have hc : (match (one (.initial 0x20) 100).find 200 with
      | .ok w' => decide (w'.ml ≠ 0)
      | .error _ => false) = true := by decide +kernel
  have h : ∃ w', (one (.initial 0x20) 100).find 200 = .ok w' ∧ w'.ml ≠ 0 := by
    cases e : (one (.initial 0x20) 100).find 200 with
    | ok w' =>
      rw [e] at hc
      exact ⟨w', rfl, of_decide_eq_true hc⟩
    | error x =>
      rw [e] at hc
      cases hc
  ⟨one (.initial 0x20) 100, h.choose, 200, 100, (initial_single 100).linked, (initial_single 100).ordered, h.choose_spec.1,
    h.choose_spec.2, .root _ (((initial_single 100).root _).trans (if_pos (by decide +kernel))),
    (initial_single 100).inTree.2 ⟨by decide +kernel, rfl⟩, by decide +kernel⟩

theorem witness_HufEncWritesCodeword : ∃ (s : State) (x : BitVec 16), s.err = 0 ∧ x.toNat = 314 ∧ s.huf.Sound ∧
    ∀ n, n ≤ 628 → s.out.hasRoom s.params.outCap n :=
  ⟨State.reset, 314, rfl, by decide, HufTree.initial_sound, fun n hn => by
    show (8 * 0 + 0 + n) / 8 ≤ 0x100000
    omega⟩

theorem witness_HufDecReadsCodeword : ∃ s : State, s.err = 0 ∧ s.huf.Sound := ⟨withInput [0xE5, 0xE2], rfl, HufTree.initial_sound⟩

/-- Trees whose root frequency is `MAX_FREQ` and one less. -/
theorem witness_HufUpdAddsOne :
    ∃ (s s' : State) (x : BitVec 16), x.toNat = 314 ∧ s.err = 0 ∧ s.huf.Sound ∧ (s.huf.freq.get 628).toNat = 0x8000 ∧
      s'.err = 0 ∧ s'.huf.Sound ∧ (s'.huf.freq.get 628).toNat = 0x7FFF :=
  have ⟨t, h1, h2⟩ := HufTree.exists_sound (f := 0x8000) (by omega) (by omega)
  have ⟨t', h1', h2'⟩ := HufTree.exists_sound (f := 0x7FFF) (by omega) (by omega)
  ⟨{ State.reset with huf := t }, { State.reset with huf := t' }, 314, by decide, rfl, h1, h2, rfl, h1', h2'⟩

theorem witness_HufRescaleHalves : ∃ s : State, s.err = 0 ∧ s.huf.Sound := ⟨State.reset, rfl, HufTree.initial_sound⟩

theorem witness_TreeInvariantsHold : ∃ t : HufTree, t.Sound := ⟨.initial, HufTree.initial_sound⟩

/-- The last distance, with room for exactly its 14 bits. -/
theorem witness_DistanceCodeWrittenAndRead :
    ∃ (s : State) (x : BitVec 16), s.err = 0 ∧ x.toNat = 4095 ∧ s.out.hasRoom s.params.outCap (pLen (x.toNat / 64) + 6) ∧
      ¬ s.out.hasRoom s.params.outCap (pLen (x.toNat / 64) + 6 + 1) :=
  ⟨{ fullOutput with out := { fullOutput.out with len := 0, accN := 1, acc := 1 } }, 4095, by decide⟩

theorem witness_CodecChecksComeFirst :
    (∃ s : State, s.err = 0 ∧ s.inp.len.toNat < s.inOffset.toNat) ∧
    (∃ s : State, s.err = 0 ∧ s.inp.len.toNat < s.outOffset.toNat) ∧
    ∃ s : State, s.err = 0 ∧ s.inOffset ≤ s.inp.len ∧ s.outOffset ≤ s.inp.len ∧
      s.maxExpanded.toNat < s.inp.len.toNat - s.inOffset.toNat :=
  ⟨⟨{ withInput [0x61] with inOffset := 2 }, by decide⟩, ⟨{ withInput [0x61] with outOffset := 2 }, by decide⟩,
    ⟨{ withInput [0x61, 0x62] with inOffset := 1, maxExpanded := 0 }, by decide⟩⟩

theorem witness_LzhCompressCompletes :
    ∃ s : State, s.err = 0 ∧ s.inOffset ≤ s.inp.len ∧ s.outOffset ≤ s.inp.len ∧
      s.inp.len.toNat - s.inOffset.toNat ≤ s.maxExpanded.toNat ∧
      s.outOffset.toNat + 5 + 81 * (s.inp.len.toNat - s.inOffset.toNat + 1) ≤ s.params.outCap.toNat ∧
      s.opt.getLsbD 0 = true :=
  ⟨{ withInput [0x61, 0x62, 0x63] with inOffset := 1, outOffset := 1, maxExpanded := 2 }, by decide⟩

theorem witness_LzhExpandNoneCompletes :
    ∃ s : State, s.err = 0 ∧ s.opt.getLsbD 0 = false ∧ s.inOffset ≤ s.inp.len ∧ s.outOffset ≤ s.inp.len ∧
      472 * (s.inp.len.toNat - s.inOffset.toNat) ≤ s.maxExpanded.toNat ∧
      s.outOffset.toNat + 472 * (s.inp.len.toNat - s.inOffset.toNat) ≤ s.params.outCap.toNat :=
  ⟨{ withInput [0xF5, 0x80] with opt := 0x2002, maxExpanded := 944 }, by decide⟩

theorem witness_LzhExpandLzhufMode_header :
    (∃ s : State, s.err = 0 ∧ s.opt.getLsbD 0 = true ∧ s.inOffset ≤ s.inp.len ∧ s.outOffset ≤ s.inp.len ∧
      s.outOffset ≤ s.params.outCap ∧ s.inp.len.toNat - s.inOffset.toNat < 4) ∧
    (∃ s : State, s.err = 0 ∧ s.opt.getLsbD 0 = true ∧ s.inOffset ≤ s.inp.len ∧ s.outOffset ≤ s.inp.len ∧
      s.outOffset ≤ s.params.outCap ∧ 4 ≤ s.inp.len.toNat - s.inOffset.toNat ∧
      s.maxExpanded.toNat <
        (s.inp.byte s.inOffset.toNat).toNat + (s.inp.byte (s.inOffset.toNat + 1)).toNat * 2 ^ 8 +
          (s.inp.byte (s.inOffset.toNat + 2)).toNat * 2 ^ 16 + (s.inp.byte (s.inOffset.toNat + 3)).toNat * 2 ^ 24) ∧
    ∃ s : State, s.err = 0 ∧ s.opt.getLsbD 0 = true ∧ s.inOffset ≤ s.inp.len ∧ s.outOffset ≤ s.inp.len ∧
      s.outOffset ≤ s.params.outCap ∧ 4 ≤ s.inp.len.toNat - s.inOffset.toNat ∧
      ∀ k, k < 4 → s.inp.byte (s.inOffset.toNat + k) = 0 :=
  ⟨⟨withInput [1, 0, 0], by decide⟩, ⟨{ withInput [12, 0, 0, 0] with maxExpanded := 11 }, by decide +kernel⟩,
    ⟨withInput [0, 0, 0, 0], by decide +kernel⟩⟩

/-- Reading a symbol with the tree after reset. -/
theorem reads_initial {i : Input} {e : Expansion} {y : Sym} {d n pos : Nat} (ht : e.tree = .initial)
    (hw : HufTree.initial.walk 628 (i.bits e.pos n) = some y)
    (hd : if 256 ≤ y.val ∧ y.val < 314 then
        d < 4096 ∧ i.bits (e.pos + n) (distanceCode d).length = distanceCode d ∧
          pos = e.pos + n + (distanceCode d).length
      else pos = e.pos + n) : ∃ tree, i.Reads e y d tree pos :=
  have ⟨t, h, _⟩ := HufTree.update_sound HufTree.initial_sound y
  ⟨t, by rw [ht]; exact h, n, by rw [ht]; exact hw, hd⟩

/-- A state that expands `size` bytes in `Lzhuf` mode, whose input reaches `e` (R309, R310). -/
def ExpandsTo (s : State) (size : Nat) (e : Expansion) : Prop :=
  s.err = 0 ∧ s.opt.getLsbD 0 = true ∧ s.inOffset ≤ s.inp.len ∧ s.outOffset ≤ s.inp.len ∧
    s.outOffset ≤ s.params.outCap ∧ 4 ≤ s.inp.len.toNat - s.inOffset.toNat ∧ size = s.inp.sizeAt s.inOffset.toNat ∧
    size ≤ s.maxExpanded.toNat ∧ s.outOffset.toNat + size ≤ s.params.outCap.toNat ∧
    s.inp.Expands (.start (s.opt.extractLsb' 8 8) (8 * s.inOffset.toNat + 32)) e ∧ e.pos ≤ 8 * s.inp.len.toNat

/-- V-LZ-3 after its symbol; a truncated stream, V-LZ-18 and a match past the declared size before theirs. -/
theorem witness_LzhExpandLzhufMode :
    (∃ s e, ExpandsTo s 1 e ∧ e.bytes.length = 1) ∧
    (∃ s e, ExpandsTo s 1 e ∧ e.bytes.length < 1 ∧
      ∃ y d tree pos, s.inp.Reads e y d tree pos ∧ 8 * s.inp.len.toNat < pos) ∧
    (∃ s e, ExpandsTo s 1 e ∧ e.bytes.length < 1 ∧
      ∃ d tree pos, s.inp.Reads e 314 d tree pos ∧ pos ≤ 8 * s.inp.len.toNat) ∧
    ∃ s e, ExpandsTo s 1 e ∧ e.bytes.length < 1 ∧
      ∃ y d tree pos, s.inp.Reads e y d tree pos ∧ pos ≤ 8 * s.inp.len.toNat ∧ 256 ≤ y.val ∧
        1 < e.bytes.length + (y.val - 254) := by
  refine ⟨?_, ?_, ?_, ?_⟩
  · obtain ⟨t, h⟩ := reads_initial (i := (withInput [1, 0, 0, 0, 0xF5, 0xFA, 0xC0]).inp) (e := .start 0x20 32) (y := 97)
      (d := 0) (n := 9) (pos := 41) rfl (by decide +kernel) (by decide)
    exact ⟨withInput [1, 0, 0, 0, 0xF5, 0xFA, 0xC0], _,
      ⟨rfl, by decide, by decide, by decide, by decide, by decide, by decide +kernel, by decide, by decide,
        .symbol _ _ 97 0 t 41 [0x61] (by decide) h (by decide) (by rw [Expansion.Means, if_pos (by decide)]; rfl) (.none _),
        by rw [Expansion.putAll_pos]; exact (by decide : 41 ≤ 56)⟩, by rw [Expansion.putAll_bytes]; rfl⟩
  · obtain ⟨t, h⟩ := reads_initial (i := (withInput [1, 0, 0, 0]).inp) (e := .start 0x20 32) (y := 118)
      (d := 0) (n := 8) (pos := 40) rfl (by decide +kernel) (by decide)
    exact ⟨withInput [1, 0, 0, 0], _,
      ⟨rfl, by decide, by decide, by decide, by decide, by decide, by decide +kernel, by decide, by decide, .none _,
        by decide⟩, by decide, _, _, _, _, h, by decide⟩
  · obtain ⟨t, h⟩ := reads_initial (i := (withInput [1, 0, 0, 0, 0xC4]).inp) (e := .start 0x20 32) (y := 314)
      (d := 0) (n := 8) (pos := 40) rfl (by decide +kernel) (by decide)
    exact ⟨withInput [1, 0, 0, 0, 0xC4], _,
      ⟨rfl, by decide, by decide, by decide, by decide, by decide, by decide +kernel, by decide, by decide, .none _,
        by decide⟩, by decide, _, _, _, h, by decide⟩
  · obtain ⟨t, h⟩ := reads_initial (i := (withInput [1, 0, 0, 0, 0x8A, 0, 0]).inp) (e := .start 0x20 32) (y := 256)
      (d := 0) (n := 8) (pos := 49) rfl (by decide +kernel) (by decide +kernel)
    exact ⟨withInput [1, 0, 0, 0, 0x8A, 0, 0], _,
      ⟨rfl, by decide, by decide, by decide, by decide, by decide, by decide +kernel, by decide, by decide, .none _,
        by decide⟩, by decide, _, _, _, _, h, by decide, by decide, by decide⟩

/-- A state that expands in `None` mode, with caps that just fit what its input has expanded to at `e` (R310). -/
def ExpandsNone (s : State) (e : Expansion) : Prop :=
  s.err = 0 ∧ s.opt.getLsbD 0 = false ∧ s.inOffset ≤ s.inp.len ∧ s.outOffset ≤ s.inp.len ∧
    s.inp.Expands (.start (s.opt.extractLsb' 8 8) (8 * s.inOffset.toNat)) e ∧
    e.bytes.length = s.maxExpanded.toNat ∧ s.outOffset.toNat + e.bytes.length = s.params.outCap.toNat

/-- The reset state in `None` mode with input bytes and caps. -/
def noneInput (bytes : List Byte) (cap out : Word) : State :=
  { withInput bytes with opt := 0x2002, maxExpanded := cap, params := { Params.standard with outCap := out } }

/-- One zero byte, a literal (the first symbol of V-LZ-27); an `EOS`; and the literal again with no room for it. -/
theorem witness_LzhExpandNoneCompletes_symbols :
    (∃ s e, ExpandsNone s e ∧ e.bytes.length = 1 ∧ 8 * s.inp.len.toNat ≤ e.pos) ∧
    (∃ s e, ExpandsNone s e ∧ e.pos < 8 * s.inp.len.toNat ∧ ∃ tree pos, s.inp.Reads e 314 0 tree pos) ∧
    ∃ s e, ExpandsNone s e ∧ e.pos < 8 * s.inp.len.toNat ∧ ∃ y d tree pos, s.inp.Reads e y d tree pos ∧ y ≠ 314 ∧
      s.maxExpanded.toNat < e.bytes.length + (if y.val < 256 then 1 else y.val - 254) := by
  refine ⟨?_, ?_, ?_⟩
  · obtain ⟨t, h⟩ := reads_initial (i := (noneInput [0] 1 1).inp) (e := .start 0x20 0) (y := 118)
      (d := 0) (n := 8) (pos := 8) rfl (by decide +kernel) (by decide)
    exact ⟨noneInput [0] 1 1, _, ⟨rfl, by decide, by decide, by decide,
      .symbol _ _ 118 0 t 8 [0x76] (by decide) h (by decide) (by rw [Expansion.Means, if_pos (by decide)]; rfl) (.none _),
      by rw [Expansion.putAll_bytes]; rfl, by rw [Expansion.putAll_bytes]; rfl⟩, by rw [Expansion.putAll_bytes]; rfl,
      by rw [Expansion.putAll_pos]; exact (by decide : 8 ≤ 8)⟩
  · obtain ⟨t, h⟩ := reads_initial (i := (noneInput [0xC4] 0 0).inp) (e := .start 0x20 0) (y := 314)
      (d := 0) (n := 8) (pos := 8) rfl (by decide +kernel) (by decide)
    exact ⟨noneInput [0xC4] 0 0, _, ⟨rfl, by decide, by decide, by decide, .none _, rfl, rfl⟩, by decide, _, _, h⟩
  · obtain ⟨t, h⟩ := reads_initial (i := (noneInput [0] 0 0).inp) (e := .start 0x20 0) (y := 118)
      (d := 0) (n := 8) (pos := 8) rfl (by decide +kernel) (by decide)
    exact ⟨noneInput [0] 0 0, _, ⟨rfl, by decide, by decide, by decide, .none _, rfl, rfl⟩, by decide, _, _, _, _, h,
      by decide, by decide⟩

/-- IN bytes that are the OUT bytes of another state (R425). -/
theorem byte_of_copy {t u : State} (hm : u.inp.mem = t.out.mem)
    (hv : ∀ a, a < t.out.len.toNat → (t.out.mem.read a).isSome = true) (a : Nat) (ha : a < t.out.len.toNat) :
    u.inp.byte a = t.out.byte a := by
  obtain ⟨v, h⟩ := Option.isSome_iff_exists.1 (hv a ha)
  rw [Input.byte, Output.byte, hm, if_pos ha, h]

/-- V-LZ-1. -/
theorem witness_LzhRoundTrip :
    ∃ s t u : State, s.err = 0 ∧ s.inOffset = 0 ∧ s.outOffset = 0 ∧ s.opt.getLsbD 0 = true ∧
      exec .lzhCompress s = .next t ∧ t.err = 0 ∧
      u.err = 0 ∧ u.inOffset = 0 ∧ u.outOffset = 0 ∧ u.opt.getLsbD 0 = true ∧
      u.opt.extractLsb' 8 8 = s.opt.extractLsb' 8 8 ∧ u.inp.len = t.out.len ∧
      (∀ a, a < t.out.len.toNat → u.inp.byte a = t.out.byte a) ∧
      s.inp.len ≤ u.maxExpanded ∧ s.inp.len ≤ u.params.outCap := by
  obtain ⟨t, h1, h2⟩ := exists_next test_lzhCompress
  simp only [Bool.and_eq_true, beq_iff_eq] at h2
  obtain ⟨⟨⟨h3, h4⟩, h5⟩, -⟩ := h2
  refine ⟨State.reset, t, withInput [0, 0, 0, 0, 0xC4], rfl, rfl, rfl, by decide, h1, h3, rfl, rfl, rfl, by decide, rfl,
    h5.symm, fun a ha => byte_of_copy (h4.symm ▸ rfl) ?_ a ha, by decide, by decide⟩
  rw [h4, h5]
  decide

/-- The fill byte alone in `None` mode, which is a literal: the 9 bits its leaf has in the tree after reset (R251), and 7
of padding. -/
theorem compress_fill :
    nextIs (exec .lzhCompress { withInput [0x20] with opt := 0x2002 })
      (fun t => t.err == 0 && t.out.mem == [(0, 0xD5), (1, 0x00)] && t.out.len == 2) = true := by
  decide +kernel

theorem witness_LzhNoneRoundTrip :
    ∃ s t u : State, s.err = 0 ∧ s.inOffset = 0 ∧ s.outOffset = 0 ∧ s.opt.getLsbD 0 = false ∧
      exec .lzhCompress s = .next t ∧ t.err = 0 ∧
      u.err = 0 ∧ u.inOffset = 0 ∧ u.outOffset = 0 ∧ u.opt.getLsbD 0 = false ∧
      u.opt.extractLsb' 8 8 = s.opt.extractLsb' 8 8 ∧ u.inp.len = t.out.len ∧
      (∀ a, a < t.out.len.toNat → u.inp.byte a = t.out.byte a) ∧
      s.inp.len.toNat + 413 ≤ u.maxExpanded.toNat ∧ s.inp.len.toNat + 413 ≤ u.params.outCap.toNat := by
  obtain ⟨t, h1, h2⟩ := exists_next compress_fill
  simp only [Bool.and_eq_true, beq_iff_eq] at h2
  obtain ⟨⟨h3, h4⟩, h5⟩ := h2
  refine ⟨{ withInput [0x20] with opt := 0x2002 }, t, { withInput [0xD5, 0x00] with opt := 0x2002 }, rfl, rfl, rfl,
    by decide, h1, h3, rfl, rfl, rfl, by decide, rfl, h5.symm, fun a ha => byte_of_copy (h4.symm ▸ rfl) ?_ a ha,
    by decide, by decide⟩
  rw [h4, h5]
  decide

/-- A first byte; an entry that matches; no entry, before the last free one with `LZW_CLRFULL`, and with a full table. -/
theorem witness_LzwEncByteCases :
    (∃ s : State, s.err = 0 ∧ s.lzw.pfx = none) ∧
    (∃ (s : State) (b : Byte) (p : Code) (k : Nat), s.err = 0 ∧ s.lzw.pfx = some p ∧ s.lzw.next ≤ 4096 ∧ 258 ≤ k ∧
      k < s.lzw.next ∧ s.lzw.prefixOf k = p ∧ s.lzw.lastByte k = b ∧
      ∀ j, 258 ≤ j → j < s.lzw.next → s.lzw.prefixOf j = p → s.lzw.lastByte j = b → j = k) ∧
    ∀ n, n = 4095 ∨ n = 4096 →
      ∃ (s : State) (b : Byte) (p : Code), s.err = 0 ∧ s.lzw.pfx = some p ∧ s.lzw.next = n ∧
        s.opt.getLsbD 2 = true ∧ s.out.hasRoom s.params.outCap 36 ∧ 258 ≤ s.lzw.next ∧ s.lzw.next ≤ 4096 ∧
        ∀ j, 258 ≤ j → j < s.lzw.next → ¬ (s.lzw.prefixOf j = p ∧ s.lzw.lastByte j = b) := by
  refine ⟨⟨State.reset, rfl, rfl⟩, ⟨withEntry, 0x42, 65, 258, rfl, rfl, by decide, by decide, by decide, by decide +kernel,
    by decide +kernel, fun j h1 h2 _ _ => Nat.le_antisymm (Nat.le_of_lt_succ h2) h1⟩, fun n hn => ?_⟩
  refine ⟨{ State.reset with opt := 0x2007, lzw := { Lzw.initial with next := n, pfx := some 65 } }, 0x42, 65, rfl, rfl, rfl,
    ?_, ?_, ?_, ?_, fun j _ _ h => ?_⟩
  · show BitVec.getLsbD 0x2007#32 2 = true
    decide
  · show (8 * 0 + 0 + 36) / 8 ≤ 0x100000
    omega
  · show 258 ≤ n
    omega
  · show n ≤ 4096
    omega
  have : Lzw.prefixOf { Lzw.initial with next := n, pfx := some 65 } j = 0 := by
    rw [Lzw.prefixOf, Lzw.initial, Table.get_tabulate]
  rw [this] at h
  exact absurd h.1 (by decide)

/-- Room for exactly 43 bits, and one prefix, at the end of a stream that has not started. -/
theorem witness_LzwEncEndWritesEnd :
    ∃ s : State, s.err = 0 ∧ s.out.hasRoom s.params.outCap 43 ∧ ¬ s.out.hasRoom s.params.outCap 44 ∧
      s.lzw.pfx = some 65 ∧ s.lzw.started = false :=
  ⟨{ State.reset with
      params := { Params.standard with outCap := 5 }, lzw := { Lzw.initial with pfx := some 65 },
      out := { State.reset.out with accN := 4, acc := 5 } }, by decide⟩

theorem witness_LzwDecEndOfStream :
    (∃ s : State, s.err = 0 ∧ s.lzw.done = true) ∧
    (∃ s : State, s.err = 0 ∧ s.lzw.done = false ∧ 8 * s.inp.len.toNat + 1 = s.rd.pos + 12 ∧ s.opt.getLsbD 1 = true) ∧
    (∃ s : State, s.err = 0 ∧ s.lzw.done = false ∧ 8 * s.inp.len.toNat + 1 = s.rd.pos + 12 ∧ s.opt.getLsbD 1 = false) ∧
    (∃ s : State, s.err = 0 ∧ s.lzw.done = false ∧ s.rd.pos + 12 = 8 * s.inp.len.toNat ∧
      s.inp.bits s.rd.pos 12 = bitsOf 12 257) ∧
    ∃ s : State, s.err = 0 ∧ s.lzw.done = false ∧ s.rd.pos + 12 = 8 * s.inp.len.toNat ∧
      s.inp.bits s.rd.pos 12 = bitsOf 12 256 :=
  ⟨⟨{ State.reset with lzw := { Lzw.initial with done := true } }, by decide⟩,
    ⟨readingAt [0x10, 0x11, 0x01] 13, by decide⟩, ⟨{ readingAt [0x10, 0x11, 0x01] 13 with opt := 0x2001 }, by decide⟩,
    ⟨readingAt [0x10, 0x01, 0x01] 12, by decide +kernel⟩, ⟨readingAt [0x10, 0x11, 0x00] 12, by decide +kernel⟩⟩

/-- A first code 255; the code 258 of an entry; the code 258 to be assigned next; each at both caps exactly. -/
theorem witness_LzwDecDataWritesString :
    ∀ c : Fin 3, ∃ (s : State) (k : Code) (str : List Byte), s.err = 0 ∧ s.lzw.done = false ∧
      s.rd.pos + 12 ≤ 8 * s.inp.len.toNat ∧ s.inp.bits s.rd.pos 12 = bitsOf 12 k.toNat ∧ k.toNat ≠ 256 ∧ k.toNat ≠ 257 ∧
      258 ≤ s.lzw.next ∧ s.lzw.next ≤ 4096 ∧
      (c = 0 ∧ s.lzw.prev = none ∧ k.toNat < 256 ∧ str = [BitVec.ofNat 8 k.toNat] ∨
        (c = 1 ∧ ∃ p, s.lzw.prev = some p ∧ k.toNat < s.lzw.next ∧ s.lzw.Spells k.toNat str) ∨
        c = 2 ∧ ∃ p pre, s.lzw.prev = some p ∧ k.toNat = s.lzw.next ∧ s.lzw.Spells p.toNat pre ∧
          str = pre ++ [pre.headD 0]) ∧
      s.lzw.outCnt.toNat + str.length = s.maxExpanded.toNat ∧ s.out.len.toNat + str.length = s.params.outCap.toNat
  | 0 =>
    ⟨{ readingAt [0x0F, 0xF0] 0 with maxExpanded := 1, params := { Params.standard with outCap := 1 } }, 255, [255], rfl, rfl,
      by decide, by decide +kernel, by decide, by decide, by decide, by decide, .inl ⟨rfl, rfl, by decide, by decide⟩,
      by decide, by decide⟩
  | 1 =>
    ⟨{ readingAt [0x10, 0x20] 0 with
        maxExpanded := 2, params := { Params.standard with outCap := 2 },
        lzw := { withEntry.lzw with prev := some 65 } }, 258, [65] ++ [0x42], rfl, rfl,
      by decide, by decide +kernel, by decide, by decide, by decide, by decide,
      .inr (.inl ⟨rfl, 65, rfl, by decide,
        .entry 258 [65] (by decide) (by decide) (.byte _ (by decide +kernel))⟩), by decide, by decide⟩
  | 2 =>
    ⟨{ readingAt [0x10, 0x20] 0 with
        maxExpanded := 2, params := { Params.standard with outCap := 2 },
        lzw := { Lzw.initial with prev := some 65 } }, 258, [65, 65], rfl, rfl,
      by decide, by decide +kernel, by decide, by decide, by decide, by decide,
      .inr (.inr ⟨rfl, 65, [65], rfl, rfl, .byte 65 (by decide), rfl⟩), by decide, by decide⟩

/-- A first code 258; the code 259 when 258 is next; a string one byte past `MAX_EXPANDED`. -/
theorem witness_LzwDecErrorsOnBadCode :
    (∃ (s : State) (k : Code), s.err = 0 ∧ s.lzw.done = false ∧ s.rd.pos + 12 ≤ 8 * s.inp.len.toNat ∧
      s.inp.bits s.rd.pos 12 = bitsOf 12 k.toNat ∧ k.toNat ≠ 256 ∧ k.toNat ≠ 257 ∧ 258 ≤ s.lzw.next ∧
      s.lzw.next ≤ 4096 ∧ s.lzw.prev = none ∧ 256 ≤ k.toNat) ∧
    (∃ (s : State) (k : Code), s.err = 0 ∧ s.lzw.done = false ∧ s.rd.pos + 12 ≤ 8 * s.inp.len.toNat ∧
      s.inp.bits s.rd.pos 12 = bitsOf 12 k.toNat ∧ k.toNat ≠ 256 ∧ k.toNat ≠ 257 ∧ 258 ≤ s.lzw.next ∧
      s.lzw.next ≤ 4096 ∧ ∃ p, s.lzw.prev = some p ∧ s.lzw.next < k.toNat) ∧
    ∃ (s : State) (k : Code) (str : List Byte), s.err = 0 ∧ s.lzw.done = false ∧
      s.rd.pos + 12 ≤ 8 * s.inp.len.toNat ∧ s.inp.bits s.rd.pos 12 = bitsOf 12 k.toNat ∧ k.toNat ≠ 256 ∧ k.toNat ≠ 257 ∧
      258 ≤ s.lzw.next ∧ s.lzw.next ≤ 4096 ∧ s.lzw.prev = none ∧ k.toNat < 256 ∧ str = [BitVec.ofNat 8 k.toNat] ∧
      s.maxExpanded.toNat < s.lzw.outCnt.toNat + str.length :=
  ⟨⟨readingAt [0x10, 0x20] 0, 258, rfl, rfl, by decide, by decide +kernel, by decide⟩,
    ⟨{ readingAt [0x10, 0x30] 0 with lzw := { Lzw.initial with prev := some 65 } }, 259, rfl, rfl, by decide,
      by decide +kernel, by decide, by decide, by decide, by decide, 65, rfl, by decide⟩,
    ⟨{ readingAt [0x04, 0x10] 0 with maxExpanded := 0 }, 65, [65], rfl, rfl, by decide, by decide +kernel, by decide,
      by decide, by decide, by decide, rfl, by decide, by decide, by decide⟩⟩

theorem witness_LzwCompressCompletes :
    ∃ s : State, s.err = 0 ∧ s.inOffset ≤ s.inp.len ∧ s.outOffset ≤ s.inp.len ∧
      s.inp.len.toNat - s.inOffset.toNat ≤ s.maxExpanded.toNat ∧
      s.outOffset.toNat + 5 * (s.inp.len.toNat - s.inOffset.toNat + 2) ≤ s.params.outCap.toNat :=
  ⟨{ withInput [0x61, 0x62, 0x63] with inOffset := 1, outOffset := 1, maxExpanded := 2 }, by decide⟩

/-- The codes `97 256 98 257`. -/
theorem witness_LzwExpandLiterals :
    ∃ (s : State) (codes : List Nat), s.err = 0 ∧ s.inOffset ≤ s.inp.len ∧ s.outOffset ≤ s.inp.len ∧
      (∀ k ∈ codes, k ≤ 256) ∧
      8 * s.inOffset.toNat + 12 * (codes.length + 1) ≤ 8 * s.inp.len.toNat ∧
      s.inp.bits (8 * s.inOffset.toNat) (12 * (codes.length + 1)) = (codes ++ [257]).flatMap (bitsOf 12) ∧
      (codes.filter (· < 256)).length ≤ s.maxExpanded.toNat ∧
      s.outOffset.toNat + (codes.filter (· < 256)).length ≤ s.params.outCap.toNat :=
  ⟨withInput [0x06, 0x11, 0x00, 0x06, 0x21, 0x01], [97, 256, 98], rfl, by decide, by decide, by decide, by decide,
    by decide +kernel, by decide, by decide⟩

/-- V-LW-6. -/
theorem witness_LzwRoundTrip :
    ∃ s t u : State, s.err = 0 ∧ s.inOffset = 0 ∧ s.outOffset = 0 ∧ exec .lzwCompress s = .next t ∧ t.err = 0 ∧
      u.err = 0 ∧ u.inOffset = 0 ∧ u.outOffset = 0 ∧ u.opt.getLsbD 1 = s.opt.getLsbD 1 ∧ u.inp.len = t.out.len ∧
      (∀ a, a < t.out.len.toNat → u.inp.byte a = t.out.byte a) ∧
      s.inp.len ≤ u.maxExpanded ∧ s.inp.len ≤ u.params.outCap := by
  obtain ⟨t, h1, h2⟩ := exists_next test_lzwCompress
  simp only [Bool.and_eq_true, beq_iff_eq] at h2
  obtain ⟨⟨⟨h3, h6⟩, -⟩, h4⟩ := h2
  refine ⟨_, t, withInput [0x10, 0x00, 0x61, 0x10, 0x21, 0x03, 0x06, 0x11, 0x01], rfl, rfl, rfl, h1, h3, rfl, rfl, rfl,
    rfl, h6.symm, fun a ha => byte_of_copy (h4.symm ▸ rfl) ?_ a ha, by decide, by decide⟩
  rw [h4, h6]
  decide

/-- The first and the last offset, and each register's. -/
theorem witness_RegisterReadValues :
    ∀ off : Nat, off = 0 ∨ off = 0x34 ∨ off = 0x44 ∨ off = 252 →
      ∃ (s : State) (rest : List HostEvent), off < 256 ∧ off % 4 = 0 ∧ s.lzw.next ≤ 4096 ∧
        s.host = .read (s.params.regBase + off) 4 :: rest :=
  fun off h => ⟨pending (.read off 4), [], by omega, by omega, Nat.le_of_ble_eq_true rfl, by
    show [HostEvent.read off 4] = [.read (0 + off) 4]
    rw [Nat.zero_add]⟩

/-- A write past `IN_CAP` to `IN_LEN`, reserved bits to `OPT`, and the last offset. -/
theorem witness_RegisterWriteEffects :
    ∀ off : Nat, off = 4 ∨ off = 0x10 ∨ off = 0x18 ∨ off = 252 →
      ∃ (s : State) (v : Word) (rest : List HostEvent), 4 ≤ off ∧ off < 256 ∧ off % 4 = 0 ∧
        s.host = .write (s.params.regBase + off) 4 v :: rest :=
  fun off h => ⟨pending (.write off 4 0xFFFFFFFF), 0xFFFFFFFF, [], by omega, by omega, by omega, by
    show [HostEvent.write off 4 0xFFFFFFFF] = [.write (0 + off) 4 0xFFFFFFFF]
    rw [Nat.zero_add]⟩

/-- An access to the last four bytes of each memory. -/
theorem witness_HostMemoryAccesses :
    (∃ (s : State) (a n : Nat) (v : Word), n = 4 ∧ s.params.Legal ∧ a + n = s.params.inCap.toNat ∧
      s.host = [.write (s.params.inBase + a) n v]) ∧
    (∃ (s : State) (a n : Nat), n = 4 ∧ s.params.Legal ∧ a + n = s.params.inCap.toNat ∧
      s.host = [.read (s.params.inBase + a) n]) ∧
    (∃ (s : State) (a n : Nat) (v : Word), n = 1 ∧ s.params.Legal ∧ a + n = s.params.outCap.toNat ∧
      s.host = [.write (s.params.outBase + a) n v]) ∧
    ∃ (s : State) (a n : Nat), n = 2 ∧ s.params.Legal ∧ a + n = s.params.outCap.toNat ∧
      s.host = [.read (s.params.outBase + a) n] :=
  ⟨⟨pending (.write 0x1FFFFC 4 0x11223344), 0xFFFFC, 4, 0x11223344, by decide⟩,
    ⟨pending (.read 0x1FFFFC 4), 0xFFFFC, 4, by decide⟩, ⟨pending (.write 0x2FFFFF 1 5), 0xFFFFF, 1, 5, by decide⟩,
    ⟨pending (.read 0x2FFFFE 2), 0xFFFFE, 2, by decide⟩⟩

/-- A 16-bit and a misaligned register access; accesses that leave the IN and the OUT memory by one byte; a 3-byte one. -/
theorem witness_AccessesRefused :
    (∃ (s : State) (a n off : Nat), s.params.Legal ∧ s.host = [.read a n] ∧ off < 256 ∧ a = s.params.regBase + off ∧
      n = 2) ∧
    (∃ (s : State) (a n off : Nat) (v : Word), s.params.Legal ∧ s.host = [.write a n v] ∧ off < 256 ∧
      a = s.params.regBase + off ∧ off % 4 ≠ 0) ∧
    (∃ (s : State) (a n b : Nat), s.params.Legal ∧ s.host = [.read a n] ∧ b < s.params.inCap.toNat ∧
      a = s.params.inBase + b ∧ s.params.inCap.toNat + 1 = b + n) ∧
    ∃ (s : State) (a n b : Nat), s.params.Legal ∧ s.host = [.read a n] ∧ b < s.params.outCap.toNat ∧
      a = s.params.outBase + b ∧ n = 3 :=
  ⟨⟨pending (.read 0xFC 2), 0xFC, 2, 0xFC, by decide⟩, ⟨pending (.write 0x11 4 0), 0x11, 4, 0x11, 0, by decide⟩,
    ⟨pending (.read 0x1FFFFF 2), 0x1FFFFF, 2, 0xFFFFF, by decide⟩, ⟨pending (.read 0x200000 3), 0x200000, 3, 0, by decide⟩⟩

theorem witness_IdleStepAndSoundReset : ∃ s : State, s.host = [] := ⟨State.reset, rfl⟩

/-- A legal state whose step writes a byte. -/
theorem witness_EveryStepKeepsLegal : ∃ s t : State, s.Legal ∧ step s = .next t :=
  have h := exists_next (a := step (State.reset.withFetchWord 32 0x140000C3)) (p := fun t => t.err == 0) (by decide +kernel)
  ⟨State.reset.withFetchWord 32 0x140000C3, h.choose, ⟨⟨by decide, by decide, by decide, by decide, by decide, by decide, by decide, by decide⟩,
    ⟨by decide, by decide, by decide, by decide, fun a (ha : a < 0) => absurd ha (Nat.not_lt_zero a)⟩⟩, h.choose_spec.1⟩

/-- A sound state whose step is `WIN_INSERT 4095`. -/
theorem witness_EveryStepKeepsSound : ∃ s t : State, s.Sound ∧ step s = .next t :=
  have h := exists_next (a := step (State.reset.withFetchWord 32 0x23000FFF)) (p := fun t => t.err == 0) (by decide +kernel)
  ⟨_, h.choose, ⟨HufTree.initial_sound, (Window.initial_empty _).linked⟩, h.choose_spec.1⟩

theorem witness_NoStepGetsStuck : ∃ s : State, s.Sound ∧ s.host ≠ [] :=
  ⟨pending (commandWrite Params.standard 0x40000000), ⟨HufTree.initial_sound, (Window.initial_empty _).linked⟩, by decide⟩

end Sys2Proof.Tests
end

section
/-! SUPPORT. The decoder's formats and rows (30_encoding.md R111, R115): a word decodes to a command of its own opcode. -/

namespace Sys2Proof.Machine

/-! ### Each format (R111): which words it takes and the command it gives -/

theorem check_eq_ok {c : Prop} [Decidable c] {a i : Instr} {e : Illegal} :
    (if c then Except.ok a else .error e) = .ok i ↔ c ∧ a = i := by
  split <;> simp [*]

theorem formatZ_eq_ok {w : Word} {i j : Instr} : formatZ w j = .ok i ↔ w.extractLsb' 0 24 = 0 ∧ j = i :=
  check_eq_ok

theorem formatG_eq_ok {w : Word} {i : Instr} {f : BitVec 5 → Instr} :
    formatG w f = .ok i ↔ (w.extractLsb' 21 3 = 0 ∧ w.extractLsb' 0 16 = 0) ∧ f (fieldN w) = i :=
  check_eq_ok

theorem formatB_eq_ok {w : Word} {i : Instr} {f : BitVec 5 → BitVec 16 → Instr} :
    formatB w f = .ok i ↔ w.extractLsb' 21 3 = 0 ∧ f (fieldN w) (fieldX w) = i :=
  check_eq_ok

theorem formatY_eq_ok {w : Word} {i : Instr} {f : Byte → Instr} :
    formatY w f = .ok i ↔ w.extractLsb' 8 16 = 0 ∧ f (fieldB w) = i :=
  check_eq_ok

theorem formatI_eq_ok {w : Word} {i : Instr} {f : BitVec 16 → Instr} :
    formatI w f = .ok i ↔ fieldHigh w = 0 ∧ f (fieldX w) = i :=
  check_eq_ok

theorem formatIB_eq_ok {w : Word} {i : Instr} {f : BitVec 16 → Byte → Instr} :
    formatIB w f = .ok i ↔ f (fieldX w) (fieldHigh w) = i := by
  rw [formatIB, Except.ok.injEq]

/-- The row for a word's opcode is the row of a command with that opcode (R115). -/
theorem opcode_of_decodeRow {w : Word} {i : Instr} (h : decodeRow w = .ok i) : i.opcode = opcodeOf w := by
  unfold decodeRow at h
  split at h
  case h_33 => cases h
  all_goals
    rename_i hop
    simp only [formatZ_eq_ok, formatG_eq_ok, formatB_eq_ok, formatY_eq_ok, formatI_eq_ok, formatIB_eq_ok,
      Except.ok.injEq] at h
    apply BitVec.eq_of_toNat_eq
    rw [hop]
  case h_1 | h_13 => subst h; rfl
  all_goals
    obtain ⟨-, rfl⟩ := h
    rfl

/-- A word decodes to a command of its own opcode (R115). -/
theorem opcode_of_decode {w : Word} {i : Instr} (h : decode w = .ok i) : i.opcode = opcodeOf w := by
  unfold decode at h
  split at h
  · next j hj =>
    split at h
    · cases h
      exact opcode_of_decodeRow hj
    · cases h
  · cases h

end Sys2Proof.Machine
end

section
/-! SUPPORT. The host's accesses of the register window (10_state.md R32 to R47, R93): which register an offset is, and
what a step does that reads or writes one. -/

namespace Sys2Proof.Machine

/-! ### Offsets of the registers (R32) -/

/-- The offset of a register in the window (R32); for the reserved ones the first of them. -/
def Reg.offset : Reg → Nat
  | .cmd => 0x00
  | .status => 0x04
  | .res0 => 0x08
  | .res1 => 0x0C
  | .opt => 0x10
  | .geom => 0x14
  | .inLen => 0x18
  | .inOffset => 0x1C
  | .outOffset => 0x20
  | .maxExpanded => 0x24
  | .outLen => 0x28
  | .rdPosLo => 0x2C
  | .rdPosHi => 0x30
  | .lzwNext => 0x34
  | .rPos => 0x38
  | .inCapR => 0x3C
  | .outCapR => 0x40
  | .reserved => 0x44

@[simp] theorem regAt_offset (r : Reg) : regAt r.offset = r := by cases r <;> rfl

theorem regAt_reserved {off : Nat} (h : 0x44 ≤ off) : regAt off = .reserved := by
  unfold regAt
  split
  case h_18 => rfl
  all_goals omega

/-- An offset other than a reserved one is the offset of its register. -/
theorem offset_regAt {off : Nat} (h : regAt off ≠ .reserved) : (regAt off).offset = off := by
  unfold regAt at h ⊢
  split at h
  case h_18 => contradiction
  all_goals rfl

theorem regAt_eq_iff {off : Nat} {r : Reg} (hr : r ≠ .reserved) : regAt off = r ↔ off = r.offset := by
  constructor
  · rintro rfl
    exact (offset_regAt hr).symm
  · rintro rfl
    exact regAt_offset r

/-! ### A step that accesses the register window -/

theorem regionAt_window {p : Params} {off : Nat} (h : off < 256) : regionAt p (p.regBase + off) = .window off := by
  unfold regionAt
  rw [if_pos ⟨by omega, by omega⟩, Nat.add_sub_cancel_left]

/-- Only addresses from `REG_BASE` on fall in the window, each at its distance from there. -/
theorem addr_of_regionAt_window {p : Params} {addr off : Nat} (h : regionAt p addr = .window off) :
    addr = p.regBase + off := by
  unfold regionAt at h
  split at h
  · cases h
    omega
  · split at h
    · cases h
    · split at h <;> cases h

theorem step_idle {s : State} (h : s.host = []) : step s = .next s := by
  simp only [step, advance, h]

theorem step_pending {s : State} {e : HostEvent} {rest : List HostEvent} (h : s.host = e :: rest) :
    step s = perform e { s with host := rest } := by
  simp only [step, advance, h]

theorem step_readReg {s : State} {off : Nat} {rest : List HostEvent} (h : off < 256) (ha : off % 4 = 0)
    (hs : s.host = .read (s.params.regBase + off) 4 :: rest) :
    step s = .next { s with host := rest, hostData := some (readReg (regAt off) { s with host := rest }) } := by
  simp only [step_pending hs, perform, hostRead, regionAt_window h]
  exact if_pos ⟨rfl, ha⟩

theorem step_writeReg {s : State} {off : Nat} {v : Word} {rest : List HostEvent} (h : off < 256) (ha : off % 4 = 0)
    (hs : s.host = .write (s.params.regBase + off) 4 v :: rest) :
    step s = writeReg (regAt off) v { s with host := rest } := by
  simp only [step_pending hs, perform, hostWrite, regionAt_window h]
  exact if_pos ⟨rfl, ha⟩

theorem step_commandWrite {s : State} {w : Word} {rest : List HostEvent}
    (hs : s.host = commandWrite s.params w :: rest) : step s = issue w { s with host := rest } :=
  step_writeReg (off := 0) (by omega) rfl hs

/-! ### A command word written to `CMD` (R34, R160) -/

theorem issue_of_ok {w : Word} {i : Instr} (s : State) (h : decode w = .ok i) : issue w s = exec i s := by
  simp only [issue, h]

theorem issue_of_error {w : Word} {e : Illegal} (s : State) (h : decode w = .error e) :
    issue w s = .next (illegalWord w s) := by
  simp only [issue, h]

/-- Settles O5: the write falls on offset 0 of the window, which is `CMD`. -/
theorem stepRunsDecodedCommand : Obligations.StepRunsDecodedCommand := by
  intro s w rest hs
  rw [step_commandWrite hs]
  exact ⟨fun i h => issue_of_ok _ h, fun e h => issue_of_error _ h⟩

theorem resetWith_status (p : Params) : (State.resetWith p).status = 0 := by
  simp [State.status, State.busy, State.lzwFull, Lzw.initial]

/-- Settles O11: no register's reset value depends on the parameters but the two that show them. -/
theorem resetRegisterWindow : Obligations.ResetRegisterWindow := by
  intro p
  refine ⟨rfl, resetWith_status p, rfl, rfl, rfl, rfl, rfl, rfl, rfl, rfl, rfl, rfl,
    congrArg (BitVec.ofNat 32) (Nat.zero_div _), rfl, rfl, rfl, rfl, fun off h => ?_⟩
  rw [regAt_reserved h]
  rfl

/-! ### Reads (R35 to R47, R91) -/

/-- Each bit of `STATUS` (R35); `BUSY` reads 0 (R52). -/
theorem status_getLsbD (s : State) (k : Nat) :
    s.status.getLsbD k =
      if k < 8 then s.err.getLsbD k
      else if k = 8 then s.rd.ovr
      else if k = 9 then s.lzw.done
      else decide (k = 10) && s.lzwFull := by
  have split_fields : s.status.getLsbD k =
      BitVec.getLsbD (w := 1 + 20 + 1 + 1 + 1 + 8)
        (0#1 ++ 0#20 ++ BitVec.ofBool s.lzwFull ++ BitVec.ofBool s.lzw.done ++ BitVec.ofBool s.rd.ovr ++ s.err) k := rfl
  rw [split_fields]
  simp only [BitVec.getLsbD_append, BitVec.getLsbD_ofBool, BitVec.getLsbD_zero]
  grind

theorem status_err (s : State) : s.status.extractLsb' 0 8 = s.err := by
  refine BitVec.eq_of_getLsbD_eq fun k hk => ?_
  rw [BitVec.getLsbD_extractLsb', status_getLsbD, Nat.zero_add, if_pos hk, decide_eq_true hk, Bool.true_and]

theorem status_reserved (s : State) : s.status.extractLsb' 11 21 = 0 := by
  refine BitVec.eq_of_getLsbD_eq fun k hk => ?_
  rw [BitVec.getLsbD_extractLsb', status_getLsbD, if_neg (by omega), if_neg (by omega), if_neg (by omega),
    decide_eq_false (show ¬ 11 + k = 10 by omega), Bool.false_and, Bool.and_false]
  exact BitVec.getLsbD_zero.symm

/-- `STATUS` field by field (R35, R51). -/
theorem status_fields (s : State) :
    s.status.extractLsb' 0 8 = s.err ∧ s.status.getLsbD 8 = s.rd.ovr ∧ s.status.getLsbD 9 = s.lzw.done ∧
      (s.status.getLsbD 10 = true ↔ s.lzw.next = 4096) ∧ s.status.extractLsb' 11 21 = 0 := by
  refine ⟨status_err s, status_getLsbD s 8, status_getLsbD s 9, ?_, status_reserved s⟩
  rw [status_getLsbD]
  exact decide_eq_true_iff

/-- Settles O52: the read returns `readReg` of the offset's register, which is the register's own field. -/
theorem registerReadValues : Obligations.RegisterReadValues := by
  intro s off rest h ha hs
  refine ⟨_, step_readReg h ha hs, ?_, ?status, ?_, ?_, ?_, ?_, ?_, ?_, ?_, ?_, ?_, ?rdPosLo, ?rdPosHi, ?lzwNext, ?rPos,
    ?_, ?_, ?reserved⟩
  case status => rintro rfl; exact status_fields { s with host := rest }
  case rdPosLo => rintro rfl; exact BitVec.toNat_ofNat ..
  case rdPosHi => rintro rfl; exact BitVec.toNat_ofNat ..
  case lzwNext =>
    rintro rfl hn
    exact (BitVec.toNat_ofNat ..).trans (Nat.mod_eq_of_lt (Nat.lt_of_le_of_lt hn (by decide)))
  case rPos => rintro rfl; exact (BitVec.toNat_ofNat ..).trans (Nat.mod_eq_of_lt (by omega))
  case reserved => intro hr; rw [regAt_reserved hr]; rfl
  all_goals rintro rfl; rfl

/-! ### Writes (R33, R36 to R41) -/

theorem optMask_getLsbD {k : Nat} (h : k < 32) : optMask.getLsbD k = decide (k ≤ 2 ∨ 8 ≤ k ∧ k ≤ 15) := by
  revert k
  decide

theorem min_inCap_toNat (v c : Word) : (if v ≤ c then v else c).toNat = min v.toNat c.toNat := by
  split <;> bv_omega

/-- A write of a register other than `CMD`: each read-write register takes its own write, nothing else does (R33). -/
theorem writeReg_eq {r : Reg} (hr : r ≠ .cmd) (v : Word) (s : State) :
    writeReg r v s = .next { s with
      opt := if r = .opt then v &&& optMask else s.opt
      inp := { s.inp with
        len := if r = .inLen then (if v ≤ s.params.inCap then v else s.params.inCap) else s.inp.len }
      inOffset := if r = .inOffset then v else s.inOffset
      outOffset := if r = .outOffset then v else s.outOffset
      maxExpanded := if r = .maxExpanded then v else s.maxExpanded } := by
  cases r
  case cmd => contradiction
  all_goals rfl

/-- Settles O53, by `writeReg_eq` at the register of the offset. -/
theorem registerWriteEffects : Obligations.RegisterWriteEffects := by
  intro s off v rest h4 h ha hs
  have hcmd : regAt off ≠ .cmd := by
    intro hr
    have h0 : off = 0 := (regAt_eq_iff (by decide)).1 hr
    omega
  have hopt : regAt off = .opt ↔ off = 0x10 := regAt_eq_iff (by decide)
  have hlen : regAt off = .inLen ↔ off = 0x18 := regAt_eq_iff (by decide)
  have hin : regAt off = .inOffset ↔ off = 0x1C := regAt_eq_iff (by decide)
  have hout : regAt off = .outOffset ↔ off = 0x20 := regAt_eq_iff (by decide)
  have hmax : regAt off = .maxExpanded ↔ off = 0x24 := regAt_eq_iff (by decide)
  rw [step_writeReg h ha hs, writeReg_eq hcmd]
  simp only [hopt, hlen, hin, hout, hmax]
  refine ⟨_, rfl, rfl, fun k hk => ?_, ?_, rfl, rfl, rfl⟩
  · dsimp only
    split
    · rw [BitVec.getLsbD_and, optMask_getLsbD hk, Bool.and_comm]
    · rfl
  · dsimp only
    split
    · exact min_inCap_toNat _ _
    · rfl

/-! ### The error state (R48, R160) -/

/-- Everything a command can answer with a next state: the control commands' own effects, or, for every other command,
what its procedure leads to behind the gate of R160. -/
theorem exec_next {i : Instr} {s t : State} (h : exec i s = .next t) :
    (i = .nop ∧ t = s) ∨ (i = .reset ∧ t = resetBlock .command s) ∨ (i = .clrerr ∧ t = clearError s) ∨
    (i ≠ .nop ∧ i ≠ .reset ∧ i ≠ .clrerr ∧ command (procedure i) s = .next t) := by
  by_cases h1 : i = .nop
  · subst h1
    cases h
    exact .inl ⟨rfl, rfl⟩
  by_cases h2 : i = .reset
  · subst h2
    cases h
    exact .inr (.inl ⟨rfl, rfl⟩)
  by_cases h3 : i = .clrerr
  · subst h3
    cases h
    exact .inr (.inr (.inl ⟨rfl, rfl⟩))
  rw [exec_eq_command s h1 h2 h3] at h
  exact .inr (.inr (.inr ⟨h1, h2, h3, h⟩))

/-- While `ERR ≠ 0` a command that R160 gates is ignored. -/
theorem exec_ignored {i : Instr} {s : State} (he : s.err ≠ 0) (h1 : i ≠ .nop) (h2 : i ≠ .reset) (h3 : i ≠ .clrerr) :
    exec i s = .next s := by
  rw [exec_eq_command s h1 h2 h3, command_ignored he]

/-- While `ERR ≠ 0` an illegal word whose opcode R160 does not check is ignored. -/
theorem illegalWord_ignored {w : Word} {s : State} (he : s.err ≠ 0) (h1 : opcodeOf w ≠ 1) (h2 : opcodeOf w ≠ 2) :
    illegalWord w s = s :=
  if_pos ⟨he, Bool.or_eq_false_iff.2 ⟨beq_false_of_ne h1, beq_false_of_ne h2⟩⟩

theorem issue_ignored {w : Word} {s : State} (he : s.err ≠ 0) (h0 : opcodeOf w ≠ 0) (h1 : opcodeOf w ≠ 1)
    (h2 : opcodeOf w ≠ 2) : issue w s = .next s := by
  cases hd : decode w with
  | ok i =>
    have hi := opcode_of_decode hd
    rw [issue_of_ok s hd]
    refine exec_ignored he ?_ ?_ ?_ <;> rintro rfl
    · exact h0 hi.symm
    · exact h1 hi.symm
    · exact h2 hi.symm
  | error e => rw [issue_of_error s hd, illegalWord_ignored he h1 h2]

/-- An illegal word keeps an error that is there: the error entry does not replace it (R384). -/
theorem illegalWord_err {w : Word} {s : State} (he : s.err ≠ 0) : (illegalWord w s).err = s.err := by
  unfold illegalWord
  split
  · rfl
  · rw [errorEntry_err, if_neg he]

/-- In an error state only `RESET` and `CLRERR` change `ERR`, and they clear it. -/
theorem issue_err_changed {w : Word} {s t : State} (he : s.err ≠ 0) (h : issue w s = .next t) (hne : t.err ≠ s.err) :
    t.err = 0 ∧ (decode w = .ok .reset ∨ decode w = .ok .clrerr) := by
  cases hd : decode w with
  | error e =>
    rw [issue_of_error s hd] at h
    cases h
    exact absurd (illegalWord_err he) hne
  | ok i =>
    rw [issue_of_ok s hd] at h
    rcases exec_next h with ⟨_, rfl⟩ | ⟨rfl, rfl⟩ | ⟨rfl, rfl⟩ | ⟨_, _, _, hc⟩
    · exact absurd rfl hne
    · exact ⟨rfl, .inl rfl⟩
    · exact ⟨rfl, .inr rfl⟩
    · rw [command_ignored he] at hc
      cases hc
      exact absurd rfl hne

/-! ### What a host access does -/

/-- A host read changes only what the host sees (R91). -/
theorem hostRead_next {addr width : Nat} {s t : State} (h : hostRead addr width s = .next t) :
    ∃ d, t = { s with hostData := d } := by
  unfold hostRead at h
  split at h
  case h_4 => cases h
  all_goals
    split at h
    · cases h
      exact ⟨_, rfl⟩
    · cases h

/-- Everything a host write can do: write a register, write bytes inside the IN memory, or nothing (R33, R81, R84). -/
theorem hostWrite_next {addr width : Nat} {data : Word} {s t : State} (h : hostWrite addr width data s = .next t) :
    (∃ off, addr = s.params.regBase + off ∧ width = 4 ∧ writeReg (regAt off) data s = .next t) ∨
    (∃ a, a + width ≤ s.params.inCap.toNat ∧
      t = { s with inp := { s.inp with mem := s.inp.mem.writeBytes a data 0 width } }) ∨
    t = s := by
  unfold hostWrite at h
  split at h
  · next off hr =>
    split at h
    · next hok => exact .inl ⟨off, addr_of_regionAt_window hr, hok.1, h⟩
    · cases h
  · next a hr =>
    split at h
    · next hok =>
      cases h
      exact .inr (.inl ⟨a, hok.2, rfl⟩)
    · cases h
  · split at h
    · cases h
      exact .inr (.inr rfl)
    · cases h
  · cases h

theorem hostWrite_err_changed {addr width : Nat} {data : Word} {s t : State} (he : s.err ≠ 0)
    (h : hostWrite addr width data s = .next t) (hne : t.err ≠ s.err) :
    t.err = 0 ∧ HostEvent.write addr width data = commandWrite s.params data ∧
      (decode data = .ok .reset ∨ decode data = .ok .clrerr) := by
  rcases hostWrite_next h with ⟨off, rfl, rfl, hw⟩ | ⟨a, _, rfl⟩ | rfl
  · by_cases hr : regAt off = .cmd
    · obtain rfl := (regAt_eq_iff (by decide)).1 hr
      rw [hr] at hw
      obtain ⟨h0, hd⟩ := issue_err_changed he hw hne
      exact ⟨h0, rfl, hd⟩
    · rw [writeReg_eq hr] at hw
      cases hw
      exact absurd rfl hne
  · exact absurd rfl hne
  · exact absurd rfl hne

/-- Settles O7: an ignored command leaves the state, and of a step's events only a power-on and a write to `CMD` reach
`ERR`. -/
theorem errorStateIgnoresCommands : Obligations.ErrorStateIgnoresCommands := by
  intro s he
  refine ⟨fun i h1 h2 h3 => exec_ignored he h1 h2 h3, fun w h0 h1 h2 => issue_ignored he h0 h1 h2, fun t h hne => ?_⟩
  cases hs : s.host with
  | nil =>
    rw [step_idle hs] at h
    cases h
    exact absurd rfl hne
  | cons e rest =>
    rw [step_pending hs] at h
    cases e with
    | read addr width =>
      obtain ⟨d, rfl⟩ := hostRead_next h
      exact absurd rfl hne
    | write addr width data =>
      obtain ⟨h0, hw, hd⟩ := hostWrite_err_changed (s := { s with host := rest }) he h hne
      exact ⟨h0, .inr ⟨data, rest, congrArg (· :: rest) hw, hd⟩⟩
    | powerOn =>
      cases h
      exact ⟨rfl, .inl ⟨rest, rfl⟩⟩

/-! ### What commands leave of the host's side (R38, R80, R91) -/

/-- The part of the state that the host alone writes is the same in both. -/
structure SameHostSide (s t : State) : Prop where
  params : t.params = s.params
  opt : t.opt = s.opt
  inOffset : t.inOffset = s.inOffset
  outOffset : t.outOffset = s.outOffset
  maxExpanded : t.maxExpanded = s.maxExpanded
  inp : t.inp = s.inp
  host : t.host = s.host
  hostData : t.hostData = s.hostData

theorem SameBut.sameHostSide {p : Parts} {s t : State} (h : SameBut p s t) : SameHostSide s t :=
  ⟨h.params, h.opt, h.inOffset, h.outOffset, h.maxExpanded, h.inp, h.host, h.hostData⟩

theorem SameHostSide.refl (s : State) : SameHostSide s s := ⟨rfl, rfl, rfl, rfl, rfl, rfl, rfl, rfl⟩

theorem SameHostSide.errorEntry {s t : State} (h : SameHostSide s t) (e : ErrCode) :
    SameHostSide s (errorEntry e t) :=
  ⟨h.params, h.opt, h.inOffset, h.outOffset, h.maxExpanded, h.inp, h.host, h.hostData⟩

theorem exec_sameHostSide {i : Instr} {s t : State} (hi : i ≠ .reset) (h : exec i s = .next t) :
    SameHostSide s t := by
  rcases exec_next h with ⟨_, rfl⟩ | ⟨hr, _⟩ | ⟨_, rfl⟩ | ⟨h1, _, h3, _⟩
  · exact .refl t
  · contradiction
  · exact ⟨rfl, rfl, rfl, rfl, rfl, rfl, rfl, rfl⟩
  · rcases exec_cases s h1 hi h3 with ⟨_, h'⟩ | ⟨_, u, h', hu⟩ | ⟨_, e, u, _, h', hu⟩ | ⟨_, why, h'⟩ <;>
      rw [h'] at h <;> cases h
    · exact .refl s
    · exact hu.sameHostSide
    · exact hu.sameHostSide.errorEntry e

/-- Settles O14: `RESET` clears `IN_LEN` and the registers the host writes; every other command keeps the host's side. -/
theorem frameHostSide : Obligations.FrameHostSide := by
  intro i s t h
  by_cases hi : i = .reset
  · subst hi
    cases h
    exact ⟨rfl, rfl, rfl, rfl, fun _ => rfl, fun hne => absurd rfl hne⟩
  · obtain ⟨hp, hopt, hin, hout, hmax, hinp, hhost, hdata⟩ := exec_sameHostSide hi h
    exact ⟨hp, hhost, hdata, by rw [hinp], fun a => by rw [hinp], fun _ => ⟨hopt, by rw [hinp], hin, hout, hmax⟩⟩

end Sys2Proof.Machine
end

section
/-! SUPPORT. The match result across the window's procedures (42_window.md R214 to R221): links written leave `ML` and `MP`
as they are, and a search leaves a legal result. -/

namespace Sys2Proof.Machine.Window

/-- `ML` and `MP` (R56). -/
def matchResult (w : Window) : BitVec 6 × BitVec 12 := (w.ml, w.mp)

/-- What R233 says of `ML` and `MP`: no match, or a length of 2 to 60. -/
structure LegalMatch (w : Window) : Prop where
  ml : w.ml = 0 ∨ (2 ≤ w.ml.toNat ∧ w.ml.toNat ≤ 60)
  mp : w.ml = 0 → w.mp = 0

theorem LegalMatch.of_eq {w w' : Window} (h : w.LegalMatch) (e : w'.matchResult = w.matchResult) : w'.LegalMatch := by
  obtain ⟨hml, hmp⟩ := Prod.mk.inj e
  exact ⟨by rw [hml]; exact h.ml, by rw [hml, hmp]; exact h.mp⟩

theorem legalMatch_of_none {w : Window} (hl : w.ml = 0) (hp : w.mp = 0) : w.LegalMatch := ⟨.inl hl, fun _ => hp⟩

/-! ### Writing links -/

@[simp] theorem matchResult_setDad (w : Window) (v : Option Pos) (x : Option Node) :
    (w.setDad v x).matchResult = w.matchResult := by cases v <;> rfl

@[simp] theorem matchResult_setRight (w : Window) (x : Node) (v : Option Pos) :
    (w.setRight x v).matchResult = w.matchResult := by cases x <;> rfl

theorem matchResult_setLeft {w w' : Window} {x : Node} {v : Option Pos} (h : w.setLeft x v = some w') :
    w'.matchResult = w.matchResult := by
  cases x <;> cases h
  rfl

theorem matchResult_relink {w w' : Window} {x : Option Node} {p : Pos} {v : Option Pos}
    (h : w.relink x p v = some w') : w'.matchResult = w.matchResult := by
  unfold relink at h
  split at h
  · cases h
  · split at h
    · cases h
      exact matchResult_setRight ..
    · exact matchResult_setLeft h

theorem matchResult_attach {w w' : Window} {pos : Pos} {x : Node} {toRight : Bool}
    (h : w.attach pos x toRight = some w') : w'.matchResult = w.matchResult := by
  unfold attach at h
  split at h
  · cases h
    exact matchResult_setRight ..
  · obtain ⟨u, hu, rfl⟩ := Option.map_eq_some_iff.1 h
    exact (matchResult_setLeft hu :)

theorem matchResult_replace {w w' : Window} {p pos : Pos} (h : w.replace p pos = some w') :
    w'.matchResult = w.matchResult := by
  obtain ⟨u, hu, rfl⟩ := Option.map_eq_some_iff.1 h
  exact (matchResult_relink hu).trans (by rw [matchResult_setDad, matchResult_setDad]; rfl)

@[simp] theorem matchResult_takeRight (w : Window) (q p : Pos) : (w.takeRight q p).matchResult = w.matchResult :=
  matchResult_setDad ..

@[simp] theorem matchResult_takeLeft (w : Window) (q p : Pos) : (w.takeLeft q p).matchResult = w.matchResult :=
  matchResult_setDad ..

/-! ### Deletion -/

theorem matchResult_takeLeftmost {w w' : Window} {p r q : Pos} (h : w.takeLeftmost p r = some (q, w')) :
    w'.matchResult = w.matchResult := by
  unfold takeLeftmost at h
  split at h
  · cases h
  · split at h
    · cases h
    · cases h
      rw [matchResult_takeRight, matchResult_setDad]
      rfl

theorem matchResult_takeRightmost {w w' : Window} {p l q : Pos} (h : w.takeRightmost p l = some (q, w')) :
    w'.matchResult = w.matchResult := by
  unfold takeRightmost at h
  split at h
  · cases h
  · split at h
    · cases h
    · cases h
      rw [matchResult_takeLeft, matchResult_setDad]
      rfl

theorem matchResult_successor {w w' : Window} {p r q : Pos} (h : w.successor p r = some (q, w')) :
    w'.matchResult = w.matchResult := by
  unfold successor at h
  split at h
  · cases h
  · next hu =>
    cases h
    rw [matchResult_takeLeft]
    split at hu
    · exact matchResult_takeLeftmost hu
    · cases hu
      rfl

theorem matchResult_predecessor {w w' : Window} {p l q : Pos} (h : w.predecessor p l = some (q, w')) :
    w'.matchResult = w.matchResult := by
  unfold predecessor at h
  split at h
  · cases h
  · next hu =>
    cases h
    rw [matchResult_takeRight]
    split at hu
    · exact matchResult_takeRightmost hu
    · cases hu
      rfl

theorem matchResult_substitute {mode : DelMode} {w w' : Window} {p : Pos} {q : Option Pos}
    (h : w.substitute mode p = some (q, w')) : w'.matchResult = w.matchResult := by
  unfold substitute at h
  split at h
  · cases h
    rfl
  · cases h
    rfl
  · cases mode with
    | succ =>
      obtain ⟨⟨q', u⟩, hu, he⟩ := Option.map_eq_some_iff.1 h
      cases he
      exact matchResult_successor hu
    | pred =>
      obtain ⟨⟨q', u⟩, hu, he⟩ := Option.map_eq_some_iff.1 h
      cases he
      exact matchResult_predecessor hu

/-- Deletion leaves `ML` and `MP` (R219, R234). -/
theorem matchResult_delete {mode : DelMode} {w w' : Window} {p : Pos} (h : w.delete mode p = .ok w') :
    w'.matchResult = w.matchResult := by
  unfold delete at h
  split at h
  · split at h
    · next hd =>
      cases h
      unfold deleteIndexed at hd
      split at hd
      · cases hd
      · next hu =>
        obtain ⟨v, hv, rfl⟩ := Option.map_eq_some_iff.1 hd
        exact ((matchResult_relink hv).trans (matchResult_setDad ..)).trans (matchResult_substitute hu)
    · cases h
  · cases h
    rfl

/-! ### Searching -/

theorem compareFrom_le (w : Window) (pos p : Pos) (n : Nat) : (w.compareFrom pos p n).1 ≤ 60 := by
  induction n with
  | zero => exact Nat.le_refl 60
  | succ n ih =>
    unfold compareFrom
    split
    · exact Nat.le_trans (Nat.sub_le ..) (by omega)
    · split
      · exact Nat.le_trans (Nat.sub_le ..) (by omega)
      · exact ih

/-- A match recorded is of the length it is recorded with, which is at least 2 (R214). -/
theorem LegalMatch.record {w : Window} (h : w.LegalMatch) (pos p : Pos) {i : Nat} (hi : i ≤ 60) :
    (w.record pos p i).1.LegalMatch := by
  unfold Window.record
  split
  · exact h
  · next h2 =>
    split
    · have hl : (BitVec.ofNat 6 i).toNat = i := by
        rw [BitVec.toNat_ofNat]
        omega
      refine ⟨.inr ⟨by rw [hl]; omega, by rw [hl]; exact hi⟩, fun h0 => ?_⟩
      have hz : (BitVec.ofNat 6 i).toNat = 0 := congrArg BitVec.toNat h0
      omega
    · split
      · next hm =>
        refine ⟨h.ml, fun h0 => ?_⟩
        have hz : w.ml.toNat = 0 := by rw [show w.ml = 0 from h0]; rfl
        omega
      · exact h

theorem LegalMatch.search {pos : Pos} {fuel : Nat} {x : Node} {toRight : Bool} {w w' : Window} {e : Ending}
    (h : w.LegalMatch) (hs : search pos fuel x toRight w = some (e, w')) : w'.LegalMatch := by
  induction fuel generalizing x toRight w with
  | zero => cases hs
  | succ n ih =>
    unfold Window.search at hs
    split at hs
    · cases hs
      exact h
    · next p _ =>
      have hr := h.record pos p (compareFrom_le w pos p 59)
      split at hs
      · cases hs
        exact hr
      · exact ih hr hs

theorem legalMatch_noMatch (w : Window) : w.noMatch.LegalMatch := legalMatch_of_none rfl rfl

/-- Insertion leaves a legal match result, whatever was there (R216). -/
theorem legalMatch_insert {w w' : Window} {pos : Pos} (h : w.insert pos = .ok w') : w'.LegalMatch := by
  unfold insert at h
  split at h
  · cases h
  · split at h
    · next hn =>
      cases h
      unfold insertNew at hn
      split at hn
      · cases hn
      · next hs => exact ((legalMatch_noMatch _).search hs).of_eq (matchResult_attach hn)
      · next hs => exact ((legalMatch_noMatch _).search hs).of_eq (matchResult_replace hn)
    · cases h

/-- `Find` leaves a legal match result, whatever was there (R217). -/
theorem legalMatch_find {w w' : Window} {pos : Pos} (h : w.find pos = .ok w') : w'.LegalMatch := by
  unfold find at h
  split at h
  · cases h
  · split at h
    · next hs =>
      cases h
      exact (legalMatch_noMatch w).search hs
    · cases h

end Sys2Proof.Machine.Window
end

section
/-! SUPPORT. Every step as a run of elementary writes: the block's and the host's, each with the condition under which the
rules make it. What every elementary write keeps, every step keeps (`step_writes`). -/

namespace Sys2Proof.Machine

/-! ### The elementary writes -/

/-- An elementary write of the output side with `cap` bytes of OUT memory (R181 to R184). -/
inductive Output.Write (cap : Word) (o : Output) : Output → Prop where
  /-- Discard the output (R184, R384). -/
  | discard : Output.Write cap o { o with len := 0, acc := 0, accN := 0, epoch := o.epoch + 1 }
  /-- One more bit waits in `ACC` (R181). -/
  | shift (b : Bool) : o.accN ≠ 7 → Output.Write cap o { o with acc := o.shiftIn b, accN := o.accN + 1 }
  /-- A byte is appended (R182). -/
  | store (v : Byte) : o.len ≠ cap → Output.Write cap o { o with mem := o.mem.write o.len.toNat v, len := o.len + 1 }
  /-- `ACC` is emptied (R181, R183). -/
  | clear : Output.Write cap o { o with acc := 0, accN := 0 }

/-- An elementary write of the window: the procedures of 42_window.md. -/
inductive Window.Write (mode : DelMode) (w : Window) : Window → Prop where
  | initial (fill : Byte) : Window.Write mode w (.initial fill)
  | byte (p : Pos) (b : Byte) : Window.Write mode w { w with win := w.win.set p b }
  | insert (p : Pos) (w' : Window) : w.insert p = .ok w' → Window.Write mode w w'
  | find (p : Pos) (w' : Window) : w.find p = .ok w' → Window.Write mode w w'
  | delete (p : Pos) (w' : Window) : w.delete mode p = .ok w' → Window.Write mode w w'

/-- An elementary write of the Huffman tree: the procedures of 43_huffman.md. -/
inductive HufTree.Write (t : HufTree) : HufTree → Prop where
  | initial : HufTree.Write t .initial
  | update (y : Sym) (t' : HufTree) : t.update y = some t' → HufTree.Write t t'
  | rescale : HufTree.Write t t.rescale

/-- An elementary write of the LZW unit, by what becomes of `NEXT` (R340, R346, R351). -/
inductive Lzw.Write (l l' : Lzw) : Prop where
  | keepTable : l'.next = l.next → Lzw.Write l l'
  | resetTable : l'.next = 258 → Lzw.Write l l'
  | addEntry : l.next < 4096 → l'.next = l.next + 1 → Lzw.Write l l'

/-- The errors this block's commands raise (R381). -/
def raisedErrors : List ErrCode := [.invalidData, .invalidCode, .sizeExceeded, .unexpectedEof, .illegalCommand]

/-- An elementary write of a state. -/
inductive State.Write (s : State) : State → Prop where
  | results (a b : Word) : State.Write s { s with res0 := a, res1 := b }
  | reader (r : Reader) : State.Write s { s with rd := r }
  | position (r : Pos) : State.Write s { s with r := r }
  | output (o : Output) : s.out.Write s.params.outCap o → State.Write s { s with out := o }
  | window (w : Window) : s.win.Write s.params.delMode w → State.Write s { s with win := w }
  | tree (t : HufTree) : s.huf.Write t → State.Write s { s with huf := t }
  | lzw (l : Lzw) : s.lzw.Write l → State.Write s { s with lzw := l }
  | error (e : ErrCode) : e ∈ raisedErrors → State.Write s (errorEntry e s)
  | clearError : State.Write s (clearError s)
  | reset (k : ResetKind) : State.Write s (resetBlock k s)
  | pending (es : List HostEvent) : State.Write s { s with host := es }
  | seen (d : Option Word) : State.Write s { s with hostData := d }
  | opt (v : Word) : State.Write s { s with opt := v &&& optMask }
  | inLen (v : Word) : v ≤ s.params.inCap → State.Write s { s with inp := { s.inp with len := v } }
  | inOffset (v : Word) : State.Write s { s with inOffset := v }
  | outOffset (v : Word) : State.Write s { s with outOffset := v }
  | maxExpanded (v : Word) : State.Write s { s with maxExpanded := v }
  | inBytes (a n : Nat) (v : Word) : a + n ≤ s.params.inCap.toNat →
    State.Write s { s with inp := { s.inp with mem := s.inp.mem.writeBytes a v 0 n } }

/-- A run of elementary writes. -/
abbrev State.Writes : State → State → Prop := Relation.ReflTransGen State.Write

/-- What every elementary write keeps, every run of them keeps. -/
theorem State.Writes.keeps {I : State → Prop} (hI : ∀ s t, s.Write t → I s → I t) {s t : State} (h : s.Writes t)
    (hs : I s) : I t := by
  induction h with
  | refl => exact hs
  | tail _ hw ih => exact hI _ _ hw ih

/-! ### Procedures as runs of writes -/

/-- However the procedure ends, it has made elementary writes only. -/
def ByWrites {α : Type} (m : Engine State α) : Prop :=
  ∀ s, m.Ends s (fun _ t => s.Writes t) fun _ t => s.Writes t

namespace ByWrites

variable {α β : Type}

theorem pure (a : α) : ByWrites (Pure.pure a) := fun _ => .refl

/-- A procedure after a run of writes from `s`. -/
theorem from_writes {m : Engine State α} (hm : ByWrites m) {s t : State} (h : s.Writes t) :
    m.Ends t (fun _ u => s.Writes u) fun _ u => s.Writes u :=
  (hm t).mono (fun _ _ h' => h.trans h') fun _ _ h' => h.trans h'

theorem bind {m : Engine State α} {f : α → Engine State β} (hm : ByWrites m) (hf : ∀ a, ByWrites (f a)) :
    ByWrites (m >>= f) := fun s => by
  rw [Engine.ends_bind]
  exact (hm s).mono (fun a _ h => (hf a).from_writes h) fun _ _ h => h

theorem get_bind {f : State → Engine State β} (hf : ∀ s, ByWrites (f s)) : ByWrites (get >>= f) :=
  fun s => by rw [Engine.ends_bind, Engine.ends_get]; exact hf s s

theorem ite {c : Prop} [Decidable c] {m n : Engine State α} (hm : ByWrites m) (hn : ByWrites n) :
    ByWrites (if c then m else n) := by split <;> assumption

theorem doIf {c : Prop} [Decidable c] {m : Engine State Unit} (hm : ByWrites m) : ByWrites (Machine.doIf c m) :=
  ite hm (pure ())

theorem stop (e : Stop) : ByWrites (throw e : Engine State α) := fun _ => .refl

theorem raiseIf {c : Prop} [Decidable c] {e : ErrCode} : ByWrites (Machine.raiseIf c e) := ite (stop _) (pure ())

theorem orStuck {why : Fault} {o : Option α} : ByWrites (Machine.orStuck why o) := by
  cases o
  · exact stop _
  · exact pure _

theorem write {f : State → State} (h : ∀ s, State.Write s (f s)) : ByWrites (modify f) := fun s => .single (h s)

/-! ### The shared operations -/

theorem setRes0 {v : Word} : ByWrites (Machine.setRes0 v) := write fun s => .results v s.res1

theorem reading {f : Input → Reader → α × Reader} : ByWrites (Machine.reading f) := fun _ => .single (.reader _)

theorem bitInit : ByWrites Machine.bitInit := fun s =>
  .tail (.single (.reader { pos := 8 * s.inOffset.toNat, ovr := false })) (.output _ .discard)

/-- A procedure over the output side as elementary writes of a state. -/
theorem writing {f : Word → Engine Output α}
    (hf : ∀ s : State, (f s.params.outCap).Ends s.out (fun _ o => s.Writes { s with out := o })
      fun _ o => s.Writes { s with out := o }) : ByWrites (Machine.writing f) := fun s => by
  rw [ends_writing]
  exact hf s

theorem outByte_writes (s : State) (v : Byte) :
    (Output.outByte s.params.outCap v).Ends s.out (fun _ o => s.Writes { s with out := o })
      fun _ o => s.Writes { s with out := o } := by
  by_cases hc : s.out.len = s.params.outCap
  · exact (Engine.ends_of_error (Output.outByte_full hc)).2 .refl
  · rw [Engine.ends_of_ok (Output.outByte_ok hc)]
    exact .single (.output _ (.store v hc))

theorem putBit_writes (s : State) (b : Bool) :
    (Output.putBit s.params.outCap b).Ends s.out (fun _ o => s.Writes { s with out := o })
      fun _ o => s.Writes { s with out := o } := by
  by_cases h7 : s.out.accN = 7
  · by_cases hc : s.out.len = s.params.outCap
    · exact (Engine.ends_of_error (Output.putBit_full h7 hc)).2 .refl
    · rw [Engine.ends_of_ok (Output.putBit_store h7 hc)]
      exact .tail (.single (.output _ (.store _ hc))) (.output _ .clear)
  · rw [Engine.ends_of_ok (Output.putBit_wait h7)]
    exact .single (.output _ (.shift b h7))

theorem flush_writes (s : State) :
    (Output.flush s.params.outCap).Ends s.out (fun _ o => s.Writes { s with out := o })
      fun _ o => s.Writes { s with out := o } := by
  by_cases h0 : s.out.accN = 0
  · exact (Engine.ends_of_ok (Output.flush_none h0)).2 .refl
  · by_cases hc : s.out.len = s.params.outCap
    · exact (Engine.ends_of_error (Output.flush_full h0 hc)).2 .refl
    · rw [Engine.ends_of_ok (Output.flush_store h0 hc)]
      exact .tail (.single (.output _ (.store _ hc))) (.output _ .clear)

theorem putAll_writes (s : State) (bits : List Bool) :
    (Output.putAll s.params.outCap bits).Ends s.out (fun _ o => s.Writes { s with out := o })
      fun _ o => s.Writes { s with out := o } := by
  induction bits generalizing s with
  | nil => exact .refl
  | cons b bits ih =>
    rw [Output.putAll, Engine.ends_bind]
    exact (putBit_writes s b).mono
      (fun _ o h => (ih { s with out := o }).mono (fun _ _ h' => h.trans h') fun _ _ h' => h.trans h') fun _ _ h => h

theorem outByte {v : Byte} : ByWrites (Machine.outByte v) := writing fun s => outByte_writes s v

theorem putAll {bits : List Bool} : ByWrites (Machine.putAll bits) := writing fun s => putAll_writes s bits

theorem putBits {n v : Nat} : ByWrites (Machine.putBits n v) := putAll

theorem flush : ByWrites Machine.flush := writing flush_writes

/-! ### Operands -/

theorem indexBelow {k : Nat} {x : BitVec 16} : ByWrites (Machine.indexBelow k x : Engine State (Fin k)) := by
  unfold Machine.indexBelow
  split
  · exact pure _
  · exact stop _

theorem bitCount {n : BitVec 5} : ByWrites (Machine.bitCount n : Engine State Nat) := ite (pure _) (stop _)

/-! ### The window -/

theorem onWindow_writes {s : State} {f : Window → Except Stop Window}
    (hf : ∀ w, f s.win = .ok w → s.win.Write s.params.delMode w) :
    (Machine.onWindow f).Ends s (fun _ t => s.Writes t) fun _ t => s.Writes t := by
  unfold Engine.Ends Machine.onWindow
  cases hw : f s.win with
  | ok w => exact .single (.window w (hf w hw))
  | error e => exact .refl

theorem insertPos {p : Pos} : ByWrites (Machine.insertPos p) := fun _ => onWindow_writes fun w h => .insert p w h

theorem findPos {p : Pos} : ByWrites (Machine.findPos p) := fun _ => onWindow_writes fun w h => .find p w h

theorem deletePos {p : Pos} : ByWrites (Machine.deletePos p) := fun _ => onWindow_writes fun w h => .delete p w h

theorem writeWin {p : Pos} {b : Byte} : ByWrites (Machine.writeWin p b) := write fun _ => .window _ (.byte p b)

theorem winInit : ByWrites Machine.winInit := write fun s => .window _ (.initial s.fill)

theorem reportMatch : ByWrites Machine.reportMatch := write fun _ => .results _ _

/-! ### The Huffman tree and the distance code -/

theorem hufInit : ByWrites Machine.hufInit := write fun _ => .tree _ .initial

theorem hufEncode {y : Sym} : ByWrites (Machine.hufEncode y) := get_bind fun _ => bind orStuck fun _ => putAll

theorem hufDecode : ByWrites Machine.hufDecode := fun s => by
  unfold Engine.Ends Machine.hufDecode
  cases s.huf.decode s.inp s.rd with
  | some a => exact .single (.reader _)
  | none => exact .refl

theorem hufUpdate {y : Sym} : ByWrites (Machine.hufUpdate y) := fun s => by
  unfold Engine.Ends Machine.hufUpdate
  cases hu : s.huf.update y with
  | some t => exact .single (.tree t (.update y t hu))
  | none => exact .refl

theorem decodePos : ByWrites Machine.decodePos := fun s => by
  unfold Engine.Ends Machine.decodePos
  cases s.rd.decodePos s.inp with
  | some a => exact .single (.reader _)
  | none => exact .refl

/-! ### The codecs' common steps -/

theorem checkOffsets : ByWrites Machine.checkOffsets := get_bind fun _ => raiseIf

theorem checkInputSize : ByWrites Machine.checkInputSize := get_bind fun _ => raiseIf

theorem readIn {a : Nat} : ByWrites (Machine.readIn a) := get_bind fun _ => pure _

theorem copyBytes {a n : Nat} : ByWrites (Machine.copyBytes a n) := by
  induction n generalizing a with
  | zero => exact pure ()
  | succ n ih => exact bind readIn fun _ => bind outByte fun _ => ih

theorem copyPrefix : ByWrites Machine.copyPrefix := get_bind fun _ => copyBytes

theorem reportCompress : ByWrites Machine.reportCompress := write fun _ => .results _ _

theorem reportExpand : ByWrites Machine.reportExpand := write fun _ => .results _ _

/-! ### The LZSS codec -/

theorem writeHeader {n : Nat} : ByWrites (Machine.writeHeader n) :=
  bind outByte fun _ => bind outByte fun _ => bind outByte fun _ => outByte

theorem loadLookahead {n : Nat} {c : Encoding} : ByWrites (Machine.loadLookahead n c) := by
  induction n generalizing c with
  | zero => exact pure _
  | succ n ih => exact get_bind fun _ => ite (bind writeWin fun _ => ih) (pure _)

theorem insertBefore {r : Pos} {n : Nat} : ByWrites (Machine.insertBefore r n) := by
  induction n with
  | zero => exact pure _
  | succ n ih => exact bind insertPos fun _ => ih

theorem startEncoding {ip : Nat} : ByWrites (Machine.startEncoding ip) :=
  bind hufInit fun _ => bind winInit fun _ => bind loadLookahead fun _ => bind insertBefore fun _ =>
    bind insertPos fun _ => pure _

theorem slideOne {c : Encoding} : ByWrites (Machine.slideOne c) :=
  bind deletePos fun _ => get_bind fun _ =>
    ite (bind writeWin fun _ => bind insertPos fun _ => pure _) (ite (bind insertPos fun _ => pure _) (pure _))

theorem slide {n : Nat} {c : Encoding} : ByWrites (Machine.slide n c) := by
  induction n generalizing c with
  | zero => exact pure _
  | succ n ih => exact bind slideOne fun _ => ih

theorem encodeSymbol {y : Sym} : ByWrites (Machine.encodeSymbol y) := bind hufEncode fun _ => hufUpdate

theorem encodeStep {c : Encoding} : ByWrites (Machine.encodeStep c) :=
  get_bind fun _ => ite (bind encodeSymbol fun _ => slide) (bind encodeSymbol fun _ => bind putAll fun _ => slide)

theorem encodeLoop {n : Nat} {c : Encoding} : ByWrites (Machine.encodeLoop n c) := by
  induction n generalizing c with
  | zero => exact ite (pure _) (stop _)
  | succ n ih => exact ite (pure _) (bind encodeStep fun _ => ih)

theorem endEncoding {r : Pos} : ByWrites (Machine.endEncoding r) :=
  get_bind fun _ => bind (doIf encodeSymbol) fun _ => bind flush fun _ => write fun _ => .position r

theorem lzhCompress : ByWrites Machine.lzhCompress :=
  bind checkOffsets fun _ => bind checkInputSize fun _ => bind bitInit fun _ => bind copyPrefix fun _ =>
    get_bind fun _ => bind (doIf writeHeader) fun _ => bind startEncoding fun _ => bind encodeLoop fun _ =>
      bind endEncoding fun _ => reportCompress

theorem readHeader : ByWrites Machine.readHeader :=
  get_bind fun _ => ite
    (bind raiseIf fun _ => bind reading fun _ => bind reading fun _ => bind reading fun _ => bind reading fun _ =>
      bind raiseIf fun _ => pure _)
    (pure _)

theorem emitByte {b : Byte} {c : Decoding} : ByWrites (Machine.emitByte b c) :=
  bind outByte fun _ => bind writeWin fun _ => pure _

theorem copyMatch {n : Nat} {x : Pos} {c : Decoding} : ByWrites (Machine.copyMatch n x c) := by
  induction n generalizing x c with
  | zero => exact pure _
  | succ n ih => exact get_bind fun _ => bind emitByte fun _ => ih

theorem emit {y : Sym} {d n : Nat} {c : Decoding} : ByWrites (Machine.emit y d n c) := ite emitByte copyMatch

theorem readDistance {y : Sym} : ByWrites (Machine.readDistance y) := ite decodePos (pure _)

theorem expandSymbol {size : Option Nat} {y : Sym} {d : Nat} {c : Decoding} :
    ByWrites (Machine.expandSymbol size y d c) :=
  get_bind fun _ => bind raiseIf fun _ => ite (bind raiseIf fun _ => pure _)
    (bind raiseIf fun _ => bind raiseIf fun _ => bind emit fun _ => pure _)

theorem expandStep {size : Option Nat} {c : Decoding} : ByWrites (Machine.expandStep size c) :=
  bind hufDecode fun _ => bind hufUpdate fun _ => bind readDistance fun _ => expandSymbol

theorem expandLoop {size : Option Nat} {n : Nat} {c : Decoding} : ByWrites (Machine.expandLoop size n c) := by
  induction n generalizing c with
  | zero => exact get_bind fun _ => ite (pure _) (stop _)
  | succ n ih =>
    refine get_bind fun _ => ite (pure _) (bind expandStep fun a => ?_)
    cases a
    · exact pure _
    · exact ih

theorem lzhExpand : ByWrites Machine.lzhExpand :=
  bind checkOffsets fun _ => bind bitInit fun _ => bind copyPrefix fun _ => bind readHeader fun _ =>
    bind hufInit fun _ => bind winInit fun _ => get_bind fun _ => bind expandLoop fun c =>
      bind (write fun _ => .position c.r) fun _ => reportExpand

/-! ### The LZW unit -/

theorem lookup_next (l : Lzw) (p : Code) (c : Byte) : (l.lookup p c).2.next = l.next := by
  unfold Lzw.lookup
  split <;> rfl

theorem string_next (l : Lzw) (k : Nat) : (l.string k).2.next = l.next := by
  unfold Lzw.string
  split <;> rfl

theorem onLzw {f : Lzw → α × Lzw} (h : ∀ l, Lzw.Write l (f l).2) : ByWrites (Machine.onLzw f) :=
  fun s => .single (.lzw _ (h s.lzw))

theorem setLzw {f : Lzw → Lzw} (h : ∀ l, Lzw.Write l (f l)) : ByWrites (Machine.setLzw f) :=
  write fun s => .lzw _ (h s.lzw)

theorem lzwInit : ByWrites Machine.lzwInit := setLzw fun _ => .resetTable rfl

theorem emitCode {k : Code} : ByWrites (Machine.emitCode k) :=
  get_bind fun _ =>
    ite putBits (bind putBits fun _ => bind (setLzw fun _ => .keepTable rfl) fun _ => putBits)

theorem clearWhenFull : ByWrites Machine.clearWhenFull :=
  get_bind fun _ => doIf (bind putBits fun _ => setLzw fun _ => .resetTable rfl)

/-- An insertion where `NEXT` shows that the table is not full (R346, R351). -/
theorem addEntry_writes {s : State} (p : Code) (c : Byte) (h : s.lzw.next < 4096) :
    s.Writes { s with lzw := s.lzw.addEntry p c } := .single (.lzw _ (.addEntry h rfl))

theorem growTable {p : Code} {c : Byte} : ByWrites (Machine.growTable p c) := fun s => by
  show (Machine.doIf (s.lzw.next < 4096) _).Ends s _ _
  by_cases h : s.lzw.next < 4096
  · rw [Machine.doIf, if_pos h]
    exact clearWhenFull.from_writes (addEntry_writes p c h)
  · rw [Machine.doIf, if_neg h]
    exact .refl

theorem setPrefix {k : Option Code} : ByWrites (Machine.setPrefix k) := setLzw fun _ => .keepTable rfl

theorem endPrefix {p : Code} {c : Byte} : ByWrites (Machine.endPrefix p c) :=
  bind emitCode fun _ => bind growTable fun _ => setPrefix

theorem lookupCode {p : Code} {c : Byte} : ByWrites (Machine.lookupCode p c) :=
  onLzw fun l => .keepTable (lookup_next l p c)

theorem extendPrefix {p : Code} {c : Byte} {k : Option Code} : ByWrites (Machine.extendPrefix p c k) := by
  cases k
  · exact endPrefix
  · exact setPrefix

theorem encodeAfter {c : Byte} {p : Option Code} : ByWrites (Machine.encodeAfter c p) := by
  cases p with
  | none => exact setPrefix
  | some p =>
    show ByWrites (Machine.lookupCode p c >>= fun k => Machine.extendPrefix p c k)
    refine bind ?_ ?_
    · exact lookupCode
    · exact fun _ => extendPrefix

theorem lzwEncodeByte {c : Byte} : ByWrites (Machine.lzwEncodeByte c) := get_bind fun _ => encodeAfter

theorem emitPrefix {p : Option Code} : ByWrites (Machine.emitPrefix p) := by
  cases p
  · exact pure _
  · exact bind emitCode fun _ => setPrefix

theorem lzwEncodeEnd : ByWrites Machine.lzwEncodeEnd :=
  bind (get_bind fun _ => emitPrefix) fun _ => get_bind fun _ => bind (doIf putBits) fun _ => flush

theorem lzwEncodeBytes {a n : Nat} : ByWrites (Machine.lzwEncodeBytes a n) := by
  induction n generalizing a with
  | zero => exact pure ()
  | succ n ih => exact bind readIn fun _ => bind lzwEncodeByte fun _ => ih

theorem lzwCompress : ByWrites Machine.lzwCompress :=
  bind checkOffsets fun _ => bind checkInputSize fun _ => bind bitInit fun _ => bind copyPrefix fun _ =>
    bind lzwInit fun _ => get_bind fun _ => bind lzwEncodeBytes fun _ => bind lzwEncodeEnd fun _ => reportCompress

theorem outBytes {bs : List Byte} : ByWrites (Machine.outBytes bs) := by
  induction bs with
  | nil => exact pure ()
  | cons b bs ih => exact bind outByte fun _ => ih

/-- A string read (R342): `NEXT` stays. -/
theorem stringOf_writes (s : State) (k : Nat) :
    (Machine.stringOf k).Ends s (fun _ t => s.Writes t ∧ t.lzw.next = s.lzw.next) fun _ t => s.Writes t :=
  ⟨.single (.lzw _ (.keepTable (string_next ..))), string_next ..⟩

/-- An entry is to be added only where the table is not full (R351, R353, R354): a code that is `NEXT` has 12 bits. -/
theorem decodeString_writes (s : State) (k : Code) :
    (Machine.decodeString k).Ends s
      (fun r t => s.Writes t ∧ (r.2 ≠ none → t.lzw.next < 4096)) fun _ t => s.Writes t := by
  show (Machine.stringAfter k s.lzw.next s.lzw.prev).Ends s _ _
  cases s.lzw.prev with
  | none =>
    simp only [Machine.stringAfter, firstCode, Engine.ends_bind, Engine.ends_raiseIf, Engine.ends_pure]
    split
    · exact .refl
    · exact ⟨.refl, fun h => absurd rfl h⟩
  | some p =>
    simp only [Machine.stringAfter, Engine.ends_ite, knownCode, nextCode, Engine.ends_bind, Engine.ends_raise,
      Engine.ends_pure]
    split
    · refine (stringOf_writes s k.toNat).mono (fun _ t h => ⟨h.1, fun hn => ?_⟩) fun _ _ h => h
      rw [h.2]
      by_contra hf
      exact hn (if_neg hf)
    · split
      · next hk =>
        refine (stringOf_writes s p.toNat).mono (fun _ t h => ⟨h.1, fun _ => ?_⟩) fun _ _ h => h
        rw [h.2, ← hk]
        exact k.isLt
      · exact .refl

theorem addNew_writes (s : State) {new : Option (Code × Byte)} (h : new ≠ none → s.lzw.next < 4096) :
    (Machine.addNew new).Ends s (fun _ t => s.Writes t) fun _ t => s.Writes t := by
  cases new with
  | none => exact .refl
  | some e => exact addEntry_writes e.1 e.2 (h nofun)

theorem decodeData {k : Code} : ByWrites (Machine.decodeData k) := fun s => by
  have finish (r : List Byte × Option (Code × Byte)) :
      ByWrites (Machine.outBytes r.1 >>= fun _ =>
        Machine.setLzw (fun l => { l with outCnt := l.outCnt + BitVec.ofNat 32 r.1.length, prev := some k }) >>=
          fun _ => Pure.pure r.1.length) :=
    bind outBytes fun _ => bind (setLzw fun _ => .keepTable rfl) fun _ => pure _
  rw [Machine.decodeData, Engine.ends_bind]
  refine (decodeString_writes s k).mono (fun r t h => ?_) fun _ _ h => h
  obtain ⟨hst, hroom⟩ := h
  rw [Engine.ends_bind, Engine.ends_get, Engine.ends_bind, Engine.ends_raiseIf]
  split
  · exact hst
  · rw [Engine.ends_bind]
    exact (addNew_writes t hroom).mono (fun _ u h => (finish r).from_writes (hst.trans h)) fun _ _ h => hst.trans h

theorem setDone : ByWrites Machine.setDone := setLzw fun _ => .keepTable rfl

theorem endOfInput : ByWrites Machine.endOfInput :=
  get_bind fun _ => bind raiseIf fun _ => bind setDone fun _ => pure _

theorem decodeValue {k : Nat} : ByWrites (Machine.decodeValue k) :=
  ite (bind (setLzw fun _ => .resetTable rfl) fun _ => pure _) (ite (bind setDone fun _ => pure _) decodeData)

theorem lzwDecodeCode : ByWrites Machine.lzwDecodeCode :=
  get_bind fun _ => ite (pure _) (ite endOfInput (bind reading fun _ => decodeValue))

theorem lzwExpandLoop {n : Nat} : ByWrites (Machine.lzwExpandLoop n) := by
  induction n with
  | zero => exact get_bind fun _ => ite (pure _) (stop _)
  | succ n ih => exact get_bind fun _ => ite (pure _) (bind lzwDecodeCode fun _ => ih)

theorem lzwExpand : ByWrites Machine.lzwExpand :=
  bind checkOffsets fun _ => bind bitInit fun _ => bind copyPrefix fun _ => bind lzwInit fun _ => get_bind fun _ =>
    bind lzwExpandLoop fun _ => reportExpand

/-! ### The commands -/

theorem ofProcedure (i : Instr) : ByWrites (procedure i) := by
  cases i
  case nop => exact pure ()
  case reset => exact pure ()
  case clrerr => exact pure ()
  case bitInit => exact bitInit
  case bitGet n => exact bind bitCount fun _ => bind reading fun _ => setRes0
  case bitPut n v => exact bind bitCount fun _ => putBits
  case bitGetByte => exact bind reading fun _ => setRes0
  case bitPutByte b => exact putBits
  case bitCount => exact write fun _ => .results _ _
  case bitFlush => exact flush
  case winInit => exact winInit
  case winRd x => exact bind indexBelow fun _ => write fun s => .results _ s.res1
  case winWr x b => exact bind indexBelow fun _ => writeWin
  case winInsert x => exact bind indexBelow fun _ => bind insertPos fun _ => reportMatch
  case winDelete x => exact bind indexBelow fun _ => deletePos
  case winFind x => exact bind indexBelow fun _ => bind findPos fun _ => reportMatch
  case hufInit => exact hufInit
  case hufEnc x => exact bind indexBelow fun _ => hufEncode
  case hufDec => exact bind hufDecode fun _ => setRes0
  case hufUpd x => exact bind indexBelow fun _ => hufUpdate
  case hufEncPos x => exact bind indexBelow fun _ => putAll
  case hufDecPos => exact bind decodePos fun _ => setRes0
  case hufRescale => exact write fun _ => .tree _ .rescale
  case hufPeek x => exact bind indexBelow fun _ => write fun _ => .results _ _
  case lzhCompress => exact lzhCompress
  case lzhExpand => exact lzhExpand
  case lzwInit => exact lzwInit
  case lzwEncByte b => exact lzwEncodeByte
  case lzwEncEnd => exact lzwEncodeEnd
  case lzwDecCode => exact bind lzwDecodeCode fun _ => setRes0
  case lzwCompress => exact lzwCompress
  case lzwExpand => exact lzwExpand

end ByWrites

theorem raisesOf_raised (i : Instr) : ∀ e ∈ raisesOf i, e ∈ raisedErrors := by
  cases i <;> simp [raisesOf, raisedErrors]

theorem exec_writes {i : Instr} {s t : State} (h : exec i s = .next t) : s.Writes t := by
  rcases exec_next h with ⟨_, rfl⟩ | ⟨_, rfl⟩ | ⟨_, rfl⟩ | ⟨_, _, _, hc⟩
  · exact .refl
  · exact .single (.reset _)
  · exact .single .clearError
  · refine command_next hc (fun _ => .refl) fun _ => ?_
    refine ((ByWrites.ofProcedure i s).and (Bounded.ofProcedure i s)).mono (fun _ _ h => h.1) fun e u h c he => ?_
    obtain ⟨hw, -, hraise⟩ := h
    exact hw.tail (.error c (raisesOf_raised i c (hraise c he)))

theorem illegalWord_writes (w : Word) (s : State) : s.Writes (illegalWord w s) := by
  unfold illegalWord
  split
  · exact .refl
  · exact .single (.error _ (by decide))

theorem issue_writes {w : Word} {s t : State} (h : issue w s = .next t) : s.Writes t := by
  cases hd : decode w with
  | ok i => exact exec_writes (issue_of_ok s hd ▸ h)
  | error e =>
    rw [issue_of_error s hd] at h
    cases h
    exact illegalWord_writes w s

theorem writeReg_writes {r : Reg} {v : Word} {s t : State} (h : writeReg r v s = .next t) : s.Writes t := by
  cases r
  case cmd => exact issue_writes h
  case opt => cases h; exact .single (.opt v)
  case inLen =>
    cases h
    refine .single (.inLen _ ?_)
    split
    · assumption
    · exact BitVec.le_refl _
  case inOffset => cases h; exact .single (.inOffset v)
  case outOffset => cases h; exact .single (.outOffset v)
  case maxExpanded => cases h; exact .single (.maxExpanded v)
  all_goals
    cases h
    exact .refl

theorem perform_writes {e : HostEvent} {s t : State} (h : perform e s = .next t) : s.Writes t := by
  cases e with
  | read addr width =>
    obtain ⟨d, rfl⟩ := hostRead_next h
    exact .single (.seen d)
  | write addr width data =>
    rcases hostWrite_next h with ⟨off, _, _, hw⟩ | ⟨a, ha, rfl⟩ | rfl
    · exact writeReg_writes hw
    · exact .single (.inBytes a width data ha)
    · exact .refl
  | powerOn =>
    cases h
    exact .single (.reset _)

/-- Every step is a run of elementary writes. -/
theorem step_writes {s t : State} (h : step s = .next t) : s.Writes t := by
  cases hs : s.host with
  | nil =>
    rw [step_idle hs] at h
    cases h
    exact .refl
  | cons e rest =>
    rw [step_pending hs] at h
    exact .head (.pending rest) (perform_writes h)

end Sys2Proof.Machine
end

section
/-! SUPPORT. Registers and memories stay legal (10_state.md, 20_memory.md R80, R81): each elementary write keeps them so. -/

namespace Sys2Proof.Machine

/-- The part of `State.Legal` about the output side (R42, R53, R81). -/
structure Output.Legal (cap : Word) (o : Output) : Prop where
  len : o.len ≤ cap
  acc : o.acc.toNat < 2 ^ o.accN.val
  wf : o.mem.wf = true
  below : Memory.below o.mem cap.toNat = true
  valid : ∀ a, a < o.len.toNat → (o.mem.read a).isSome = true

/-- The part about the input side (R38, R80). -/
structure Input.Legal (cap : Word) (i : Input) : Prop where
  len : i.len ≤ cap
  wf : i.mem.wf = true
  below : Memory.below i.mem cap.toNat = true

theorem State.legal_iff (s : State) :
    s.Legal ↔ s.err ∈ [0, 3, 4, 5, 6, 8] ∧ s.opt &&& 0xFFFF00F8 = 0 ∧ s.inp.Legal s.params.inCap ∧
      s.out.Legal s.params.outCap ∧ s.win.LegalMatch ∧ 258 ≤ s.lzw.next ∧ s.lzw.next ≤ 4096 := by
  constructor
  · rintro ⟨⟨herr, hopt, hil, hol, hacc, hml, hmp, hnext⟩, ⟨hiw, hib, how, hob, hov⟩⟩
    exact ⟨herr, hopt, ⟨hil, hiw, hib⟩, ⟨hol, hacc, how, hob, hov⟩, ⟨hml, hmp⟩, hnext⟩
  · rintro ⟨herr, hopt, ⟨hil, hiw, hib⟩, ⟨hol, hacc, how, hob, hov⟩, ⟨hml, hmp⟩, hnext⟩
    exact ⟨⟨herr, hopt, hil, hol, hacc, hml, hmp, hnext⟩, ⟨hiw, hib, how, hob, hov⟩⟩

/-! ### Each part -/

theorem zero_le_word (c : Word) : (0 : Word) ≤ c := BitVec.not_lt.1 BitVec.not_lt_zero

namespace Output

theorem shiftIn_lt {o : Output} (b : Bool) {n : Nat} (h : o.acc.toNat < 2 ^ n) :
    (o.shiftIn b).toNat < 2 ^ (n + 1) := by
  have hp : pushBit o.acc.toNat b < 2 ^ (n + 1) := by
    rw [Nat.pow_succ]
    unfold pushBit
    split <;> omega
  refine Nat.lt_pow_two_of_testBit _ fun k hk => ?_
  by_cases h8 : k < 8
  · rw [shiftIn_toNat o b k h8]
    exact Nat.testBit_lt_two_pow (Nat.lt_of_lt_of_le hp (Nat.pow_le_pow_right (by omega) hk))
  · rw [BitVec.testBit_toNat]
    exact BitVec.getLsbD_of_ge _ _ (by omega)

theorem Legal.discard {cap : Word} {o : Output} (h : o.Legal cap) (epoch : Nat) :
    Legal cap { o with len := 0, acc := 0, accN := 0, epoch := epoch } :=
  ⟨zero_le_word _, Nat.one_pos, h.wf, h.below, fun a (ha : a < 0) => absurd ha (Nat.not_lt_zero a)⟩

theorem legal_empty (cap : Word) (epoch : Nat) : Legal cap { mem := [], len := 0, acc := 0, accN := 0, epoch := epoch } :=
  ⟨zero_le_word _, Nat.one_pos, rfl, rfl, fun a (ha : a < 0) => absurd ha (Nat.not_lt_zero a)⟩

/-- The byte appended is written, in its place below `OUT_CAP` (R42, R81, R182). -/
theorem Legal.store {cap : Word} {o : Output} (h : o.Legal cap) (v : Byte) (hc : o.len ≠ cap) :
    Legal cap { o with mem := o.mem.write o.len.toNat v, len := o.len + 1 } := by
  have hlt : o.len.toNat < cap.toNat := BitVec.lt_def.1 (BitVec.lt_of_le_ne h.len hc)
  have hlen : (o.len + 1).toNat = o.len.toNat + 1 := by bv_omega
  refine ⟨?_, h.acc, Memory.write_wf _ _ h.wf, Memory.write_below _ h.below hlt, fun a ha => ?_⟩
  · rw [BitVec.le_def]
    dsimp only
    omega
  · dsimp only at ha ⊢
    rw [Memory.read_write]
    split
    · rfl
    · exact h.valid a (by omega)

theorem Legal.write {cap : Word} {o o' : Output} (h : o.Legal cap) (hw : o.Write cap o') : o'.Legal cap := by
  cases hw with
  | discard => exact h.discard _
  | shift b h7 =>
    have hn : o.accN.val < 7 := by
      have := o.accN.isLt
      have : o.accN.val ≠ 7 := fun e => h7 (Fin.ext e)
      omega
    have hv : (o.accN + 1).val = o.accN.val + 1 := Fin.val_add_one_of_lt' (by omega)
    refine ⟨h.len, ?_, h.wf, h.below, h.valid⟩
    dsimp only
    rw [hv]
    exact shiftIn_lt b h.acc
  | store v hc => exact h.store v hc
  | clear => exact ⟨h.len, Nat.one_pos, h.wf, h.below, h.valid⟩

end Output

theorem Window.LegalMatch.write {mode : DelMode} {w w' : Window} (h : w.LegalMatch) (hw : w.Write mode w') :
    w'.LegalMatch := by
  cases hw with
  | initial fill => exact legalMatch_of_none rfl rfl
  | byte p b => exact h.of_eq rfl
  | insert p _ hi => exact legalMatch_insert hi
  | find p _ hf => exact legalMatch_find hf
  | delete p _ hd => exact h.of_eq (matchResult_delete hd)

theorem Lzw.Write.next_bounds {l l' : Lzw} (hw : l.Write l') (h : 258 ≤ l.next ∧ l.next ≤ 4096) :
    258 ≤ l'.next ∧ l'.next ≤ 4096 := by
  cases hw <;> omega

theorem Input.Legal.reset {cap : Word} {i : Input} (h : i.Legal cap) (k : ResetKind) : (i.reset k).Legal cap := by
  cases k with
  | power => exact ⟨zero_le_word _, rfl, rfl⟩
  | command => exact ⟨zero_le_word _, h.wf, h.below⟩

theorem Output.Legal.reset {cap : Word} {o : Output} (h : o.Legal cap) (k : ResetKind) : (o.reset k).Legal cap := by
  cases k with
  | power => exact legal_empty _ _
  | command => exact h.discard _

/-- The code an error entry leaves (R48, R384). -/
theorem errorEntry_err_mem {e : ErrCode} {s : State} (he : e ∈ raisedErrors) (h : s.err ∈ [0, 3, 4, 5, 6, 8]) :
    (errorEntry e s).err ∈ [0, 3, 4, 5, 6, 8] := by
  have hcode : ∀ c ∈ raisedErrors, c.code ∈ [0, 3, 4, 5, 6, 8] := by decide
  rw [errorEntry_err]
  split
  · exact hcode e he
  · exact h

/-- The bits `OPT` keeps are not the reserved ones (R33, R36). -/
theorem optMask_reserved (v : Word) : v &&& optMask &&& 0xFFFF00F8 = 0 := by
  rw [BitVec.and_assoc, show optMask &&& 0xFFFF00F8 = 0#32 from rfl]
  exact BitVec.and_zero

theorem optReset_reserved : (0x00002003 : Word) &&& 0xFFFF00F8 = 0 := by decide

/-- Each elementary write keeps registers and memories legal. -/
theorem State.Legal.write {s t : State} (hw : s.Write t) (h : s.Legal) : t.Legal := by
  rw [State.legal_iff] at h ⊢
  obtain ⟨herr, hopt, hin, hout, hmatch, hnext⟩ := h
  cases hw with
  | output o ho => exact ⟨herr, hopt, hin, hout.write ho, hmatch, hnext⟩
  | window w hw => exact ⟨herr, hopt, hin, hout, hmatch.write hw, hnext⟩
  | lzw l hl => exact ⟨herr, hopt, hin, hout, hmatch, hl.next_bounds hnext⟩
  | error e he => exact ⟨errorEntry_err_mem he herr, hopt, hin, hout.discard _, hmatch, hnext⟩
  | clearError => exact ⟨List.mem_cons_self, hopt, hin, hout, hmatch, hnext⟩
  | reset k =>
    exact ⟨List.mem_cons_self, optReset_reserved, hin.reset k, hout.reset k, Window.legalMatch_of_none rfl rfl,
      Nat.le_refl 258, Nat.le_of_ble_eq_true rfl⟩
  | opt v => exact ⟨herr, optMask_reserved v, hin, hout, hmatch, hnext⟩
  | inLen v hv => exact ⟨herr, hopt, ⟨hv, hin.wf, hin.below⟩, hout, hmatch, hnext⟩
  | inBytes a n v ha =>
    exact ⟨herr, hopt, ⟨hin.len, Memory.writeBytes_wf _ _ _ _ hin.wf, Memory.writeBytes_below _ _ _ hin.below ha⟩, hout,
      hmatch, hnext⟩
  | results | reader | position | tree | pending | seen | inOffset | outOffset | maxExpanded =>
    exact ⟨herr, hopt, hin, hout, hmatch, hnext⟩

/-- Settles O57: a step is a run of elementary writes, each of which keeps the state legal. -/
theorem everyStepKeepsLegal : Obligations.EveryStepKeepsLegal :=
  fun _ _ hs h => (step_writes h).keeps (fun _ _ hw hl => State.Legal.write hw hl) hs

end Sys2Proof.Machine
end

section
/-! SUPPORT. Host accesses of the IN and OUT memories (20_memory.md R80, R81, R84, R93): bytes joined to a word, IN
bytes after a write, and what a step does with an access of each region, whether the model allows it or refuses it. -/

namespace Sys2Proof.Machine

/-! ### Several bytes as a word (R84) -/

namespace Memory

theorem byteSum_lt (byte : Nat → Byte) (n : Nat) :
    ((List.range n).map fun i => (byte i).toNat * 2 ^ (8 * i)).sum < 2 ^ (8 * n) := by
  induction n with
  | zero => exact Nat.one_pos
  | succ n ih =>
    have top : ((byte n).toNat + 1) * 2 ^ (8 * n) ≤ 2 ^ 8 * 2 ^ (8 * n) :=
      Nat.mul_le_mul_right _ (byte n).isLt
    rw [Nat.add_mul] at top
    rw [List.sum_range_succ, show 8 * (n + 1) = 8 + 8 * n by omega, Nat.pow_add]
    omega

/-- Joining up to four bytes is R84's sum: the byte added last lies above the bits of those before it. -/
theorem joinBytes_toNat (byte : Nat → Byte) {n : Nat} (hn : n ≤ 4) :
    (joinBytes byte n).toNat = ((List.range n).map fun i => (byte i).toNat * 2 ^ (8 * i)).sum := by
  induction n with
  | zero => rfl
  | succ n ih =>
    have low := byteSum_lt byte n
    have fits : (byte n).toNat * 2 ^ (8 * n) < 2 ^ 32 :=
      calc (byte n).toNat * 2 ^ (8 * n)
        _ < 2 ^ 8 * 2 ^ (8 * n) := Nat.mul_lt_mul_of_pos_right (byte n).isLt (Nat.two_pow_pos _)
        _ = 2 ^ (8 + 8 * n) := (Nat.pow_add ..).symm
        _ ≤ 2 ^ 32 := Nat.pow_le_pow_right (by decide) (by omega)
    have shifted : ((byte n).setWidth 32 <<< (8 * n)).toNat = (byte n).toNat <<< (8 * n) := by
      rw [BitVec.toNat_shiftLeft, BitVec.toNat_setWidth_of_le (by decide), Nat.shiftLeft_eq, Nat.mod_eq_of_lt fits]
    rw [joinBytes, BitVec.toNat_or, ih (by omega), shifted, Nat.or_comm, ← Nat.shiftLeft_add_eq_or_of_lt low,
      Nat.shiftLeft_eq, Nat.add_comm, List.sum_range_succ]

end Memory

/-- An IN byte after a write of `n` bytes from `a` on: the word's byte inside the write, the old byte outside. -/
theorem Input.byte_writeBytes (inp : Input) (a : Nat) (v : Word) (n b : Nat) :
    { inp with mem := inp.mem.writeBytes a v 0 n }.byte b =
      if a ≤ b ∧ b < a + n then Memory.byteOf v (b - a) else inp.byte b := by
  unfold Input.byte
  rw [Memory.read_writeBytes, Nat.add_zero]
  by_cases h : a ≤ b ∧ b < a + n
  · rw [if_pos h, if_pos h]
  · rw [if_neg h, if_neg h]

/-! ### The regions of the memories (R93) -/

theorem regionAt_inMem {p : Params} {a : Nat} (hp : p.Legal) (ha : a < p.inCap.toNat) :
    regionAt p (p.inBase + a) = .inMem a := by
  obtain ⟨-, -, hreg, -, -⟩ := hp
  unfold regionAt
  rw [if_neg (by omega), if_pos ⟨by omega, by omega⟩, Nat.add_sub_cancel_left]

theorem regionAt_outMem {p : Params} {a : Nat} (hp : p.Legal) (ha : a < p.outCap.toNat) :
    regionAt p (p.outBase + a) = .outMem a := by
  obtain ⟨-, -, -, hreg, hin⟩ := hp
  unfold regionAt
  rw [if_neg (by omega), if_neg (by omega), if_pos ⟨by omega, by omega⟩, Nat.add_sub_cancel_left]

/-! ### A step that accesses a memory, allowed or refused -/

section
variable {s : State} {a n off : Nat} {v : Word} {rest : List HostEvent}

theorem step_readIn (hp : s.params.Legal) (ha : a < s.params.inCap.toNat)
    (hs : s.host = .read (s.params.inBase + a) n :: rest) :
    step s = if memoryAccessOk s.params.inCap a n then .next { s with host := rest, hostData := some (loadIn s a n) }
      else .refused .memoryAccess := by
  simp only [step_pending hs, perform, hostRead, regionAt_inMem hp ha]
  rfl

theorem step_writeIn (hp : s.params.Legal) (ha : a < s.params.inCap.toNat)
    (hs : s.host = .write (s.params.inBase + a) n v :: rest) :
    step s = if memoryAccessOk s.params.inCap a n then
        .next { s with host := rest, inp := { s.inp with mem := s.inp.mem.writeBytes a v 0 n } }
      else .refused .memoryAccess := by
  simp only [step_pending hs, perform, hostWrite, regionAt_inMem hp ha]

theorem step_readOut (hp : s.params.Legal) (ha : a < s.params.outCap.toNat)
    (hs : s.host = .read (s.params.outBase + a) n :: rest) :
    step s = if memoryAccessOk s.params.outCap a n then .next { s with host := rest, hostData := some (loadOut s a n) }
      else .refused .memoryAccess := by
  simp only [step_pending hs, perform, hostRead, regionAt_outMem hp ha]
  rfl

theorem step_writeOut (hp : s.params.Legal) (ha : a < s.params.outCap.toNat)
    (hs : s.host = .write (s.params.outBase + a) n v :: rest) :
    step s = if memoryAccessOk s.params.outCap a n then .next { s with host := rest }
      else .refused .memoryAccess := by
  simp only [step_pending hs, perform, hostWrite, regionAt_outMem hp ha]

/-- A register access of another width or alignment than R89 allows is refused, whether it reads or writes. -/
theorem step_window_refused (h : off < 256) (hbad : ¬ registerAccessOk off n)
    (hs : s.host = .read (s.params.regBase + off) n :: rest ∨ s.host = .write (s.params.regBase + off) n v :: rest) :
    step s = .refused .registerAccess := by
  rcases hs with hs | hs
  · simp only [step_pending hs, perform, hostRead, regionAt_window h]
    exact if_neg hbad
  · simp only [step_pending hs, perform, hostWrite, regionAt_window h]
    exact if_neg hbad

end

theorem not_memoryAccessOk {cap : Word} {a n : Nat} (h : ¬ (n = 1 ∨ n = 2 ∨ n = 4) ∨ cap.toNat < a + n) :
    ¬ memoryAccessOk cap a n :=
  fun ⟨hwidth, hin⟩ => h.elim (· hwidth) (Nat.not_lt.2 hin)

/-- Settles O54: each access is an allowed one of its region; a write's bytes are those of `Input.byte_writeBytes`, a
read's value is the sum of `Memory.joinBytes_toNat`. -/
theorem hostMemoryAccesses : Obligations.HostMemoryAccesses := by
  intro s a n rest hn hp
  have hn4 : n ≤ 4 := by omega
  refine ⟨fun hcap => ?_, fun hcap => ?_⟩
  · have ha : a < s.params.inCap.toNat := by omega
    refine ⟨fun v hs => ⟨_, (step_writeIn hp ha hs).trans (if_pos ⟨hn, hcap⟩), rfl, fun i hi => ?inside,
      fun b hb => ?outside⟩, fun hs => ⟨_, (step_readIn hp ha hs).trans (if_pos ⟨hn, hcap⟩),
      Memory.joinBytes_toNat _ hn4⟩⟩
    case inside =>
      rw [Input.byte_writeBytes, if_pos (by omega), Nat.add_sub_cancel_left]
      rfl
    case outside => rw [Input.byte_writeBytes, if_neg (by omega)]
  · have ha : a < s.params.outCap.toNat := by omega
    exact ⟨fun v hs => (step_writeOut hp ha hs).trans (if_pos ⟨hn, hcap⟩),
      fun hs => ⟨_, (step_readOut hp ha hs).trans (if_pos ⟨hn, hcap⟩), Memory.joinBytes_toNat _ hn4⟩⟩

/-- Settles O55: an access of each region that fails the region's check is refused by it. -/
theorem accessesRefused : Obligations.AccessesRefused := by
  intro s a n v rest hp hs
  refine ⟨?register, ?inMem, ?outMem⟩
  case register =>
    rintro off hoff rfl hbad
    exact step_window_refused hoff (not_and_or.2 hbad) hs
  case inMem =>
    rintro b hb rfl hbad
    rcases hs with hs | hs
    · exact (step_readIn hp hb hs).trans (if_neg (not_memoryAccessOk hbad))
    · exact (step_writeIn hp hb hs).trans (if_neg (not_memoryAccessOk hbad))
  case outMem =>
    rintro b hb rfl hbad
    rcases hs with hs | hs
    · exact (step_readOut hp hb hs).trans (if_neg (not_memoryAccessOk hbad))
    · exact (step_writeOut hp hb hs).trans (if_neg (not_memoryAccessOk hbad))

end Sys2Proof.Machine
end

section
/-! SUPPORT. Encoding and decoding (30_encoding.md R110 to R117): the row a command's word is decoded by, and the words
that decode to a given command. -/

namespace Sys2Proof.Machine

/-! ### The operand field, cut into its parts (R111, R112) -/

/-- The operand field of a word, bits 23..0 (R110). -/
def operandsOf (w : Word) : BitVec 24 := w.extractLsb' 0 24

theorem extractLsb'_eq_append {k : Nat} (x : BitVec k) (lo m n : Nat) {a : BitVec m} {b : BitVec n} :
    x.extractLsb' lo (m + n) = a ++ b ↔ x.extractLsb' (lo + n) m = a ∧ x.extractLsb' lo n = b := by
  rw [← BitVec.extractLsb'_append_extractLsb'_eq_extractLsb' rfl]
  refine ⟨fun h => ⟨?_, ?_⟩, fun ⟨hhigh, hlow⟩ => by rw [hhigh, hlow]⟩
  · simpa only [BitVec.extractLsb'_append_eq_left] using congrArg (BitVec.extractLsb' n m) h
  · simpa only [BitVec.extractLsb'_append_eq_right] using congrArg (BitVec.extractLsb' 0 n) h

theorem append_eq_operandsOf {w : Word} {a : BitVec 8} {b : BitVec 16} :
    a ++ b = operandsOf w ↔ fieldHigh w = a ∧ fieldX w = b :=
  eq_comm.trans (extractLsb'_eq_append w 0 8 16)

theorem byte_eq_operandsOf {w : Word} {a : BitVec 16} {b : Byte} :
    a ++ b = operandsOf w ↔ w.extractLsb' 8 16 = a ∧ fieldB w = b :=
  eq_comm.trans (extractLsb'_eq_append w 0 16 8)

theorem count_eq_operandsOf {w : Word} {a : BitVec 3} {n : BitVec 5} {v : BitVec 16} :
    a ++ n ++ v = operandsOf w ↔ (w.extractLsb' 21 3 = a ∧ fieldN w = n) ∧ fieldX w = v := by
  rw [append_eq_operandsOf]
  exact and_congr_left' (extractLsb'_eq_append w 16 3 5)

theorem opcodeOf_append_operandsOf (w : Word) : opcodeOf w ++ operandsOf w = w :=
  BitVec.extractLsb'_append_extractLsb' (w := 8) (len := 24)

theorem opcodeOf_encode (i : Instr) : opcodeOf (encode i) = i.opcode := Laws.Rows.opcode_append _ _

theorem operandsOf_encode (i : Instr) : operandsOf (encode i) = i.operandField := BitVec.extractLsb'_append_eq_right

/-! ### Each format (R111): the operand fields that give a command -/

theorem formatZ_eq_self {w : Word} {i : Instr} : formatZ w i = .ok i ↔ 0 = operandsOf w := by
  rw [formatZ_eq_ok, and_iff_left rfl]
  exact eq_comm

theorem formatG_eq_of {w : Word} {f : BitVec 5 → Instr} (hf : Function.Injective f) {n : BitVec 5} :
    formatG w f = .ok (f n) ↔ 0#3 ++ n ++ 0#16 = operandsOf w := by
  rw [formatG_eq_ok, hf.eq_iff, count_eq_operandsOf, and_right_comm]
  rfl

theorem formatB_eq_of {w : Word} {n : BitVec 5} {v : BitVec 16} :
    formatB w .bitPut = .ok (.bitPut n v) ↔ 0#3 ++ n ++ v = operandsOf w := by
  rw [formatB_eq_ok, Instr.bitPut.injEq, count_eq_operandsOf, and_assoc]
  rfl

theorem formatY_eq_of {w : Word} {f : Byte → Instr} (hf : Function.Injective f) {b : Byte} :
    formatY w f = .ok (f b) ↔ 0#16 ++ b = operandsOf w := by
  rw [formatY_eq_ok, hf.eq_iff, byte_eq_operandsOf]
  rfl

theorem formatI_eq_of {w : Word} {f : BitVec 16 → Instr} (hf : Function.Injective f) {x : BitVec 16} :
    formatI w f = .ok (f x) ↔ 0#8 ++ x = operandsOf w := by
  rw [formatI_eq_ok, hf.eq_iff, append_eq_operandsOf]
  rfl

theorem formatIB_eq_of {w : Word} {x : BitVec 16} {b : Byte} :
    formatIB w .winWr = .ok (.winWr x b) ↔ b ++ x = operandsOf w := by
  rw [formatIB_eq_ok, Instr.winWr.injEq, append_eq_operandsOf, and_comm]

/-! ### The row of a command (R115) -/

/-- What a word with a command's opcode is decoded by: the format of the command's row (R115). -/
def decodeByRowOf (i : Instr) (w : Word) : Except Illegal Instr :=
  match i with
  | .nop => .ok .nop
  | .bitGet _ => formatG w .bitGet
  | .bitPut _ _ => formatB w .bitPut
  | .bitPutByte _ => formatY w .bitPutByte
  | .winRd _ => formatI w .winRd
  | .winWr _ _ => formatIB w .winWr
  | .winInsert _ => formatI w .winInsert
  | .winDelete _ => formatI w .winDelete
  | .winFind _ => formatI w .winFind
  | .hufEnc _ => formatI w .hufEnc
  | .hufUpd _ => formatI w .hufUpd
  | .hufEncPos _ => formatI w .hufEncPos
  | .hufPeek _ => formatI w .hufPeek
  | .lzwEncByte _ => formatY w .lzwEncByte
  | i => formatZ w i

/-- The decoder's row for a word is that of any command with its opcode (R115). -/
theorem decodeRow_of_opcode {w : Word} (i : Instr) (h : i.opcode = opcodeOf w) : decodeRow w = decodeByRowOf i w := by
  unfold decodeRow
  rw [← h]
  cases i <;> rfl

/-- A word decodes by its row to a command of its own opcode whose operand field it holds; `NOP` takes every operand
field (R117). -/
theorem decodeRow_eq_ok {w : Word} {i : Instr} :
    decodeRow w = .ok i ↔ i.opcode = opcodeOf w ∧ (i ≠ .nop → i.operandField = operandsOf w) := by
  suffices h : decodeByRowOf i w = .ok i ↔ (i ≠ .nop → i.operandField = operandsOf w) from
    ⟨fun hd => have hop := opcode_of_decodeRow hd
      ⟨hop, h.1 (decodeRow_of_opcode i hop ▸ hd)⟩, fun ⟨hop, hf⟩ => (decodeRow_of_opcode i hop).trans (h.2 hf)⟩
  by_cases hnop : i = .nop
  · subst hnop
    exact iff_of_true rfl (absurd rfl)
  rw [imp_iff_right hnop]
  cases i
  case nop => exact absurd rfl hnop
  case bitGet => exact formatG_eq_of fun _ _ => Instr.bitGet.inj
  case bitPut => exact formatB_eq_of
  case bitPutByte => exact formatY_eq_of fun _ _ => Instr.bitPutByte.inj
  case lzwEncByte => exact formatY_eq_of fun _ _ => Instr.lzwEncByte.inj
  case winWr => exact formatIB_eq_of
  case winRd => exact formatI_eq_of fun _ _ => Instr.winRd.inj
  case winInsert => exact formatI_eq_of fun _ _ => Instr.winInsert.inj
  case winDelete => exact formatI_eq_of fun _ _ => Instr.winDelete.inj
  case winFind => exact formatI_eq_of fun _ _ => Instr.winFind.inj
  case hufEnc => exact formatI_eq_of fun _ _ => Instr.hufEnc.inj
  case hufUpd => exact formatI_eq_of fun _ _ => Instr.hufUpd.inj
  case hufEncPos => exact formatI_eq_of fun _ _ => Instr.hufEncPos.inj
  case hufPeek => exact formatI_eq_of fun _ _ => Instr.hufPeek.inj
  all_goals exact formatZ_eq_self

theorem decode_eq_ok {w : Word} {i : Instr} : decode w = .ok i ↔ decodeRow w = .ok i ∧ i.wellFormed = true := by
  unfold decode
  cases decodeRow w with
  | error e => simp
  | ok j =>
    by_cases hj : j.wellFormed = true
    · simp only [hj, if_true, Except.ok.injEq]
      exact ⟨fun h => ⟨h, h ▸ hj⟩, And.left⟩
    · simp only [hj, Except.ok.injEq]
      exact ⟨nofun, fun ⟨h, hi⟩ => absurd (h ▸ hi) hj⟩

/-- Settles O1: each word is evaluated. -/
theorem decodeWrittenWords : Obligations.DecodeWrittenWords := by
  unfold Obligations.DecodeWrittenWords
  decide

/-- Settles O2: the encoded word has the command's opcode and holds its operand field. -/
theorem decodeOfEncodeIsSame : Obligations.DecodeOfEncodeIsSame := by
  intro i hi
  have hrow : decodeRow (encode i) = .ok i :=
    decodeRow_eq_ok.2 ⟨(opcodeOf_encode i).symm, fun _ => (operandsOf_encode i).symm⟩
  exact decode_eq_ok.2 ⟨hrow, hi⟩

theorem opcode_eq_zero {i : Instr} : i.opcode = 0 ↔ i = .nop := by
  cases i <;> simp [Instr.opcode]

/-- Settles O3: a word is its opcode and its operand field, and outside the hint space the command determines both. -/
theorem encodeOfDecodeIsSame : Obligations.EncodeOfDecodeIsSame := by
  intro w i h
  obtain ⟨hrow, hwf⟩ := decode_eq_ok.1 h
  obtain ⟨hop, hfield⟩ := decodeRow_eq_ok.1 hrow
  refine ⟨hwf, fun hne => ?_, hop ▸ opcode_eq_zero⟩
  have hnop : i ≠ .nop := fun hi => hne (hop ▸ opcode_eq_zero.2 hi)
  rw [encode, hop, hfield hnop, opcodeOf_append_operandsOf]

end Sys2Proof.Machine
end

section
/-! SUPPORT. The rows of R115 as data (30_encoding.md R111, R113, R386): a word's row decides how it decodes. -/

namespace Sys2Proof.Machine

/-! ### A row's checks as checks of fields -/

/-- The mask of `n` bits from bit `lo` on. -/
def fieldMask (lo n : Nat) : Word := (BitVec.allOnes n).setWidth 32 <<< lo

theorem getLsbD_fieldMask {lo n k : Nat} (hk : k < 32) :
    (fieldMask lo n).getLsbD k = decide (lo ≤ k ∧ k < lo + n) := by
  simp only [fieldMask, BitVec.getLsbD_shiftLeft, BitVec.getLsbD_setWidth, BitVec.getLsbD_allOnes, hk]
  grind

/-- A must-be-zero field (R111) by its mask. -/
theorem and_fieldMask_eq_zero (w : Word) {lo n : Nat} (h : lo + n ≤ 32) :
    w &&& fieldMask lo n = 0 ↔ w.extractLsb' lo n = 0 := by
  refine ⟨fun hw => BitVec.eq_of_getLsbD_eq fun k hk => ?_, fun hw => BitVec.eq_of_getLsbD_eq fun k hk => ?_⟩
  · have hbit := congrArg (·.getLsbD (lo + k)) hw
    simp only [BitVec.getLsbD_and, getLsbD_fieldMask (show lo + k < 32 by omega)] at hbit
    simpa [hk] using hbit
  · rw [BitVec.getLsbD_and, getLsbD_fieldMask hk]
    by_cases hin : lo ≤ k ∧ k < lo + n
    · have hbit := congrArg (·.getLsbD (k - lo)) hw
      simp only [BitVec.getLsbD_extractLsb', show k - lo < n by omega, show lo + (k - lo) = k by omega] at hbit
      simpa [hin] using hbit
    · simp [hin]

theorem and_or_eq_zero {n : Nat} (w a b : BitVec n) : w &&& (a ||| b) = 0 ↔ w &&& a = 0 ∧ w &&& b = 0 := by
  rw [BitVec.and_or_distrib_left]
  exact BitVec.or_eq_zero_iff

theorem Row.rangeOk_iff (r : Row) (w : Word) : r.rangeOk w ↔ (w.extractLsb' r.low r.width).toNat < r.count := by
  rw [BitVec.extractLsb'_toNat, Nat.shiftRight_eq_div_pow]

/-! ### How a word's row decides (R386) -/

/-- A word that belongs to row `r` decodes by the row's two checks, in the order of R386. -/
structure Row.Decides (r : Row) (w : Word) : Prop where
  format : ¬ r.formatOk w → decode w = .error .format
  range : r.formatOk w → ¬ r.rangeOk w → decode w = .error .range
  ok : r.formatOk w → r.rangeOk w → ∃ i, decode w = .ok i

theorem decode_of_error {w : Word} {e : Illegal} (h : decodeRow w = .error e) : decode w = .error e := by
  rw [decode, h]

theorem decode_of_out_of_range {w : Word} {i : Instr} (h : decodeRow w = .ok i) (hi : ¬ i.wellFormed = true) :
    decode w = .error .range := by
  rw [decode, h]
  exact if_neg hi

/-- A row decides when its format's check is that of its mask and the command's range check that of its count. -/
theorem Row.decides_of_check {r : Row} {w : Word} {c : Prop} [Decidable c] {i : Instr}
    (hd : decodeRow w = if c then .ok i else .error .format) (hc : r.formatOk w ↔ c)
    (hi : i.wellFormed = true ↔ r.rangeOk w) : r.Decides w where
  format hf := decode_of_error (hd.trans (if_neg (mt hc.2 hf)))
  range hf hr := decode_of_out_of_range (hd.trans (if_pos (hc.1 hf))) (mt hi.1 hr)
  ok hf hr := ⟨i, decode_eq_ok.2 ⟨hd.trans (if_pos (hc.1 hf)), hi.2 hr⟩⟩

section
variable {w : Word} {c : BitVec 8} {i : Instr} {k : Nat}

theorem rangeOk_unchecked (c : BitVec 8) (m w : Word) : (unchecked c m).rangeOk w :=
  Nat.mod_lt _ Nat.one_pos

theorem decides_formatZ (hd : decodeRow w = formatZ w i) (hi : i.wellFormed = true) :
    (unchecked c 0x00FFFFFF).Decides w :=
  Row.decides_of_check hd (and_fieldMask_eq_zero w (lo := 0) (n := 24) (by decide))
    (iff_of_true hi (rangeOk_unchecked ..))

theorem decides_formatY {f : Byte → Instr} (hd : decodeRow w = formatY w f) (hi : (f (fieldB w)).wellFormed = true) :
    (unchecked c 0x00FFFF00).Decides w :=
  Row.decides_of_check hd (and_fieldMask_eq_zero w (lo := 8) (n := 16) (by decide))
    (iff_of_true hi (rangeOk_unchecked ..))

theorem decides_formatI {f : BitVec 16 → Instr} (hd : decodeRow w = formatI w f)
    (hf : ∀ x, (f x).wellFormed = decide (x.toNat < k)) : Row.Decides ⟨c, 0x00FF0000, 0, 16, k⟩ w :=
  Row.decides_of_check hd (and_fieldMask_eq_zero w (lo := 16) (n := 8) (by decide))
    (by rw [hf, decide_eq_true_iff, Row.rangeOk_iff, fieldX])

theorem decides_formatG (hd : decodeRow w = formatG w .bitGet) : Row.Decides ⟨c, 0x00E0FFFF, 16, 5, 17⟩ w :=
  Row.decides_of_check hd
    ((and_or_eq_zero w (fieldMask 21 3) (fieldMask 0 16)).trans
      (and_congr (and_fieldMask_eq_zero w (by decide)) (and_fieldMask_eq_zero w (by decide))))
    (by rw [Instr.wellFormed, decide_eq_true_iff, Row.rangeOk_iff, fieldN, Nat.lt_succ_iff])

theorem decides_formatB (hd : decodeRow w = formatB w .bitPut) : Row.Decides ⟨c, 0x00E00000, 16, 5, 17⟩ w :=
  Row.decides_of_check hd (and_fieldMask_eq_zero w (lo := 21) (n := 3) (by decide))
    (by rw [Instr.wellFormed, decide_eq_true_iff, Row.rangeOk_iff, fieldN, Nat.lt_succ_iff])

/-- A row without must-be-zero bits. -/
theorem decides_without_zero {low width : Nat} (hd : decodeRow w = .ok i)
    (hi : i.wellFormed = true ↔ Row.rangeOk ⟨c, 0, low, width, k⟩ w) : Row.Decides ⟨c, 0, low, width, k⟩ w :=
  Row.decides_of_check (c := True) (hd.trans (if_pos trivial).symm) (iff_true_intro BitVec.and_zero) hi

theorem decides_formatIB (hd : decodeRow w = formatIB w .winWr) : Row.Decides ⟨c, 0, 0, 16, 4096⟩ w :=
  decides_without_zero hd (by rw [Instr.wellFormed, decide_eq_true_iff, Row.rangeOk_iff, fieldX])

theorem decides_nop (hd : decodeRow w = .ok .nop) : (unchecked c 0).Decides w :=
  decides_without_zero hd (iff_of_true rfl (rangeOk_unchecked ..))

end

/-- Each row of R115 decides the words with its opcode: one line for each row, in the order of `rows`. -/
theorem decides_of_mem_rows {w : Word} : ∀ r ∈ rows, r.opcode = opcodeOf w → r.Decides w := by
  have row := @decodeRow_of_opcode w
  simp only [rows, plainRows, List.forall_mem_append, List.forall_mem_cons, List.forall_mem_map]
  exact ⟨⟨fun h => decides_nop (row .nop h),
      fun h => decides_formatY (row (.bitPutByte 0) h) rfl,
      fun h => decides_formatY (row (.lzwEncByte 0) h) rfl,
      fun h => decides_formatZ (row .reset h) rfl,
      fun h => decides_formatZ (row .clrerr h) rfl,
      fun h => decides_formatZ (row .bitInit h) rfl,
      fun h => decides_formatZ (row .bitGetByte h) rfl,
      fun h => decides_formatZ (row .bitCount h) rfl,
      fun h => decides_formatZ (row .bitFlush h) rfl,
      fun h => decides_formatZ (row .winInit h) rfl,
      fun h => decides_formatZ (row .hufInit h) rfl,
      fun h => decides_formatZ (row .hufDec h) rfl,
      fun h => decides_formatZ (row .hufDecPos h) rfl,
      fun h => decides_formatZ (row .hufRescale h) rfl,
      fun h => decides_formatZ (row .lzhCompress h) rfl,
      fun h => decides_formatZ (row .lzhExpand h) rfl,
      fun h => decides_formatZ (row .lzwInit h) rfl,
      fun h => decides_formatZ (row .lzwEncEnd h) rfl,
      fun h => decides_formatZ (row .lzwDecCode h) rfl,
      fun h => decides_formatZ (row .lzwCompress h) rfl,
      fun h => decides_formatZ (row .lzwExpand h) rfl,
      nofun⟩,
    fun h => decides_formatG (row (.bitGet 0) h),
    fun h => decides_formatB (row (.bitPut 0 0) h),
    fun h => decides_formatI (row (.winRd 0) h) fun _ => rfl,
    fun h => decides_formatIB (row (.winWr 0 0) h),
    fun h => decides_formatI (row (.winInsert 0) h) fun _ => rfl,
    fun h => decides_formatI (row (.winDelete 0) h) fun _ => rfl,
    fun h => decides_formatI (row (.winFind 0) h) fun _ => rfl,
    fun h => decides_formatI (row (.hufEnc 0) h) fun _ => rfl,
    fun h => decides_formatI (row (.hufUpd 0) h) fun _ => rfl,
    fun h => decides_formatI (row (.hufEncPos 0) h) fun _ => rfl,
    fun h => decides_formatI (row (.hufPeek 0) h) fun _ => rfl,
    nofun⟩

theorem decodeRow_of_no_row {w : Word} (h : ∀ r ∈ rows, r.opcode ≠ opcodeOf w) : decodeRow w = .error .opcode := by
  have hmem : (opcodeOf w).toNat ∉ rows.map fun r => r.opcode.toNat := fun hm => by
    obtain ⟨r, hr, hop⟩ := List.mem_map.1 hm
    exact h r hr (BitVec.eq_of_toNat_eq hop)
  unfold decodeRow
  split
  case h_33 => rfl
  all_goals
    rename_i hop
    rw [hop] at hmem
    exact absurd (by decide) hmem

/-- The checks of R386 leave four cases, each with its outcome. -/
theorem decode_cases (w : Word) :
    ((∀ r ∈ rows, r.opcode ≠ opcodeOf w) ∧ decode w = .error .opcode) ∨
    ∃ r ∈ rows, r.opcode = opcodeOf w ∧
      (¬ r.formatOk w ∧ decode w = .error .format ∨
        r.formatOk w ∧ ¬ r.rangeOk w ∧ decode w = .error .range ∨
        r.formatOk w ∧ r.rangeOk w ∧ ∃ i, decode w = .ok i) := by
  by_cases hrow : ∃ r ∈ rows, r.opcode = opcodeOf w
  · obtain ⟨r, hr, hop⟩ := hrow
    obtain ⟨hformat, hrange, hok⟩ := decides_of_mem_rows r hr hop
    refine .inr ⟨r, hr, hop, ?_⟩
    by_cases hf : r.formatOk w
    · by_cases hg : r.rangeOk w
      · exact .inr (.inr ⟨hf, hg, hok hf hg⟩)
      · exact .inr (.inl ⟨hf, hg, hrange hf hg⟩)
    · exact .inl ⟨hf, hformat hf⟩
  · have hno : ∀ r ∈ rows, r.opcode ≠ opcodeOf w := fun r hr hop => hrow ⟨r, hr, hop⟩
    exact .inl ⟨hno, decode_of_error (decodeRow_of_no_row hno)⟩

/-- Settles O4: a word without a row fails the opcode check, and a row decides its words. -/
theorem decodeRejectsByFirstFailedCheck : Obligations.DecodeRejectsByFirstFailedCheck := by
  refine ⟨by decide, fun w => ?_⟩
  have outcome := decode_cases w
  refine ⟨⟨fun h => ?_, fun hno => decode_of_error (decodeRow_of_no_row hno)⟩,
    ⟨fun h => ?_, fun ⟨r, hr, hop, hf⟩ => (decides_of_mem_rows r hr hop).format hf⟩,
    ⟨fun h => ?_, fun ⟨r, hr, hop, hf, hg⟩ => (decides_of_mem_rows r hr hop).range hf hg⟩,
    ⟨fun ⟨i, h⟩ => ?_, fun ⟨r, hr, hop, hf, hg⟩ => (decides_of_mem_rows r hr hop).ok hf hg⟩⟩
  -- Each outcome of `decode_cases` excludes the other three.
  all_goals grind

/-- Settles O6: an illegal word does not decode, and without an error it makes the error entry. -/
theorem illegalWordEntersError : Obligations.IllegalWordEntersError := by
  intro s w he hw
  have hdecode : ∃ e, decode w = .error e := by
    obtain ⟨-, hchecks⟩ := decodeRejectsByFirstFailedCheck
    obtain ⟨-, -, -, hok⟩ := hchecks w
    cases hd : decode w with
    | error e => exact ⟨e, rfl⟩
    | ok i => exact absurd (hok.1 ⟨i, hd⟩) hw
  obtain ⟨e, hd⟩ := hdecode
  have hentry : illegalWord w s = errorEntry .illegalCommand s := if_neg fun h => h.1 he
  refine ⟨errorEntry .illegalCommand s, ?_, ?_, rfl, rfl, rfl, rfl, rfl⟩
  · rw [issue_of_error s hd, hentry]
  · rw [errorEntry_err, if_pos he]
    rfl

end Sys2Proof.Machine
end

section
/-! SUPPORT. The Huffman codewords of a sound tree (43_huffman.md R253, R255): the climb from a leaf finds the one path
of branch bits from the root to it. -/

namespace Sys2Proof.Machine

/-! ### Shared operations of the commands that write bits -/

section
variable {s : State}

theorem ends_indexBelow {σ : Type} {t : σ} {k : Nat} {x : BitVec 16} (h : x.toNat < k) {Q : Fin k → σ → Prop}
    {E : Stop → σ → Prop} : (indexBelow k x : Engine σ (Fin k)).Ends t Q E ↔ Q ⟨x.toNat, h⟩ t := by
  rw [indexBelow, dif_pos h, Engine.ends_pure]

/-- Bits that fit are appended, and nothing but the output side changes. -/
theorem ends_putAll {bits : List Bool} (h : s.out.hasRoom s.params.outCap bits.length) :
    (putAll bits).Ends s (fun _ t => t = { s with out := t.out } ∧ s.out.Appends t.out bits) fun _ _ => False := by
  obtain ⟨o, ho, happ⟩ := Output.putAll_ok h
  rw [putAll, ends_writing, Engine.ends_of_ok ho]
  exact ⟨rfl, happ⟩

end

namespace HufTree

variable {t : HufTree}

/-! ### Paths from a slot -/

/-- The child of slot `s` on the side of branch bit `b` (R253); a leaf has none. -/
def childAt (t : HufTree) (s : Slot) (b : Bool) : Option Slot :=
  match t.son.get s with
  | .leaf _ => none
  | .node c => some (if b then c.succ else c.castSucc)

theorem childAt_eq_some {s e : Slot} {b : Bool} :
    t.childAt s b = some e ↔ ∃ c, t.son.get s = .node c ∧ (if b then c.succ else c.castSucc) = e := by
  unfold childAt
  cases t.son.get s <;> simp

/-- The slot to which branch bits lead from slot `s`. -/
def reach (t : HufTree) (s : Slot) (bits : List Bool) : Option Slot := bits.foldlM t.childAt s

/-- The last step of a path goes from a slot to its child. -/
theorem reach_concat {s e : Slot} {bits : List Bool} {b : Bool} :
    t.reach s (bits ++ [b]) = some e ↔ ∃ p, t.reach s bits = some p ∧ t.childAt p b = some e := by
  simp [reach, Option.bind_eq_some_iff]

/-- A walk ends at `y` when its bits lead to the leaf of `y`. -/
theorem walk_eq_some {s : Slot} {bits : List Bool} {y : Sym} :
    t.walk s bits = some y ↔ ∃ e, t.reach s bits = some e ∧ t.son.get e = .leaf y := by
  induction bits generalizing s with
  | nil =>
    unfold walk
    cases h : t.son.get s <;> simp [reach, h]
  | cons b bits ih =>
    unfold walk reach
    cases h : t.son.get s with
    | leaf z => simp [childAt, h]
    | node c => simpa [childAt, h, reach] using ih

/-! ### The paths of a sound tree -/

/-- A slot's place in its tree: every slot but the root's, and no other, is the child of its parent, on the side its
number tells (R250, R252, R253). -/
theorem Sound.childAt_iff (ht : t.Sound) {p e : Slot} {b : Bool} :
    t.childAt p b = some e ↔ e ≠ 628 ∧ p = t.parent.get e ∧ b = decide (e.val % 2 = 1) := by
  rw [childAt_eq_some]
  constructor
  · rintro ⟨c, hson, rfl⟩
    have hlower := ht.lower p c hson
    have heven := ht.even p c hson
    obtain ⟨hleft, hright⟩ := ht.parentSon p c hson
    have hp := p.isLt
    cases b
    · exact ⟨fun h => by have := congrArg Fin.val h; simp at this; omega, hleft.symm, by simp [heven]⟩
    · exact ⟨fun h => by have := congrArg Fin.val h; simp at this; omega, hright.symm, by simp; omega⟩
  · rintro ⟨hroot, rfl, rfl⟩
    obtain ⟨c, hson, hchild⟩ := ht.child e hroot
    have heven := ht.even _ c hson
    refine ⟨c, hson, ?_⟩
    rcases hchild with rfl | rfl
    · exact if_neg (by simp [heven])
    · exact if_pos (by simp; omega)

/-- Only the empty path leads from the root to itself. -/
theorem Sound.eq_nil_of_reach_root (ht : t.Sound) {bits : List Bool} (h : t.reach 628 bits = some 628) : bits = [] := by
  rcases bits.eq_nil_or_concat' with rfl | ⟨front, b, rfl⟩
  · rfl
  · obtain ⟨p, -, hp⟩ := reach_concat.1 h
    exact absurd rfl (ht.childAt_iff.1 hp).1

/-- No two paths from the root lead to one slot, since the slot tells the last step. -/
theorem Sound.reach_unique (ht : t.Sound) {bits bits' : List Bool} {e : Slot} (h : t.reach 628 bits = some e)
    (h' : t.reach 628 bits' = some e) : bits = bits' := by
  induction bits using List.reverseRecOn generalizing bits' e with
  | nil =>
    cases h
    exact (ht.eq_nil_of_reach_root h').symm
  | append_singleton bits b ih =>
    obtain ⟨p, hreach, hp⟩ := reach_concat.1 h
    obtain ⟨hroot, rfl, rfl⟩ := ht.childAt_iff.1 hp
    rcases bits'.eq_nil_or_concat' with rfl | ⟨front, b', rfl⟩
    · cases h'
      exact absurd rfl hroot
    · obtain ⟨p', hreach', hp'⟩ := reach_concat.1 h'
      obtain ⟨-, rfl, rfl⟩ := ht.childAt_iff.1 hp'
      rw [ih hreach hreach']

theorem Sound.lt_parent (ht : t.Sound) {k : Slot} (hk : k ≠ 628) : k.val < (t.parent.get k).val := by
  obtain ⟨c, hson, hchild⟩ := ht.child k hk
  have hlower := ht.lower _ _ hson
  have hval : k.val = c.val ∨ k.val = c.val + 1 := hchild.imp (congrArg Fin.val) (congrArg Fin.val)
  omega

/-- The root is an internal node (R252), as the parent of slot 627. -/
theorem Sound.leaf_ne_root (ht : t.Sound) (y : Sym) : t.leaf.get y ≠ 628 := by
  intro h
  obtain ⟨c, hson, -⟩ := ht.child 627 (by decide)
  have hparent : t.parent.get 627 = 628 := by
    have hlt : 627 < (t.parent.get 627).val := ht.lt_parent (k := 627) (by decide)
    have hle := (t.parent.get 627).isLt
    exact Fin.ext (show (t.parent.get 627).val = 628 by omega)
  have hleaf := ht.leafOf y
  rw [h, ← hparent, hson] at hleaf
  cases hleaf

/-- The climb (R255) puts the path from the root to its slot in front of the bits it has. -/
theorem Sound.climb_eq (ht : t.Sound) {fuel : Nat} {k : Slot} (hk : k ≠ 628) (hfuel : 629 ≤ fuel + k.val)
    (bits : List Bool) : ∃ path, t.reach 628 path = some k ∧ t.climb fuel k bits = some (path ++ bits) := by
  induction fuel generalizing k bits with
  | zero => omega
  | succ n ih =>
    have hchild := ht.childAt_iff.2 ⟨hk, rfl, rfl⟩
    have hlt := ht.lt_parent hk
    unfold climb
    split
    · next hroot =>
      rw [hroot] at hchild
      exact ⟨[_], reach_concat (bits := []).2 ⟨628, rfl, hchild⟩, rfl⟩
    · next hroot =>
      obtain ⟨path, hreach, hclimb⟩ := ih hroot (by omega) (decide (k.val % 2 = 1) :: bits)
      exact ⟨path ++ [_], reach_concat.2 ⟨_, hreach, hchild⟩, by rw [hclimb, List.append_assoc]; rfl⟩

/-- The codeword of a symbol (R127) leads from the root to its leaf, and no other bits do. -/
theorem Sound.codeword_eq (ht : t.Sound) (y : Sym) :
    ∃ bits, t.codeword y = some bits ∧ t.walk 628 bits = some y ∧ ∀ bits', t.walk 628 bits' = some y → bits' = bits := by
  obtain ⟨path, hpath, hclimb⟩ := ht.climb_eq (ht.leaf_ne_root y) (show 629 ≤ 629 + _ by omega) []
  rw [List.append_nil] at hclimb
  refine ⟨path, hclimb, walk_eq_some.2 ⟨_, hpath, ht.leafOf y⟩, fun bits' h => ?_⟩
  obtain ⟨e, he, hy⟩ := walk_eq_some.1 h
  rw [← ht.leafSon e y hy] at he
  exact ht.reach_unique he hpath

end HufTree

/-- Settles O31: the climb finds the symbol's one codeword, and bits that fit are appended. -/
theorem hufEncWritesCodeword : Obligations.HufEncWritesCodeword := by
  intro s x he h hs
  obtain ⟨bits, hcode, hwalk, hunique⟩ := hs.codeword_eq ⟨x.toNat, h⟩
  refine ⟨bits, hwalk, hunique, fun hroom => command_completes he ?_⟩
  rw [hufEncProc, Engine.ends_bind, symbol, ends_indexBelow h, hufEncode, Engine.ends_bind, Engine.ends_get,
    Engine.ends_bind, Engine.ends_orStuck, hcode]
  exact ⟨by rintro _ ⟨⟩; exact ends_putAll hroom, nofun⟩

end Sys2Proof.Machine
end

section
/-! SUPPORT. The distance code (30_encoding.md R124, R128, R129; 43_huffman.md R261, R262): its bits, and that every
input begins with the code of one distance. -/

namespace Sys2Proof.Machine

/-! ### The prefix tables (R128, R129) -/

/-- Settles O36: the tables are finite. -/
theorem prefixTablesComplete : Obligations.PrefixTablesComplete := by
  unfold Obligations.PrefixTablesComplete
  decide

theorem pLen_bounds (u : Nat) : 3 ≤ pLen u ∧ pLen u ≤ 8 := by
  unfold pLen
  split_ifs <;> decide

theorem dLen_bounds (v : Nat) : 3 ≤ dLen v ∧ dLen v ≤ 8 := by
  unfold dLen
  split_ifs <;> decide

/-- The code is complete (R128 to R130): any 8 bits begin with the prefix codeword that `d_code` names. -/
theorem dCode_spec {v : Nat} (hv : v < 2 ^ 8) :
    dCode v < 64 ∧ pLen (dCode v) = dLen v ∧ pCodeword (dCode v) = v / 2 ^ (8 - dLen v) := by
  unfold dCode dLen
  split_ifs
  all_goals
    unfold pCodeword pCode pLen
    refine ⟨?_, ?_, ?_⟩ <;> grind

theorem prefixMatch_eq_some {n v u : Nat} (h : prefixMatch n v = some u) : u < 64 ∧ pLen u = n ∧ pCodeword u = v := by
  have hmem := List.mem_of_find?_eq_some h
  have hu := List.find?_some h
  exact ⟨List.mem_range.1 hmem, by simpa using hu⟩

theorem prefixMatch_ne_none {u : Nat} (hu : u < 64) : prefixMatch (pLen u) (pCodeword u) ≠ none := by
  intro h
  simpa using List.find?_eq_none.1 h u (List.mem_range.2 hu)

/-! ### The code's bits (R124, R261) -/

theorem getElem?_bitsOf {n v k : Nat} (hk : k < n) : (bitsOf n v)[k]? = some (v.testBit (n - 1 - k)) := by
  induction n generalizing k with
  | zero => omega
  | succ n ih =>
    cases k with
    | zero => rfl
    | succ k =>
      rw [bitsOf, List.getElem?_cons_succ, ih (by omega)]
      congr 2
      omega

@[simp] theorem length_distanceCode (d : Nat) : (distanceCode d).length = pLen (d / 64) + 6 := by
  simp [distanceCode]

/-- The first bits of a distance's code are the top bits of its `p_code` (R124). -/
theorem getElem?_distanceCode_prefix {d k : Nat} (hk : k < pLen (d / 64)) :
    (distanceCode d)[k]? = some ((pCode (d / 64)).testBit (7 - k)) := by
  have hlen := (pLen_bounds (d / 64)).2
  rw [distanceCode, List.getElem?_append_left (by simpa using hk), getElem?_bitsOf hk, pCodeword,
    Nat.testBit_div_two_pow]
  congr 2
  omega

/-- The last six bits of a distance's code are its low bits (R124). -/
theorem getElem?_distanceCode_low {d k : Nat} (hk : k < 6) :
    (distanceCode d)[pLen (d / 64) + k]? = some (d.testBit (5 - k)) := by
  rw [distanceCode, List.getElem?_append_right (by simp), length_bitsOf, Nat.add_sub_cancel_left, getElem?_bitsOf hk,
    show 64 = 2 ^ 6 from rfl, Nat.testBit_mod_two_pow]
  simp [show 5 - k < 6 by omega]

/-! ### Reading the code (R262) -/

@[simp] theorem Input.length_bits (i : Input) (k n : Nat) : (i.bits k n).length = n := by simp [Input.bits]

theorem Input.getElem?_bits {i : Input} {k n j : Nat} (hj : j < n) : (i.bits k n)[j]? = some (i.bit (k + j)) := by
  simp [Input.bits, hj]

theorem Input.bits_add (i : Input) (k m n : Nat) : i.bits k (m + n) = i.bits k m ++ i.bits (k + m) n := by
  simp [Input.bits, List.range_add, Nat.add_assoc]

namespace Reader

theorem pushBit_div (v : Nat) (b : Bool) (m : Nat) : pushBit v b / 2 ^ (m + 1) = v / 2 ^ m := by
  rw [Nat.pow_succ', ← Nat.div_div_eq_div_mul]
  congr 1
  unfold pushBit
  split <;> omega

/-- The prefix loop ends at a codeword (R262): when no shorter prefix of the bits read so far is one, some of the bits to
come complete one, before all 8 are used. -/
theorem decodePosFrom_eq (i : Input) {fuel n v : Nat} (r : Reader) (hn : n + fuel = 8) (hv : v < 2 ^ n)
    (hnone : ∀ m, m ≤ n → 1 ≤ m → prefixMatch m (v / 2 ^ (n - m)) = none) :
    ∃ k u, u < 64 ∧ pLen u = n + k ∧ pCodeword u = (getBitsFrom i k v r).1 ∧
      decodePosFrom i fuel n v r =
        some (64 * u + ((getBitsFrom i k v r).2.getBits i 6).1, ((getBitsFrom i k v r).2.getBits i 6).2) := by
  induction fuel generalizing n v r with
  | zero =>
    obtain rfl : n = 8 := hn
    obtain ⟨hu, hlen, hcode⟩ := dCode_spec hv
    have hbounds := dLen_bounds v
    have := hnone (dLen v) hbounds.2 (by omega)
    rw [← hcode, ← hlen] at this
    exact absurd this (prefixMatch_ne_none hu)
  | succ fuel ih =>
    unfold decodePosFrom
    split
    · next u hu =>
      obtain ⟨hlt, hlen, hcode⟩ := prefixMatch_eq_some hu
      exact ⟨1, u, hlt, hlen, hcode, rfl⟩
    · next hnone' =>
      obtain ⟨k, u, hu, hlen, hcode, heq⟩ := ih (n := n + 1) (v := pushBit v (r.getBit i).1) (r.getBit i).2 (by omega)
        (by unfold pushBit; split <;> omega) fun m hm hm1 => by
          rcases Nat.lt_or_eq_of_le hm with hlt | rfl
          · rw [show n + 1 - m = (n - m) + 1 by omega, pushBit_div]
            exact hnone m (by omega) hm1
          · rw [Nat.sub_self, Nat.pow_zero, Nat.div_one]
            exact hnone'
      exact ⟨k + 1, u, hu, by omega, hcode, heq⟩

/-- `DecodePos` (R262) reads a prefix codeword and then 6 bits. -/
theorem decodePos_by_getBits (i : Input) (r : Reader) :
    ∃ u, u < 64 ∧ pCodeword u = (r.getBits i (pLen u)).1 ∧
      r.decodePos i = some (64 * u + ((r.getBits i (pLen u)).2.getBits i 6).1,
        ((r.getBits i (pLen u)).2.getBits i 6).2) := by
  obtain ⟨k, u, hu, hlen, hcode, hread⟩ := decodePosFrom_eq i (fuel := 8) (n := 0) (v := 0) r rfl (by decide) (by omega)
  obtain rfl : k = pLen u := by omega
  exact ⟨u, hu, hcode, hread⟩

/-- `DecodePos` (R262) completes on every input: it reads exactly the code of the distance it returns. -/
theorem decodePos_eq (i : Input) (r : Reader) :
    ∃ d, d < 4096 ∧ i.bits r.pos (pLen (d / 64) + 6) = distanceCode d ∧
      r.decodePos i = some (d, ⟨r.pos + (pLen (d / 64) + 6),
        r.ovr || decide (8 * i.len.toNat < r.pos + (pLen (d / 64) + 6))⟩) := by
  obtain ⟨u, hu, hcode, hread⟩ := decodePos_by_getBits i r
  have hprefix : i.bits r.pos (pLen u) = bitsOf (pLen u) (pCodeword u) := by rw [hcode, getBits_bits]
  set low := ((r.getBits i (pLen u)).2.getBits i 6).1 with low_eq
  have hlow : low < 64 := getBits_lt i 6 _
  have hrest : i.bits (r.pos + pLen u) 6 = bitsOf 6 low := by
    rw [low_eq, getBits_bits, getBits_reader]
  have hdiv : (64 * u + low) / 64 = u := by omega
  refine ⟨64 * u + low, by omega, ?_, ?_⟩
  · rw [distanceCode, hdiv, Input.bits_add, hprefix, hrest]
    congr 2
    omega
  · rw [hread, hdiv, getBits_reader, getBits_reader]
    simp only [Option.some.injEq, Prod.mk.injEq, Reader.mk.injEq, true_and, Bool.or_assoc]
    refine ⟨by omega, congrArg _ ?_⟩
    rw [Bool.eq_iff_iff]
    simp only [Bool.or_eq_true, decide_eq_true_eq]
    omega

end Reader

theorem ends_decodePos {s : State} {Q : Nat → State → Prop} {E : Stop → State → Prop} {d : Nat} {r : Reader}
    (h : s.rd.decodePos s.inp = some (d, r)) : decodePos.Ends s Q E ↔ Q d { s with rd := r } :=
  Engine.ends_of_ok (by simp [decodePos, h])

theorem exec_hufEncPos_of_room {s : State} {x : BitVec 16} (he : s.err = 0) (hx : x.toNat < 4096)
    (hroom : s.out.hasRoom s.params.outCap (pLen (x.toNat / 64) + 6)) :
    ∃ t, exec (.hufEncPos x) s = .next t ∧ t = { s with out := t.out } ∧ s.out.Appends t.out (distanceCode x.toNat) := by
  refine command_completes he ?_
  rw [hufEncPosProc, Engine.ends_bind, distanceOperand, ends_indexBelow hx]
  exact ends_putAll (by simpa using hroom)

/-- `HUF_DECPOS` (R275) ends with the distance in `RES0` and the reader behind its code. -/
theorem exec_hufDecPos_of_read {s : State} {d : Nat} {r : Reader} (he : s.err = 0)
    (h : s.rd.decodePos s.inp = some (d, r)) :
    exec .hufDecPos s = .next { s with res0 := BitVec.ofNat 32 d, rd := r } := by
  have hends : hufDecPosProc.Ends s (fun _ t => t = { s with res0 := BitVec.ofNat 32 d, rd := r }) fun _ _ => False := by
    rw [hufDecPosProc, Engine.ends_bind, ends_decodePos h, ends_setRes0]
  obtain ⟨t, hexec, rfl⟩ := command_completes he hends
  exact hexec

/-- Settles O37: both commands are about the bits of `distanceCode`. -/
theorem distanceCodeWrittenAndRead : Obligations.DistanceCodeWrittenAndRead := by
  intro s he
  constructor
  · intro x hx hroom
    obtain ⟨t, hexec, hframe, happ⟩ := exec_hufEncPos_of_room he hx hroom
    exact ⟨t, _, hexec, hframe, happ, length_distanceCode _, fun k => getElem?_distanceCode_prefix,
      fun k => getElem?_distanceCode_low⟩
  · obtain ⟨d, hd, hbits, hread⟩ := Reader.decodePos_eq s.inp s.rd
    have hbit {k} (hk : k < pLen (d / 64) + 6) : some (s.inp.bit (s.rd.pos + k)) = (distanceCode d)[k]? := by
      rw [← hbits, Input.getElem?_bits hk]
    refine ⟨_, d, exec_hufDecPos_of_read he hread, rfl, ?_, hd, rfl, fun k hk => ?_, fun k hk => ?_, rfl⟩
    · exact Nat.mod_eq_of_lt (by omega)
    · exact Option.some.inj ((hbit (by omega)).trans (getElem?_distanceCode_prefix hk))
    · exact Option.some.inj ((hbit (by omega)).trans (getElem?_distanceCode_low hk))

end Sys2Proof.Machine
end

section
/-! SUPPORT. The control commands (40_control.md R160 to R163): which words they are, what an illegal one of them does,
and what the window holds after a reset (70_reset_and_hazards.md R410). -/

namespace Sys2Proof.Machine

/-! ### The words of the control commands (R111, R117) -/

/-- Every word of the hint space is `NOP`, whatever its operand field (R117). -/
theorem decode_hint {w : Word} (h : opcodeOf w = 0) : decode w = .ok .nop :=
  decode_eq_ok.2 ⟨decodeRow_eq_ok.2 ⟨h.symm, absurd rfl⟩, rfl⟩

/-- A `RESET` or `CLRERR` word with a non-zero operand field fails the format check (R111, R386). -/
theorem decode_resetOrClrerr_of_operands {w : Word} (hop : opcodeOf w = 1 ∨ opcodeOf w = 2)
    (hf : w.extractLsb' 0 24 ≠ 0) : decode w = .error .format := by
  rcases hop with h | h
  · exact decode_of_error ((decodeRow_of_opcode .reset h.symm).trans (if_neg hf))
  · exact decode_of_error ((decodeRow_of_opcode .clrerr h.symm).trans (if_neg hf))

/-- An illegal `RESET` or `CLRERR` makes the error entry in every state, also in the error state (R160, R388). -/
theorem illegalWord_resetOrClrerr {w : Word} (hop : opcodeOf w = 1 ∨ opcodeOf w = 2) (s : State) :
    illegalWord w s = errorEntry .illegalCommand s := by
  have hchecked : checkedInError w = true := by
    rw [checkedInError, Bool.or_eq_true, beq_iff_eq, beq_iff_eq]
    exact hop
  exact if_neg fun ⟨_, hignored⟩ => Bool.false_ne_true (hignored.symm.trans hchecked)

/-! ### The window after a reset (R230, R410) -/

theorem Window.initial_get (fill : Byte) (p : Pos) :
    (initial fill).win.get p = fill ∧ (initial fill).dad.get p = none ∧
      (initial fill).lson.get p = none ∧ (initial fill).rson.get p = none :=
  ⟨Table.get_tabulate _ p, Table.get_tabulate _ p, Table.get_tabulate _ p, Table.get_tabulate _ p⟩

/-! ### The obligations -/

/-- Settles O8: every word of the hint space decodes to `NOP`. -/
theorem nopChangesNothing : Obligations.NopChangesNothing :=
  ⟨fun _ => rfl, fun s _ h => issue_of_ok s (decode_hint h)⟩

/-- Settles O9: a word with a non-zero operand field does not decode, and its opcode is checked in every state. -/
theorem clrerrClearsOnlyErr : Obligations.ClrerrClearsOnlyErr := by
  refine ⟨fun _ => rfl, fun s w hop hf => ?_⟩
  refine ⟨errorEntry .illegalCommand s, ?_, errorEntry_err _ s, rfl, rfl, rfl, rfl, rfl⟩
  rw [issue_of_error s (decode_resetOrClrerr_of_operands hop hf), illegalWord_resetOrClrerr hop]

/-- Settles O10: both kinds of reset are `resetBlock`, whose kind only the IN and OUT sides see. -/
theorem resetGivesResetValues : Obligations.ResetGivesResetValues := by
  refine ⟨fun s => ?command, fun s rest hs => ?power⟩
  case command =>
    exact ⟨resetBlock .command s, rfl, rfl, rfl, rfl, rfl, rfl, rfl, rfl, rfl, rfl, rfl, rfl, rfl, rfl,
      Window.initial_get 0x20, (Window.initial_empty 0x20).root, rfl, rfl, rfl, rfl, rfl, rfl, rfl, rfl, rfl,
      rfl, rfl, rfl, rfl⟩
  case power =>
    exact ⟨resetBlock .power { s with host := rest }, resetBlock .command { s with host := rest }, step_pending hs,
      rfl, rfl, rfl, rfl, rfl, rfl, rfl⟩

end Sys2Proof.Machine
end

section
/-! SUPPORT. The bit engine's commands (41_bitio.md R183 to R190): the bits read and appended, the errors of an operand
out of range and of a full OUT memory, and the commands that show or set up the engines' contents (R400). -/

namespace Sys2Proof.Machine

/-! ### Operands (R113, R116) -/

/-- A procedure that raises before it writes anything ends in the error entry alone (R384). -/
theorem command_of_raise {s : State} {m : Engine State Unit} {e : ErrCode} (he : s.err = 0)
    (h : m s = .error (.raise e) s) : command m s = .next (errorEntry e s) := by
  rw [command_run he, runProcedure_raise h]

/-- An operand out of range is `IllegalCommand`, whatever the command would do with it. -/
theorem command_indexBelow_of_ge {s : State} {k : Nat} {x : BitVec 16} {f : Fin k → Engine State Unit} (he : s.err = 0)
    (hx : k ≤ x.toNat) : command (indexBelow k x >>= f) s = .next (errorEntry .illegalCommand s) := by
  refine command_of_raise he ?_
  rw [indexBelow, dif_neg (Nat.not_lt.2 hx)]
  rfl

/-- A bit count above 16 is `IllegalCommand`. -/
theorem command_bitCount_of_gt {s : State} {n : BitVec 5} {f : Nat → Engine State Unit} (he : s.err = 0)
    (hn : 16 < n.toNat) : command (bitCount n >>= f) s = .next (errorEntry .illegalCommand s) := by
  refine command_of_raise he ?_
  rw [bitCount, if_neg (Nat.not_le.2 hn)]
  rfl

/-- An operand in range is handed on. -/
theorem indexBelow_bind_of_lt {k : Nat} {x : BitVec 16} {f : Fin k → Engine State Unit} (h : x.toNat < k) :
    indexBelow k x >>= f = f ⟨x.toNat, h⟩ := by
  rw [indexBelow, dif_pos h]
  rfl

/-- A bit count in range is handed on. -/
theorem bitCount_bind_of_le {n : BitVec 5} {f : Nat → Engine State Unit} (hn : n.toNat ≤ 16) :
    bitCount n >>= f = f n.toNat := by
  rw [bitCount, if_pos hn]
  rfl

/-! ### Reading bits (R183, R185, R187) -/

/-- Reading at most 32 bits into `RES0`: the first bit is the most significant, and only the cursor moves beside. -/
theorem command_getBits {s : State} {n : Nat} (he : s.err = 0) (hn : n ≤ 32) :
    ∃ t, command (getBits n >>= fun v => setRes0 (BitVec.ofNat 32 v)) s = .next t ∧
      t = { s with res0 := t.res0, rd := t.rd } ∧
      (∀ k, k < n → t.res0.getLsbD (n - 1 - k) = s.inp.bit (s.rd.pos + k)) ∧ t.res0.toNat < 2 ^ n ∧
      t.rd.pos = s.rd.pos + n ∧
      t.rd.ovr = (s.rd.ovr || decide (0 < n ∧ 8 * s.inp.len.toNat < s.rd.pos + n)) := by
  refine command_completes he ?_
  rw [Engine.ends_bind, getBits, ends_reading, ends_setRes0]
  have hlt := Reader.getBits_lt s.inp n s.rd
  refine ⟨rfl, fun k hk => ?_, ?_, congrArg Reader.pos (Reader.getBits_reader ..),
    congrArg Reader.ovr (Reader.getBits_reader ..)⟩
  · have hbit := congrArg (·[k]?) (Reader.getBits_bits s.inp n s.rd)
    rw [getElem?_bitsOf hk, Input.getElem?_bits hk] at hbit
    rw [BitVec.getLsbD_ofNat, decide_eq_true (show n - 1 - k < 32 by omega), Bool.true_and, Option.some.inj hbit]
  · exact Nat.lt_of_le_of_lt (Nat.mod_le _ _) hlt

/-- `BIT_GET n` with `n` in range reads `n` bits (R185). -/
theorem exec_bitGet_of_le {s : State} {n : BitVec 5} (hn : n.toNat ≤ 16) :
    exec (.bitGet n) s = command (getBits n.toNat >>= fun v => setRes0 (BitVec.ofNat 32 v)) s :=
  congrArg (command · s) (bitCount_bind_of_le hn)

/-- Settles O19: both commands read bits into `RES0`. -/
theorem bitGetReadsNextBits : Obligations.BitGetReadsNextBits := by
  intro s he
  refine ⟨fun n hn => ?get, ?getByte, fun n hn => command_bitCount_of_gt he hn⟩
  case get =>
    rw [exec_bitGet_of_le hn]
    exact command_getBits he (by omega)
  case getByte =>
    obtain ⟨t, ht, hframe, hbits, hlt, hpos, hovr⟩ := command_getBits (n := 8) he (by decide)
    exact ⟨t, ht, hframe, hbits, hlt, hpos, by simpa using hovr⟩

/-! ### Appending bits (R181 to R183, R186, R188, R190) -/

/-- `BIT_PUT n, v` with `n` in range puts the `n` low bits of `v` (R186). -/
theorem exec_bitPut_of_le {s : State} {n : BitVec 5} {v : BitVec 16} (hn : n.toNat ≤ 16) :
    exec (.bitPut n v) s = command (putBits n.toNat v.toNat) s :=
  congrArg (command · s) (bitCount_bind_of_le hn)

/-- Bits that fit are appended, the most significant first, and nothing else changes. -/
theorem command_putBits_of_room {s : State} {n w : Nat} {v : BitVec w} (he : s.err = 0)
    (h : s.out.hasRoom s.params.outCap n) :
    ∃ t new, command (putBits n v.toNat) s = .next t ∧ t = { s with out := t.out } ∧ s.out.Appends t.out new ∧
      new.length = n ∧ ∀ k, k < n → new[k]? = some (v.getLsbD (n - 1 - k)) := by
  have hlen := length_bitsOf n v.toNat
  obtain ⟨t, ht, hframe, happ⟩ := command_completes he (ends_putAll (bits := bitsOf n v.toNat) (by rwa [hlen]))
  exact ⟨t, _, ht, hframe, happ, hlen, fun k hk => by rw [getElem?_bitsOf hk, BitVec.testBit_toNat]⟩

/-- Settles O20: the two puts append `PutBits`' bits, and a flush pads the byte that waits. -/
theorem bitPutAppendsBits : Obligations.BitPutAppendsBits := by
  intro s he
  refine ⟨fun n v hn hroom => ?put, fun b hroom => command_putBits_of_room he hroom, fun hlen hroom => ?flush⟩
  case put =>
    rw [exec_bitPut_of_le hn]
    exact command_putBits_of_room he hroom
  case flush =>
    obtain ⟨o, ho, happ, hn, -⟩ := Output.flush_ok hroom hlen
    refine command_completes he ?_
    rw [flush, ends_writing, Engine.ends_of_ok ho]
    exact ⟨rfl, happ, hn⟩

/-- What does not fit is `SizeExceeded`, and the output is discarded (R182, R384). -/
theorem command_writing_of_full {s : State} {f : Word → Engine Output Unit} {o : Output} (he : s.err = 0)
    (h : f s.params.outCap s.out = .error (.raise .sizeExceeded) o) :
    ∃ t, command (writing f) s = .next t ∧ t = { s with err := 5, out := t.out } ∧ t.out.len = 0 ∧ t.out.acc = 0 ∧
      t.out.accN = 0 := by
  have hm : writing f s = .error (.raise .sizeExceeded) { s with out := o } := by rw [writing, h]
  refine ⟨_, (command_run he).trans (runProcedure_raise hm), ?_, rfl, rfl, rfl⟩
  rw [errorEntry, if_pos he]
  rfl

theorem command_putBits_of_full {s : State} {n v : Nat} (he : s.err = 0) (hlen : s.out.len ≤ s.params.outCap)
    (h : ¬ s.out.hasRoom s.params.outCap n) :
    ∃ t, command (putBits n v) s = .next t ∧ t = { s with err := 5, out := t.out } ∧ t.out.len = 0 ∧ t.out.acc = 0 ∧
      t.out.accN = 0 := by
  obtain ⟨o, ho⟩ := Output.putAll_full (new := bitsOf n v) hlen (by rwa [length_bitsOf])
  exact command_writing_of_full (f := fun cap => Output.putAll cap (bitsOf n v)) he ho

/-- Settles O21: each command stops at the byte that does not fit, and `BIT_PUT` at its bit count. -/
theorem bitPutErrorsWhenFull : Obligations.BitPutErrorsWhenFull := by
  intro s he hlen
  refine ⟨fun n v hn hfull => ?put, fun b hfull => command_putBits_of_full he hlen hfull,
    fun hn hfull => command_writing_of_full he (Output.flush_full hn hfull), fun n v hn => command_bitCount_of_gt he hn⟩
  case put =>
    rw [exec_bitPut_of_le hn]
    exact command_putBits_of_full he hlen hfull

/-! ### The init commands (R184, R230, R251, R345) -/

namespace HufTree

/-- A leaf of the initial tree: symbol `y` in slot `y`, with frequency 1 (R251). -/
theorem initial_leaf (y : Sym) :
    initial.freq.get (slot y.val) = 1 ∧ initial.son.get (slot y.val) = .leaf y ∧ initial.leaf.get y = slot y.val := by
  have hy := y.isLt
  have hval : (slot y.val).val = y.val := slot_val (by omega)
  refine ⟨?_, ?_, ?_⟩
  · rw [initial, Table.get_tabulate, hval, initialFreq, if_pos hy]
    rfl
  · rw [initial_son, hval, if_pos hy, Fin.ofNat_val_eq_self]
  · rw [initial, Table.get_tabulate]
    rfl

/-- An internal node of the initial tree joins the pair of slots that its number tells (R251). -/
theorem initial_join {j : Nat} (h : 315 ≤ j) (h' : j ≤ 628) :
    initial.F j = initial.F (2 * (j - 315)) + initial.F (2 * (j - 315) + 1) ∧
      (initial.son.get (slot j)).toNat = 2 * (j - 315) ∧
      initial.parent.get (slot (2 * (j - 315))) = slot j ∧ initial.parent.get (slot (2 * (j - 315) + 1)) = slot j := by
  refine ⟨?_, ?_, ?_, ?_⟩
  · rw [initial_F (by omega), initial_F (by omega), initial_F (by omega)]
    exact (initialFreq_table.2 j (by omega)).2.2 h
  · rw [initial_son, slot_val (by omega), if_neg (by omega)]
    exact Nat.mod_eq_of_lt (by omega)
  · rw [initial_parent, slot_val (by omega), if_pos (by omega)]
    exact congrArg slot (by omega)
  · rw [initial_parent, slot_val (by omega), if_pos (by omega)]
    exact congrArg slot (by omega)

/-- Every symbol counts 1 in the initial tree's root (R251). -/
theorem initial_rootFreq : initial.F 628 = 315 := by
  rw [← sum_weights initial_sound, Finset.sum_congr rfl (g := fun _ => 1) fun y _ => ?_]
  · simp
  · obtain ⟨hfreq, -, hleaf⟩ := initial_leaf y
    rw [weight, hleaf, hfreq]
    rfl

end HufTree

/-- Settles O22: each command writes the initial contents of its engine. -/
theorem initCommandsGiveInitialState : Obligations.InitCommandsGiveInitialState := by
  intro s he
  refine ⟨?bits, ?window, ?tree, command_run he⟩
  case bits => exact ⟨_, command_run he, rfl, rfl, rfl, rfl, rfl, rfl, rfl⟩
  case window =>
    exact ⟨_, command_run he, rfl, Window.initial_get s.fill, (Window.initial_empty s.fill).root, rfl, rfl⟩
  case tree =>
    obtain ⟨-, hroot, -, -⟩ := HufTree.initial_join (j := 628) (by omega) (by omega)
    exact ⟨_, command_run he, rfl, HufTree.initial_leaf, fun _ => HufTree.initial_join,
      HufTree.initial_sound.rootParent, HufTree.initial_rootFreq, hroot⟩

/-! ### What shows internal state (R189, R231, R232, R276, R400) -/

theorem Son.toNat_lt (c : Son) : c.toNat < 944 := by
  cases c with
  | leaf y => exact Nat.add_lt_add_left y.isLt 629
  | node d => exact Nat.lt_trans d.isLt (by decide)

/-- A command whose operand is in range and whose procedure then only updates the state. -/
theorem command_indexBelow_modify {s : State} {k : Nat} {x : BitVec 16} {f : Fin k → State → State} (he : s.err = 0)
    (h : x.toNat < k) : command (indexBelow k x >>= fun i => modify (f i)) s = .next (f ⟨x.toNat, h⟩ s) := by
  rw [indexBelow_bind_of_lt h]
  exact command_run he

/-- Settles O23: these commands only update the state, and each operand is checked before anything is written. -/
theorem showCommandsAndRanges : Obligations.ShowCommandsAndRanges := by
  intro s x b he
  refine ⟨?count, fun h => ?window, fun h => ?peek, fun h => ?position, fun h => command_indexBelow_of_ge he h,
    fun h => ?symbol⟩
  case count => exact ⟨_, command_run he, rfl, BitVec.toNat_ofNat .., BitVec.toNat_ofNat ..⟩
  case window =>
    exact ⟨command_indexBelow_modify he h, _, command_indexBelow_modify he h, rfl, Table.get_set_self ..,
      fun q hq => Table.get_set_ne _ _ fun e => hq (congrArg Fin.val e).symm⟩
  case peek =>
    refine ⟨_, command_indexBelow_modify he h, rfl, BitVec.toNat_setWidth_of_le (by decide), ?_⟩
    have := (s.huf.son.get ⟨x.toNat, h⟩).toNat_lt
    exact (BitVec.toNat_ofNat ..).trans (Nat.mod_eq_of_lt (by omega))
  case position => refine ⟨?_, ?_, ?_, ?_, ?_, ?_⟩ <;> exact command_indexBelow_of_ge he h
  case symbol => exact ⟨command_indexBelow_of_ge he h, command_indexBelow_of_ge he h⟩

end Sys2Proof.Machine
end

section
/-! SUPPORT. What the commands that read and the commands that append leave alone (41_bitio.md R182, R191): a command's
changes by the parts of its procedure, and that putting bits only writes behind the end of the output. -/

namespace Sys2Proof.Machine

/-! ### What a gated command changes (R160, R384) -/

theorem ErrCode.code_ne_zero (e : ErrCode) : e.code ≠ 0 := by cases e <;> decide

/-- The error entry leaves an error in `ERR`. -/
theorem errorEntry_err_ne_zero (e : ErrCode) (s : State) : (errorEntry e s).err ≠ 0 := by
  rw [errorEntry_err]
  split
  · exact e.code_ne_zero
  · assumption

/-- A state that agrees with `s` outside some parts differs from it in the values of parts only. -/
theorem SameBut.eq {p : Parts} {s t : State} (h : SameBut p s t) :
    t = { s with res0 := t.res0, res1 := t.res1, rd := t.rd, out := t.out, win := t.win, huf := t.huf, lzw := t.lzw,
                 r := t.r } := by
  obtain ⟨hparams, herr, hopt, hin, hout, hmax, hinp, hhost, hdata, -⟩ := h
  cases t
  simp_all

/-- A gated command changes the parts of its procedure; an error entry beside that changes `ERR` and discards the
output, and no OUT byte. -/
theorem exec_changes {i : Instr} {s t : State} (h : exec i s = .next t) (hg : exec i s = command (procedure i) s) :
    ∃ u err out, SameBut (partsOf i) s u ∧ t = { u with err := err, out := out } ∧ out.mem = u.out.mem ∧
      (err = s.err → out = u.out) := by
  have hb := Bounded.ofProcedure i s
  rw [hg] at h
  rcases command_cases (procedure i) s with ⟨-, h'⟩ | ⟨-, u, hm, h'⟩ | ⟨he, e, u, hm, h'⟩ | ⟨-, why, u, -, h'⟩ <;>
    rw [h'] at h <;> cases h
  · exact ⟨s, _, _, .refl _ s, rfl, rfl, fun _ => rfl⟩
  · exact ⟨t, _, _, (Engine.ends_of_ok hm).1 hb, rfl, rfl, fun _ => rfl⟩
  · have hu := ((Engine.ends_of_error hm).1 hb).1
    refine ⟨u, _, _, hu.mono (stopParts_within i), rfl, rfl, fun herr => ?_⟩
    exact absurd (herr.trans he) (errorEntry_err_ne_zero e u)

/-! ### Commands that only read (R191) -/

/-- The parts of the commands that only read. -/
def readParts : Parts := { res0 := true, res1 := true, rd := true }

theorem frame_of_readParts {i : Instr} {s t : State} (h : exec i s = .next t)
    (hg : exec i s = command (procedure i) s) (hp : (partsOf i).Within readParts) :
    t = { s with err := t.err, res0 := t.res0, res1 := t.res1, rd := t.rd, out := t.out } ∧
      t.out.mem = s.out.mem ∧ (t.err = s.err → t.out = s.out) := by
  obtain ⟨u, err, out, hu, rfl, hmem, hout⟩ := exec_changes h hg
  have hu := hu.mono hp
  have heq := hu.eq
  rw [hu.win.resolve_left nofun, hu.huf.resolve_left nofun, hu.lzw.resolve_left nofun,
    hu.r.resolve_left nofun] at heq
  rw [hu.out.resolve_left nofun] at hmem hout
  exact ⟨congrArg (fun v : State => { v with err := err, out := out }) heq, hmem, hout⟩

/-- Settles O15: each of these commands has only result registers and the cursor as parts. -/
theorem frameReadingCommands : Obligations.FrameReadingCommands := by
  rintro n x s t (h | h | h | h | h | h | h) <;>
    exact frame_of_readParts h rfl (by constructor <;> simp [partsOf, readParts])

/-! ### Growing the output (R181 to R183) -/

/-- The output side may have grown within `cap`: OUT bytes below the old end and at or above the new one stay. -/
structure Output.Grows (cap : Word) (o o' : Output) : Prop where
  fits : o'.len ≤ cap
  len : o.len.toNat ≤ o'.len.toNat
  outside : ∀ a, a < o.len.toNat ∨ o'.len.toNat ≤ a → o'.mem.read a = o.mem.read a

namespace Output

variable {cap : Word} {o o' o'' : Output}

/-- A write that leaves memory and length alone. -/
theorem Grows.of_same (h : o.len ≤ cap) (hlen : o'.len = o.len) (hmem : o'.mem = o.mem) : o.Grows cap o' :=
  ⟨hlen ▸ h, hlen ▸ Nat.le_refl _, fun a _ => by rw [hmem]⟩

theorem Grows.refl (h : o.len ≤ cap) : o.Grows cap o := .of_same h rfl rfl

theorem Grows.trans (h : o.Grows cap o') (h' : o'.Grows cap o'') : o.Grows cap o'' := by
  have hl := h.len
  have hl' := h'.len
  refine ⟨h'.fits, hl.trans hl', fun a ha => ?_⟩
  rw [h'.outside a (by omega), h.outside a (by omega)]

/-- The byte stored is the first behind the old end; below `OUT_CAP` the length does not wrap. -/
theorem Grows.store (h : o.len ≤ cap) (hc : o.len ≠ cap) (v acc : Byte) (n : Fin 8) :
    o.Grows cap { o with mem := o.mem.write o.len.toNat v, len := o.len + 1, acc := acc, accN := n } := by
  have hlt : o.len.toNat < cap.toNat := BitVec.lt_def.1 (BitVec.lt_of_le_ne h hc)
  have hlen : (o.len + 1).toNat = o.len.toNat + 1 := by bv_omega
  refine ⟨?_, ?_, fun a ha => ?_⟩
  · rw [BitVec.le_def]
    dsimp only
    omega
  · dsimp only
    omega
  · dsimp only at ha
    exact Memory.read_write_ne v (by omega)

theorem putBit_grows (h : o.len ≤ cap) (b : Bool) :
    (putBit cap b).Ends o (fun _ o' => o.Grows cap o') fun _ o' => o.Grows cap o' := by
  by_cases h7 : o.accN = 7
  · by_cases hc : o.len = cap
    · exact (Engine.ends_of_error (putBit_full h7 hc)).2 (.refl h)
    · exact (Engine.ends_of_ok (putBit_store h7 hc)).2 (.store h hc _ _ _)
  · exact (Engine.ends_of_ok (putBit_wait h7)).2 (.of_same h rfl rfl)

theorem putAll_grows (h : o.len ≤ cap) (bits : List Bool) :
    (putAll cap bits).Ends o (fun _ o' => o.Grows cap o') fun _ o' => o.Grows cap o' := by
  induction bits generalizing o with
  | nil => exact .refl h
  | cons b bits ih =>
    rw [putAll, Engine.ends_bind]
    exact (putBit_grows h b).mono
      (fun _ _ h1 => (ih h1.fits).mono (fun _ _ h2 => h1.trans h2) fun _ _ h2 => h1.trans h2) fun _ _ h1 => h1

theorem flush_grows (h : o.len ≤ cap) :
    (flush cap).Ends o (fun _ o' => o.Grows cap o') fun _ o' => o.Grows cap o' := by
  by_cases h0 : o.accN = 0
  · exact (Engine.ends_of_ok (flush_none h0)).2 (.refl h)
  · by_cases hc : o.len = cap
    · exact (Engine.ends_of_error (flush_full h0 hc)).2 (.refl h)
    · exact (Engine.ends_of_ok (flush_store h0 hc)).2 (.store h hc _ _ _)

end Output

/-- The output side may have grown within `OUT_CAP`, which is as it was. -/
structure State.Grows (s t : State) : Prop where
  params : t.params = s.params
  out : s.out.Grows s.params.outCap t.out

/-- However the procedure ends, from an output within `OUT_CAP` it has only grown it. -/
def Appending {α : Type} (m : Engine State α) : Prop :=
  ∀ s : State, s.out.len ≤ s.params.outCap → m.Ends s (fun _ t => s.Grows t) fun _ t => s.Grows t

namespace Appending

variable {α β : Type}

/-- A procedure that ends with the output side as it was. -/
theorem of_same {m : Engine State α}
    (h : ∀ s, m.Ends s (fun _ t => t.params = s.params ∧ t.out = s.out)
      fun _ t => t.params = s.params ∧ t.out = s.out) : Appending m := fun s hs =>
  have grows (t : State) (ht : t.params = s.params ∧ t.out = s.out) : s.Grows t :=
    ⟨ht.1, .of_same hs (congrArg _ ht.2) (congrArg _ ht.2)⟩
  (h s).mono (fun _ => grows) fun _ => grows

theorem pure (a : α) : Appending (Pure.pure a) := of_same fun _ => ⟨rfl, rfl⟩

theorem stop (e : Stop) : Appending (throw e : Engine State α) := of_same fun _ => ⟨rfl, rfl⟩

theorem bind {m : Engine State α} {f : α → Engine State β} (hm : Appending m) (hf : ∀ a, Appending (f a)) :
    Appending (m >>= f) := fun s hs => by
  rw [Engine.ends_bind]
  refine (hm s hs).mono (fun a t h => ?_) fun _ _ h => h
  have grows (u : State) (hu : t.Grows u) : s.Grows u := ⟨hu.params.trans h.params, h.out.trans (h.params ▸ hu.out)⟩
  exact (hf a t (h.params ▸ h.out.fits)).mono (fun _ => grows) fun _ => grows

theorem get_bind {f : State → Engine State β} (hf : ∀ s, Appending (f s)) : Appending (get >>= f) :=
  fun s => by rw [Engine.ends_bind, Engine.ends_get]; exact hf s s

theorem ite {c : Prop} [Decidable c] {m n : Engine State α} (hm : Appending m) (hn : Appending n) :
    Appending (if c then m else n) := by split <;> assumption

theorem doIf {c : Prop} [Decidable c] {m : Engine State Unit} (hm : Appending m) : Appending (Machine.doIf c m) :=
  ite hm (pure ())

theorem orStuck {why : Fault} {o : Option α} : Appending (Machine.orStuck why o) := by
  cases o
  · exact stop _
  · exact pure _

theorem indexBelow {k : Nat} {x : BitVec 16} : Appending (Machine.indexBelow k x : Engine State (Fin k)) := by
  unfold Machine.indexBelow
  split
  · exact pure _
  · exact stop _

theorem bitCount {n : BitVec 5} : Appending (Machine.bitCount n : Engine State Nat) := ite (pure _) (stop _)

theorem writing {f : Word → Engine Output α}
    (hf : ∀ cap o, o.len ≤ cap → (f cap).Ends o (fun _ o' => o.Grows cap o') fun _ o' => o.Grows cap o') :
    Appending (Machine.writing f) := fun s hs => by
  rw [ends_writing]
  exact (hf _ _ hs).mono (fun _ _ h => ⟨rfl, h⟩) fun _ _ h => ⟨rfl, h⟩

theorem putAll {bits : List Bool} : Appending (Machine.putAll bits) :=
  writing fun _ _ h => Output.putAll_grows h bits

theorem putBits {n v : Nat} : Appending (Machine.putBits n v) := putAll

theorem flush : Appending Machine.flush := writing fun _ _ h => Output.flush_grows h

theorem bitPutProc {n : BitVec 5} {v : BitVec 16} : Appending (Machine.bitPutProc n v) :=
  bind bitCount fun _ => putBits

/-! ### The Huffman codes (R255, R261) -/

theorem hufEncode {y : Sym} : Appending (Machine.hufEncode y) := get_bind fun _ => bind orStuck fun _ => putAll

theorem hufEncProc {x : BitVec 16} : Appending (Machine.hufEncProc x) := bind indexBelow fun _ => hufEncode

theorem hufEncPosProc {x : BitVec 16} : Appending (Machine.hufEncPosProc x) := bind indexBelow fun _ => putAll

/-! ### The LZW encoder (R343 to R349) -/

theorem onLzw {f : Lzw → α × Lzw} : Appending (Machine.onLzw f) := of_same fun _ => ⟨rfl, rfl⟩

theorem setLzw {f : Lzw → Lzw} : Appending (Machine.setLzw f) := of_same fun _ => ⟨rfl, rfl⟩

theorem setPrefix {k : Option Code} : Appending (Machine.setPrefix k) := setLzw

theorem lookupCode {p : Code} {c : Byte} : Appending (Machine.lookupCode p c) := onLzw

theorem emitCode {k : Code} : Appending (Machine.emitCode k) :=
  get_bind fun _ => ite putBits (bind putBits fun _ => bind setLzw fun _ => putBits)

theorem clearWhenFull : Appending Machine.clearWhenFull :=
  get_bind fun _ => doIf (bind putBits fun _ => setLzw)

theorem growTable {p : Code} {c : Byte} : Appending (Machine.growTable p c) :=
  get_bind fun _ => doIf (bind setLzw fun _ => clearWhenFull)

theorem endPrefix {p : Code} {c : Byte} : Appending (Machine.endPrefix p c) :=
  bind emitCode fun _ => bind growTable fun _ => setPrefix

theorem extendPrefix {p : Code} {c : Byte} {k : Option Code} : Appending (Machine.extendPrefix p c k) := by
  cases k with
  | none => exact endPrefix
  | some k => exact setPrefix

theorem encodeAfter {c : Byte} {p : Option Code} : Appending (Machine.encodeAfter c p) := by
  cases p with
  | none => exact setPrefix
  | some p =>
    show Appending (Machine.lookupCode p c >>= fun k => Machine.extendPrefix p c k)
    refine bind ?_ ?_
    · exact lookupCode
    · exact fun _ => extendPrefix

theorem lzwEncodeByte {c : Byte} : Appending (Machine.lzwEncodeByte c) := get_bind fun _ => encodeAfter

theorem emitPrefix {p : Option Code} : Appending (Machine.emitPrefix p) := by
  cases p with
  | none => exact pure _
  | some p => exact bind emitCode fun _ => setPrefix

theorem lzwEncodeEnd : Appending Machine.lzwEncodeEnd :=
  bind (get_bind fun _ => emitPrefix) fun _ => get_bind fun _ => bind (doIf putBits) fun _ => flush

end Appending

/-! ### Commands that append (R186, R188, R190, R271, R274, R346, R349) -/

/-- The parts of the commands that append. -/
def appendParts : Parts := { out := true, lzw := true }

theorem frame_of_appendParts {i : Instr} {s t : State} (h : exec i s = .next t)
    (hg : exec i s = command (procedure i) s) (hp : (partsOf i).Within appendParts) :
    t = { s with err := t.err, out := t.out, lzw := t.lzw } := by
  obtain ⟨u, err, out, hu, rfl, -, -⟩ := exec_changes h hg
  have hu := hu.mono hp
  have heq := hu.eq
  rw [hu.res0.resolve_left nofun, hu.res1.resolve_left nofun, hu.rd.resolve_left nofun, hu.win.resolve_left nofun,
    hu.huf.resolve_left nofun, hu.r.resolve_left nofun] at heq
  exact congrArg (fun v : State => { v with err := err, out := out }) heq

/-- A command without the LZW unit among its parts leaves it alone. -/
theorem lzw_of_parts {i : Instr} {s t : State} (h : exec i s = .next t) (hg : exec i s = command (procedure i) s)
    (hl : (partsOf i).lzw = false) : t.lzw = s.lzw := by
  obtain ⟨u, err, out, hu, rfl, -, -⟩ := exec_changes h hg
  exact hu.lzw.resolve_left (Bool.eq_false_iff.1 hl)

/-- OUT bytes below the old end stay, and without an error those at or above the new one (R182, R384). -/
def State.KeepsOutBytes (s t : State) : Prop :=
  (∀ a, a < s.out.len.toNat → t.out.mem.read a = s.out.mem.read a) ∧
    (t.err = s.err → ∀ a, t.out.len.toNat ≤ a → t.out.mem.read a = s.out.mem.read a)

theorem keepsOutBytes_of_appending {i : Instr} {s t : State} (h : exec i s = .next t)
    (hg : exec i s = command (procedure i) s) (ha : Appending (procedure i)) (hs : s.out.len ≤ s.params.outCap) :
    s.KeepsOutBytes t := by
  rw [hg] at h
  refine command_next (P := s.KeepsOutBytes) h (fun _ => ⟨fun _ _ => rfl, fun _ _ _ => rfl⟩) fun he => ?_
  refine (ha s hs).mono (fun _ t ht => ?ends) fun _ t ht e _ => ?raises
  case ends => exact ⟨fun a hlt => ht.out.outside a (.inl hlt), fun _ a hle => ht.out.outside a (.inr hle)⟩
  case raises =>
    exact ⟨fun a hlt => ht.out.outside a (.inl hlt),
      fun herr => absurd (herr.trans he) (errorEntry_err_ne_zero e t)⟩

/-- Settles O16: each of these commands has only the output side and the LZW unit as parts, and each only appends. -/
theorem frameWritingCommands : Obligations.FrameWritingCommands := by
  intro n v x b s t h
  refine ⟨?frame, fun hb hend => ?lzw, fun hs => ?bytes⟩
  case frame =>
    rcases h with h | h | h | h | h | h | h <;>
      exact frame_of_appendParts h rfl (by constructor <;> simp [partsOf, appendParts])
  case lzw =>
    rcases h with h | h | h | h | h | h | h
    · exact lzw_of_parts h rfl rfl
    · exact lzw_of_parts h rfl rfl
    · exact lzw_of_parts h rfl rfl
    · exact lzw_of_parts h rfl rfl
    · exact lzw_of_parts h rfl rfl
    · exact absurd h hb
    · exact absurd h hend
  case bytes =>
    rcases h with h | h | h | h | h | h | h
    · exact keepsOutBytes_of_appending h rfl .bitPutProc hs
    · exact keepsOutBytes_of_appending h rfl .putBits hs
    · exact keepsOutBytes_of_appending h rfl .flush hs
    · exact keepsOutBytes_of_appending h rfl .hufEncProc hs
    · exact keepsOutBytes_of_appending h rfl .hufEncPosProc hs
    · exact keepsOutBytes_of_appending h rfl .lzwEncodeByte hs
    · exact keepsOutBytes_of_appending h rfl .lzwEncodeEnd hs

end Sys2Proof.Machine
end

section
/-! SUPPORT. The match index as a forest (42_window.md R210): the children of a node by side, `Linked` in terms of them, and
what lies below a child. -/

namespace Sys2Proof.Machine.Window

/-- The right (`true`) or left child of a node (R210, R216). -/
def child (w : Window) (b : Bool) (x : Node) : Option Pos := if b then w.right x else w.left x

/-- A node whose children count: a pseudo-node, or a position in the index (R210). -/
def Live (w : Window) : Node → Prop
  | .pos q => w.indexed q = true
  | .rootn _ => True

@[simp] theorem child_right (w : Window) (x : Node) : w.child true x = w.right x := rfl
@[simp] theorem child_left (w : Window) (x : Node) : w.child false x = w.left x := rfl
@[simp] theorem live_rootn (w : Window) (c : Byte) : w.Live (.rootn c) := trivial
@[simp] theorem live_pos (w : Window) (q : Pos) : w.Live (.pos q) ↔ w.indexed q = true := Iff.rfl

variable {w w' : Window}

theorem indexed_iff {p : Pos} : w.indexed p = true ↔ ∃ x, w.dad.get p = some x := Option.isSome_iff_exists

theorem indexed_eq_false_iff {p : Pos} : w.indexed p = false ↔ w.dad.get p = none :=
  Option.isSome_eq_false_iff.trans Option.isNone_iff_eq_none

theorem indexed_of_dad {p : Pos} {x : Node} (h : w.dad.get p = some x) : w.indexed p = true := indexed_iff.2 ⟨x, h⟩

theorem ne_of_indexed {p q : Pos} (hp : w.indexed p = true) (hq : w.indexed q = false) : p ≠ q := by
  rintro rfl
  rw [hp] at hq
  cases hq

theorem Live.ne_pos {x : Node} {q : Pos} (hx : w.Live x) (hq : w.indexed q = false) : x ≠ .pos q := by
  rintro rfl
  exact ne_of_indexed hx hq rfl

/-- `Linked` by sides: a node's parent is the one live node that has it as a child, on one side only. -/
structure Forest (w : Window) : Prop where
  dad_iff : ∀ p x, w.dad.get p = some x ↔ w.Live x ∧ ∃ b, w.child b x = some p
  oneSide : ∀ p x b c, w.Live x → w.child b x = some p → w.child c x = some p → b = c
  acyclic : ∃ rank : Pos → Nat, ∀ p q : Pos, w.dad.get p = some (.pos q) → rank q < rank p

theorem Linked.forest (h : w.Linked) : w.Forest where
  dad_iff p x := by
    constructor
    · intro hd
      refine ⟨?_, ?_⟩
      · cases x with
        | pos q => exact h.dadIndexed p q hd
        | rootn c => trivial
      · rcases h.dadChild p x hd with hr | hl
        · exact ⟨true, hr⟩
        · exact ⟨false, hl⟩
    · rintro ⟨hx, b, hb⟩
      cases x with
      | pos q =>
        cases b with
        | true => exact h.rightDad p q hx hb
        | false => exact h.leftDad p q hx hb
      | rootn c =>
        cases b with
        | true => exact h.rootDad p c hb
        | false => cases hb
  oneSide p x b c hx hb hc := by
    cases x with
    | pos q =>
      cases b <;> cases c
      · rfl
      · exact absurd hc (h.oneSide p q hx hb)
      · exact absurd hb (h.oneSide p q hx hc)
      · rfl
    | rootn d =>
      cases b <;> cases c
      · rfl
      · cases hb
      · cases hc
      · rfl
  acyclic := h.acyclic

theorem Forest.linked (h : w.Forest) : w.Linked where
  dadChild p x hd := by
    obtain ⟨-, b, hb⟩ := (h.dad_iff p x).1 hd
    cases b with
    | true => exact .inl hb
    | false => exact .inr hb
  rightDad p q hq hr := (h.dad_iff p _).2 ⟨hq, true, hr⟩
  leftDad p q hq hl := (h.dad_iff p _).2 ⟨hq, false, hl⟩
  rootDad p c hr := (h.dad_iff p _).2 ⟨trivial, true, hr⟩
  oneSide p q hq hl hr := nomatch h.oneSide p (.pos q) false true hq hl hr
  dadIndexed p q hd := ((h.dad_iff p _).1 hd).1
  acyclic := h.acyclic

namespace Linked

variable {p q : Pos} {x y : Node} {b c : Bool}

theorem dad_of_child (h : w.Linked) (hx : w.Live x) (hb : w.child b x = some p) : w.dad.get p = some x :=
  (h.forest.dad_iff p x).2 ⟨hx, b, hb⟩

theorem live_of_dad (h : w.Linked) (hd : w.dad.get p = some x) : w.Live x := ((h.forest.dad_iff p x).1 hd).1

theorem exists_child_of_dad (h : w.Linked) (hd : w.dad.get p = some x) : ∃ b, w.child b x = some p :=
  ((h.forest.dad_iff p x).1 hd).2

theorem indexed_of_child (h : w.Linked) (hx : w.Live x) (hb : w.child b x = some p) : w.indexed p = true :=
  indexed_of_dad (h.dad_of_child hx hb)

/-- A node has one place. -/
theorem child_inj (h : w.Linked) (hx : w.Live x) (hy : w.Live y) (hb : w.child b x = some p)
    (hc : w.child c y = some p) : x = y ∧ b = c := by
  obtain rfl : x = y := Option.some.inj ((h.dad_of_child hx hb).symm.trans (h.dad_of_child hy hc))
  exact ⟨rfl, h.forest.oneSide p x b c hx hb hc⟩

theorem dad_ne_self (h : w.Linked) : w.dad.get p ≠ some (.pos p) := by
  obtain ⟨rank, hr⟩ := h.acyclic
  exact fun hd => Nat.lt_irrefl _ (hr p p hd)

theorem child_ne_self (h : w.Linked) (hp : w.indexed p = true) : w.child b (.pos p) ≠ some p :=
  fun hb => h.dad_ne_self (h.dad_of_child hp hb)

/-- Below every node fewer than `N` levels follow: a height that falls from parent to child. -/
theorem exists_height (h : w.Linked) :
    ∃ height : Pos → Nat, (∀ p, height p < 4096) ∧ ∀ p q, w.dad.get p = some (.pos q) → height p < height q := by
  obtain ⟨rank, hr⟩ := h.acyclic
  refine ⟨fun p => (Finset.univ.filter fun r => rank p < rank r).card, fun p => ?_, fun p q hd => ?_⟩
  · have hlt := Finset.card_lt_card
      (Finset.filter_ssubset (p := fun r => rank p < rank r) |>.2 ⟨p, Finset.mem_univ p, Nat.lt_irrefl (rank p)⟩)
    rwa [Finset.card_univ, Fintype.card_fin] at hlt
  · refine Finset.card_lt_card (Finset.ssubset_iff_of_subset (fun r hm => ?_) |>.2 ⟨p, ?_, ?_⟩)
    · rw [Finset.mem_filter] at hm ⊢
      exact ⟨hm.1, (hr p q hd).trans hm.2⟩
    · exact Finset.mem_filter.2 ⟨Finset.mem_univ p, hr p q hd⟩
    · exact fun hm => Nat.lt_irrefl _ (Finset.mem_filter.1 hm).2

/-- The links of positions outside the index do not matter. -/
theorem congr (h : w.Linked) (hd : w'.dad = w.dad) (hc : ∀ b x, w.Live x → w'.child b x = w.child b x) :
    w'.Linked := by
  have hlive : ∀ x, w'.Live x ↔ w.Live x := fun x => by
    cases x with
    | pos q => rw [live_pos, live_pos, indexed, indexed, hd]
    | rootn c => exact Iff.rfl
  refine Forest.linked ⟨fun p x => ?_, fun p x b c hx hb hc' => ?_, ?_⟩
  · rw [hd, h.forest.dad_iff, hlive]
    exact and_congr_right fun hx => by simp only [hc _ x hx]
  · rw [hlive] at hx
    rw [hc _ x hx] at hb hc'
    exact h.forest.oneSide p x b c hx hb hc'
  · rw [hd]
    exact h.acyclic

end Linked

/-! ### What lies below a child -/

/-- Position `z` is in the subtree of a child of `x`. -/
def Below (w : Window) (b : Bool) (x : Node) (z : Pos) : Prop := ∃ l, w.child b x = some l ∧ w.Under l z

theorem inTree_iff_below {c : Byte} {z : Pos} : w.InTree c z ↔ w.Below true (.rootn c) z := Iff.rfl

theorem below_of_child {b : Bool} {x : Node} {z : Pos} (h : w.child b x = some z) : w.Below b x z := ⟨z, h, .self z⟩

theorem Below.step {b : Bool} {x : Node} {d z : Pos} (h : w.Below b x d) (hd : w.dad.get z = some (.pos d)) :
    w.Below b x z := by
  obtain ⟨l, hl, hu⟩ := h
  exact ⟨l, hl, .step l z d hd hu⟩

/-- A position below a child of `x` is that child, or its parent is below the same child. -/
theorem below_cases {b : Bool} {x : Node} {z : Pos} (h : w.Below b x z) :
    w.child b x = some z ∨ ∃ d, w.dad.get z = some (.pos d) ∧ w.Below b x d := by
  obtain ⟨l, hl, hu⟩ := h
  cases hu with
  | self => exact .inl hl
  | step _ d hd hu => exact .inr ⟨d, hd, l, hl, hu⟩

theorem Below.trans {b c : Bool} {x : Node} {d z : Pos} (h : w.Below b x d) (h' : w.Below c (.pos d) z) (hl : w.Linked)
    (hd : w.indexed d = true) : w.Below b x z := by
  obtain ⟨l, hc, hu⟩ := h'
  induction hu with
  | self => exact h.step (hl.dad_of_child hd hc)
  | step z e he _ ih => exact ih.step he

namespace Linked

variable {p q z : Pos} {x y : Node} {b c : Bool}

theorem indexed_of_below (h : w.Linked) (hx : w.Live x) (hz : w.Below b x z) : w.indexed z = true := by
  rcases below_cases hz with hc | ⟨d, hd, -⟩
  · exact h.indexed_of_child hx hc
  · exact indexed_of_dad hd

/-- The subtree of a node: itself and what is below its children. -/
theorem under_cases (h : w.Linked) (hz : w.Under p z) : z = p ∨ ∃ c, w.Below c (.pos p) z := by
  induction hz with
  | self => exact .inl rfl
  | step z d hd _ ih =>
    right
    rcases ih with rfl | ⟨c, hc⟩
    · obtain ⟨c, hc⟩ := h.exists_child_of_dad hd
      exact ⟨c, below_of_child hc⟩
    · exact ⟨c, hc.step hd⟩

theorem under_of_below (h : w.Linked) (hp : w.indexed p = true) (hz : w.Below b (.pos p) z) : w.Under p z := by
  obtain ⟨l, hb, hu⟩ := hz
  induction hu with
  | self => exact .step p _ p (h.dad_of_child (x := .pos p) hp hb) (.self p)
  | step z d hd _ ih => exact .step p z d hd ih

/-- What is below a node's child and has a place of its own there is below what its parent is below. -/
theorem below_of_child_below (h : w.Linked) (hx : w.Live x) (hy : w.Live y) (hc : w.child c y = some p)
    (hb : w.Below b x p) : (x = y ∧ b = c) ∨ ∃ d, y = .pos d ∧ w.Below b x d := by
  rcases below_cases hb with hp | ⟨d, hd, hb⟩
  · exact .inl (h.child_inj hx hy hp hc)
  · exact .inr ⟨d, Option.some.inj ((h.dad_of_child hy hc).symm.trans hd), hb⟩

/-- Every position in the index is in a tree. -/
theorem exists_inTree (h : w.Linked) (hp : w.indexed p = true) : ∃ c, w.InTree c p := by
  obtain ⟨rank, hr⟩ := h.acyclic
  induction hn : rank p using Nat.strong_induction_on generalizing p with
  | _ n ih =>
    obtain ⟨x, hx⟩ := indexed_iff.1 hp
    cases x with
    | rootn c =>
      obtain ⟨b, hb⟩ := h.exists_child_of_dad hx
      cases b with
      | true => exact ⟨c, below_of_child hb⟩
      | false => cases hb
    | pos q =>
      obtain ⟨c, hc⟩ := ih (rank q) (hn ▸ hr p q hx) (h.dadIndexed p q hx) rfl
      exact ⟨c, Below.step (inTree_iff_below.1 hc) hx⟩

end Linked

end Sys2Proof.Machine.Window
end

section
/-! SUPPORT. Keys as numbers (42_window.md R211, R212): the order of two keys is the order of two numbers, and how many
leading bytes they share. -/

namespace Sys2Proof.Machine.Window

variable {w : Window} {p q a : Pos} {n : Nat}

/-- The last `n` bytes of a position's key as one number, the first byte most significant. -/
def keyTail (w : Window) (p : Pos) : Nat → Nat
  | 0 => 0
  | n + 1 => (w.keyByte p (59 - n)).toNat * 256 ^ n + w.keyTail p n

/-- The bytes `Compare` looks at, all but byte 0 (R211), as one number. -/
def key (w : Window) (p : Pos) : Nat := w.keyTail p 59

/-- How many leading bytes of two keys agree, byte 0 taken as one of them (R211). -/
def share (w : Window) (p q : Pos) : Nat := (w.compare p q).1

theorem share_le (w : Window) (p q : Pos) : w.share p q ≤ 60 := compareFrom_le w p q 59

theorem keyTail_lt (w : Window) (p : Pos) (n : Nat) : w.keyTail p n < 256 ^ n := by
  induction n with
  | zero => exact Nat.one_pos
  | succ n ih =>
    have hb : ((w.keyByte p (59 - n)).toNat + 1) * 256 ^ n ≤ 256 * 256 ^ n := Nat.mul_le_mul_right _ (BitVec.isLt _)
    rw [Nat.succ_mul] at hb
    rw [keyTail, Nat.pow_succ]
    omega

/-- A smaller first byte makes a key smaller. -/
theorem keyTail_lt_of_byte (h : w.keyByte p (59 - n) < w.keyByte q (59 - n)) :
    w.keyTail p (n + 1) < w.keyTail q (n + 1) := by
  have hb := Nat.mul_le_mul_right (256 ^ n) (BitVec.lt_def.1 h)
  have hp := w.keyTail_lt p n
  rw [Nat.succ_mul] at hb
  rw [keyTail, keyTail]
  omega

/-- After the same first byte the rest decides. -/
theorem keyTail_succ_of_eq (h : w.keyByte p (59 - n) = w.keyByte q (59 - n)) :
    w.keyTail p (n + 1) = w.keyTail p n + (w.keyByte q (59 - n)).toNat * 256 ^ n := by
  rw [keyTail, h, Nat.add_comm]

/-- `Compare` after the bytes before the last `n` agreed (R211), in the order of its tests. -/
theorem compareFrom_cases (w : Window) (p q : Pos) (n : Nat) :
    (w.keyByte p (59 - n) < w.keyByte q (59 - n) ∧ w.compareFrom p q (n + 1) = (59 - n, .lt)) ∨
    (w.keyByte q (59 - n) < w.keyByte p (59 - n) ∧ w.compareFrom p q (n + 1) = (59 - n, .gt)) ∨
    (w.keyByte p (59 - n) = w.keyByte q (59 - n) ∧ w.compareFrom p q (n + 1) = w.compareFrom p q n) := by
  rw [compareFrom]
  split
  · next h => exact .inl ⟨h, rfl⟩
  · next h =>
    split
    · next h' => exact .inr (.inl ⟨h', rfl⟩)
    · next h' => exact .inr (.inr ⟨BitVec.le_antisymm (BitVec.not_lt.1 h') (BitVec.not_lt.1 h), rfl⟩)

theorem compareFrom_order (w : Window) (p q : Pos) (n : Nat) :
    ((w.compareFrom p q n).2 = .lt ↔ w.keyTail p n < w.keyTail q n) ∧
      ((w.compareFrom p q n).2 = .eq ↔ w.keyTail p n = w.keyTail q n) := by
  induction n with
  | zero => simp [compareFrom, keyTail]
  | succ n ih =>
    rcases w.compareFrom_cases p q n with ⟨h, hc⟩ | ⟨h, hc⟩ | ⟨h, hc⟩ <;> rw [hc]
    · have := keyTail_lt_of_byte h
      exact ⟨iff_of_true rfl this, iff_of_false nofun this.ne⟩
    · have := keyTail_lt_of_byte h
      exact ⟨iff_of_false nofun this.not_gt, iff_of_false nofun this.ne'⟩
    · rw [keyTail_succ_of_eq h, keyTail_succ_of_eq (q := q) rfl]
      exact ⟨ih.1.trans Nat.add_lt_add_iff_right.symm, ih.2.trans Nat.add_right_cancel_iff.symm⟩

theorem keyOrder_lt_iff : w.keyOrder p q = .lt ↔ w.key p < w.key q := (w.compareFrom_order p q 59).1

theorem keyOrder_eq_iff : w.keyOrder p q = .eq ↔ w.key p = w.key q := (w.compareFrom_order p q 59).2

theorem keyOrder_ne_lt_iff : w.keyOrder p q ≠ .lt ↔ w.key q ≤ w.key p := by
  rw [ne_eq, keyOrder_lt_iff, Nat.not_lt]

/-- `Compare` reads the window's bytes alone. -/
theorem compareFrom_congr {w' : Window} (h : w'.win = w.win) (p q : Pos) (n : Nat) :
    w'.compareFrom p q n = w.compareFrom p q n := by
  have hb (p : Pos) (i : Nat) : w'.keyByte p i = w.keyByte p i := by rw [keyByte, keyByte, h]
  induction n with
  | zero => rfl
  | succ n ih => rw [compareFrom, compareFrom, hb, hb, ih]

theorem share_congr {w' : Window} (h : w'.win = w.win) (p q : Pos) : w'.share p q = w.share p q :=
  congrArg Prod.fst (compareFrom_congr h p q 59)

theorem keyOrder_congr {w' : Window} (h : w'.win = w.win) (p q : Pos) : w'.keyOrder p q = w.keyOrder p q :=
  congrArg Prod.snd (compareFrom_congr h p q 59)

/-- All 60 bytes count as shared exactly when the keys are equal (R211). -/
theorem compareFrom_full (w : Window) (p q : Pos) (n : Nat) :
    (w.compareFrom p q n).1 = 60 ↔ (w.compareFrom p q n).2 = .eq := by
  induction n with
  | zero => exact iff_of_true rfl rfl
  | succ n ih =>
    rcases w.compareFrom_cases p q n with ⟨-, hc⟩ | ⟨-, hc⟩ | ⟨-, hc⟩ <;> rw [hc]
    · exact iff_of_false (by dsimp only; omega) nofun
    · exact iff_of_false (by dsimp only; omega) nofun
    · exact ih

theorem share_eq_full_iff : w.share p q = 60 ↔ w.key p = w.key q :=
  (w.compareFrom_full p q 59).trans keyOrder_eq_iff

theorem share_lt_full_iff : w.share p q < 60 ↔ w.key p ≠ w.key q := by
  have := w.share_le p q
  rw [ne_eq, ← share_eq_full_iff]
  omega

theorem share_self : w.share p p = 60 := share_eq_full_iff.2 rfl

/-- The shared bytes agree. -/
theorem compareFrom_agree {i : Nat} (h : i < (w.compareFrom p q n).1) (hi : 60 ≤ i + n) (h60 : i < 60) :
    w.keyByte p i = w.keyByte q i := by
  induction n with
  | zero => omega
  | succ n ih =>
    rcases w.compareFrom_cases p q n with ⟨-, hc⟩ | ⟨-, hc⟩ | ⟨hb, hc⟩ <;> rw [hc] at h
    · dsimp only at h
      omega
    · dsimp only at h
      omega
    · by_cases hn : i = 59 - n
      · rw [hn, hb]
      · exact ih h (by omega)

theorem keyByte_eq_of_lt_share {i : Nat} (h1 : 1 ≤ i) (h : i < w.share p q) : w.keyByte p i = w.keyByte q i :=
  compareFrom_agree h (by omega) (h.trans_le (w.share_le p q))

/-- Bytes that agree are shared. -/
theorem le_compareFrom_of_agree {m : Nat} (h : w.Agree p q m) (hm : m ≤ 60) : m ≤ (w.compareFrom p q n).1 := by
  induction n with
  | zero => exact hm
  | succ n ih =>
    rcases w.compareFrom_cases p q n with ⟨hb, hc⟩ | ⟨hb, hc⟩ | ⟨-, hc⟩ <;> rw [hc]
    · exact Nat.not_lt.1 fun hlt => BitVec.lt_irrefl _ (h _ hlt ▸ hb)
    · exact Nat.not_lt.1 fun hlt => BitVec.lt_irrefl _ (h _ hlt ▸ hb)
    · exact ih

theorem le_share_of_agree {m : Nat} (h : w.Agree p q m) (hm : m ≤ 60) : m ≤ w.share p q :=
  le_compareFrom_of_agree h hm

/-- Byte 0 is the window's byte itself (R211). -/
theorem keyByte_zero (w : Window) (p : Pos) : w.keyByte p 0 = w.win.get p :=
  congrArg w.win.get (Fin.ext (Nat.mod_eq_of_lt p.isLt))

theorem agree_of_le_share {m : Nat} (h : m ≤ w.share p q) (h0 : w.win.get p = w.win.get q) : w.Agree p q m := by
  intro i hi
  rcases Nat.eq_zero_or_pos i with rfl | hpos
  · rw [keyByte_zero, keyByte_zero, h0]
  · exact keyByte_eq_of_lt_share hpos (hi.trans_le h)

/-- The bytes before the last `n` count as shared. -/
theorem le_compareFrom (w : Window) (p q : Pos) (n : Nat) : 60 - n ≤ (w.compareFrom p q n).1 := by
  induction n with
  | zero => exact Nat.le_refl 60
  | succ n ih =>
    rcases w.compareFrom_cases p q n with ⟨-, hc⟩ | ⟨-, hc⟩ | ⟨-, hc⟩ <;> rw [hc] <;> omega

/-- A key between two keys shares with each at least what they share. -/
theorem compareFrom_between
    (h : (w.keyTail q n ≤ w.keyTail a n ∧ w.keyTail a n ≤ w.keyTail p n) ∨
      (w.keyTail p n ≤ w.keyTail a n ∧ w.keyTail a n ≤ w.keyTail q n)) :
    (w.compareFrom p q n).1 ≤ (w.compareFrom p a n).1 := by
  induction n with
  | zero => exact Nat.le_refl 60
  | succ n ih =>
    rcases w.compareFrom_cases p q n with ⟨-, hq⟩ | ⟨-, hq⟩ | ⟨hb, hq⟩ <;> rw [hq]
    · exact (by omega : 59 - n ≤ 60 - (n + 1)).trans (w.le_compareFrom p a (n + 1))
    · exact (by omega : 59 - n ≤ 60 - (n + 1)).trans (w.le_compareFrom p a (n + 1))
    · rcases w.compareFrom_cases p a n with ⟨ha, -⟩ | ⟨ha, -⟩ | ⟨ha, hc⟩
      · have hp := keyTail_lt_of_byte ha
        have hq := keyTail_lt_of_byte (hb ▸ ha)
        omega
      · have hp := keyTail_lt_of_byte ha
        have hq := keyTail_lt_of_byte (hb ▸ ha)
        omega
      · rw [hc]
        rw [keyTail_succ_of_eq hb, keyTail_succ_of_eq (ha.symm.trans hb), keyTail, Nat.add_comm (_ * _)] at h
        exact ih (by omega)

theorem share_between
    (h : (w.key q ≤ w.key a ∧ w.key a ≤ w.key p) ∨ (w.key p ≤ w.key a ∧ w.key a ≤ w.key q)) :
    w.share p q ≤ w.share p a := compareFrom_between h

end Sys2Proof.Machine.Window
end

section
/-! SUPPORT. The three changes that insertion and deletion make to the match index (42_window.md R216, R218, R219): a node
leaves its place to its only child, a position takes the place of another, and a position is attached at an empty link.
Each keeps the links a set of trees, and what is below a place stays in order. -/

namespace Sys2Proof.Machine.Window

variable {w w' : Window} {p q z : Pos} {v : Option Pos} {x y : Node} {b c : Bool}

/-- Position `p` has left its place on side `b` of `x`, and `v` has taken it (R219). -/
structure Unlinked (w : Window) (p : Pos) (v : Option Pos) (b : Bool) (x : Node) (w' : Window) : Prop where
  win : w'.win = w.win
  dad : ∀ z, w'.dad.get z = if z = p then none else if v = some z then some x else w.dad.get z
  child : ∀ c y, w'.child c y = if y = x ∧ c = b then v else w.child c y

/-- `v` is the only child of `p`, or `p` has none. -/
def OnlyChild (w : Window) (p : Pos) (v : Option Pos) : Prop := ∀ z, v = some z ↔ ∃ c, w.child c (.pos p) = some z

section Unlinked

variable (h : w.Unlinked p v b x w') (hl : w.Linked) (hx : w.Live x) (hb : w.child b x = some p) (hv : w.OnlyChild p v)
include h hl hx hb hv

theorem Unlinked.indexed : w'.indexed z = true ↔ z ≠ p ∧ w.indexed z = true := by
  rw [indexed_iff, h.dad]
  by_cases hz : z = p
  · simp [hz]
  · by_cases hvz : v = some z
    · obtain ⟨c, hc⟩ := (hv z).1 hvz
      have := hl.indexed_of_child (x := .pos p) (hl.indexed_of_child hx hb) hc
      simp [hz, hvz, this]
    · simp [hz, hvz, indexed_iff]

theorem Unlinked.live : w'.Live y ↔ y ≠ .pos p ∧ w.Live y := by
  cases y with
  | pos q => simpa using h.indexed hl hx hb hv
  | rootn c => simp

/-- Where a position sits after `p` has left: where it sat, or in the place of `p`. -/
theorem Unlinked.child_iff :
    w'.Live y ∧ w'.child c y = some z ↔
      if v = some z then y = x ∧ c = b else z ≠ p ∧ w.Live y ∧ w.child c y = some z := by
  have hp : w.Live (.pos p) := hl.indexed_of_child hx hb
  have hxp : x ≠ .pos p := by
    rintro rfl
    exact hl.child_ne_self hp hb
  rw [h.live hl hx hb hv, h.child]
  by_cases hyx : y = x ∧ c = b
  · obtain ⟨rfl, rfl⟩ := hyx
    by_cases hz : v = some z
    · simp [hz, hxp, hx]
    · simp only [and_self, if_true, hz, and_false, if_false, false_iff]
      rintro ⟨hzp, -, hc⟩
      exact hzp (Option.some.inj (hc.symm.trans hb))
  · rw [if_neg hyx]
    split
    · next hz =>
      obtain ⟨d, hd⟩ := (hv z).1 hz
      refine iff_of_false (fun ⟨⟨hyp, hy⟩, hc⟩ => hyp (hl.child_inj hy hp hc hd).1) hyx
    · next hz =>
      refine ⟨fun ⟨⟨hyp, hy⟩, hc⟩ => ⟨?_, hy, hc⟩, fun ⟨hzp, hy, hc⟩ => ⟨⟨?_, hy⟩, hc⟩⟩
      · rintro rfl
        exact hyx (hl.child_inj hy hx hc hb)
      · rintro rfl
        exact hz ((hv z).2 ⟨c, hc⟩)

theorem Unlinked.linked : w'.Linked := by
  have hp : w.Live (.pos p) := hl.indexed_of_child hx hb
  have hne (z : Pos) (hz : v = some z) : z ≠ p := by
    rintro rfl
    obtain ⟨c, hc⟩ := (hv z).1 hz
    exact hl.child_ne_self hp hc
  refine Forest.linked ⟨fun z y => ?_, fun z y c d hy hc hd => ?_, ?_⟩
  · rw [← exists_and_left]
    simp only [h.child_iff hl hx hb hv]
    rw [h.dad]
    by_cases hz : v = some z
    · simp [hz, hne z hz, eq_comm]
    · by_cases hzp : z = p
      · subst hzp
        simp [hz]
      · simp [hz, hzp, hl.forest.dad_iff]
  · have hc' := (h.child_iff hl hx hb hv).1 ⟨hy, hc⟩
    have hd' := (h.child_iff hl hx hb hv).1 ⟨hy, hd⟩
    split at hc'
    · next hz =>
      rw [if_pos hz] at hd'
      exact hc'.2.trans hd'.2.symm
    · next hz =>
      rw [if_neg hz] at hd'
      exact (hl.child_inj hc'.2.1 hc'.2.1 hc'.2.2 hd'.2.2).2
  · obtain ⟨rank, hr⟩ := hl.acyclic
    refine ⟨rank, fun z q hd => ?_⟩
    rw [h.dad] at hd
    split at hd
    · cases hd
    · split at hd
      · next hz =>
        cases hd
        obtain ⟨c, hc⟩ := (hv z).1 hz
        exact (hr p q (hl.dad_of_child hx hb)).trans (hr z p (hl.dad_of_child hp hc))
      · exact hr z q hd

/-- What is below a place then was below it before. -/
theorem Unlinked.below (hy : w'.Live y) (hz : w'.Below c y z) : w.Below c y z := by
  have hp : w.Live (.pos p) := hl.indexed_of_child hx hb
  have up {d : Pos} (hd : w.Below c y p) (hdv : v = some d) : w.Below c y d := by
    obtain ⟨e, he⟩ := (hv d).1 hdv
    exact hd.step (hl.dad_of_child hp he)
  obtain ⟨l, hc, hu⟩ := hz
  induction hu with
  | self =>
    have hc' := (h.child_iff hl hx hb hv).1 ⟨hy, hc⟩
    split at hc'
    · next hlv =>
      obtain ⟨rfl, rfl⟩ := hc'
      exact up (below_of_child hb) hlv
    · exact below_of_child hc'.2.2
  | step z d hd _ ih =>
    have hb' := ih
    rw [h.dad] at hd
    split at hd
    · cases hd
    · split at hd
      · next hzv =>
        cases hd
        exact up (hb'.step (hl.dad_of_child hx hb)) hzv
      · exact hb'.step hd

end Unlinked

/-! ### A position takes the place of another (R218, R221) -/

/-- A node with `p` and `q` exchanged. -/
def renameNode (p q : Pos) : Node → Node
  | .pos z => .pos (Equiv.swap p q z)
  | .rootn c => .rootn c

@[simp] theorem renameNode_renameNode (p q : Pos) (x : Node) : renameNode p q (renameNode p q x) = x := by
  cases x <;> simp [renameNode]

theorem renameNode_eq_iff : renameNode p q x = y ↔ x = renameNode p q y := by
  constructor <;> (rintro rfl; simp)

theorem renameNode_of_ne (h : x ≠ .pos p) (h' : x ≠ .pos q) : renameNode p q x = x := by
  cases x with
  | pos z => exact congrArg Node.pos (Equiv.swap_apply_of_ne_of_ne (fun e => h (e ▸ rfl)) fun e => h' (e ▸ rfl))
  | rootn c => rfl

/-- The links of `w'` are those of `w` with `p` and `q` exchanged, as far as they count. -/
structure Replaced (w : Window) (p q : Pos) (w' : Window) : Prop where
  win : w'.win = w.win
  dad : ∀ z, w'.dad.get z = (w.dad.get (Equiv.swap p q z)).map (renameNode p q)
  child : ∀ c y, w.Live (renameNode p q y) → w'.child c y = (w.child c (renameNode p q y)).map (Equiv.swap p q)

section Replaced

variable (h : w.Replaced p q w')
include h

theorem Replaced.indexed : w'.indexed z = w.indexed (Equiv.swap p q z) := by
  rw [Window.indexed, h.dad, Option.isSome_map, Window.indexed]

theorem Replaced.live : w'.Live y ↔ w.Live (renameNode p q y) := by
  cases y with
  | pos z => rw [live_pos, h.indexed, renameNode, live_pos]
  | rootn c => exact Iff.rfl

theorem Replaced.child_iff : w'.Live y ∧ w'.child c y = some z ↔
    w.Live (renameNode p q y) ∧ w.child c (renameNode p q y) = some (Equiv.swap p q z) := by
  rw [h.live]
  refine and_congr_right fun hy => ?_
  rw [h.child c y hy, Option.map_eq_some_iff]
  constructor
  · rintro ⟨l, hl, rfl⟩
    rw [hl, Equiv.swap_apply_self]
  · exact fun hc => ⟨_, hc, Equiv.swap_apply_self ..⟩

theorem Replaced.linked (hl : w.Linked) : w'.Linked := by
  refine Forest.linked ⟨fun z y => ?_, fun z y c d hy hc hd => ?_, ?_⟩
  · rw [← exists_and_left]
    simp only [h.child_iff]
    rw [exists_and_left, ← hl.forest.dad_iff, h.dad, Option.map_eq_some_iff]
    constructor
    · rintro ⟨x, hx, rfl⟩
      rw [hx, renameNode_renameNode]
    · exact fun hd => ⟨_, hd, renameNode_renameNode ..⟩
  · obtain ⟨hx, hc⟩ := (h.child_iff).1 ⟨hy, hc⟩
    exact (hl.child_inj hx hx hc ((h.child_iff).1 ⟨hy, hd⟩).2).2
  · obtain ⟨rank, hr⟩ := hl.acyclic
    refine ⟨fun z => rank (Equiv.swap p q z), fun z d hd => hr _ _ ?_⟩
    rw [h.dad, Option.map_eq_some_iff] at hd
    obtain ⟨x, hx, hxd⟩ := hd
    rw [hx, renameNode_eq_iff.1 hxd, renameNode]

theorem Replaced.below (hy : w'.Live y) (hz : w'.Below c y z) :
    w.Below c (renameNode p q y) (Equiv.swap p q z) := by
  obtain ⟨l, hc, hu⟩ := hz
  induction hu with
  | self => exact below_of_child ((h.child_iff).1 ⟨hy, hc⟩).2
  | step z d hd _ ih =>
    rw [h.dad, Option.map_eq_some_iff] at hd
    obtain ⟨x, hx, hxd⟩ := hd
    refine Below.step ih ?_
    rw [hx, renameNode_eq_iff.1 hxd, renameNode]

end Replaced

/-! ### A position is attached at an empty link (R216) -/

/-- `p`, without children, is now the child on side `b` of `x`. -/
structure Attached (w : Window) (p : Pos) (b : Bool) (x : Node) (w' : Window) : Prop where
  win : w'.win = w.win
  dad : ∀ z, w'.dad.get z = if z = p then some x else w.dad.get z
  child : ∀ c y, w'.child c y = if y = x ∧ c = b then some p else if y = .pos p then none else w.child c y

/-- The place on side `b` of `x` lies below side `c` of `y`. -/
def Leads (w : Window) (c : Bool) (y : Node) (b : Bool) (x : Node) : Prop :=
  (y = x ∧ c = b) ∨ ∃ d, x = .pos d ∧ w.Below c y d

section Attached

variable (h : w.Attached p b x w') (hl : w.Linked) (hp : w.indexed p = false) (hx : w.Live x)
  (hb : w.child b x = none)
include h

theorem Attached.indexed : w'.indexed z = true ↔ z = p ∨ w.indexed z = true := by
  rw [indexed_iff, indexed_iff, h.dad]
  by_cases hz : z = p <;> simp [hz]

theorem Attached.live : w'.Live y ↔ y = .pos p ∨ w.Live y := by
  cases y with
  | pos z => simpa using h.indexed
  | rootn c => simp

include hl hp hx

/-- The new position has no child yet. -/
theorem Attached.parent_ne {d : Pos} (hd : w'.dad.get z = some (.pos d)) : d ≠ p := by
  rw [h.dad] at hd
  split at hd
  · cases hd
    exact ne_of_indexed hx hp
  · exact ne_of_indexed (hl.dadIndexed z d hd) hp

include hb

theorem Attached.child_iff : w'.Live y ∧ w'.child c y = some z ↔
    if z = p then y = x ∧ c = b else w.Live y ∧ w.child c y = some z := by
  have hxp := hx.ne_pos hp
  have hc (hy : w.Live y) (hc : w.child c y = some z) : z ≠ p := ne_of_indexed (hl.indexed_of_child hy hc) hp
  rw [h.live, h.child]
  by_cases hyx : y = x ∧ c = b
  · obtain ⟨rfl, rfl⟩ := hyx
    simp [hx, hb, eq_comm]
  · rw [if_neg hyx]
    by_cases hyp : y = .pos p
    · subst hyp
      simp only [true_or, if_true, reduceCtorEq, and_false, false_iff, live_pos, hp, Bool.false_eq_true, false_and]
      split
      · exact hyx
      · exact id
    · simp only [hyp, false_or, if_false]
      split
      · next hz => exact iff_of_false (fun h => hc h.1 h.2 hz) hyx
      · exact Iff.rfl

theorem Attached.linked : w'.Linked := by
  refine Forest.linked ⟨fun z y => ?_, fun z y c d hy hc hd => ?_, ?_⟩
  · rw [← exists_and_left]
    simp only [h.child_iff hl hp hx hb]
    rw [h.dad]
    by_cases hz : z = p
    · simp [hz, eq_comm]
    · simp [hz, hl.forest.dad_iff]
  · have hc' := (h.child_iff hl hp hx hb).1 ⟨hy, hc⟩
    have hd' := (h.child_iff hl hp hx hb).1 ⟨hy, hd⟩
    split at hc'
    · next hz =>
      rw [if_pos hz] at hd'
      exact hc'.2.trans hd'.2.symm
    · next hz =>
      rw [if_neg hz] at hd'
      exact (hl.child_inj hc'.1 hc'.1 hc'.2 hd'.2).2
  · obtain ⟨height, hlt, hh⟩ := hl.exists_height
    refine ⟨fun z => if z = p then 4097 else 4096 - height z, fun z d hd => ?_⟩
    have hdp : d ≠ p := h.parent_ne hl hp hx hd
    rw [h.dad] at hd
    dsimp only
    rw [if_neg hdp]
    split
    · omega
    · next hz =>
      rw [if_neg hz] at hd
      have := hh z d hd
      have := hlt d
      omega

theorem Attached.below (hy : w'.Live y) (hz : w'.Below c y z) :
    (z = p ∧ w.Leads c y b x) ∨ (z ≠ p ∧ w.Live y ∧ w.Below c y z) := by
  obtain ⟨l, hc, hu⟩ := hz
  induction hu with
  | self =>
    have hc' := (h.child_iff hl hp hx hb).1 ⟨hy, hc⟩
    split at hc'
    · next hz => exact .inl ⟨hz, .inl hc'⟩
    · next hz => exact .inr ⟨hz, hc'.1, below_of_child hc'.2⟩
  | step z d hd _ ih =>
    obtain ⟨hyl, hyd⟩ : w.Live y ∧ w.Below c y d :=
      (ih.resolve_left fun hd' => h.parent_ne hl hp hx hd hd'.1).2
    rw [h.dad] at hd
    split at hd
    · next hz =>
      cases hd
      exact .inl ⟨hz, .inr ⟨d, rfl, hyd⟩⟩
    · next hz => exact .inr ⟨hz, hyl, hyd.step hd⟩

end Attached

end Sys2Proof.Machine.Window
end

section
/-! SUPPORT. Search trees (42_window.md R212, R218): `Ordered` in terms of keys as numbers, and when the three changes of the
links keep it. -/

namespace Sys2Proof.Machine.Window

variable {w w' : Window} {p q z : Pos} {v : Option Pos} {x y : Node} {b c : Bool}

/-- Keys depend on the window's bytes alone. -/
theorem keyTail_congr (h : w'.win = w.win) (p : Pos) (n : Nat) : w'.keyTail p n = w.keyTail p n := by
  induction n with
  | zero => rfl
  | succ n ih => rw [keyTail, keyTail, ih, keyByte, keyByte, h]

theorem key_congr (h : w'.win = w.win) (p : Pos) : w'.key p = w.key p := keyTail_congr h p 59

/-- `Ordered` by sides and numbers. -/
structure Sorted (w : Window) : Prop where
  firstByte : ∀ (d : Byte) z, w.Below true (.rootn d) z → w.win.get z = d
  side : ∀ p c z, w.indexed p = true → w.Below c (.pos p) z → (w.key z < w.key p ↔ c = false)
  oneKey : ∀ (d : Byte) p q, w.Below true (.rootn d) p → w.Below true (.rootn d) q → w.key q = w.key p → q = p

theorem Ordered.sorted (h : w.Ordered) : w.Sorted where
  firstByte := h.firstByte
  side p c z hp hz := by
    obtain ⟨l, hc, hu⟩ := hz
    cases c with
    | true => exact iff_of_false (Nat.not_lt.2 (keyOrder_ne_lt_iff.1 (h.rightNotSmaller p l z hp hc hu))) nofun
    | false => exact iff_of_true (keyOrder_lt_iff.1 (h.leftSmaller p l z hp hc hu)) rfl
  oneKey d p q hp hq hk := h.oneKey d p q hp hq (keyOrder_eq_iff.2 hk)

theorem Sorted.lt_of_below (h : w.Sorted) (hp : w.indexed p = true) (hz : w.Below false (.pos p) z) :
    w.key z < w.key p := (h.side p false z hp hz).2 rfl

theorem Sorted.le_of_below (h : w.Sorted) (hp : w.indexed p = true) (hz : w.Below true (.pos p) z) :
    w.key p ≤ w.key z := Nat.not_lt.1 fun hlt => nomatch (h.side p true z hp hz).1 hlt

theorem Sorted.ordered (h : w.Sorted) : w.Ordered where
  firstByte := h.firstByte
  leftSmaller p l z hp hl hu := keyOrder_lt_iff.2 ((h.side p false z hp ⟨l, hl, hu⟩).2 rfl)
  rightNotSmaller p r z hp hr hu := fun hk => nomatch (h.side p true z hp ⟨r, hr, hu⟩).1 (keyOrder_lt_iff.1 hk)
  oneKey d p q hp hq hk := h.oneKey d p q hp hq (keyOrder_eq_iff.1 hk)

/-- A node that leaves disturbs no order. -/
theorem Unlinked.sorted (h : w.Unlinked p v b x w') (hl : w.Linked) (hx : w.Live x) (hb : w.child b x = some p)
    (hv : w.OnlyChild p v) (ho : w.Sorted) : w'.Sorted where
  firstByte d z hz := by
    rw [h.win]
    exact ho.firstByte d z (h.below hl hx hb hv (live_rootn w' d) hz)
  side a c z ha hz := by
    rw [key_congr h.win, key_congr h.win]
    exact ho.side a c z ((h.indexed hl hx hb hv).1 ha).2 (h.below hl hx hb hv (y := .pos a) ha hz)
  oneKey d a z ha hz hk := by
    rw [key_congr h.win, key_congr h.win] at hk
    exact ho.oneKey d a z (h.below hl hx hb hv (live_rootn w' d) ha) (h.below hl hx hb hv (live_rootn w' d) hz) hk

/-- The key of `q` fits where `p` is. -/
structure Fits (w : Window) (p q : Pos) : Prop where
  above : ∀ a c, w.indexed a = true → w.Below c (.pos a) p → (w.key q < w.key a ↔ c = false)
  below : ∀ c z, w.Below c (.pos p) z → (w.key z < w.key q ↔ c = false)
  tree : ∀ d : Byte, w.Below true (.rootn d) p → w.win.get q = d
  oneKey : ∀ (d : Byte) z, w.Below true (.rootn d) p → w.Below true (.rootn d) z → w.key z = w.key q → z = p

/-- A position with the key of `p` fits where `p` is. -/
theorem Sorted.fits_of_eq (ho : w.Sorted) (hp : w.indexed p = true) (hk : w.key q = w.key p)
    (hb : w.win.get q = w.win.get p) : w.Fits p q where
  above a c ha hz := by rw [hk]; exact ho.side a c p ha hz
  below c z hz := by rw [hk]; exact ho.side p c z hp hz
  tree d hd := by rw [hb]; exact ho.firstByte d p hd
  oneKey d z hp hz he := ho.oneKey d p z hp hz (he.trans hk)

/-- No position is below itself. -/
theorem Linked.ne_of_below (hl : w.Linked) (hp : w.indexed p = true) (hz : w.Below c (.pos p) z) : z ≠ p := by
  obtain ⟨rank, hr⟩ := hl.acyclic
  have hlt : rank p < rank z := by
    obtain ⟨l, hc, hu⟩ := hz
    induction hu with
    | self => exact hr _ _ (hl.dad_of_child (x := .pos p) hp hc)
    | step z d hd _ ih => exact ih.trans (hr z d hd)
  rintro rfl
  exact Nat.lt_irrefl _ hlt

/-- A position in the index then is `q`, in the place `p` had, or another one, in its own. -/
theorem Replaced.indexed_cases (h : w.Replaced p q w') (hq : w.indexed q = false) (hz : w'.indexed z = true) :
    (z = q ∧ Equiv.swap p q z = p) ∨ (z ≠ q ∧ z ≠ p ∧ Equiv.swap p q z = z) := by
  by_cases hzq : z = q
  · exact .inl ⟨hzq, by rw [hzq, Equiv.swap_apply_right]⟩
  · have hzp : z ≠ p := by
      rintro rfl
      rw [h.indexed, Equiv.swap_apply_left, hq] at hz
      cases hz
    exact .inr ⟨hzq, hzp, Equiv.swap_apply_of_ne_of_ne hzp hzq⟩

/-- A position whose key fits may take the place of another. -/
theorem Replaced.sorted (h : w.Replaced p q w') (hl : w.Linked) (hq : w.indexed q = false) (hp : w.indexed p = true)
    (hf : w.Fits p q) (ho : w.Sorted) : w'.Sorted := by
  have hin {c : Bool} {y : Node} {z : Pos} (hy : w'.Live y) (hz : w'.Below c y z) : w'.indexed z = true :=
    (h.linked hl).indexed_of_below hy hz
  refine ⟨fun d z hz => ?_, fun a c z ha hz => ?_, fun d a z ha hz hk => ?_⟩
  · have hz' := h.below (live_rootn w' d) hz
    rw [h.win]
    rcases h.indexed_cases hq (hin (live_rootn w' d) hz) with ⟨rfl, hs⟩ | ⟨-, -, hs⟩ <;> rw [hs] at hz'
    · exact hf.tree d hz'
    · exact ho.firstByte d z hz'
  · have hy : w'.Live (.pos a) := ha
    have hz' := h.below hy hz
    rw [key_congr h.win, key_congr h.win]
    rw [renameNode] at hz'
    rw [h.indexed] at ha
    rcases h.indexed_cases hq hy with ⟨hap, ha'⟩ | ⟨-, -, ha'⟩ <;> rw [ha'] at hz' ha <;>
      rcases h.indexed_cases hq (hin hy hz) with ⟨hzq, hs⟩ | ⟨-, -, hs⟩ <;> rw [hs] at hz'
    · exact absurd rfl (hl.ne_of_below hp hz')
    · rw [hap]
      exact hf.below c z hz'
    · rw [hzq]
      exact hf.above a c ha hz'
    · exact ho.side a c z ha hz'
  · have ha' := h.below (live_rootn w' d) ha
    have hz' := h.below (live_rootn w' d) hz
    rw [key_congr h.win, key_congr h.win] at hk
    rcases h.indexed_cases hq (hin (live_rootn w' d) ha) with ⟨haq, has⟩ | ⟨-, hap, has⟩ <;> rw [has] at ha' <;>
      rcases h.indexed_cases hq (hin (live_rootn w' d) hz) with ⟨hzq, hzs⟩ | ⟨-, hzp, hzs⟩ <;> rw [hzs] at hz'
    · exact hzq.trans haq.symm
    · exact absurd (hf.oneKey d z ha' hz' (haq ▸ hk)) hzp
    · exact absurd (hf.oneKey d a hz' ha' (hzq ▸ hk.symm)) hap
    · exact ho.oneKey d a z ha' hz' hk

/-- The key of `p` fits at the empty link on side `b` of `x`, and no position of its tree has the same. -/
structure FitsAt (w : Window) (p : Pos) (b : Bool) (x : Node) : Prop where
  side : ∀ a c, w.indexed a = true → w.Leads c (.pos a) b x → (w.key p < w.key a ↔ c = false)
  tree : ∀ d : Byte, w.Leads true (.rootn d) b x → w.win.get p = d
  fresh : ∀ z, w.Below true (.rootn (w.win.get p)) z → w.key z ≠ w.key p

/-- A position may be attached where its key fits. -/
theorem Attached.sorted (h : w.Attached p b x w') (hl : w.Linked) (hp : w.indexed p = false) (hx : w.Live x)
    (hb : w.child b x = none) (hf : w.FitsAt p b x) (ho : w.Sorted) : w'.Sorted := by
  refine ⟨fun d z hz => ?_, fun a c z ha hz => ?_, fun d a z ha hz hk => ?_⟩
  · rw [h.win]
    rcases h.below hl hp hx hb (live_rootn w' d) hz with ⟨rfl, hz'⟩ | ⟨-, -, hz'⟩
    · exact hf.tree d hz'
    · exact ho.firstByte d z hz'
  · have hy : w'.Live (.pos a) := ha
    rw [key_congr h.win, key_congr h.win]
    rcases h.indexed.1 ha with hap | ha'
    · obtain ⟨l, hc, -⟩ := hz
      exact absurd hap (h.parent_ne hl hp hx ((h.linked hl hp hx hb).dad_of_child hy hc))
    · rcases h.below hl hp hx hb hy hz with ⟨rfl, hz'⟩ | ⟨-, -, hz'⟩
      · exact hf.side a c ha' hz'
      · exact ho.side a c z ha' hz'
  · rw [key_congr h.win, key_congr h.win] at hk
    rcases h.below hl hp hx hb (live_rootn w' d) ha with ⟨hap, ha'⟩ | ⟨-, -, ha'⟩ <;>
      rcases h.below hl hp hx hb (live_rootn w' d) hz with ⟨hzp, hz'⟩ | ⟨-, -, hz'⟩
    · exact hzp.trans hap.symm
    · exact absurd (hap ▸ hk) (hf.fresh z (hf.tree d ha' ▸ hz'))
    · exact absurd (hzp ▸ hk.symm) (hf.fresh a (hf.tree d hz' ▸ ha'))
    · exact ho.oneKey d a z ha' hz' hk

end Sys2Proof.Machine.Window
end

section
/-! SUPPORT. The search of `Insert` and `Find` (42_window.md R214 to R217) as a run over fixed links: which nodes it visits,
what match it keeps, where it ends, and that it ends. -/

namespace Sys2Proof.Machine.Window

variable {w w' : Window} {p q z : Pos} {x y : Node} {b c : Bool} {n : Nat} {e : Ending} {m m' : BitVec 6 × BitVec 12}

/-- The window with another match result. -/
def setMatch (w : Window) (m : BitVec 6 × BitVec 12) : Window := { w with ml := m.1, mp := m.2 }

/-! ### The best match so far (R214, R215) -/

/-- The better of the match so far and `i` leading bytes at distance `d`. -/
def better (m : BitVec 6 × BitVec 12) (i d : Nat) : BitVec 6 × BitVec 12 :=
  if i < 2 then m
  else if m.1.toNat < i then (BitVec.ofNat 6 i, BitVec.ofNat 12 d)
  else if i = m.1.toNat ∧ d < m.2.toNat then (m.1, BitVec.ofNat 12 d)
  else m

/-- `i` bytes at distance `d` are no better a match than `m`. -/
def NoBetter (i d : Nat) (m : BitVec 6 × BitVec 12) : Prop := i < m.1.toNat ∨ (i = m.1.toNat ∧ m.2.toNat ≤ d)

theorem NoBetter.trans {i d : Nat} (h : NoBetter i d m) (h' : NoBetter m.1.toNat m.2.toNat m') : NoBetter i d m' := by
  unfold NoBetter at *
  omega

theorem noBetter_self (m : BitVec 6 × BitVec 12) : NoBetter m.1.toNat m.2.toNat m := .inr ⟨rfl, Nat.le_refl _⟩

theorem distance_lt (p q : Pos) : distance p q < 4096 := by
  unfold distance
  omega

theorem toNat_ofNat_six {i : Nat} (hi : i ≤ 60) : (BitVec.ofNat 6 i).toNat = i := by
  rw [BitVec.toNat_ofNat]
  omega

theorem toNat_ofNat_twelve {d : Nat} (hd : d < 4096) : (BitVec.ofNat 12 d).toNat = d := by
  rw [BitVec.toNat_ofNat]
  omega

/-- The better match is one of the two, and none of the two is better. -/
theorem better_spec (m : BitVec 6 × BitVec 12) {i d : Nat} (hi : i ≤ 60) (hd : d < 4096) :
    (2 ≤ i → NoBetter i d (better m i d)) ∧ NoBetter m.1.toNat m.2.toNat (better m i d) ∧
      (better m i d = m ∨ (2 ≤ i ∧ (better m i d).1.toNat = i ∧ (better m i d).2.toNat = d)) := by
  have h6 := toNat_ofNat_six hi
  have h12 := toNat_ofNat_twelve hd
  unfold better NoBetter
  split
  · exact ⟨by omega, .inr ⟨rfl, Nat.le_refl _⟩, .inl rfl⟩
  · split
    · dsimp only
      rw [h6, h12]
      exact ⟨fun _ => .inr ⟨rfl, Nat.le_refl _⟩, by omega, .inr ⟨by omega, rfl, rfl⟩⟩
    · split
      · dsimp only
        rw [h12]
        exact ⟨by omega, by omega, .inr ⟨by omega, by omega, rfl⟩⟩
      · exact ⟨by omega, .inr ⟨rfl, Nat.le_refl _⟩, .inl rfl⟩

theorem better_lt_full {i d : Nat} (hm : m.1.toNat < 60) (hi : i < 60) (hd : d < 4096) :
    (better m i d).1.toNat < 60 := by
  rcases (better_spec m hi.le hd).2.2 with h | ⟨-, h, -⟩
  · rw [h]; exact hm
  · rw [h]; exact hi

theorem better_full {d : Nat} (hm : m.1.toNat < 60) (hd : d < 4096) : (better m 60 d).1.toNat = 60 := by
  obtain ⟨h, -, h' | ⟨-, h', -⟩⟩ := better_spec m (i := 60) (Nat.le_refl _) hd
  · rw [h'] at h
    rcases h (by omega) with h | ⟨h, -⟩ <;> omega
  · exact h'

/-- `Record` (R214) keeps the better match; it reports a full match. -/
theorem record_setMatch (w : Window) (p q : Pos) {i : Nat} (hm : m.1.toNat < 60) (hi : i ≤ 60) :
    (w.setMatch m).record p q i = (w.setMatch (better m i (distance p q)), decide (i = 60)) := by
  unfold record better setMatch
  dsimp only
  split
  · rw [decide_eq_false (by omega)]
  · split
    · rw [decide_eq_decide.2 (show 60 ≤ i ↔ i = 60 by omega)]
    · split <;> rw [decide_eq_false (by omega)]

/-! ### The search as a run -/

/-- A run of the search for `p` from side `b` of node `x`, over at most `n` links. -/
inductive Run (w : Window) (p : Pos) :
    Nat → Bool → Node → BitVec 6 × BitVec 12 → Ending → BitVec 6 × BitVec 12 → Prop
  | empty (n : Nat) (b : Bool) (x : Node) (m : BitVec 6 × BitVec 12) : w.child b x = none →
    Run w p (n + 1) b x m (.empty x b) m
  | full (n : Nat) (b : Bool) (x : Node) (m : BitVec 6 × BitVec 12) (q : Pos) :
    w.child b x = some q → w.share p q = 60 →
    Run w p (n + 1) b x m (.full q) (better m 60 (distance p q))
  | next (n : Nat) (b : Bool) (x : Node) (m : BitVec 6 × BitVec 12) (q : Pos) (e : Ending) (m' : BitVec 6 × BitVec 12) :
    w.child b x = some q → w.share p q < 60 →
    Run w p n (w.keyOrder p q != .lt) (.pos q) (better m (w.share p q) (distance p q)) e m' →
    Run w p (n + 1) b x m e m'

/-- One link of the search (R216, R217). -/
theorem search_succ (w : Window) (p : Pos) (n : Nat) (b : Bool) (x : Node) (hm : m.1.toNat < 60) :
    search p (n + 1) x b (w.setMatch m) =
      match w.child b x with
      | none => some (.empty x b, w.setMatch m)
      | some q =>
        if w.share p q = 60 then some (.full q, w.setMatch (better m 60 (distance p q)))
        else search p n (.pos q) (w.keyOrder p q != .lt) (w.setMatch (better m (w.share p q) (distance p q))) := by
  rw [search]
  show (match w.child b x with | none => _ | some q => _) = _
  cases w.child b x with
  | none => rfl
  | some q =>
    dsimp only
    rw [show ((w.setMatch m).compare p q).1 = w.share p q from rfl, record_setMatch w p q hm (w.share_le p q)]
    by_cases h : w.share p q = 60
    · simp [h]
    · simp only [h, decide_false, if_false]
      rfl

theorem search_eq_some_iff (hm : m.1.toNat < 60) :
    search p n x b (w.setMatch m) = some (e, w') ↔ ∃ m', w' = w.setMatch m' ∧ w.Run p n b x m e m' := by
  induction n generalizing x b m with
  | zero => exact iff_of_false nofun fun ⟨_, _, h⟩ => nomatch h
  | succ n ih =>
    rw [search_succ w p n b x hm]
    cases hc : w.child b x with
    | none =>
      constructor
      · rintro h
        cases h
        exact ⟨m, rfl, .empty _ _ _ _ hc⟩
      · rintro ⟨m', rfl, h⟩
        cases h with
        | empty => rfl
        | full _ _ _ _ q h => rw [hc] at h; cases h
        | next _ _ _ _ q _ _ h => rw [hc] at h; cases h
    | some q =>
      dsimp only
      split
      · next hs =>
        constructor
        · rintro h
          cases h
          exact ⟨_, rfl, .full _ _ _ _ _ hc hs⟩
        · rintro ⟨m', rfl, h⟩
          cases h with
          | empty _ _ _ _ h => rw [hc] at h; cases h
          | full _ _ _ _ q' h => rw [hc] at h; cases h; rfl
          | next _ _ _ _ q' _ _ h h' => rw [hc] at h; cases h; omega
      · next hs =>
        have hlt : w.share p q < 60 := Nat.lt_of_le_of_ne (w.share_le p q) hs
        rw [ih (better_lt_full hm hlt (distance_lt p q))]
        refine exists_congr fun m' => and_congr_right fun _ => ⟨fun h => .next _ _ _ _ q _ _ hc hlt h, fun h => ?_⟩
        cases h with
        | empty _ _ _ _ h => rw [hc] at h; cases h
        | full _ _ _ _ q' h h' => rw [hc] at h; cases h; exact absurd h' hs
        | next _ _ _ _ q' _ _ h _ hr => rw [hc] at h; cases h; exact hr

/-- A run that does not meet `p` as a full match reads no link of `p`. -/
theorem Run.congr (h : w.Run p n b x m e m') (hwin : w'.win = w.win)
    (hc : ∀ b x, x ≠ .pos p → w'.child b x = w.child b x) (he : e ≠ .full p) (hx : x ≠ .pos p) :
    w'.Run p n b x m e m' := by
  induction h with
  | empty n b x m h => exact .empty _ _ _ _ (by rw [hc b x hx, h])
  | full n b x m q h hs => exact .full _ _ _ _ q (by rw [hc b x hx, h]) ((share_congr hwin p q).trans hs)
  | next n b x m q e m' h hs _ ih =>
    have hq : q ≠ p := by
      rintro rfl
      rw [share_self] at hs
      omega
    refine .next _ _ _ _ q _ _ (by rw [hc b x hx, h]) ((share_congr hwin p q).trans_lt hs) ?_
    rw [share_congr hwin, keyOrder_congr hwin]
    exact ih he (by simpa using hq)

/-- A search of linked positions ends within the bound (R210). -/
theorem Linked.exists_run (hl : w.Linked) (p : Pos) (m : BitVec 6 × BitVec 12) (d : Byte) :
    ∃ e m', w.Run p 4097 true (.rootn d) m e m' := by
  obtain ⟨height, hlt, hh⟩ := hl.exists_height
  have run (n : Nat) : ∀ b x m, w.Live x → (∀ q, w.child b x = some q → height q < n) →
      ∃ e m', w.Run p (n + 1) b x m e m' := by
    induction n with
    | zero =>
      intro b x m _ hq
      cases hc : w.child b x with
      | none => exact ⟨_, _, .empty _ _ _ _ hc⟩
      | some q => exact absurd (hq q hc) (Nat.not_lt_zero _)
    | succ n ih =>
      intro b x m hx hq
      cases hc : w.child b x with
      | none => exact ⟨_, _, .empty _ _ _ _ hc⟩
      | some q =>
        have hqi := hl.indexed_of_child hx hc
        by_cases hs : w.share p q = 60
        · exact ⟨_, _, .full _ _ _ _ q hc hs⟩
        · obtain ⟨e, m', h⟩ := ih (w.keyOrder p q != .lt) (.pos q) (better m (w.share p q) (distance p q)) hqi
            fun q' hc' => by
              have := hh q' q (hl.dad_of_child (x := .pos q) hqi hc')
              have := hq q hc
              omega
          exact ⟨e, m', .next _ _ _ _ q _ _ hc (Nat.lt_of_le_of_ne (w.share_le p q) hs) h⟩
  exact run 4096 true (.rootn d) m trivial fun q _ => hlt q

end Sys2Proof.Machine.Window
end

section
/-! SUPPORT. What a run of the search has met (42_window.md R212, R214 to R217): the nodes of `Visits`, the best of their
matches, and on search trees the longest match and the place where the key fits. -/

namespace Sys2Proof.Machine.Window

variable {w w' : Window} {p q z : Pos} {x y : Node} {b c : Bool} {n : Nat} {e : Ending} {m m' : BitVec 6 × BitVec 12}

/-! ### The nodes visited (R215, R216) -/

/-- The side on which the search goes on after a node whose key does not match in full. -/
def onward (w : Window) (p q : Pos) : Bool := w.keyOrder p q != .lt

theorem onward_eq_false_iff : w.onward p q = false ↔ w.key p < w.key q := by
  rw [onward, bne_eq_false_iff_eq, keyOrder_lt_iff]

/-- A visited node's child on the side the search goes on to is visited. -/
theorem Visits.child (h : w.Visits p q) (hs : w.share p q < 60) (hc : w.child (w.onward p q) (.pos q) = some z) :
    w.Visits p z := by
  cases ho : w.onward p q <;> rw [ho] at hc
  · exact .left q z h (by simpa [onward] using ho) hc
  · exact .right q z h hs (by simpa [onward] using ho) hc

/-- The nodes the search meets from side `b` of `x` on. -/
inductive Beyond (w : Window) (p : Pos) : Bool → Node → Pos → Prop
  | here (b : Bool) (x : Node) (q : Pos) : w.child b x = some q → Beyond w p b x q
  | next (b : Bool) (x : Node) (q z : Pos) : w.child b x = some q → w.share p q < 60 →
    Beyond w p (w.onward p q) (.pos q) z → Beyond w p b x z

theorem Beyond.snoc (h : w.Beyond p b x q) (hs : w.share p q < 60) (hc : w.child (w.onward p q) (.pos q) = some z) :
    w.Beyond p b x z := by
  induction h with
  | here b x q h => exact .next b x q z h hs (.here _ _ z hc)
  | next b x q' q h hs' _ ih => exact .next b x q' z h hs' (ih hs hc)

theorem Visits.beyond (h : w.Visits p z) : w.Beyond p true (.rootn (w.win.get p)) z := by
  induction h with
  | root q h => exact .here _ _ q h
  | right q q' _ hs ho hc ih => exact ih.snoc hs (by rw [onward, bne_iff_ne.2 ho]; exact hc)
  | left q q' _ ho hc ih =>
    refine ih.snoc (share_lt_full_iff.2 (keyOrder_lt_iff.1 ho).ne) ?_
    rw [onward_eq_false_iff.2 (keyOrder_lt_iff.1 ho)]
    exact hc

/-- The links the search for `p` comes to. -/
inductive Reaches (w : Window) (p : Pos) : Bool → Node → Prop
  | root : Reaches w p true (.rootn (w.win.get p))
  | onward (q : Pos) : w.Visits p q → w.share p q < 60 → Reaches w p (w.onward p q) (.pos q)

theorem Reaches.visits (h : w.Reaches p b x) (hc : w.child b x = some q) : w.Visits p q := by
  cases h with
  | root => exact .root q hc
  | onward z hz hs => exact hz.child hs hc

theorem Beyond.visits (hr : w.Reaches p b x) (h : w.Beyond p b x z) : w.Visits p z := by
  induction h with
  | here b x q hc => exact hr.visits hc
  | next b x q z hc hs _ ih => exact ih (.onward q (hr.visits hc) hs)

theorem Reaches.live (hl : w.Linked) (h : w.Reaches p b x) : w.Live x := by
  cases h with
  | root => exact live_rootn w _
  | onward q hq _ => exact (hq.inTree hl).1

/-! ### Where a run ends -/

/-- The search ends at an empty link it comes to, or at a visited node whose key matches in full (R216). -/
def EndsAt (w : Window) (p : Pos) : Ending → Prop
  | .empty x b => w.Reaches p b x ∧ w.child b x = none
  | .full q => w.Visits p q ∧ w.share p q = 60

theorem Run.endsAt (h : w.Run p n b x m e m') (hr : w.Reaches p b x) : w.EndsAt p e := by
  induction h with
  | empty n b x m hc => exact ⟨hr, hc⟩
  | full n b x m q hc hs => exact ⟨hr.visits hc, hs⟩
  | next n b x m q e m' hc hs _ ih => exact ih (.onward q (hr.visits hc) hs)

/-- What a run has kept: the best of the match before it and those of the nodes it met; 60 bytes for a full match only. -/
structure Kept (w : Window) (p : Pos) (b : Bool) (x : Node) (m : BitVec 6 × BitVec 12) (e : Ending)
    (m' : BitVec 6 × BitVec 12) : Prop where
  before : NoBetter m.1.toNat m.2.toNat m'
  best : ∀ q, w.Beyond p b x q → 2 ≤ w.share p q → NoBetter (w.share p q) (distance p q) m'
  reached : m' = m ∨ (2 ≤ m'.1.toNat ∧ ∃ q, w.Beyond p b x q ∧ w.share p q = m'.1.toNat ∧
    m'.2.toNat = distance p q)
  length : match e with
    | .empty _ _ => m'.1.toNat < 60
    | .full _ => m'.1.toNat = 60

theorem Run.kept (h : w.Run p n b x m e m') (hm : m.1.toNat < 60) : w.Kept p b x m e m' := by
  induction h with
  | empty n b x m hc =>
    refine ⟨noBetter_self m, fun q hq => ?_, .inl rfl, hm⟩
    cases hq with
    | here _ _ _ h => rw [hc] at h; cases h
    | next _ _ _ _ h => rw [hc] at h; cases h
  | full n b x m q hc hs =>
    obtain ⟨hbest, hbefore, hreached⟩ := better_spec m (Nat.le_refl 60) (distance_lt p q)
    refine ⟨hbefore, fun z hz _ => ?_, hreached.imp id fun ⟨h2, hi, hd⟩ => ?_, better_full hm (distance_lt p q)⟩
    · cases hz with
      | here _ _ _ h =>
        rw [hc] at h
        cases h
        rw [hs]
        exact hbest (by omega)
      | next _ _ q' _ h hlt =>
        rw [hc] at h
        cases h
        omega
    · exact ⟨by omega, q, .here _ _ q hc, hs.trans hi.symm, hd⟩
  | next n b x m q e m' hc hs _ ih =>
    obtain ⟨hbest, hbefore, hreached⟩ := better_spec m hs.le (distance_lt p q)
    obtain ⟨kbefore, kbest, kreached, klength⟩ := ih (better_lt_full hm hs (distance_lt p q))
    refine ⟨hbefore.trans kbefore, fun z hz h2 => ?_, ?_, klength⟩
    · cases hz with
      | here _ _ _ h =>
        rw [hc] at h
        cases h
        exact (hbest h2).trans kbefore
      | next _ _ q' _ h _ hz =>
        rw [hc] at h
        cases h
        exact kbest z hz h2
    · rcases kreached with rfl | ⟨h2, z, hz, hzs, hzd⟩
      · exact hreached.imp id fun ⟨h2, hi, hd⟩ => ⟨by omega, q, .here _ _ q hc, hi.symm, hd⟩
      · exact .inr ⟨h2, z, .next _ _ q z hc hs hz, hzs, hzd⟩

/-- A run of the whole search leaves the best match of the nodes visited (R214, R215). -/
theorem Run.bestVisited (h : w.Run p n true (.rootn (w.win.get p)) (0, 0) e m') (hl : w.Linked)
    (hp : w.indexed p = false) : w.BestVisited p m'.1.toNat m'.2.toNat := by
  obtain ⟨-, hbest, hreached, -⟩ := h.kept (show (0 : BitVec 6).toNat < 60 by decide)
  refine ⟨fun q hq => hbest q hq.beyond, hreached.imp ?_ fun ⟨h2, q, hq, hs, hd⟩ => ?_⟩
  · rintro rfl
    exact ⟨rfl, rfl⟩
  · have hv := hq.visits .root
    have hqp : q ≠ p := by
      rintro rfl
      rw [(hv.inTree hl).1] at hp
      cases hp
    exact ⟨h2, q, hv, hs, hd, by rw [hd, source_distance hqp]⟩

/-! ### On linked windows and search trees (R210, R212) -/

/-- A visited node lies on the side of each node above it that the search took there. -/
theorem Visits.side_of_below (hl : w.Linked) (h : w.Visits p q) {a : Pos} (ha : w.indexed a = true)
    (hb : w.Below c (.pos a) q) : w.key p < w.key a ↔ c = false := by
  have ha' : w.Live (.pos a) := ha
  induction h with
  | root q hc =>
    rcases hl.below_of_child_below ha' (live_rootn w _) (c := true) hc hb with ⟨h, -⟩ | ⟨d, h, -⟩ <;> cases h
  | right q q' hq _ ho hc ih =>
    rcases hl.below_of_child_below ha' (y := .pos q) (hq.inTree hl).1 (c := true) hc hb with ⟨h, rfl⟩ | ⟨d, h, hd⟩ <;>
      cases h
    · exact iff_of_false (fun hk => ho (keyOrder_lt_iff.2 hk)) nofun
    · exact ih hd
  | left q q' hq ho hc ih =>
    rcases hl.below_of_child_below ha' (y := .pos q) (hq.inTree hl).1 (c := false) hc hb with ⟨h, rfl⟩ | ⟨d, h, hd⟩ <;>
      cases h
    · exact iff_of_true (keyOrder_lt_iff.1 ho) rfl
    · exact ih hd

/-- The key of `p` fits at every link the search for it comes to, if it is new in its tree. -/
theorem Reaches.fitsAt (h : w.Reaches p b x) (hl : w.Linked) (ho : w.Sorted)
    (hnew : ∀ z, w.Below true (.rootn (w.win.get p)) z → w.key z ≠ w.key p) : w.FitsAt p b x := by
  cases h with
  | root =>
    refine ⟨fun a c _ h => ?_, fun d h => ?_, hnew⟩
    · rcases h with ⟨h, -⟩ | ⟨d, h, -⟩ <;> cases h
    · rcases h with ⟨h, -⟩ | ⟨d, h, -⟩ <;> cases h
      rfl
  | onward q hq hs =>
    refine ⟨fun a c ha h => ?_, fun d h => ?_, hnew⟩
    · rcases h with ⟨h, rfl⟩ | ⟨d, h, hd⟩ <;> cases h
      · exact onward_eq_false_iff.symm
      · exact hq.side_of_below hl ha hd
    · rcases h with ⟨h, -⟩ | ⟨q', h, hd⟩ <;> cases h
      exact (ho.firstByte _ q (hq.inTree hl).2).symm.trans (ho.firstByte d q hd)

/-- A position on the side of a node that the search does not take shares no more with `p` than the node. -/
theorem Sorted.share_le_of_aside (ho : w.Sorted) (hq : w.indexed q = true) (hz : w.Below c (.pos q) z)
    (hc : c ≠ w.onward p q) : w.share p z ≤ w.share p q := by
  have honward := onward_eq_false_iff (w := w) (p := p) (q := q)
  refine share_between ?_
  cases c with
  | true =>
    have := honward.1 (Bool.eq_false_iff.2 (Ne.symm hc))
    exact .inr ⟨this.le, ho.le_of_below hq hz⟩
  | false =>
    have := Nat.not_lt.1 fun h => hc (honward.2 h).symm
    exact .inl ⟨(ho.lt_of_below hq hz).le, this⟩

/-- Position `z` shares no more with `p` than some node visited. -/
def Matched (w : Window) (p z : Pos) : Prop := ∃ v, w.Visits p v ∧ w.share p z ≤ w.share p v

/-- What is under a visited node is matched, or on the side the search goes on to. -/
theorem Visits.below_or_matched (h : w.Visits p q) (hl : w.Linked) (ho : w.Sorted) (hz : w.Under q z) :
    w.Below (w.onward p q) (.pos q) z ∨ w.Matched p z := by
  rcases hl.under_cases hz with rfl | ⟨c, hc⟩
  · exact .inr ⟨z, h, Nat.le_refl _⟩
  · by_cases hco : c = w.onward p q
    · exact .inl (hco ▸ hc)
    · exact .inr ⟨q, h, ho.share_le_of_aside (h.inTree hl).1 hc hco⟩

/-- A position of the tree is matched, or still under the node visited. -/
theorem Visits.under_or_matched (h : w.Visits p q) (hl : w.Linked) (ho : w.Sorted)
    (hz : w.Below true (.rootn (w.win.get p)) z) : w.Under q z ∨ w.Matched p z := by
  have onward {q q' : Pos} (hq : w.Visits p q) (hc : w.child (w.onward p q) (.pos q) = some q') (hu : w.Under q z) :
      w.Under q' z ∨ w.Matched p z :=
    (hq.below_or_matched hl ho hu).imp_left fun ⟨l, hc', hu⟩ => by
      obtain rfl := Option.some.inj (hc'.symm.trans hc)
      exact hu
  induction h with
  | root q hc =>
    obtain ⟨l, hc', hu⟩ := hz
    obtain rfl := Option.some.inj (hc'.symm.trans hc)
    exact .inl hu
  | right q q' hq _ hk hc ih =>
    refine ih.elim (onward hq ?_) .inr
    rw [Window.onward, bne_iff_ne.2 hk]
    exact hc
  | left q q' hq hk hc ih =>
    refine ih.elim (onward hq ?_) .inr
    rw [onward_eq_false_iff.2 (keyOrder_lt_iff.1 hk)]
    exact hc

/-- When the search has ended, every position of the tree is matched. -/
theorem EndsAt.matched (h : w.EndsAt p e) (hl : w.Linked) (ho : w.Sorted)
    (hz : w.Below true (.rootn (w.win.get p)) z) : w.Matched p z := by
  cases e with
  | full q => exact ⟨q, h.1, (w.share_le p z).trans_eq h.2.symm⟩
  | empty x b =>
    obtain ⟨hr, hc⟩ := h
    have hnone (hb : w.Below b x z) : w.Matched p z := by
      obtain ⟨l, hc', -⟩ := hb
      rw [hc] at hc'
      cases hc'
    cases hr with
    | root => exact hnone hz
    | onward q hq _ =>
      rcases hq.under_or_matched hl ho hz with hu | hm
      · exact (hq.below_or_matched hl ho hu).elim hnone id
      · exact hm

end Sys2Proof.Machine.Window
end

section
/-! SUPPORT. What the writes of `Insert` do to the links (42_window.md R216, R218): attaching at an empty link, and
`Replace`. -/

namespace Sys2Proof.Machine.Window

variable {w w' : Window} {p q z : Pos} {v : Option Pos} {x y : Node} {b c : Bool} {n : Nat} {e : Ending}
  {m m' : BitVec 6 × BitVec 12}

/-! ### Single links -/

theorem dad_setDad (w : Window) (v : Option Pos) (x : Option Node) (z : Pos) :
    (w.setDad v x).dad.get z = if v = some z then x else w.dad.get z := by
  cases v with
  | none => rfl
  | some q =>
    rw [setDad, Table.get_set]
    simp only [Option.some.injEq, eq_comm]

@[simp] theorem child_setDad (w : Window) (v : Option Pos) (d : Option Node) (c : Bool) (y : Node) :
    (w.setDad v d).child c y = w.child c y := by cases v <;> rfl

@[simp] theorem win_setDad (w : Window) (v : Option Pos) (d : Option Node) : (w.setDad v d).win = w.win := by
  cases v <;> rfl

@[simp] theorem rson_setDad (w : Window) (v : Option Pos) (d : Option Node) : (w.setDad v d).rson = w.rson := by
  cases v <;> rfl

/-- Only the link on side `b` of `x` has changed, to `v`. -/
structure Relinked (w : Window) (b : Bool) (x : Node) (v : Option Pos) (w' : Window) : Prop where
  win : w'.win = w.win
  dad : w'.dad = w.dad
  child : ∀ c y, w'.child c y = if y = x ∧ c = b then v else w.child c y

theorem relinked_setRight (w : Window) (x : Node) (v : Option Pos) : w.Relinked true x v (w.setRight x v) := by
  cases x with
  | pos q =>
    refine ⟨rfl, rfl, fun c y => ?_⟩
    cases c <;> cases y <;> simp [child, right, left, setRight, Table.get_set]
  | rootn d =>
    refine ⟨rfl, rfl, fun c y => ?_⟩
    cases c
    · cases y <;> simp [child, left, setRight]
    · cases y with
      | pos q => simp [child, right, setRight]
      | rootn a =>
        show (w.root.set d.toFin v).get a.toFin = if Node.rootn a = .rootn d ∧ true = true then v else w.root.get a.toFin
        rw [Table.get_set]
        exact if_congr (by rw [BitVec.toFin_inj]; simp) rfl rfl

theorem relinked_lson (w : Window) (q : Pos) (v : Option Pos) :
    w.Relinked false (.pos q) v { w with lson := w.lson.set q v } := by
  refine ⟨rfl, rfl, fun c y => ?_⟩
  cases c <;> cases y <;> simp [child, right, left, Table.get_set]

theorem relinked_rson (w : Window) (q : Pos) (v : Option Pos) :
    w.Relinked true (.pos q) v { w with rson := w.rson.set q v } := relinked_setRight w (.pos q) v

/-- The link on a side of a node, that is no left link of a pseudo-node, can be set (R216). -/
theorem exists_relinked (hx : ∀ d, x = .rootn d → b = true) (v : Option Pos) :
    ∃ w', (if b then some (w.setRight x v) else w.setLeft x v) = some w' ∧ w.Relinked b x v w' := by
  cases b with
  | true => exact ⟨_, rfl, relinked_setRight w x v⟩
  | false =>
    cases x with
    | pos q => exact ⟨_, rfl, relinked_lson w q v⟩
    | rootn d => exact nomatch hx d rfl

theorem eq_true_of_child_rootn {d : Byte} (h : w.child b (.rootn d) = some p) : b = true := by
  cases b with
  | true => rfl
  | false => cases h

/-- The parent's link to `p` is set, on whichever side it is (R218, R219). -/
theorem exists_relink (hb : w.child b x = some p) (hr : w.right x = some p → b = true) (v : Option Pos) :
    ∃ w', w.relink (some x) p v = some w' ∧ w.Relinked b x v w' := by
  obtain ⟨w', hw', hs⟩ := exists_relinked (w := w) (b := b) (x := x)
    (fun d hd => eq_true_of_child_rootn (w := w) (by rw [← hd]; exact hb)) v
  refine ⟨w', ?_, hs⟩
  rw [← hw', relink]
  cases b with
  | true => rw [if_pos (show w.right x = some p from hb)]; rfl
  | false => rw [if_neg fun h => nomatch hr h]; rfl

theorem Linked.eq_true_of_right (hl : w.Linked) (hx : w.Live x) (hb : w.child b x = some p) (h : w.right x = some p) :
    b = true := (hl.child_inj hx hx hb (c := true) h).2

/-! ### Attaching (R216) -/

theorem attach_spec (w : Window) (p : Pos) (hx : ∀ d, x = .rootn d → b = true) :
    ∃ w', w.attach p x b = some w' ∧ w'.win = w.win ∧
      (∀ z, w'.dad.get z = if z = p then some x else w.dad.get z) ∧
      ∀ c y, w'.child c y = if y = x ∧ c = b then some p else w.child c y := by
  obtain ⟨u, hu, hs⟩ := exists_relinked (w := w) hx (some p)
  refine ⟨{ u with dad := w.dad.set p (some x) }, ?_, hs.win, fun z => Table.get_set .., hs.child⟩
  rw [attach]
  cases b with
  | true =>
    obtain rfl := Option.some.inj hu
    rfl
  | false =>
    rw [if_neg nofun] at hu ⊢
    rw [hu, Option.map_some]

/-! ### Taking over children (R218, R221) -/

/-- In `u` position `q` has the children that `p` has in `w`; the links of `p` itself do not matter. -/
structure Inherits (w : Window) (p q : Pos) (u : Window) : Prop where
  win : u.win = w.win
  dad : ∀ z, z ≠ q → u.dad.get z = if ∃ c, w.child c (.pos p) = some z then some (.pos q) else w.dad.get z
  child : ∀ c y, y ≠ .pos p → u.child c y = if y = .pos q then w.child c (.pos p) else w.child c y

section Inherits

variable {u : Window} (hl : w.Linked) (hq : w.indexed q = false)
include hl hq

/-- A child of a node, but `p`, is none of the two positions exchanged. -/
theorem Linked.map_swap_child (hy : w.Live y) (hyp : w.child c y ≠ some p) :
    (w.child c y).map (Equiv.swap p q) = w.child c y := by
  cases hc : w.child c y with
  | none => rfl
  | some l =>
    have hlp : l ≠ p := fun h => hyp (by rw [hc, h])
    have hlq : l ≠ q := ne_of_indexed (hl.indexed_of_child hy hc) hq
    rw [Option.map_some, Equiv.swap_apply_of_ne_of_ne hlp hlq]

theorem Linked.map_rename_dad (hz : w.dad.get z ≠ some (.pos p)) :
    (w.dad.get z).map (renameNode p q) = w.dad.get z := by
  cases hd : w.dad.get z with
  | none => rfl
  | some y =>
    have hyp : y ≠ .pos p := fun h => hz (by rw [hd, h])
    rw [Option.map_some, renameNode_of_ne hyp ((hl.live_of_dad hd).ne_pos hq)]

variable (h : w.Inherits p q u) (hu : u.Unlinked p (some q) b x w') (hd : w.dad.get p = some x)
include h hu hd

theorem Inherits.dad_replaced (z : Pos) :
    w'.dad.get z = (w.dad.get (Equiv.swap p q z)).map (renameNode p q) := by
  rw [hu.dad]
  by_cases hzp : z = p
  · rw [if_pos hzp, hzp, Equiv.swap_apply_left, indexed_eq_false_iff.1 hq]
    rfl
  rw [if_neg hzp]
  by_cases hzq : z = q
  · have hdp : w.dad.get p ≠ some (.pos p) := hl.dad_ne_self
    rw [if_pos (hzq ▸ rfl), hzq, Equiv.swap_apply_right, hl.map_rename_dad hq hdp, hd]
  rw [if_neg fun h => hzq (Option.some.inj h).symm, h.dad z hzq, Equiv.swap_apply_of_ne_of_ne hzp hzq]
  have hiff := hl.forest.dad_iff z (.pos p)
  split
  · next hc =>
    rw [hiff.2 ⟨indexed_of_dad hd, hc⟩, Option.map_some, renameNode, Equiv.swap_apply_left]
  · next hc => rw [hl.map_rename_dad hq fun h => hc (hiff.1 h).2]

variable (hb : w.child b x = some p)
include hb

theorem Inherits.child_replaced (hy : w.Live (renameNode p q y)) :
    w'.child c y = (w.child c (renameNode p q y)).map (Equiv.swap p q) := by
  have hp : w.Live (.pos p) := indexed_of_dad hd
  have hx := hl.live_of_dad hd
  have hyp : y ≠ .pos p := by
    rintro rfl
    rw [renameNode, Equiv.swap_apply_left] at hy
    exact ne_of_indexed hy hq rfl
  rw [hu.child, h.child c y hyp]
  by_cases hyq : y = .pos q
  · subst hyq
    rw [if_neg fun h => hx.ne_pos hq h.1.symm, if_pos rfl, renameNode, Equiv.swap_apply_right,
      hl.map_swap_child hq hp (hl.child_ne_self hp)]
  · rw [renameNode_of_ne hyp hyq] at hy ⊢
    rw [if_neg hyq]
    split
    · next h => rw [h.1, h.2, hb, Option.map_some, Equiv.swap_apply_left]
    · next h => rw [hl.map_swap_child hq hy fun hc => h (hl.child_inj hy hx hc hb)]

omit hu hb in
theorem Inherits.dad_self : u.dad.get p = some x := by
  have hp := indexed_of_dad hd
  rw [h.dad p (ne_of_indexed hp hq), if_neg fun ⟨c, hc⟩ => hl.child_ne_self hp hc, hd]

omit hu hb in
theorem Inherits.child_parent (c : Bool) : u.child c x = w.child c x := by
  have hxp : x ≠ .pos p := fun h => hl.dad_ne_self (h ▸ hd)
  rw [h.child c x hxp, if_neg ((hl.live_of_dad hd).ne_pos hq)]

/-- A position that has the children of another, and then its place, has replaced it. -/
theorem Inherits.replaced : w.Replaced p q w' :=
  ⟨hu.win.trans h.win, h.dad_replaced hl hq hu hd, fun _ _ hy => h.child_replaced hl hq hu hd hb hy⟩

end Inherits

/-! ### `Replace` (R218) -/

/-- `q` has the links of `p`, but for the link that leads to it. -/
def inherit (w : Window) (p q : Pos) : Window :=
  let w := { w with dad := w.dad.set q (w.dad.get p) }
  let w := { w with lson := w.lson.set q (w.lson.get p) }
  let w := { w with rson := w.rson.set q (w.rson.get p) }
  let w := w.setDad (w.lson.get p) (some (.pos q))
  w.setDad (w.rson.get p) (some (.pos q))

theorem replace_eq (w : Window) (p q : Pos) :
    w.replace p q = ((w.inherit p q).relink ((w.inherit p q).dad.get p) p (some q)).map
      fun u => { u with dad := u.dad.set p none } := rfl

theorem dad_inherit (w : Window) (hpq : p ≠ q) (z : Pos) :
    (w.inherit p q).dad.get z =
      if ∃ c, w.child c (.pos p) = some z then some (.pos q) else if z = q then w.dad.get p else w.dad.get z := by
  unfold inherit
  simp only [dad_setDad, rson_setDad, Table.get_set, if_neg hpq, Bool.exists_bool]
  by_cases hr : w.rson.get p = some z
  · rw [if_pos hr, if_pos (.inr hr)]
  · rw [if_neg hr]
    exact if_congr ⟨.inl, fun h => h.resolve_right hr⟩ rfl rfl

theorem inherits_inherit (w : Window) (hpq : p ≠ q) : w.Inherits p q (w.inherit p q) where
  win := by simp [inherit]
  dad z hz := by rw [dad_inherit w hpq, if_neg hz]
  child c y _ := by
    unfold inherit
    rw [child_setDad, child_setDad]
    cases c <;> cases y <;> simp [child, left, right, Table.get_set]

/-- `Replace` exchanges a position in the index and one that is not (R218). -/
theorem Linked.replace_spec (hl : w.Linked) (hp : w.indexed p = true) (hq : w.indexed q = false) :
    ∃ w', w.replace p q = some w' ∧ w.Replaced p q w' := by
  have hpq : p ≠ q := ne_of_indexed hp hq
  have hi := w.inherits_inherit hpq
  obtain ⟨x, hd⟩ := indexed_iff.1 hp
  obtain ⟨b, hb⟩ := hl.exists_child_of_dad hd
  have hx := hl.live_of_dad hd
  have hchild := hi.child_parent hl hq hd
  have hnq : ¬ ∃ c, w.child c (.pos p) = some q := fun ⟨c, hc⟩ =>
    ne_of_indexed (hl.indexed_of_child (x := .pos p) hp hc) hq rfl
  obtain ⟨u, hu, hs⟩ := exists_relink (w := w.inherit p q) ((hchild b).trans hb)
    (fun h => hl.eq_true_of_right hx hb ((hchild true).symm.trans h)) (some q)
  refine ⟨{ u with dad := u.dad.set p none }, ?_, hi.replaced hl hq ⟨hs.win, fun z => ?_, hs.child⟩ hd hb⟩
  · rw [replace_eq, hi.dad_self hl hq hd, hu]
    rfl
  · dsimp only
    rw [Table.get_set, hs.dad]
    split
    · rfl
    · split
      · next hz =>
        cases hz
        rw [dad_inherit w hpq, if_neg hnq, if_pos rfl, hd]
      · rfl

end Sys2Proof.Machine.Window
end

section
/-! SUPPORT. `Insert` and `Find` (42_window.md R216, R217): each is a run of the search, and `Insert` then attaches or
replaces. -/

namespace Sys2Proof.Machine.Window

variable {w w' : Window} {p q z : Pos} {x y : Node} {b c : Bool} {e : Ending} {m : BitVec 6 × BitVec 12}

/-- The search for `p` from its root on, with no match yet (R216). -/
def Searches (w : Window) (p : Pos) (e : Ending) (m : BitVec 6 × BitVec 12) : Prop :=
  w.Run p 4097 true (.rootn (w.win.get p)) (0, 0) e m

theorem searchRoot_noMatch_iff :
    searchRoot p w.noMatch = some (e, w') ↔ ∃ m, w' = w.setMatch m ∧ w.Searches p e m :=
  search_eq_some_iff (m := (0, 0)) (show (0 : BitVec 6).toNat < 60 by decide)

/-- The links that `Insert` writes when the search has ended (R216). -/
def link (w : Window) (p : Pos) : Ending → Option Window
  | .empty x b => w.attach p x b
  | .full q => w.replace q p

/-- The window without the links of a position outside the index, as `Insert` starts. -/
def cleared (w : Window) (p : Pos) : Window := { w with lson := w.lson.set p none, rson := w.rson.set p none }

theorem child_cleared (w : Window) (p : Pos) (c : Bool) (y : Node) :
    (w.cleared p).child c y = if y = .pos p then none else w.child c y := by
  cases c <;> cases y <;> simp [child, left, right, cleared, Table.get_set]

theorem insertNew_eq (w : Window) (p : Pos) :
    w.insertNew p = (searchRoot p (w.cleared p).noMatch).bind fun r => r.2.link p r.1 := by
  unfold insertNew
  rw [cleared]
  rcases searchRoot p _ with _ | ⟨_ | _, u⟩ <;> rfl

theorem insert_eq_ok_iff : w.insert p = .ok w' ↔
    w.indexed p = false ∧ ∃ e m, (w.cleared p).Searches p e m ∧ ((w.cleared p).setMatch m).link p e = some w' := by
  have hnew : w.insertNew p = some w' ↔
      ∃ e m, (w.cleared p).Searches p e m ∧ ((w.cleared p).setMatch m).link p e = some w' := by
    rw [insertNew_eq, Option.bind_eq_some_iff]
    constructor
    · rintro ⟨⟨e, u⟩, hs, hu⟩
      obtain ⟨m, rfl, hm⟩ := searchRoot_noMatch_iff.1 hs
      exact ⟨e, m, hm, hu⟩
    · rintro ⟨e, m, hm, hu⟩
      exact ⟨(e, _), searchRoot_noMatch_iff.2 ⟨m, rfl, hm⟩, hu⟩
  rw [← hnew, insert]
  cases w.indexed p <;> cases w.insertNew p <;> simp

theorem find_eq_ok_iff : w.find p = .ok w' ↔ w.indexed p = false ∧ ∃ e m, w.Searches p e m ∧ w' = w.setMatch m := by
  have hs : (∃ e, searchRoot p w.noMatch = some (e, w')) ↔ ∃ e m, w.Searches p e m ∧ w' = w.setMatch m := by
    simp only [searchRoot_noMatch_iff, and_comm]
  rw [← hs, find]
  cases w.indexed p <;> rcases searchRoot p w.noMatch with _ | ⟨e, u⟩ <;> simp

/-- Linking leaves the match result. -/
theorem matchResult_link (h : w.link p e = some w') : w'.matchResult = w.matchResult := by
  cases e with
  | empty x b => exact matchResult_attach h
  | full q => exact matchResult_replace h

/-- A search cannot end well at `p` itself: it has no parent to take the place from (R218). -/
theorem link_full_self (hd : w.dad.get p = none) (hl : w.lson.get p = none) (hr : w.rson.get p = none) :
    w.link p (.full p) = none := by
  have : (w.inherit p p).dad.get p = none := by
    simp [inherit, dad_setDad, rson_setDad, hd, hl, hr]
  rw [link, replace_eq, this]
  rfl

theorem Searches.congr (h : w.Searches p e m) (hwin : w'.win = w.win)
    (hc : ∀ b x, x ≠ .pos p → w'.child b x = w.child b x) (he : e ≠ .full p) : w'.Searches p e m := by
  unfold Searches
  rw [hwin]
  exact Run.congr h hwin hc he nofun

/-- `Find` searches as `Insert` does (the inference in R217). -/
theorem find_of_insert (h : w.insert p = .ok w') : w.find p = .ok (w.setMatch w'.matchResult) := by
  obtain ⟨hp, e, m, hs, hw'⟩ := insert_eq_ok_iff.1 h
  have he : e ≠ .full p := by
    rintro rfl
    have hnone : ((w.cleared p).setMatch m).link p (.full p) = none :=
      link_full_self (indexed_eq_false_iff.1 hp) (Table.get_set_self ..) (Table.get_set_self ..)
    rw [hnone] at hw'
    cases hw'
  refine find_eq_ok_iff.2 ⟨hp, e, m, hs.congr rfl (fun b x hx => ?_) he, congrArg w.setMatch (matchResult_link hw')⟩
  rw [child_cleared, if_neg hx]

/-- What `Insert` makes of the links, by where its search ends. -/
def Inserted (w : Window) (p : Pos) : Ending → Window → Prop
  | .empty x b, w' => w.Attached p b x w'
  | .full q, w' => w.Replaced q p w'

/-- On linked windows `Insert` of a new position completes, and its search is the one over the links before (R216, R218). -/
theorem Linked.insert_spec (hl : w.Linked) (hp : w.indexed p = false) :
    ∃ e m w', w.insert p = .ok w' ∧ w.Searches p e m ∧ w'.matchResult = m ∧ w.Inserted p e w' := by
  obtain ⟨e, m, hs⟩ := hl.exists_run p (0, 0) (w.win.get p)
  have hend := Run.endsAt hs .root
  have hchild {c : Bool} {y : Node} (hy : y ≠ .pos p) : (w.cleared p).child c y = w.child c y := by
    rw [child_cleared, if_neg hy]
  have hlc : ((w.cleared p).setMatch m).Linked := hl.congr rfl fun b x hx => hchild (hx.ne_pos hp)
  have he : e ≠ .full p := by
    rintro rfl
    exact ne_of_indexed (hend.1.inTree hl).1 hp rfl
  have hsc : (w.cleared p).Searches p e m := Searches.congr hs rfl (fun b x hx => hchild hx) he
  suffices h : ∃ w', ((w.cleared p).setMatch m).link p e = some w' ∧ w.Inserted p e w' by
    obtain ⟨w', hw', hi⟩ := h
    exact ⟨e, m, w', insert_eq_ok_iff.2 ⟨hp, e, m, hsc, hw'⟩, hs, matchResult_link hw', hi⟩
  cases e with
  | empty x b =>
    obtain ⟨hr, hc⟩ := hend
    have hx : ∀ d, x = .rootn d → b = true := by
      rintro d rfl
      cases hr
      rfl
    obtain ⟨w', hw', hwin, hdad, hchild'⟩ := attach_spec ((w.cleared p).setMatch m) p hx
    exact ⟨w', hw', hwin, hdad, fun c y => (hchild' c y).trans (if_congr Iff.rfl rfl (child_cleared w p c y))⟩
  | full q =>
    obtain ⟨w', hw', hwin, hdad, hchild'⟩ := hlc.replace_spec (hend.1.inTree hl).1 hp
    exact ⟨w', hw', hwin, hdad, fun c y hy => (hchild' c y hy).trans (congrArg _ (hchild (hy.ne_pos hp)))⟩

/-- The parts of `insert_spec` for an insertion that has ended well. -/
theorem Linked.inserted (hl : w.Linked) (h : w.insert p = .ok w') :
    w.indexed p = false ∧ ∃ e, w.Searches p e w'.matchResult ∧ w.Inserted p e w' := by
  obtain ⟨hp, -⟩ := insert_eq_ok_iff.1 h
  obtain ⟨e, m, u, hu, hs, rfl, hi⟩ := hl.insert_spec hp
  obtain rfl := Except.ok.inj (hu.symm.trans h)
  exact ⟨hp, e, hs, hi⟩

/-! ### What insertion keeps -/

theorem Searches.endsAt (h : w.Searches p e m) : w.EndsAt p e := Run.endsAt h .root

theorem Searches.kept (h : w.Searches p e m) : w.Kept p true (.rootn (w.win.get p)) (0, 0) e m :=
  Run.kept h (show (0 : BitVec 6).toNat < 60 by decide)

theorem Inserted.win (h : w.Inserted p e w') : w'.win = w.win := by
  cases e with
  | empty x b => exact Attached.win h
  | full q => exact Replaced.win h

theorem Inserted.linked (h : w.Inserted p e w') (hl : w.Linked) (hp : w.indexed p = false) (he : w.EndsAt p e) :
    w'.Linked := by
  cases e with
  | empty x b => exact Attached.linked h hl hp (he.1.live hl) he.2
  | full q => exact Replaced.linked h hl

/-- Insertion keeps the links a set of trees (R210). -/
theorem Linked.insert (hl : w.Linked) (h : w.insert p = .ok w') : w'.Linked := by
  obtain ⟨hp, e, hs, hi⟩ := hl.inserted h
  exact hi.linked hl hp hs.endsAt

/-- A search that ends at an empty link has met every key of the tree, so `p`'s is new there (R212, R218). -/
theorem Searches.key_ne (h : w.Searches p (.empty x b) m) (hl : w.Linked) (ho : w.Sorted)
    (hz : w.Below true (.rootn (w.win.get p)) z) : w.key z ≠ w.key p := by
  intro hk
  obtain ⟨v, hv, hsv⟩ := h.endsAt.matched hl ho hz
  have hm : m.1.toNat < 60 := h.kept.length
  rw [share_eq_full_iff.2 hk.symm] at hsv
  rcases h.kept.best v hv.beyond (by omega) with h | ⟨h, -⟩ <;> omega

/-- Insertion keeps search trees (R212, R218). -/
theorem Sorted.insert (ho : w.Sorted) (hl : w.Linked) (h : w.insert p = .ok w') : w'.Sorted := by
  obtain ⟨hp, e, hs, hi⟩ := hl.inserted h
  have he := hs.endsAt
  cases e with
  | empty x b =>
    exact Attached.sorted hi hl hp (he.1.live hl) he.2 (he.1.fitsAt hl ho fun z hz => hs.key_ne hl ho hz) ho
  | full q =>
    obtain ⟨hq, htree⟩ := he.1.inTree hl
    exact Replaced.sorted hi hl hp hq
      (ho.fits_of_eq hq (share_eq_full_iff.1 he.2) (ho.firstByte _ q htree).symm) ho

end Sys2Proof.Machine.Window
end

section
/-! SUPPORT. `WIN_INSERT` and `WIN_FIND` (42_window.md R216, R217, R233, R235): the commands by what their procedures do to
the window, and the match they report. -/

namespace Sys2Proof.Machine

namespace Window

variable {w w' : Window} {p q z : Pos} {e : Ending} {m : BitVec 6 × BitVec 12}

/-- A search for a new position leaves no match, or a match of 2 bytes or more with a visited node (R214). -/
theorem Searches.reached (h : w.Searches p e m) (hl : w.Linked) (hp : w.indexed p = false) :
    (m.1 = 0 ∧ m.2 = 0) ∨
      (2 ≤ m.1.toNat ∧ w.Visits p (source p m.2.toNat) ∧ w.share p (source p m.2.toNat) = m.1.toNat) := by
  refine (Run.bestVisited h hl hp).reached.imp (fun h => ⟨?_, ?_⟩) fun ⟨h2, q, hq, hs, _, hsrc⟩ => ?_
  · exact BitVec.eq_of_toNat_eq h.1
  · exact BitVec.eq_of_toNat_eq h.2
  · exact ⟨h2, hsrc ▸ hq, hsrc ▸ hs⟩

/-- On search trees the nodes visited have the first byte of the position searched for (R212). -/
theorem Visits.firstByte (h : w.Visits p q) (hl : w.Linked) (ho : w.Sorted) : w.win.get p = w.win.get q :=
  (ho.firstByte _ q (h.inTree hl).2).symm

/-- `Find` and `Insert` of a new position search in the same way (R217). -/
theorem searches_of_find_or_insert (h : w.find p = .ok w' ∨ w.insert p = .ok w') :
    w.indexed p = false ∧ ∃ e, w.Searches p e w'.matchResult := by
  have hfind : w.find p = .ok (w.setMatch w'.matchResult) := by
    rcases h with h | h
    · obtain ⟨-, e, m, -, rfl⟩ := find_eq_ok_iff.1 h
      exact h
    · exact find_of_insert h
  obtain ⟨hp, e, m, hs, hm⟩ := find_eq_ok_iff.1 hfind
  obtain rfl : w'.matchResult = m := congrArg matchResult hm
  exact ⟨hp, e, hs⟩

/-- A position that shares bytes with one searched for shares at most what the search leaves, or fewer than 2 (R211). -/
theorem Searches.longest (h : w.Searches p e m) (hl : w.Linked) (ho : w.Sorted)
    (hz : w.Below true (.rootn (w.win.get p)) z) : w.share p z ≤ m.1.toNat ∨ w.share p z < 2 := by
  obtain ⟨v, hv, hsv⟩ := h.endsAt.matched hl ho hz
  by_cases h2 : 2 ≤ w.share p v
  · rcases h.kept.best v hv.beyond h2 with h | ⟨h, -⟩ <;> omega
  · omega

end Window

/-- Settles O30: a search keeps the best match of the nodes it visits, and on search trees no position of the tree shares
more bytes than some visited node. -/
theorem findReturnsLongestMatch : Obligations.FindReturnsLongestMatch := by
  intro w w' p hl h
  obtain ⟨hp, e, hs⟩ := Window.searches_of_find_or_insert h
  refine ⟨Window.Run.bestVisited hs hl hp, fun ho => ⟨fun hml => ?source, fun q n hq hn hagree => ?longest⟩⟩
  case source =>
    rcases hs.reached hl hp with ⟨h0, -⟩ | ⟨-, hv, hshare⟩
    · exact absurd h0 hml
    · exact ⟨(hv.inTree hl).2, Window.agree_of_le_share hshare.ge (hv.firstByte hl ho.sorted)⟩
  case longest =>
    have hshare := Window.le_share_of_agree hagree hn
    have hlong : w.share p q ≤ w'.ml.toNat ∨ w.share p q < 2 := hs.longest hl ho.sorted hq
    omega

/-! ### The commands -/

variable {s : State} {x : BitVec 16} {w' : Window} {f : Window → Except Stop Window}

theorem command_onWindow_report (he : s.err = 0) (h : f s.win = .ok w') :
    command (onWindow f >>= fun _ => reportMatch) s =
      .next { s with win := w', res0 := w'.ml.setWidth 32, res1 := w'.mp.setWidth 32 } := by
  have hw : onWindow f s = .ok () { s with win := w' } := by rw [onWindow, h]
  rw [command_run he]
  refine runProcedure_ok ?_
  rw [bind]
  show EStateM.bind _ _ _ = _
  rw [EStateM.bind, hw]
  rfl

theorem command_onWindow_raise {m : Engine State Unit} (he : s.err = 0) {c : ErrCode} (h : f s.win = .error (.raise c)) :
    command (onWindow f >>= fun _ => m) s = .next (errorEntry c s) := by
  have hw : onWindow f s = .error (.raise c) s := by rw [onWindow, h]
  refine command_of_raise he ?_
  show EStateM.bind _ _ _ = _
  rw [EStateM.bind, hw]

theorem exec_winInsert (s : State) (h : x.toNat < 4096) :
    exec (.winInsert x) s = command (onWindow (fun w => w.insert ⟨x.toNat, h⟩) >>= fun _ => reportMatch) s :=
  congrArg (command · s) (indexBelow_bind_of_lt h)

theorem exec_winFind (s : State) (h : x.toNat < 4096) :
    exec (.winFind x) s = command (onWindow (fun w => w.find ⟨x.toNat, h⟩) >>= fun _ => reportMatch) s :=
  congrArg (command · s) (indexBelow_bind_of_lt h)

/-- Settles O26: an insertion that ends well never meets its own position, so its search reads the links `Find` reads; the
check of the index comes before any write. -/
theorem findAsInsert : Obligations.FindAsInsert := by
  refine ⟨fun w w' p _ h => Window.find_of_insert h, fun s x he h hp => ?_⟩
  rw [exec_winInsert s h, exec_winFind s h]
  exact ⟨command_onWindow_raise he (if_pos hp), command_onWindow_raise he (if_pos hp)⟩

theorem toNat_result {n : Nat} (v : BitVec n) (h : n ≤ 32) : (v.setWidth 32).toNat = v.toNat :=
  BitVec.toNat_setWidth_of_le h

/-- Settles O25: the insertion completes on linked windows, and `Find` leaves its match. -/
theorem winFindGivesInsertResults : Obligations.WinFindGivesInsertResults := by
  intro s x he h hl hp
  obtain ⟨e, m, w', hi, -⟩ := hl.insert_spec hp
  rw [exec_winInsert s h, exec_winFind s h]
  exact ⟨_, _, command_onWindow_report he (Window.find_of_insert hi), command_onWindow_report he hi, rfl, rfl, rfl, rfl,
    rfl, toNat_result _ (by decide), toNat_result _ (by decide)⟩

namespace Window

variable {w : Window} {p q z : Pos} {e : Ending}

/-- The position inserted is in the index. -/
theorem Inserted.indexed_self (h : w.Inserted p e w') (he : w.EndsAt p e) (hl : w.Linked) : w'.indexed p = true := by
  cases e with
  | empty x b => exact (Attached.indexed h).2 (.inl rfl)
  | full q =>
    rw [Replaced.indexed h, Equiv.swap_apply_right]
    exact (he.1.inTree hl).1

/-- Attaching changes the index at the position alone. -/
theorem Attached.indexed_of_ne {b : Bool} {x : Node} (h : w.Attached p b x w') (hz : z ≠ p) : w'.indexed z = w.indexed z :=
  Bool.eq_iff_iff.2 (h.indexed.trans (or_iff_right hz))

/-- Replacing changes the index at the two positions alone. -/
theorem Replaced.indexed_of_ne (h : w.Replaced q p w') (hzp : z ≠ p) (hzq : z ≠ q) : w'.indexed z = w.indexed z := by
  rw [h.indexed, Equiv.swap_apply_of_ne_of_ne hzq hzp]

end Window

/-- Settles O24: the search ends within the bound, and at an empty link the position is attached there, at a full match it
takes the place of the node. -/
theorem winInsertIndexesPosition : Obligations.WinInsertIndexesPosition := by
  intro s x he h hl hp
  obtain ⟨e, m, w', hins, hs, rfl, hi⟩ := hl.insert_spec hp
  have hend := hs.endsAt
  have hlen := hs.kept.length
  rw [exec_winInsert s h]
  refine ⟨_, command_onWindow_report he hins, rfl, hi.win, hl.insert hins, hi.indexed_self hend hl,
    toNat_result _ (by decide), toNat_result _ (by decide), ?result, fun hml q hq => ?attached, fun hml => ?replaced⟩
  case result =>
    refine (hs.reached hl hp).imp_right fun ⟨h2, hv, hshare⟩ => ⟨h2, ?_, fun i h1 hi => ?_, fun ho => ?_⟩
    · exact hshare.symm.trans_le (s.win.share_le _ _)
    · exact Window.keyByte_eq_of_lt_share h1 (hi.trans_eq hshare.symm)
    · exact Window.agree_of_le_share hshare.ge (hv.firstByte hl ho.sorted)
  case attached =>
    cases e with
    | empty x b => exact Window.Attached.indexed_of_ne hi fun hqp => hq (congrArg Fin.val hqp)
    | full p' => exact absurd hlen hml.ne
  case replaced =>
    cases e with
    | empty x b => exact absurd hml hlen.ne
    | full p' =>
      obtain ⟨hv, hshare⟩ := hend
      refine ⟨p', (hv.inTree hl).1, ?_, fun q hq hqp => ?_, fun i h1 hi => ?_, fun ho => ?_⟩
      · exact (Window.Replaced.indexed hi).trans (by rw [Equiv.swap_apply_left, hp])
      · exact Window.Replaced.indexed_of_ne hi (fun hqx => hq (congrArg Fin.val hqx)) hqp
      · exact Window.keyByte_eq_of_lt_share h1 (hi.trans_eq hshare.symm)
      · exact Window.agree_of_le_share hshare.ge (hv.firstByte hl ho.sorted)

end Sys2Proof.Machine
end

section
/-! SUPPORT. `Delete` by sides (42_window.md R219, R221): the two modes of `TwoChild` are one procedure, mirrored. -/

namespace Sys2Proof.Machine.Window

variable {w w' : Window} {p q z l r d : Pos} {v : Option Pos} {x y : Node} {b c s : Bool} {mode : DelMode}

/-! ### The writes of `Delete` -/

/-- The last lines of `Delete` (R219): `v` takes the place of `p`. -/
def unlink (w : Window) (p : Pos) (v : Option Pos) : Option Window :=
  ((w.setDad v (w.dad.get p)).relink ((w.setDad v (w.dad.get p)).dad.get p) p v).map
    fun u => { u with dad := u.dad.set p none }

theorem deleteIndexed_eq (w : Window) (mode : DelMode) (p : Pos) :
    w.deleteIndexed mode p = (w.substitute mode p).bind fun r => r.2.unlink p r.1 := by
  unfold deleteIndexed
  rcases w.substitute mode p with _ | ⟨q, u⟩ <;> rfl

theorem unlink_spec (hd : w.dad.get p = some x) (hb : w.child b x = some p) (hr : w.right x = some p → b = true)
    (v : Option Pos) : ∃ w', w.unlink p v = some w' ∧ w.Unlinked p v b x w' := by
  have hdp : (w.setDad v (some x)).dad.get p = some x := by
    rw [dad_setDad, hd, ite_self]
  obtain ⟨u, hu, hs⟩ := exists_relink (w := w.setDad v (some x)) (x := x) (p := p) (b := b)
    (by rw [child_setDad, hb]) (fun h => hr (by rwa [← child_right, child_setDad] at h)) v
  refine ⟨{ u with dad := u.dad.set p none }, ?_, hs.win.trans (win_setDad ..), fun z => ?_, fun c y => ?_⟩
  · rw [unlink, hd, hdp, hu]
    rfl
  · dsimp only
    rw [Table.get_set, hs.dad, dad_setDad]
  · exact (hs.child c y).trans (by rw [child_setDad])

/-- Set the child of a position on a side. -/
def setSide (w : Window) (c : Bool) (q : Pos) (v : Option Pos) : Window :=
  if c then { w with rson := w.rson.set q v } else { w with lson := w.lson.set q v }

theorem relinked_setSide (w : Window) (c : Bool) (q : Pos) (v : Option Pos) :
    w.Relinked c (.pos q) v (w.setSide c q v) := by
  cases c with
  | true => exact relinked_rson w q v
  | false => exact relinked_lson w q v

/-- `v` becomes the child of `q` on side `c`, if it is a position. -/
def adopt (w : Window) (c : Bool) (q : Pos) (v : Option Pos) : Window := (w.setSide c q v).setDad v (some (.pos q))

theorem child_adopt (w : Window) (c : Bool) (q : Pos) (v : Option Pos) (e : Bool) (y : Node) :
    (w.adopt c q v).child e y = if y = .pos q ∧ e = c then v else w.child e y := by
  rw [adopt, child_setDad, (relinked_setSide ..).child]

theorem dad_adopt (w : Window) (c : Bool) (q : Pos) (v : Option Pos) (z : Pos) :
    (w.adopt c q v).dad.get z = if v = some z then some (.pos q) else w.dad.get z := by
  rw [adopt, dad_setDad, (relinked_setSide ..).dad]

theorem win_adopt (w : Window) (c : Bool) (q : Pos) (v : Option Pos) : (w.adopt c q v).win = w.win := by
  rw [adopt, win_setDad, (relinked_setSide ..).win]

/-- `q` takes over the child of `p` on side `c` (R221). -/
def take (w : Window) (c : Bool) (q p : Pos) : Window := w.adopt c q (w.child c (.pos p))

theorem child_take (w : Window) (c : Bool) (q p : Pos) (e : Bool) (y : Node) :
    (w.take c q p).child e y = if y = .pos q ∧ e = c then w.child c (.pos p) else w.child e y :=
  child_adopt ..

theorem dad_take (w : Window) (c : Bool) (q p z : Pos) :
    (w.take c q p).dad.get z = if w.child c (.pos p) = some z then some (.pos q) else w.dad.get z :=
  dad_adopt ..

theorem win_take (w : Window) (c : Bool) (q p : Pos) : (w.take c q p).win = w.win := win_adopt ..

/-- The last node along the links of one side (R221). -/
def outermost (w : Window) (c : Bool) : Nat → Pos → Option Pos
  | 0, _ => none
  | n + 1, q =>
    match w.child c (.pos q) with
    | none => some q
    | some q' => w.outermost c n q'

theorem leftmost_eq (w : Window) (n : Nat) (q : Pos) : w.leftmost n q = w.outermost false n q := by
  induction n generalizing q with
  | zero => rfl
  | succ n ih =>
    simp only [leftmost, outermost, ih]
    rfl

theorem rightmost_eq (w : Window) (n : Nat) (q : Pos) : w.rightmost n q = w.outermost true n q := by
  induction n generalizing q with
  | zero => rfl
  | succ n ih =>
    simp only [rightmost, outermost, ih]
    rfl

/-- `q`, the child of `d` on side `!s`, leaves its place to its own child on side `s` (R221). -/
def vacate (w : Window) (s : Bool) (q d : Pos) : Window := w.adopt (!s) d (w.child s (.pos q))

theorem child_vacate (w : Window) (s : Bool) (q d : Pos) (c : Bool) (y : Node) :
    (w.vacate s q d).child c y = if y = .pos d ∧ c = (!s) then w.child s (.pos q) else w.child c y :=
  child_adopt ..

theorem dad_vacate (w : Window) (s : Bool) (q d z : Pos) :
    (w.vacate s q d).dad.get z = if w.child s (.pos q) = some z then some (.pos d) else w.dad.get z :=
  dad_adopt ..

theorem win_vacate (w : Window) (s : Bool) (q d : Pos) : (w.vacate s q d).win = w.win := win_adopt ..

/-- The inner block of `TwoChild(p)` (R221), with the subtree of `r` on side `s` of `p`. -/
def takeOutermost (w : Window) (s : Bool) (p r : Pos) : Option (Pos × Window) :=
  (w.outermost (!s) 4097 r).bind fun q => (w.dadPos q).map fun d => (q, (w.vacate s q d).take s q p)

/-- `TwoChild(p)` (R221), with the subtree of `r` on side `s` of `p`. -/
def promote (w : Window) (s : Bool) (p r : Pos) : Option (Pos × Window) :=
  (if (w.child (!s) (.pos r)).isSome then w.takeOutermost s p r else some (r, w)).map fun h => (h.1, h.2.take (!s) h.1 p)

theorem takeLeftmost_eq (w : Window) (p r : Pos) : w.takeLeftmost p r = w.takeOutermost true p r := by
  unfold takeLeftmost takeOutermost
  rw [leftmost_eq, Bool.not_true]
  cases w.outermost false 4097 r with
  | none => rfl
  | some q =>
    rw [Option.bind_some]
    dsimp only
    cases w.dadPos q <;> rfl

theorem takeRightmost_eq (w : Window) (p l : Pos) : w.takeRightmost p l = w.takeOutermost false p l := by
  unfold takeRightmost takeOutermost
  rw [rightmost_eq, Bool.not_false]
  cases w.outermost true 4097 l with
  | none => rfl
  | some q =>
    rw [Option.bind_some]
    dsimp only
    cases w.dadPos q <;> rfl

theorem successor_eq (w : Window) (p r : Pos) : w.successor p r = w.promote true p r := by
  unfold successor promote
  rw [takeLeftmost_eq]
  by_cases h : (w.lson.get r).isSome = true
  · rw [if_pos h, if_pos (show (w.child (!true) (.pos r)).isSome = true from h)]
    cases w.takeOutermost true p r <;> rfl
  · rw [if_neg h, if_neg (show ¬ (w.child (!true) (.pos r)).isSome = true from h)]
    rfl

theorem predecessor_eq (w : Window) (p l : Pos) : w.predecessor p l = w.promote false p l := by
  unfold predecessor promote
  rw [takeRightmost_eq]
  by_cases h : (w.rson.get l).isSome = true
  · rw [if_pos h, if_pos (show (w.child (!false) (.pos l)).isSome = true from h)]
    cases w.takeOutermost false p l <;> rfl
  · rw [if_neg h, if_neg (show ¬ (w.child (!false) (.pos l)).isSome = true from h)]
    rfl

/-- The side of the subtree in which `TwoChild` looks (R221). -/
def sideOf : DelMode → Bool
  | .succ => true
  | .pred => false

theorem substitute_noRight (h : w.rson.get p = none) : w.substitute mode p = some (w.lson.get p, w) := by
  unfold substitute
  rw [h]

theorem substitute_noLeft (h : w.lson.get p = none) (hr : w.rson.get p = some r) :
    w.substitute mode p = some (some r, w) := by
  unfold substitute
  rw [h, hr]

theorem substitute_both (hs : w.child (sideOf mode) (.pos p) = some r) (ho : w.child (!sideOf mode) (.pos p) = some l) :
    w.substitute mode p = (w.promote (sideOf mode) p r).map fun h => (some h.1, h.2) := by
  cases mode with
  | succ =>
    have hs : w.rson.get p = some r := hs
    have ho : w.lson.get p = some l := ho
    unfold substitute
    rw [hs, ho, sideOf, ← successor_eq]
  | pred =>
    have hs : w.lson.get p = some r := hs
    have ho : w.rson.get p = some l := ho
    unfold substitute
    rw [hs, ho, sideOf, ← predecessor_eq]

end Sys2Proof.Machine.Window
end

section
/-! SUPPORT. `TwoChild` on linked windows (42_window.md R221): the last node of a subtree in key order leaves its place and
takes over the children of the node deleted. -/

namespace Sys2Proof.Machine.Window

variable {w w' u : Window} {p q z l r d : Pos} {v : Option Pos} {x y : Node} {b c s e : Bool} {mode : DelMode}

/-! ### The last node of a subtree -/

/-- The links of side `c` from a node on end at another. -/
inductive OuterEnd (w : Window) (c : Bool) : Pos → Pos → Prop
  | here (p : Pos) : w.child c (.pos p) = none → OuterEnd w c p p
  | step (p q z : Pos) : w.child c (.pos p) = some q → OuterEnd w c q z → OuterEnd w c p z

theorem OuterEnd.leftEnd (h : w.OuterEnd false p q) : w.LeftEnd p q := by
  induction h with
  | here p h => exact .here p h
  | step p q z h _ ih => exact .left p q z h ih

theorem OuterEnd.rightEnd (h : w.OuterEnd true p q) : w.RightEnd p q := by
  induction h with
  | here p h => exact .here p h
  | step p q z h _ ih => exact .right p q z h ih

theorem OuterEnd.child_eq_none (h : w.OuterEnd c p q) : w.child c (.pos q) = none := by
  induction h with
  | here p h => exact h
  | step p q z _ _ ih => exact ih

/-- The bound on the nodes is never passed (R210). -/
theorem Linked.exists_outermost (hl : w.Linked) (c : Bool) (hp : w.indexed p = true) :
    ∃ q, w.outermost c 4097 p = some q ∧ w.OuterEnd c p q := by
  obtain ⟨height, hlt, hh⟩ := hl.exists_height
  have walk (n : Nat) : ∀ p, w.indexed p = true → height p < n →
      ∃ q, w.outermost c n p = some q ∧ w.OuterEnd c p q := by
    induction n with
    | zero => exact fun p _ h => absurd h (Nat.not_lt_zero _)
    | succ n ih =>
      intro p hp hn
      rw [outermost]
      cases hc : w.child c (.pos p) with
      | none => exact ⟨p, rfl, .here p hc⟩
      | some q =>
        have hp' : w.Live (.pos p) := hp
        have := hh q p (hl.dad_of_child hp' hc)
        obtain ⟨z, hz, he⟩ := ih q (hl.indexed_of_child hp' hc) (by omega)
        exact ⟨z, hz, .step p q z hc he⟩
  exact walk 4097 p hp ((hlt p).trans (Nat.lt_succ_self _))

theorem OuterEnd.under (h : w.OuterEnd c r q) (hl : w.Linked) (hr : w.indexed r = true) : w.Under r q := by
  induction h with
  | here p _ => exact .self p
  | step p r' q hc _ ih =>
    exact hl.under_of_below hr ⟨r', hc, ih (hl.indexed_of_child (x := .pos p) hr hc)⟩

/-- The last node is the first one, or a child of a node under it. -/
theorem OuterEnd.eq_or_child (h : w.OuterEnd c r q) (hl : w.Linked) (hr : w.indexed r = true) :
    q = r ∨ ∃ d, w.Under r d ∧ w.indexed d = true ∧ w.child c (.pos d) = some q := by
  induction h with
  | here p _ => exact .inl rfl
  | step p r' q hc _ ih =>
    right
    rcases ih (hl.indexed_of_child (x := .pos p) hr hc) with rfl | ⟨d, hu, hd, hdc⟩
    · exact ⟨p, .self p, hr, hc⟩
    · exact ⟨d, hl.under_of_below hr ⟨r', hc, hu⟩, hd, hdc⟩

/-- No key of a subtree passes that of its last node. -/
theorem OuterEnd.key_le (h : w.OuterEnd (!s) r q) (hl : w.Linked) (ho : w.Sorted) (hr : w.indexed r = true)
    (hz : w.Under r z) : if s then w.key q ≤ w.key z else w.key z ≤ w.key q := by
  induction h with
  | here p hc =>
    rcases hl.under_cases hz with rfl | ⟨c, hz⟩
    · cases s <;> exact Nat.le_refl _
    · rcases Bool.eq_or_eq_not c s with rfl | rfl
      · cases c
        · exact (ho.lt_of_below hr hz).le
        · exact ho.le_of_below hr hz
      · obtain ⟨l, hl, -⟩ := hz
        rw [hc] at hl
        cases hl
  | step p r' q hc hq ih =>
    have hr' := hl.indexed_of_child (x := .pos p) hr hc
    have hpq : w.Below (!s) (.pos p) q := ⟨r', hc, hq.under hl hr'⟩
    have hp : if s then w.key q ≤ w.key p else w.key p ≤ w.key q := by
      cases s
      · exact ho.le_of_below hr hpq
      · exact (ho.lt_of_below hr hpq).le
    rcases hl.under_cases hz with rfl | ⟨c, hz⟩
    · exact hp
    · rcases Bool.eq_or_eq_not c s with rfl | rfl
      · cases c
        · exact (ho.lt_of_below hr hz).le.trans hp
        · exact Nat.le_trans hp (ho.le_of_below hr hz)
      · obtain ⟨l, hl', hu⟩ := hz
        rw [hc] at hl'
        cases hl'
        exact ih hr' hu

/-! ### The node that takes the place -/

/-- `q` is the last node of the subtree of `r` on side `s` of `p`; it sits on side `e` of `d`. -/
structure Heir (w : Window) (s : Bool) (p r q d : Pos) (e : Bool) : Prop where
  child : w.child s (.pos p) = some r
  last : w.OuterEnd (!s) r q
  parent : w.indexed d = true
  sits : w.child e (.pos d) = some q
  place : (q = r ∧ d = p ∧ e = s) ∨ (q ≠ r ∧ e = (!s) ∧ w.Below s (.pos p) d)

theorem Linked.exists_heir (hl : w.Linked) (hp : w.indexed p = true) (hr : w.child s (.pos p) = some r)
    (hq : w.OuterEnd (!s) r q) : ∃ d e, w.Heir s p r q d e := by
  by_cases hqr : q = r
  · exact ⟨p, s, hr, hq, hp, hqr ▸ hr, .inl ⟨hqr, rfl, rfl⟩⟩
  · obtain ⟨d, hu, hd, hdq⟩ := (hq.eq_or_child hl (hl.indexed_of_child (x := .pos p) hp hr)).resolve_left hqr
    exact ⟨d, !s, hr, hq, hd, hdq, .inr ⟨hqr, rfl, r, hr, hu⟩⟩

namespace Heir

variable (h : w.Heir s p r q d e)
include h

theorem indexed (hl : w.Linked) : w.indexed q = true := hl.indexed_of_child (x := .pos d) h.parent h.sits

theorem dad (hl : w.Linked) : w.dad.get q = some (.pos d) := hl.dad_of_child (x := .pos d) h.parent h.sits

theorem onlyChild : w.OnlyChild q (w.child s (.pos q)) := by
  intro z
  refine ⟨fun hz => ⟨s, hz⟩, fun ⟨c, hc⟩ => ?_⟩
  have hcs : c = s := by
    by_contra hcs
    rw [Bool.eq_not_of_ne hcs, h.last.child_eq_none] at hc
    cases hc
  exact hcs ▸ hc

variable (hl : w.Linked) (hp : w.indexed p = true)
include hl hp

theorem below : w.Below s (.pos p) q := ⟨r, h.child, h.last.under hl (hl.indexed_of_child (x := .pos p) hp h.child)⟩

theorem ne : q ≠ p := hl.ne_of_below hp (h.below hl hp)

end Heir

theorem OuterEnd.eq_of_none (h : w.OuterEnd c r q) (hc : w.child c (.pos r) = none) : q = r := by
  cases h with
  | here => rfl
  | step _ r' _ hc' _ =>
    rw [hc] at hc'
    cases hc'

/-- Both children taken over (R221). -/
theorem inherits_take (w : Window) (s : Bool) (hqp : q ≠ p) : w.Inherits p q ((w.take s q p).take (!s) q p) := by
  have hpq : Node.pos p ≠ .pos q := fun h => hqp (Node.pos.inj h).symm
  have hother : (w.take s q p).child (!s) (.pos p) = w.child (!s) (.pos p) := by
    rw [child_take, if_neg fun h => hpq h.1]
  refine ⟨by rw [win_take, win_take], fun z _ => ?_, fun c y _ => ?_⟩
  · rw [dad_take, dad_take, hother]
    simp only [Bool.exists_bool' s]
    by_cases hs : w.child s (.pos p) = some z <;> simp [hs]
  · rw [child_take, hother, child_take]
    by_cases hy : y = .pos q
    · rcases Bool.eq_or_eq_not c s with rfl | rfl <;> simp [hy]
    · simp [hy]

/-- `TwoChild` (R221) in two steps: the heir leaves its place, and takes over the children of `p`. -/
theorem Heir.promote (h : w.Heir s p r q d e) (hl : w.Linked) (hp : w.indexed p = true)
    (hout : w.outermost (!s) 4097 r = some q) (h₁ : w.Unlinked q (w.child s (.pos q)) e (.pos d) w') :
    ∃ u, w.promote s p r = some (q, u) ∧ w'.Inherits p q u := by
  have hqp := h.ne hl hp
  rcases h.place with ⟨rfl, rfl, rfl⟩ | ⟨hqr, rfl, hb⟩
  · refine ⟨w.take (!e) q d, ?_, (win_take ..).trans h₁.win.symm, fun z hz => ?_, fun c y hy => ?_⟩
    · rw [Window.promote, h.last.child_eq_none]
      rfl
    · rw [dad_take, h₁.dad, if_neg hz]
      simp only [h₁.child, Bool.exists_bool' e]
      by_cases hv : w.child e (.pos q) = some z
      · have := hl.dad_of_child (x := .pos q) (h.indexed hl) hv
        simp [hv, this]
      · simp [hv]
    · rw [child_take, h₁.child, h₁.child]
      by_cases hyq : y = .pos q
      · rcases Bool.eq_or_eq_not c e with rfl | rfl <;> simp [hyq]
      · simp [hy, hyq]
  · have hdp : d ≠ p := hl.ne_of_below hp hb
    have hi := (w.vacate s q d).inherits_take s hqp
    refine ⟨_, ?_, hi.win.trans ((win_vacate ..).trans h₁.win.symm), fun z hz => ?_, fun c y hy => ?_⟩
    · have hr : (w.child (!s) (.pos r)).isSome = true :=
        Option.isSome_iff_ne_none.2 fun hc => hqr (h.last.eq_of_none hc)
      rw [Window.promote, if_pos hr, takeOutermost, hout, Option.bind_some, dadPos, h.dad hl]
      rfl
    · rw [hi.dad z hz]
      simp only [child_vacate, dad_vacate, h₁.child, h₁.dad, if_neg hz]
    · rw [hi.child c y hy]
      simp only [child_vacate, h₁.child]

end Sys2Proof.Machine.Window
end

section
/-! SUPPORT. `Delete` on linked windows (42_window.md R212, R219, R221): what it makes of the links, and that it keeps the
trees and their order. -/

namespace Sys2Proof.Machine.Window

variable {w w' w₁ u : Window} {p q z l r d : Pos} {v : Option Pos} {x y : Node} {b c s e : Bool} {mode : DelMode}

/-- The position leaves the place in which another has inherited its children. -/
theorem Inherits.unlink_spec (h : w.Inherits p q u) (hl : w.Linked) (hq : w.indexed q = false)
    (hd : w.dad.get p = some x) (hb : w.child b x = some p) :
    ∃ w', u.unlink p (some q) = some w' ∧ u.Unlinked p (some q) b x w' := by
  have hchild := h.child_parent hl hq hd
  exact Window.unlink_spec (h.dad_self hl hq hd) ((hchild b).trans hb)
    (fun hr => hl.eq_true_of_right (hl.live_of_dad hd) hb ((hchild true).symm.trans hr)) _

/-- How `v` comes to take the place of `p`, the child on side `b` of `x` (R219): as its only child, or as its heir. -/
inductive Removal (w : Window) (mode : DelMode) (p : Pos) (b : Bool) (x : Node) : Option Pos → Window → Prop
  | one (v : Option Pos) (w' : Window) : w.OnlyChild p v → w.Replacement mode p v → w.Unlinked p v b x w' →
    Removal w mode p b x v w'
  | two (r l q d : Pos) (e : Bool) (w₁ u w' : Window) : w.child (!sideOf mode) (.pos p) = some l →
    w.Heir (sideOf mode) p r q d e → w.Unlinked q (w.child (sideOf mode) (.pos q)) e (.pos d) w₁ →
    w₁.Inherits p q u → u.Unlinked p (some q) b x w' → Removal w mode p b x (some q) w'

/-! ### The heir's old place -/

section Vacated

variable (h : w.Heir s p r q d e) (h₁ : w.Unlinked q (w.child s (.pos q)) e (.pos d) w₁) (hl : w.Linked)
  (hd : w.dad.get p = some x) (hb : w.child b x = some p)
include h h₁ hl

theorem Heir.linked_vacated : w₁.Linked := h₁.linked hl (x := .pos d) h.parent h.sits h.onlyChild

theorem Heir.indexed_vacated : w₁.indexed z = true ↔ z ≠ q ∧ w.indexed z = true :=
  h₁.indexed hl (x := .pos d) h.parent h.sits h.onlyChild

theorem Heir.not_indexed_vacated : w₁.indexed q = false :=
  Bool.eq_false_iff.2 fun hq => ((h.indexed_vacated h₁ hl).1 hq).1 rfl

theorem Heir.below_vacated (hy : w₁.Live y) (hz : w₁.Below c y z) : w.Below c y z :=
  h₁.below hl (x := .pos d) h.parent h.sits h.onlyChild hy hz

include hd

theorem Heir.dad_vacated : w₁.dad.get p = some x := by
  have hp := indexed_of_dad hd
  rw [h₁.dad, if_neg (h.ne hl hp).symm, if_neg fun hc => ?_, hd]
  have hqp : w.dad.get p = some (.pos q) := hl.dad_of_child (x := .pos q) (h.indexed hl) hc
  exact hl.ne_of_below hp ((h.below hl hp).step hqp) rfl

include hb

theorem Heir.child_vacated : w₁.child b x = some p := by
  rw [h₁.child, if_neg, hb]
  rintro ⟨rfl, rfl⟩
  exact h.ne hl (indexed_of_dad hd) (Option.some.inj (h.sits.symm.trans hb))

/-- The heir replaces the position in the window in which it has left its own place. -/
theorem Heir.replaced (hi : w₁.Inherits p q u) (hu : u.Unlinked p (some q) b x w') : w₁.Replaced p q w' :=
  hi.replaced (h.linked_vacated h₁ hl) (h.not_indexed_vacated h₁ hl) hu (h.dad_vacated h₁ hl hd)
    (h.child_vacated h₁ hl hd hb)

omit hb in
/-- Below the position deleted, the key of the heir parts the sides (R212, R221). -/
theorem Heir.key_lt_iff (hother : w.child (!s) (.pos p) = some l) (ho : w.Sorted) (hz : w₁.Below c (.pos p) z) :
    w.key z < w.key q ↔ c = false := by
  have hp := indexed_of_dad hd
  have hlive : w₁.Live (.pos p) := indexed_of_dad (h.dad_vacated h₁ hl hd)
  have hz' := h.below_vacated h₁ hl hlive hz
  have hzq : z ≠ q := ((h.indexed_vacated h₁ hl).1 ((h.linked_vacated h₁ hl).indexed_of_below hlive hz)).1
  have hpq := h.below hl hp
  rcases Bool.eq_or_eq_not c s with rfl | rfl
  · obtain ⟨r', hr', hu⟩ := id hz'
    obtain rfl := Option.some.inj (hr'.symm.trans h.child)
    have hle := h.last.key_le hl ho (hl.indexed_of_child (x := .pos p) hp hr') hu
    cases c
    · obtain ⟨t, ht⟩ := hl.exists_inTree hp
      have hne : w.key z ≠ w.key q := fun hk =>
        hzq (ho.oneKey t q z (Below.trans ht hpq hl hp) (Below.trans ht hz' hl hp) hk)
      exact iff_of_true (Nat.lt_of_le_of_ne hle hne) rfl
    · exact iff_of_false (Nat.not_lt.2 hle) nofun
  · cases s
    · exact iff_of_false (Nat.not_lt.2 ((ho.lt_of_below hp hpq).le.trans (ho.le_of_below hp hz'))) nofun
    · exact iff_of_true ((ho.lt_of_below hp hz').trans_le (ho.le_of_below hp hpq)) rfl

omit hb in
/-- The key of the heir fits in the place of the position deleted (R212, R221). -/
theorem Heir.fits (hother : w.child (!s) (.pos p) = some l) (ho : w.Sorted) : w₁.Fits p q := by
  have hp := indexed_of_dad hd
  have hbelow := h.below hl hp
  have hk (z : Pos) : w₁.key z = w.key z := key_congr h₁.win z
  refine ⟨fun a c ha hz => ?_, fun c z hz => ?_, fun t hz => ?_, fun t z hpz hz hkz => ?_⟩
  · rw [hk, hk]
    have ha' := ((h.indexed_vacated h₁ hl).1 ha).2
    exact ho.side a c q ha' ((h.below_vacated h₁ hl (y := .pos a) ha hz).trans hbelow hl hp)
  · rw [hk, hk]
    exact h.key_lt_iff h₁ hl hd hother ho hz
  · rw [h₁.win]
    exact ho.firstByte t q ((h.below_vacated h₁ hl (live_rootn w₁ t) hz).trans hbelow hl hp)
  · rw [hk, hk] at hkz
    have hzq := ho.oneKey t q z ((h.below_vacated h₁ hl (live_rootn w₁ t) hpz).trans hbelow hl hp)
      (h.below_vacated h₁ hl (live_rootn w₁ t) hz) hkz
    exact absurd hzq ((h.indexed_vacated h₁ hl).1 ((h.linked_vacated h₁ hl).indexed_of_below (live_rootn w₁ t) hz)).1

end Vacated

/-- Deletion completes on linked windows (R219, R221). -/
theorem Linked.exists_removal (hl : w.Linked) (mode : DelMode) (hd : w.dad.get p = some x) (hb : w.child b x = some p) :
    ∃ v w', w.deleteIndexed mode p = some w' ∧ w.Removal mode p b x v w' := by
  have hp := indexed_of_dad hd
  have one (v : Option Pos) (hs : w.substitute mode p = some (v, w)) (ho : w.OnlyChild p v)
      (hv : w.Replacement mode p v) : ∃ v w', w.deleteIndexed mode p = some w' ∧ w.Removal mode p b x v w' := by
    obtain ⟨w', hw', hu⟩ := unlink_spec hd hb (hl.eq_true_of_right (hl.live_of_dad hd) hb) v
    refine ⟨v, w', ?_, .one v w' ho hv hu⟩
    rw [deleteIndexed_eq, hs, Option.bind_some, hw']
  cases hr : w.rson.get p with
  | none =>
    refine one _ (substitute_noRight hr) (fun z => ?_) (.noRight mode p hr)
    rw [Bool.exists_bool, child_right, right, hr]
    simp [left]
  | some r =>
    cases hleft : w.lson.get p with
    | none =>
      refine one _ (substitute_noLeft hleft hr) (fun z => ?_) (.noLeft mode p r hleft hr)
      rw [Bool.exists_bool, child_left, left, hleft, child_right, right, hr]
      simp
    | some l =>
      obtain ⟨r', l', hr', hl'⟩ : ∃ r' l', w.child (sideOf mode) (.pos p) = some r' ∧
          w.child (!sideOf mode) (.pos p) = some l' := by
        cases mode with
        | succ => exact ⟨r, l, hr, hleft⟩
        | pred => exact ⟨l, r, hleft, hr⟩
      obtain ⟨q, hout, hlast⟩ := hl.exists_outermost (!sideOf mode) (hl.indexed_of_child (x := .pos p) hp hr')
      obtain ⟨d, e, h⟩ := hl.exists_heir hp hr' hlast
      obtain ⟨w₁, -, h₁⟩ := unlink_spec (h.dad hl) h.sits
        (hl.eq_true_of_right (x := .pos d) h.parent h.sits) (w.child (sideOf mode) (.pos q))
      obtain ⟨u, hu, hi⟩ := h.promote hl hp hout h₁
      obtain ⟨w', hw', hun⟩ := hi.unlink_spec (h.linked_vacated h₁ hl) (h.not_indexed_vacated h₁ hl)
        (h.dad_vacated h₁ hl hd) (h.child_vacated h₁ hl hd hb)
      refine ⟨some q, w', ?_, .two r' l' q d e w₁ u w' hl' h h₁ hi hun⟩
      rw [deleteIndexed_eq, substitute_both hr' hl', hu, Option.map_some, Option.bind_some, hw']

/-! ### What deletion keeps -/

theorem Removal.win (h : w.Removal mode p b x v w') : w'.win = w.win := by
  cases h with
  | one _ _ _ _ hu => exact hu.win
  | two r l q d e w₁ u _ _ h h₁ hi hu => exact hu.win.trans (hi.win.trans h₁.win)

section Removal

variable (h : w.Removal mode p b x v w') (hl : w.Linked) (hd : w.dad.get p = some x) (hb : w.child b x = some p)
include h hl hd hb

theorem Removal.linked : w'.Linked := by
  cases h with
  | one _ _ ho _ hu => exact hu.linked hl (hl.live_of_dad hd) hb ho
  | two r l q d e w₁ u _ _ h h₁ hi hu =>
    exact (h.replaced h₁ hl hd hb hi hu).linked (h.linked_vacated h₁ hl)

theorem Removal.indexed : w'.indexed z = true ↔ z ≠ p ∧ w.indexed z = true := by
  cases h with
  | one _ _ ho _ hu => exact hu.indexed hl (hl.live_of_dad hd) hb ho
  | two r l q d e w₁ u _ _ h h₁ hi hu =>
    rw [(h.replaced h₁ hl hd hb hi hu).indexed]
    have hp := indexed_of_dad hd
    have hqp := h.ne hl hp
    by_cases hzp : z = p
    · rw [hzp, Equiv.swap_apply_left, h.not_indexed_vacated h₁ hl]
      simp
    by_cases hzq : z = q
    · rw [hzq, Equiv.swap_apply_right, h.indexed_vacated h₁ hl, h.indexed hl]
      simp [hqp, hqp.symm, hp]
    · rw [Equiv.swap_apply_of_ne_of_ne hzp hzq, h.indexed_vacated h₁ hl]
      simp [hzp, hzq]

theorem Removal.sorted (ho : w.Sorted) : w'.Sorted := by
  cases h with
  | one _ _ hv _ hu => exact hu.sorted hl (hl.live_of_dad hd) hb hv ho
  | two r l q d e w₁ u _ hother h h₁ hi hu =>
    have hp₁ := indexed_of_dad (h.dad_vacated h₁ hl hd)
    exact (h.replaced h₁ hl hd hb hi hu).sorted (h.linked_vacated h₁ hl) (h.not_indexed_vacated h₁ hl) hp₁
      (h.fits h₁ hl hd hother ho) (h₁.sorted hl (x := .pos d) h.parent h.sits h.onlyChild ho)

end Removal

end Sys2Proof.Machine.Window
end

section
/-! SUPPORT. The links after a deletion, one by one (42_window.md R219, R221): which node takes the place of the position
deleted, and which links stay. -/

namespace Sys2Proof.Machine.Window

variable {w w' w₁ u : Window} {p q z l r d : Pos} {v : Option Pos} {x y : Node} {b c s e : Bool} {mode : DelMode}

/-! ### The heir's links -/

section Heir

variable (h : w.Heir s p r q d e) (h₁ : w.Unlinked q (w.child s (.pos q)) e (.pos d) w₁) (hi : w₁.Inherits p q u)
  (hu : u.Unlinked p (some q) b x w')
include h h₁ hi hu

omit h h₁ in
theorem Inherits.child_final (hy : y ≠ .pos p) : w'.child c y =
    if y = x ∧ c = b then some q else if y = .pos q then w₁.child c (.pos p) else w₁.child c y := by
  rw [hu.child, hi.child c y hy]

omit h in
/-- Links of other nodes stay. -/
theorem Unlinked.child_other (hp : y ≠ .pos p) (hx : y ≠ x) (hq : y ≠ .pos q) (hd : y ≠ .pos d) :
    w'.child c y = w.child c y := by
  rw [hi.child_final hu hp, if_neg fun h => hx h.1, if_neg hq, h₁.child, if_neg fun h => hd h.1]

variable (hl : w.Linked) (hd : w.dad.get p = some x)
include hl hd

omit h₁ hi hu in
/-- The heir is not the parent of the position deleted. -/
theorem Heir.ne_parent : Node.pos q ≠ x := fun hqx =>
  hl.ne_of_below (indexed_of_dad hd) ((h.below hl (indexed_of_dad hd)).step (hqx ▸ hd)) rfl

/-- The heir has the children of the position deleted, and its own child has its old place (R221). -/
theorem Heir.links (hother : w.child (!s) (.pos p) = some l) :
    w'.child (!s) (.pos q) = some l ∧ (q = r → w'.child s (.pos q) = w.child s (.pos q)) ∧
      (q ≠ r → w'.child s (.pos q) = some r ∧
        ∀ d', w.dad.get q = some (.pos d') → w'.child (!s) (.pos d') = w.child s (.pos q)) := by
  have hp := indexed_of_dad hd
  have hqx := h.ne_parent hl hd
  have hqp : Node.pos q ≠ .pos p := fun e => h.ne hl hp (Node.pos.inj e)
  have hq (c : Bool) : w'.child c (.pos q) = w₁.child c (.pos p) := by
    rw [hi.child_final hu hqp, if_neg fun h => hqx h.1, if_pos rfl]
  rw [hq, hq, h₁.child, h₁.child]
  rcases h.place with ⟨rfl, rfl, rfl⟩ | ⟨hqr, rfl, hb⟩
  · simp [hother]
  · have hpd : Node.pos p ≠ .pos d := fun e => hl.ne_of_below hp hb (Node.pos.inj e).symm
    rw [if_neg fun h => hpd h.1, if_neg fun h => hpd h.1]
    refine ⟨hother, fun e => absurd e hqr, fun _ => ⟨h.child, fun d' hd' => ?_⟩⟩
    obtain rfl : d = d' := Node.pos.inj (Option.some.inj ((h.dad hl).symm.trans hd'))
    have hdx : Node.pos d ≠ x := fun hdx => hl.ne_of_below hp (hb.step (hdx ▸ hd)) rfl
    have hdq : Node.pos d ≠ .pos q := fun e => hl.dad_ne_self (e ▸ h.dad hl)
    rw [hi.child_final hu hpd.symm, if_neg fun h => hdx h.1, if_neg hdq, h₁.child, if_pos ⟨rfl, rfl⟩]

end Heir

/-! ### Deletion as the two rules write it -/

section Removal

variable (h : w.Removal mode p b x v w') (hl : w.Linked) (hd : w.dad.get p = some x) (hb : w.child b x = some p)
include h

theorem Removal.replacement : w.Replacement mode p v := by
  cases h with
  | one _ _ _ hv _ => exact hv
  | two r l q d e w₁ u _ hother h =>
    cases mode with
    | succ => exact .succ p l r q hother h.child h.last.leftEnd
    | pred => exact .pred p r l q h.child hother h.last.rightEnd

theorem Removal.child_place : w'.child b x = v := by
  cases h with
  | one _ _ _ _ hu => rw [hu.child, if_pos ⟨rfl, rfl⟩]
  | two r l q d e w₁ u _ _ _ _ _ hu => rw [hu.child, if_pos ⟨rfl, rfl⟩]

include hl

theorem Removal.child_other (hp : y ≠ .pos p) (hx : y ≠ x)
    (hv : ∀ q d, v = some q → w.dad.get q = some (.pos d) → y ≠ .pos q ∧ y ≠ .pos d) :
    w'.child c y = w.child c y := by
  cases h with
  | one _ _ _ _ hu => rw [hu.child, if_neg fun h => hx h.1]
  | two r l q d e w₁ u _ _ h h₁ hi hu =>
    obtain ⟨hq, hyd⟩ := hv q d rfl (h.dad hl)
    exact h₁.child_other hi hu hp hx hq hyd

include hd

theorem Removal.dad_place (hv : v = some q) : w'.dad.get q = some x := by
  have hp : w.Live (.pos p) := indexed_of_dad hd
  cases h with
  | one _ _ ho _ hu =>
    have hqp : q ≠ p := by
      rintro rfl
      obtain ⟨c, hc⟩ := (ho q).1 hv
      exact hl.child_ne_self hp hc
    rw [hu.dad, if_neg hqp, if_pos hv]
  | two r l q' d e w₁ u _ _ h _ _ hu =>
    cases hv
    rw [hu.dad, if_neg (h.ne hl hp), if_pos rfl]

/-- The links of a position with two children (R221), by sides. -/
theorem Removal.links (hr : w.child (sideOf mode) (.pos p) = some r) (hother : w.child (!sideOf mode) (.pos p) = some l)
    (hv : v = some q) :
    w'.child (!sideOf mode) (.pos q) = some l ∧
      (q = r → w'.child (sideOf mode) (.pos q) = w.child (sideOf mode) (.pos q)) ∧
      (q ≠ r → w'.child (sideOf mode) (.pos q) = some r ∧
        ∀ d, w.dad.get q = some (.pos d) → w'.child (!sideOf mode) (.pos d) = w.child (sideOf mode) (.pos q)) := by
  have hp : w.Live (.pos p) := indexed_of_dad hd
  cases h with
  | one _ _ ho _ hu =>
    have hlr : l = r := Option.some.inj (((ho l).2 ⟨_, hother⟩).symm.trans ((ho r).2 ⟨_, hr⟩))
    have := (hl.child_inj hp hp (hlr ▸ hother) hr).2
    simp at this
  | two r' l' q' d e w₁ u _ hother' h h₁ hi hu =>
    cases hv
    obtain rfl := Option.some.inj (hr.symm.trans h.child)
    exact h.links h₁ hi hu hl hd hother

include hb

theorem Removal.deleted : w.Deleted mode p x v w' := by
  refine ⟨?_, fun q hv => h.dad_place hl hd hv, ?_, ?_, fun a hx => ?_, fun z hp hx hv hdv => ?_⟩
  · have hplace := h.child_place
    split
    · next hr =>
      rw [hl.eq_true_of_right (hl.live_of_dad hd) hb hr] at hplace
      exact hplace
    · next hr =>
      cases b with
      | true => exact absurd hb hr
      | false => exact hplace
  · rintro l r q rfl hleft hright hv
    exact h.links hl hd hright hleft hv
  · rintro l r q rfl hleft hright hv
    exact h.links hl hd hleft hright hv
  · exact h.child_other hl (c := true) (y := .rootn a) nofun (Ne.symm hx) fun _ _ _ _ => ⟨nofun, nofun⟩
  · have hother (c : Bool) : w'.child c (.pos z) = w.child c (.pos z) :=
      h.child_other hl (fun e => hp (Node.pos.inj e)) (Ne.symm hx) fun q d hq hd =>
        ⟨fun e => hv (hq.trans (congrArg some (Node.pos.inj e).symm)), fun e => hdv q hq (e ▸ hd)⟩
    exact ⟨hother false, hother true⟩

end Removal

end Sys2Proof.Machine.Window
end

section
/-! SUPPORT. Bytes and match result beside the links (42_window.md R214 to R221): what changes the links reads neither the
window's bytes nor the match result, and leaves both. -/

namespace Sys2Proof.Machine.Window

variable {w w' : Window} {p q d r : Pos} {v : Option Pos} {x : Node} {b c s : Bool} {e : Ending} {mode : DelMode}
  {bytes : Table Byte 4096} {m : BitVec 6 × BitVec 12}

/-- The window with other bytes and another match result, and the same links. -/
def withBytes (bytes : Table Byte 4096) (m : BitVec 6 × BitVec 12) (w : Window) : Window :=
  { w with win := bytes, ml := m.1, mp := m.2 }

theorem withBytes_self (w : Window) : withBytes w.win w.matchResult w = w := rfl

/-- A change of the links that does the same whatever bytes and match result stand beside them leaves both. -/
theorem withBytes_of_commutes {f : Window → Option Window}
    (hf : ∀ (w : Window) bytes m, f (withBytes bytes m w) = (f w).map (withBytes bytes m)) (h : f w = some w') :
    withBytes w.win w.matchResult w' = w' := by
  have := hf w w.win w.matchResult
  rw [withBytes_self, h, Option.map_some] at this
  exact (Option.some.inj this).symm

theorem setDad_withBytes (w : Window) (v : Option Pos) (y : Option Node) :
    (withBytes bytes m w).setDad v y = withBytes bytes m (w.setDad v y) := by cases v <;> rfl

theorem setRight_withBytes (w : Window) (x : Node) (v : Option Pos) :
    (withBytes bytes m w).setRight x v = withBytes bytes m (w.setRight x v) := by cases x <;> rfl

theorem setLeft_withBytes (w : Window) (x : Node) (v : Option Pos) :
    (withBytes bytes m w).setLeft x v = (w.setLeft x v).map (withBytes bytes m) := by cases x <;> rfl

theorem right_withBytes (w : Window) (x : Node) : (withBytes bytes m w).right x = w.right x := by cases x <;> rfl

theorem child_withBytes (w : Window) (c : Bool) (x : Node) : (withBytes bytes m w).child c x = w.child c x := by
  cases c <;> cases x <;> rfl

theorem relink_withBytes (w : Window) (y : Option Node) (p : Pos) (v : Option Pos) :
    (withBytes bytes m w).relink y p v = (w.relink y p v).map (withBytes bytes m) := by
  cases y with
  | none => rfl
  | some x =>
    rw [relink, relink, right_withBytes, setRight_withBytes, setLeft_withBytes]
    split <;> rfl

theorem attach_withBytes (w : Window) (p : Pos) (x : Node) (b : Bool) :
    (withBytes bytes m w).attach p x b = (w.attach p x b).map (withBytes bytes m) := by
  rw [attach, attach, setRight_withBytes, setLeft_withBytes]
  cases b with
  | true => rfl
  | false => cases w.setLeft x (some p) <;> rfl

theorem inherit_withBytes (w : Window) (p q : Pos) :
    (withBytes bytes m w).inherit p q = withBytes bytes m (w.inherit p q) := by
  simp only [inherit, rson_setDad]
  dsimp only [withBytes]
  generalize (w.lson.set q (w.lson.get p)).get p = l
  generalize (w.rson.set q (w.rson.get p)).get p = r
  cases l <;> cases r <;> rfl

theorem replace_withBytes (w : Window) (p q : Pos) :
    (withBytes bytes m w).replace p q = (w.replace p q).map (withBytes bytes m) := by
  rw [replace_eq, replace_eq, inherit_withBytes]
  show ((withBytes bytes m (w.inherit p q)).relink ((w.inherit p q).dad.get p) p (some q)).map _ = _
  rw [relink_withBytes]
  cases (w.inherit p q).relink ((w.inherit p q).dad.get p) p (some q) <;> rfl

theorem link_withBytes (w : Window) (p : Pos) (e : Ending) :
    (withBytes bytes m w).link p e = (w.link p e).map (withBytes bytes m) := by
  cases e with
  | empty x b => exact attach_withBytes w p x b
  | full q => exact replace_withBytes w q p

/-- Insertion leaves the window's bytes, whatever the links are (R216). -/
theorem win_insert (h : w.insert p = .ok w') : w'.win = w.win := by
  obtain ⟨-, e, m, -, hw'⟩ := insert_eq_ok_iff.1 h
  have := withBytes_of_commutes (f := fun w => w.link p e) (fun w _ _ => link_withBytes w p e) hw'
  exact (congrArg Window.win this).symm

theorem win_find (h : w.find p = .ok w') : w'.win = w.win := by
  obtain ⟨-, e, m, -, rfl⟩ := find_eq_ok_iff.1 h
  rfl

/-! ### Deletion (R219 to R221) -/

theorem unlink_withBytes (w : Window) (p : Pos) (v : Option Pos) :
    (withBytes bytes m w).unlink p v = (w.unlink p v).map (withBytes bytes m) := by
  have hset : (withBytes bytes m w).setDad v ((withBytes bytes m w).dad.get p) =
      withBytes bytes m (w.setDad v (w.dad.get p)) := setDad_withBytes ..
  rw [unlink, unlink, hset, relink_withBytes]
  show (Option.map _ ((w.setDad v (w.dad.get p)).relink ((w.setDad v (w.dad.get p)).dad.get p) p v)).map _ = _
  cases (w.setDad v (w.dad.get p)).relink ((w.setDad v (w.dad.get p)).dad.get p) p v <;> rfl

theorem adopt_withBytes (w : Window) (c : Bool) (q : Pos) (v : Option Pos) :
    (withBytes bytes m w).adopt c q v = withBytes bytes m (w.adopt c q v) := by
  rw [adopt, adopt, ← setDad_withBytes]
  cases c <;> rfl

theorem take_withBytes (w : Window) (c : Bool) (q p : Pos) :
    (withBytes bytes m w).take c q p = withBytes bytes m (w.take c q p) := by
  rw [take, child_withBytes, adopt_withBytes, take]

theorem vacate_withBytes (w : Window) (s : Bool) (q d : Pos) :
    (withBytes bytes m w).vacate s q d = withBytes bytes m (w.vacate s q d) := by
  rw [vacate, child_withBytes, adopt_withBytes, vacate]

theorem outermost_withBytes (w : Window) (c : Bool) (n : Nat) (q : Pos) :
    (withBytes bytes m w).outermost c n q = w.outermost c n q := by
  induction n generalizing q with
  | zero => rfl
  | succ n ih => simp only [outermost, child_withBytes, ih]

theorem promote_withBytes (w : Window) (s : Bool) (p r : Pos) :
    (withBytes bytes m w).promote s p r = (w.promote s p r).map fun h => (h.1, withBytes bytes m h.2) := by
  unfold promote takeOutermost
  simp only [child_withBytes, outermost_withBytes, vacate_withBytes, take_withBytes]
  split
  · cases w.outermost (!s) 4097 r with
    | none => rfl
    | some q =>
      show Option.map _ (((w.dadPos q).map _)) = _
      rw [Option.bind_some]
      cases w.dadPos q <;> simp [take_withBytes]
  · simp [take_withBytes]

theorem substitute_withBytes (w : Window) (mode : DelMode) (p : Pos) :
    (withBytes bytes m w).substitute mode p = (w.substitute mode p).map fun h => (h.1, withBytes bytes m h.2) := by
  have both {r l : Pos} (hr : w.child (sideOf mode) (.pos p) = some r) (hl : w.child (!sideOf mode) (.pos p) = some l) :
      (withBytes bytes m w).substitute mode p = (w.substitute mode p).map fun h => (h.1, withBytes bytes m h.2) := by
    rw [substitute_both hr hl, substitute_both ((child_withBytes ..).trans hr) ((child_withBytes ..).trans hl),
      promote_withBytes, Option.map_map, Option.map_map]
    rfl
  cases hr : w.rson.get p with
  | none =>
    rw [substitute_noRight hr, substitute_noRight (w := withBytes bytes m w) hr]
    rfl
  | some r =>
    cases hl : w.lson.get p with
    | none =>
      rw [substitute_noLeft hl hr, substitute_noLeft (w := withBytes bytes m w) hl hr]
      rfl
    | some l =>
      cases mode with
      | succ => exact both hr hl
      | pred => exact both hl hr

theorem deleteIndexed_withBytes (w : Window) (mode : DelMode) (p : Pos) :
    (withBytes bytes m w).deleteIndexed mode p = (w.deleteIndexed mode p).map (withBytes bytes m) := by
  rw [deleteIndexed_eq, deleteIndexed_eq, substitute_withBytes]
  rcases w.substitute mode p with _ | ⟨v, u⟩
  · rfl
  · exact unlink_withBytes u p v

/-- Deletion does the same to the links whatever bytes and match result stand beside them (R220). -/
theorem delete_withBytes (h : w.delete mode p = .ok w') (bytes : Table Byte 4096) (m : BitVec 6 × BitVec 12) :
    (withBytes bytes m w).delete mode p = .ok (withBytes bytes m w') := by
  unfold delete at h ⊢
  show (if w.indexed p then _ else _) = _
  split at h
  · next hp =>
    rw [if_pos hp, deleteIndexed_withBytes]
    cases hd : w.deleteIndexed mode p with
    | none =>
      rw [hd] at h
      cases h
    | some u =>
      rw [hd] at h
      cases h
      rfl
  · next hp =>
    cases h
    rw [if_neg hp]

/-- Deletion leaves bytes and match result (R219). -/
theorem withBytes_of_delete (h : w.delete mode p = .ok w') : withBytes w.win w.matchResult w' = w' :=
  (Except.ok.inj (h.symm.trans (delete_withBytes h w.win w.matchResult))).symm

end Sys2Proof.Machine.Window
end

section
/-! SUPPORT. `Delete` and `WIN_DELETE` (42_window.md R219 to R221, R234), and what insertion and deletion keep of the match
index (R210, R212). -/

namespace Sys2Proof.Machine

namespace Window

variable {w w' : Window} {p q z : Pos} {x : Node} {mode : DelMode}

theorem delete_of_not_indexed (hp : w.indexed p = false) : w.delete mode p = .ok w := by
  rw [delete, if_neg (Bool.eq_false_iff.1 hp)]

/-- Deletion of a position in the index completes on linked windows (R219). -/
theorem Linked.delete_spec (hl : w.Linked) (mode : DelMode) (hd : w.dad.get p = some x) :
    ∃ b v w', w.delete mode p = .ok w' ∧ w.child b x = some p ∧ w.Removal mode p b x v w' := by
  obtain ⟨b, hb⟩ := hl.exists_child_of_dad hd
  obtain ⟨v, w', hw', h⟩ := hl.exists_removal mode hd hb
  exact ⟨b, v, w', by rw [delete, if_pos (indexed_of_dad hd), hw'], hb, h⟩

theorem win_delete (h : w.delete mode p = .ok w') : w'.win = w.win :=
  (congrArg Window.win (withBytes_of_delete h)).symm

/-- A deletion that has ended well left the window, or removed a position from the index. -/
theorem Linked.delete_cases (hl : w.Linked) (h : w.delete mode p = .ok w') :
    (w.indexed p = false ∧ w' = w) ∨
      ∃ x b v, w.dad.get p = some x ∧ w.child b x = some p ∧ w.Removal mode p b x v w' := by
  cases hp : w.indexed p with
  | false => exact .inl ⟨rfl, (Except.ok.inj ((delete_of_not_indexed hp).symm.trans h)).symm⟩
  | true =>
    obtain ⟨x, hd⟩ := indexed_iff.1 hp
    obtain ⟨b, v, u, hu, hb, hr⟩ := hl.delete_spec mode hd
    obtain rfl := Except.ok.inj (hu.symm.trans h)
    exact .inr ⟨x, b, v, hd, hb, hr⟩

/-- Deletion completes on linked windows. -/
theorem Linked.exists_delete (hl : w.Linked) (mode : DelMode) (p : Pos) : ∃ w', w.delete mode p = .ok w' := by
  cases hp : w.indexed p with
  | false => exact ⟨w, delete_of_not_indexed hp⟩
  | true =>
    obtain ⟨x, hd⟩ := indexed_iff.1 hp
    obtain ⟨-, -, w', hw', -⟩ := hl.delete_spec mode hd
    exact ⟨w', hw'⟩

/-- Deletion keeps the links a set of trees (R210). -/
theorem Linked.delete (hl : w.Linked) (h : w.delete mode p = .ok w') : w'.Linked := by
  rcases hl.delete_cases h with ⟨-, rfl⟩ | ⟨x, b, v, hd, hb, hr⟩
  · exact hl
  · exact hr.linked hl hd hb

/-- Deletion takes the position out of the index, and no other. -/
theorem Linked.indexed_delete (hl : w.Linked) (h : w.delete mode p = .ok w') (z : Pos) :
    w'.indexed z = true ↔ z ≠ p ∧ w.indexed z = true := by
  rcases hl.delete_cases h with ⟨hp, rfl⟩ | ⟨x, b, v, hd, hb, hr⟩
  · exact ⟨fun hz => ⟨ne_of_indexed hz hp, hz⟩, And.right⟩
  · exact hr.indexed hl hd hb

/-- Deletion keeps search trees (R212). -/
theorem Sorted.delete (ho : w.Sorted) (hl : w.Linked) (h : w.delete mode p = .ok w') : w'.Sorted := by
  rcases hl.delete_cases h with ⟨-, rfl⟩ | ⟨x, b, v, hd, hb, hr⟩
  · exact ho
  · exact hr.sorted hl hd hb ho

end Window

/-- Settles O28: `Delete` commutes with any change of the bytes and of the match result. -/
theorem deleteReadsNoByte : Obligations.DeleteReadsNoByte := by
  intro m w w' p bytes ml mp h
  have hw := Window.withBytes_of_delete h
  exact ⟨(congrArg Window.win hw).symm, (congrArg Window.ml hw).symm, (congrArg Window.mp hw).symm,
    Window.delete_withBytes h bytes (ml, mp)⟩

/-- Settles O29: a search tree stays one when a key is attached where it fits, when a position takes the place of one with
the same key, when a node leaves to its only child, and when the heir of a deleted position takes its place. -/
theorem searchOrderKept : Obligations.SearchOrderKept := fun _ _ hl ho =>
  ⟨fun _ h => (ho.sorted.insert hl h).ordered, fun _ _ h => (ho.sorted.delete hl h).ordered⟩

theorem exec_winDelete {x : BitVec 16} (s : State) (h : x.toNat < 4096) :
    exec (.winDelete x) s = command (deletePos ⟨x.toNat, h⟩) s :=
  congrArg (command · s) (indexBelow_bind_of_lt h)

/-- Settles O27: a position with at most one child leaves its place to it, and one with two children to its heir. -/
theorem winDeleteRemovesPosition : Obligations.WinDeleteRemovesPosition := by
  intro s x he h hl
  obtain ⟨w', hw'⟩ := hl.exists_delete s.params.delMode ⟨x.toNat, h⟩
  have hrun : deletePos ⟨x.toNat, h⟩ s = .ok () { s with win := w' } := by rw [deletePos, onWindow, hw']
  have hindexed := hl.indexed_delete hw'
  refine ⟨{ s with win := w' }, ?exec, ?frame, hl.delete hw', ?gone, fun q hq => ?others, fun hp => ?absent,
    fun y hy => ?links⟩
  case exec => rw [exec_winDelete s h, command_run he, runProcedure_ok hrun]
  case frame => exact congrArg (fun w => { s with win := w }) (Window.withBytes_of_delete hw').symm
  case gone => exact Bool.eq_false_iff.2 fun hp => ((hindexed _).1 hp).1 rfl
  case others =>
    exact Bool.eq_iff_iff.2 ((hindexed q).trans (and_iff_right fun hqp => hq (congrArg Fin.val hqp)))
  case absent =>
    obtain rfl := Except.ok.inj (hw'.symm.trans (Window.delete_of_not_indexed hp))
    rfl
  case links =>
    obtain ⟨b, v, u, hu, hb, hr⟩ := hl.delete_spec s.params.delMode hy
    obtain rfl := Except.ok.inj (hw'.symm.trans hu)
    exact ⟨v, hr.replacement, hr.deleted hl hy hb⟩

end Sys2Proof.Machine
end

section
/-! SUPPORT. Every step keeps a sound state sound (10_state.md, R210, R259): each elementary write does. -/

namespace Sys2Proof.Machine

theorem HufTree.Sound.write {t t' : HufTree} (h : t.Sound) (hw : t.Write t') : t'.Sound := by
  cases hw with
  | initial => exact initial_sound
  | update y _ hu =>
    obtain ⟨u, hu', hs, -⟩ := update_sound h y
    exact Option.some.inj (hu'.symm.trans hu) ▸ hs
  | rescale => exact (rescale_sound h).1

theorem Window.Linked.write {mode : DelMode} {w w' : Window} (h : w.Linked) (hw : w.Write mode w') : w'.Linked := by
  cases hw with
  | initial fill => exact (initial_empty fill).linked
  | byte p b => exact h.congr rfl fun c x _ => by cases c <;> cases x <;> rfl
  | insert p _ hi => exact h.insert hi
  | find p _ hf =>
    obtain ⟨-, e, m, -, rfl⟩ := find_eq_ok_iff.1 hf
    exact h.congr rfl fun c x _ => by cases c <;> cases x <;> rfl
  | delete p _ hd => exact h.delete hd

/-- Each elementary write keeps the tree sound and the links a set of trees. -/
theorem State.Sound.write {s t : State} (h : s.Sound) (hw : s.Write t) : t.Sound := by
  obtain ⟨htree, hindex⟩ := h
  cases hw with
  | window w hw => exact ⟨htree, hindex.write hw⟩
  | tree t ht => exact ⟨htree.write ht, hindex⟩
  | reset k => exact ⟨HufTree.initial_sound, (Window.initial_empty _).linked⟩
  | results | reader | position | output | lzw | error | clearError | pending | seen | opt | inLen | inOffset | outOffset
    | maxExpanded | inBytes => exact ⟨htree, hindex⟩

/-- Settles O58: a step is a run of elementary writes, each of which keeps the state sound. -/
theorem everyStepKeepsSound : Obligations.EveryStepKeepsSound :=
  fun _ _ hs h => (step_writes h).keeps (fun _ _ hw hs => hs.write hw) hs

end Sys2Proof.Machine
end

section
/-! SUPPORT. What the window commands leave alone (42_window.md R230 to R235). -/

namespace Sys2Proof.Machine

/-- The parts of the window commands. -/
def windowParts : Parts := { res0 := true, res1 := true, win := true }

theorem frame_of_windowParts {i : Instr} {s t : State} (h : exec i s = .next t)
    (hg : exec i s = command (procedure i) s) (hp : (partsOf i).Within windowParts) :
    t = { s with err := t.err, res0 := t.res0, res1 := t.res1, win := t.win, out := t.out } ∧
      t.out.mem = s.out.mem ∧ (t.err = s.err → t.out = s.out) := by
  obtain ⟨u, err, out, hu, rfl, hmem, hout⟩ := exec_changes h hg
  have hu := hu.mono hp
  have heq := hu.eq
  rw [hu.rd.resolve_left nofun, hu.huf.resolve_left nofun, hu.lzw.resolve_left nofun,
    hu.r.resolve_left nofun] at heq
  rw [hu.out.resolve_left nofun] at hmem hout
  exact ⟨congrArg (fun v : State => { v with err := err, out := out }) heq, hmem, hout⟩

/-- A command with the window as its only part leaves the result registers. -/
theorem results_of_parts {i : Instr} {s t : State} (h : exec i s = .next t) (hg : exec i s = command (procedure i) s)
    (h0 : (partsOf i).res0 = false) (h1 : (partsOf i).res1 = false) : t.res0 = s.res0 ∧ t.res1 = s.res1 := by
  obtain ⟨u, err, out, hu, rfl, -, -⟩ := exec_changes h hg
  exact ⟨hu.res0.resolve_left (Bool.eq_false_iff.1 h0), hu.res1.resolve_left (Bool.eq_false_iff.1 h1)⟩

/-- What the procedure behind a position keeps of the window, the command keeps. -/
theorem win_of_command {s t : State} {x : BitVec 16} {m : Pos → Engine State Unit} {R : Window → Prop}
    (h : command (position x >>= m) s = .next t) (hs : R s.win)
    (hm : ∀ p, (m p).Ends s (fun _ t => R t.win) fun _ t => R t.win) : R t.win := by
  refine command_next (P := fun t => R t.win) h (fun _ => hs) fun _ => ?_
  rw [Engine.ends_bind, position, indexBelow]
  split
  · exact (hm _).mono (fun _ _ h => h) fun _ _ h _ _ => h
  · exact fun _ _ => hs

/-- A procedure over the window keeps what its result keeps. -/
theorem ends_onWindow {s : State} {f : Window → Except Stop Window} {R : Window → Prop} (hs : R s.win)
    (hf : ∀ w', f s.win = .ok w' → R w') : (onWindow f).Ends s (fun _ t => R t.win) fun _ t => R t.win := by
  unfold Engine.Ends onWindow
  cases h : f s.win with
  | ok w' => exact hf w' h
  | error e => exact hs

theorem ends_onWindow_report {s : State} {f : Window → Except Stop Window} {R : Window → Prop} (hs : R s.win)
    (hf : ∀ w', f s.win = .ok w' → R w') :
    (onWindow f >>= fun _ => reportMatch).Ends s (fun _ t => R t.win) fun _ t => R t.win := by
  rw [Engine.ends_bind]
  exact ends_onWindow hs hf

/-- Settles O17: each of these commands has only result registers and the window as parts; a deletion leaves the match
result, and only `WIN_INIT` and `WIN_WR` write a byte. -/
theorem frameWindowCommands : Obligations.FrameWindowCommands := by
  intro x b s t h
  have frame : t = { s with err := t.err, res0 := t.res0, res1 := t.res1, win := t.win, out := t.out } ∧
      t.out.mem = s.out.mem ∧ (t.err = s.err → t.out = s.out) := by
    rcases h with h | h | h | h | h <;>
      exact frame_of_windowParts h rfl (by constructor <;> simp [partsOf, windowParts])
  obtain ⟨hframe, hmem, hout⟩ := frame
  refine ⟨hframe, hmem, hout, fun h => ?results, fun h => ?bytes⟩
  case results =>
    have hmatch : t.win.matchResult = s.win.matchResult := by
      rcases h with h | h
      · exact win_of_command (R := fun w => w.matchResult = s.win.matchResult) h rfl fun p =>
          ends_onWindow (R := fun w => w.matchResult = s.win.matchResult) (f := fun w => w.delete s.params.delMode p) rfl
            fun w' => Window.matchResult_delete
      · exact win_of_command (R := fun w => w.matchResult = s.win.matchResult) h rfl fun p => rfl
    have hres : t.res0 = s.res0 ∧ t.res1 = s.res1 := by
      rcases h with h | h <;> exact results_of_parts h rfl rfl rfl
    exact ⟨hres.1, hres.2, congrArg Prod.fst hmatch, congrArg Prod.snd hmatch⟩
  case bytes =>
    rcases h with h | h | h
    · exact win_of_command (R := fun w => w.win = s.win.win) h rfl fun p =>
        ends_onWindow_report (R := fun w => w.win = s.win.win) (f := fun w => w.insert p) rfl fun w' => Window.win_insert
    · exact win_of_command (R := fun w => w.win = s.win.win) h rfl fun p =>
        ends_onWindow (R := fun w => w.win = s.win.win) (f := fun w => w.delete s.params.delMode p) rfl fun w' =>
          Window.win_delete
    · exact win_of_command (R := fun w => w.win = s.win.win) h rfl fun p =>
        ends_onWindow_report (R := fun w => w.win = s.win.win) (f := fun w => w.find p) rfl fun w' => Window.win_find

end Sys2Proof.Machine
end

section
/-! SUPPORT. Decoding a codeword and a distance (43_huffman.md R256, R262; 30_encoding.md R130): the walk down a sound
tree reads exactly the codeword of the leaf it ends at, and the table method reads what `DecodePos` reads. -/

namespace Sys2Proof.Machine

/-! ### The walk down the tree (R256) -/

theorem Input.bits_succ (i : Input) (k n : Nat) : i.bits k (n + 1) = i.bit k :: i.bits (k + 1) n := by
  rw [Nat.add_comm n 1, Input.bits_add]
  rfl

/-- Where the cursor goes does not depend on the value read before. -/
theorem Reader.getBitsFrom_reader (i : Input) (n v : Nat) (r : Reader) :
    (getBitsFrom i n v r).2 = (r.getBits i n).2 := by
  rw [(getBitsFrom_eq ..).1, getBits_reader]

/-- The first bit of several is read by `GetBit`, the others after it (R183). -/
theorem Reader.getBits_succ_reader (i : Input) (n : Nat) (r : Reader) :
    (r.getBits i (n + 1)).2 = ((r.getBit i).2.getBits i n).2 := by
  rw [getBits, getBitsFrom, getBitsFrom_reader]

namespace HufTree

variable {t : HufTree}

/-- The walk from a slot of a sound tree ends, at the symbol to which the bits it has read lead; from an internal node
it reads at least one bit. -/
theorem Sound.descend_eq (ht : t.Sound) (i : Input) {fuel : Nat} {s : Slot} (hfuel : s.val ≤ fuel) (r : Reader) :
    ∃ y n, t.walk s (i.bits r.pos n) = some y ∧ t.descend i fuel (t.son.get s) r = some (y, (r.getBits i n).2) ∧
      ((∃ c, t.son.get s = .node c) → 0 < n) := by
  induction fuel generalizing s r with
  | zero =>
    cases hson : t.son.get s with
    | leaf y => exact ⟨y, 0, by simp [Input.bits, walk, hson], rfl, nofun⟩
    | node c => have := ht.lower s c hson; omega
  | succ fuel ih =>
    cases hson : t.son.get s with
    | leaf y => exact ⟨y, 0, by simp [Input.bits, walk, hson], rfl, nofun⟩
    | node c =>
      have hlower := ht.lower s c hson
      have hchild : (if (r.getBit i).1 then c.succ else c.castSucc).val ≤ fuel := by
        split <;> simp only [Fin.val_succ, Fin.val_castSucc] <;> omega
      obtain ⟨y, n, hwalk, hdescend, -⟩ := ih hchild (r.getBit i).2
      refine ⟨y, n + 1, ?_, ?_, fun _ => n.succ_pos⟩
      · rw [Input.bits_succ, walk, hson]
        rwa [Reader.getBit_eq] at hwalk
      · rw [Reader.getBits_succ_reader, ← hdescend]
        rfl

/-- The root is an internal node (R252). -/
theorem Sound.root_node (ht : t.Sound) : ∃ c, t.son.get 628 = .node c := by
  cases hson : t.son.get 628 with
  | leaf y => exact absurd (ht.leafSon _ _ hson) (ht.leaf_ne_root y)
  | node c => exact ⟨c, rfl⟩

/-- `HufDecode` on a sound tree (R256) reads the codeword of a symbol, which has at least one bit. -/
theorem Sound.decode_eq (ht : t.Sound) (i : Input) (r : Reader) :
    ∃ y n, 0 < n ∧ t.walk 628 (i.bits r.pos n) = some y ∧ t.decode i r = some (y, (r.getBits i n).2) := by
  obtain ⟨y, n, hwalk, hdecode, hn⟩ := ht.descend_eq i (fuel := 629) (s := 628) (by decide) r
  exact ⟨y, n, hn ht.root_node, hwalk, hdecode⟩

end HufTree

theorem ends_hufDecode {s : State} {Q : Sym → State → Prop} {E : Stop → State → Prop} {y : Sym} {r : Reader}
    (h : s.huf.decode s.inp s.rd = some (y, r)) : hufDecode.Ends s Q E ↔ Q y { s with rd := r } :=
  Engine.ends_of_ok (by simp [hufDecode, h])

/-- Settles O32: the walk down a sound tree ends at a leaf, and the bits it reads lead there. -/
theorem hufDecReadsCodeword : Obligations.HufDecReadsCodeword := by
  intro s he hs
  obtain ⟨y, n, -, hwalk, hdecode⟩ := hs.decode_eq s.inp s.rd
  have hends : hufDecProc.Ends s
      (fun _ t => t = { s with res0 := BitVec.ofNat 32 y.val, rd := (s.rd.getBits s.inp n).2 }) fun _ _ => False := by
    rw [hufDecProc, Engine.ends_bind, ends_hufDecode hdecode, ends_setRes0]
  obtain ⟨t, hexec, rfl⟩ := command_completes he hends
  exact ⟨_, y, n, hexec, rfl, Nat.mod_eq_of_lt (by omega), hwalk, by rw [Reader.getBits_reader],
    by rw [Reader.getBits_reader]⟩

/-! ### The table method (R130) -/

/-- The bytes that begin with the prefix codeword of `u` are those from `p_code` on, and `d_code` has `u` for each. -/
theorem dCode_pCode_add : ∀ u < 64, pCode u = pCodeword u * 2 ^ (8 - pLen u) ∧
    ∀ w < 2 ^ (8 - pLen u), pCode u + w < 2 ^ 8 ∧ dCode (pCode u + w) = u := by
  decide

/-- Every byte that begins with the prefix codeword of `u` has `u` in `d_code` and its length in `d_len` (R130). -/
theorem dCode_of_prefix {u v : Nat} (hu : u < 64) (h : v / 2 ^ (8 - pLen u) = pCodeword u) :
    dCode v = u ∧ dLen v = pLen u := by
  obtain ⟨hcode, hbytes⟩ := dCode_pCode_add u hu
  obtain ⟨hlt, hdCode⟩ := hbytes (v % 2 ^ (8 - pLen u)) (Nat.mod_lt _ (Nat.two_pow_pos _))
  rw [hcode, ← h, Nat.div_add_mod'] at hlt hdCode
  exact ⟨hdCode, by rw [← (dCode_spec hlt).2.1, hdCode]⟩

namespace Reader

theorem getBitsFrom_add (i : Input) (m n v : Nat) (r : Reader) :
    getBitsFrom i (m + n) v r = getBitsFrom i n (getBitsFrom i m v r).1 (getBitsFrom i m v r).2 := by
  induction m generalizing v r with
  | zero => rw [Nat.zero_add]; rfl
  | succ m ih => rw [Nat.succ_add]; exact ih _ _

theorem getBitsFrom_value (i : Input) (n v : Nat) (r : Reader) :
    (getBitsFrom i n v r).1 = v * 2 ^ n + (getBitsFrom i n 0 r).1 := by
  induction n generalizing v r with
  | zero => simp [getBitsFrom]
  | succ n ih =>
    have hpush (b : Bool) : pushBit v b = 2 * v + pushBit 0 b := by simp [pushBit]
    rw [getBitsFrom, ih, getBitsFrom, ih (pushBit 0 _), hpush, Nat.add_mul, Nat.add_assoc,
      Nat.mul_comm 2 v, Nat.mul_assoc, ← Nat.pow_succ']

/-- Bits read in two parts: the first part gives the high bits of the value, the second the low ones (R183). -/
theorem getBits_add (i : Input) (m n : Nat) (r : Reader) :
    (r.getBits i (m + n)).1 = (r.getBits i m).1 * 2 ^ n + ((r.getBits i m).2.getBits i n).1 ∧
      (r.getBits i (m + n)).2 = ((r.getBits i m).2.getBits i n).2 := by
  rw [getBits, getBitsFrom_add, getBitsFrom_value]
  exact ⟨rfl, getBitsFrom_reader ..⟩

end Reader

/-- Settles O38: the 8 bits peeked begin with the prefix codeword that `DecodePos` reads, so the tables name it. -/
theorem decodePosByTable : Obligations.DecodePosByTable := by
  intro i r
  obtain ⟨u, hu, hcode, hread⟩ := r.decodePos_by_getBits i
  obtain ⟨-, hlen⟩ := pLen_bounds u
  have hpeek : (r.getBits i 8).1 / 2 ^ (8 - pLen u) = pCodeword u := by
    obtain ⟨h, -⟩ := Reader.getBits_add i (pLen u) (8 - pLen u) r
    have hlt := Reader.getBits_lt i (8 - pLen u) (r.getBits i (pLen u)).2
    rw [Nat.add_sub_cancel' hlen] at h
    rw [h, hcode, Nat.mul_comm, Nat.mul_add_div (Nat.two_pow_pos _), Nat.div_eq_of_lt hlt, Nat.add_zero]
  obtain ⟨hdCode, hdLen⟩ := dCode_of_prefix hu hpeek
  obtain ⟨hvalue, hreader⟩ := Reader.getBits_add i (pLen u) 6 r
  have hlow := Reader.getBits_lt i 6 (r.getBits i (pLen u)).2
  rw [hread, Reader.decodePosByTable, hdCode, hdLen, hvalue, hreader,
    show 64 = 2 ^ 6 from rfl, Nat.mul_add_mod_self_right, Nat.mod_eq_of_lt hlow]

end Sys2Proof.Machine
end

section
/-! SUPPORT. What `HUF_UPD` and `HUF_RESCALE` do to a sound tree (43_huffman.md R254, R257 to R259): the first pass of
`HufUpdate` exchanges the leaf with the last slot of its frequency, and the later passes touch no slot below it. -/

namespace Sys2Proof.Machine

namespace HufTree

variable {t t' : HufTree} {c : Slot}

theorem freq_root (t : HufTree) : (t.freq.get 628).toNat = t.F 628 := (t.F_val 628).symm

/-! ### One pass of `HufUpdate` (R254) -/

/-- The tree in which slot `c` counts one more. -/
def increment (t : HufTree) (c : Slot) : HufTree := { t with freq := t.freq.set c (t.freq.get c + 1) }

theorem increment_F {n : Nat} (hn : n < 629) (hne : n ≠ c.val) : (t.increment c).F n = t.F n := by
  rw [F, F, increment, Table.get_set, if_neg fun h => hne (by rw [← h, slot_val hn])]

/-- A pass leaves the node in its slot, or exchanges it with the last slot of its run. -/
theorem bump_eq (t : HufTree) (c : Slot) : t.bump c =
    if c.val < 628 ∧ (t.increment c).F (c.val + 1) < (t.freq.get c + 1).toNat then
      ((t.increment c).exchange c ((t.increment c).lastBelow (t.freq.get c + 1).toNat (628 - (c.val + 1)))
        (t.freq.get c + 1), (t.increment c).lastBelow (t.freq.get c + 1).toNat (628 - (c.val + 1)))
    else (t.increment c, c) := rfl

theorem bump_son (t : HufTree) (c s : Slot) : (t.bump c).1.son.get s =
    if s = c then t.son.get (t.bump c).2 else if s = (t.bump c).2 then t.son.get c else t.son.get s := by
  rw [bump_eq]
  split
  · exact exchange_son ..
  · show t.son.get s = if s = c then t.son.get c else if s = c then t.son.get c else t.son.get s
    split
    · next h => rw [h]
    · rfl

/-- The slot a pass moves the node to is the last one of the node's old frequency. -/
theorem Pending.bump_slot (h : t.Pending c) :
    t.F (t.bump c).2.val = t.F c.val ∧ ∀ n, (t.bump c).2.val < n → n < 629 → t.F c.val < t.F n := by
  have hc := c.isLt
  have hk : (t.freq.get c + 1).toNat = t.F c.val + 1 := by
    have hroot := h.rootFreq
    have hsorted := h.sorted c.val 628 (by omega) (by omega)
    rw [F_val] at hsorted ⊢
    bv_omega
  rw [bump_eq, hk]
  split
  · next hcond =>
    obtain ⟨hlow, hrun, hnext⟩ := lastBelow_spec (t.increment c) (t.F c.val + 1) (628 - (c.val + 1)) (by omega)
    generalize (t.increment c).lastBelow (t.F c.val + 1) (628 - (c.val + 1)) = l at *
    have hl := l.isLt
    dsimp only
    have hlt : (t.increment c).F l.val < t.F c.val + 1 := by
      by_cases e : l.val = c.val + 1
      · rw [e]; exact hcond.2
      · exact hrun l.val (by omega) (Nat.le_refl _)
    rw [increment_F hl (by omega)] at hlt
    refine ⟨Nat.le_antisymm (by omega) (h.sorted _ _ (by omega) hl), fun n hn hn' => ?_⟩
    have hstep := hnext (by omega)
    rw [increment_F (by omega) (by omega)] at hstep
    exact hstep.trans (h.sorted _ _ hn hn')
  · next hcond =>
    refine ⟨rfl, fun n hn hn' => ?_⟩
    dsimp only at hn
    rw [increment_F (by omega) (by omega)] at hcond
    have hstep : t.F c.val < t.F (c.val + 1) := by omega
    exact hstep.trans_le (h.sorted _ _ hn hn')

/-! ### The passes after it -/

/-- The loop of `HufUpdate` from slot `c` up touches no slot below `c`. -/
theorem Pending.bumpUp_son {n : Nat} (h : t.Pending c) (ht : bumpUp n t c = some t') {s : Slot}
    (hs : s.val < c.val) :
    t'.son.get s = t.son.get s := by
  induction n generalizing t c with
  | zero => cases ht
  | succ n ih =>
    have hpass := bump_passed h
    have habove := hpass.above
    have hson : (t.bump c).1.son.get s = t.son.get s := by
      rw [bump_son, if_neg (Fin.ne_of_lt hs), if_neg (Fin.ne_of_lt (hs.trans_le habove))]
    rw [bumpUp] at ht
    split at ht
    · cases ht; exact hson
    · next hroot =>
      obtain ⟨hpending, hlt, -⟩ := hpass.pending hroot
      rw [ih hpending ht (by omega), hson]

/-- `HufUpdate` without a rescale moves the symbol's leaf to the last slot of its old frequency, and what was there to
the leaf's old slot. -/
theorem Sound.update_exchange (ht : t.Sound) (hroot : t.F 628 < 0x8000) {y : Sym} (h : t.update y = some t') :
    t.F (t'.leaf.get y).val = t.F (t.leaf.get y).val ∧
      (∀ n, (t'.leaf.get y).val < n → n < 629 → t.F (t.leaf.get y).val < t.F n) ∧
      t'.son.get (t.leaf.get y) = t.son.get (t'.leaf.get y) := by
  obtain ⟨u, hu, hsound, -⟩ := update_sound ht y
  obtain rfl : u = t' := Option.some.inj (hu.symm.trans h)
  have hpending := ht.pending hroot y
  obtain ⟨hrun, hlast⟩ := hpending.bump_slot
  have hpass := bump_passed hpending
  have habove := hpass.above
  rw [update, freq_root, if_neg (by omega), bumpUp] at h
  have hson := t.bump_son (t.leaf.get y)
  generalize hb : t.bump (t.leaf.get y) = b at *
  have hkept (s : Slot) (hs : s.val ≤ b.2.val) : u.son.get s = b.1.son.get s := by
    split at h
    · cases h; rfl
    · next hne =>
      obtain ⟨hnext, hlt, -⟩ := hpass.pending hne
      exact hnext.bumpUp_son h (by omega)
  have hmoved : b.1.son.get b.2 = .leaf y := by
    rw [hson]
    split
    · next e => rw [e, ht.leafOf]
    · rw [if_pos rfl, ht.leafOf]
  have hleaf : u.leaf.get y = b.2 := hsound.leafSon _ _ ((hkept _ (Nat.le_refl _)).trans hmoved)
  rw [hleaf]
  exact ⟨hrun, hlast, by rw [hkept _ habove, hson, if_pos rfl]⟩

end HufTree

/-- Settles O35: the initial tree, an update and a rescale, each on its own. -/
theorem treeInvariantsHold : Obligations.TreeInvariantsHold :=
  ⟨HufTree.initial_sound, fun _ ht => ⟨(HufTree.rescale_sound ht).1, fun y =>
    let ⟨t', hupdate, hsound, _⟩ := HufTree.update_sound ht y
    ⟨t', hupdate, hsound⟩⟩⟩

/-- Settles O34: `HUF_RESCALE` runs `Rescale`. -/
theorem hufRescaleHalves : Obligations.HufRescaleHalves := by
  intro s he hs
  obtain ⟨hsound, hweight, horder⟩ := HufTree.rescale_sound hs
  have hends : hufRescaleProc.Ends s (fun _ t => t = { s with huf := s.huf.rescale }) fun _ _ => False := by
    rw [hufRescaleProc, Engine.ends_modify]
  generalize s.huf.rescale = u at *
  obtain ⟨t, hexec, rfl⟩ := command_completes he hends
  exact ⟨_, hexec, rfl, hsound, hweight, horder⟩

theorem ends_hufUpdate {s : State} {Q : Unit → State → Prop} {E : Stop → State → Prop} {y : Sym} {t : HufTree}
    (h : s.huf.update y = some t) : (hufUpdate y).Ends s Q E ↔ Q () { s with huf := t } :=
  Engine.ends_of_ok (by simp [hufUpdate, h])

/-- Settles O33: an update adds one to its symbol, and the exchange of its first pass is the one that moves the leaf. -/
theorem hufUpdAddsOne : Obligations.HufUpdAddsOne := by
  intro s x he hx hs
  obtain ⟨u, hupdate, hsound, hweight⟩ := HufTree.update_sound hs ⟨x.toNat, hx⟩
  have hends : (hufUpdProc x).Ends s (fun _ t => t = { s with huf := u }) fun _ _ => False := by
    rw [hufUpdProc, Engine.ends_bind, symbol, ends_indexBelow hx, ends_hufUpdate hupdate]
  obtain ⟨t, hexec, rfl⟩ := command_completes he hends
  refine ⟨_, hexec, rfl, hsound, fun y => ?_, fun hroot y hy => ?_⟩
  · rw [hweight y, HufTree.freq_root]
    simp only [Fin.ext_iff]
  · obtain rfl : y = ⟨x.toNat, hx⟩ := Fin.ext hy
    rw [HufTree.freq_root] at hroot
    obtain ⟨hrun, hlast, hson⟩ := hs.update_exchange hroot hupdate
    rw [HufTree.F_val, HufTree.F_val] at hrun
    refine ⟨BitVec.eq_of_toNat_eq hrun, fun c hc => Fin.le_def.2 (Nat.le_of_not_lt fun hgt => ?_), hson⟩
    have := hlast c.val hgt c.isLt
    rw [HufTree.F_val, HufTree.F_val, hc] at this
    exact Nat.lt_irrefl _ this

end Sys2Proof.Machine
end

section
/-! SUPPORT. How far the loops of the codec commands are from their end (44_lzss_codec.md R306, R310; 45_lzw.md R361):
each pass comes nearer to it, so none of them passes its bound. -/

namespace Sys2Proof.Machine

/-! ### What holds when a procedure ends without a stop -/

/-- If `m` started in `s` ends with a value, value and state satisfy `Q`; of a stop nothing is said. -/
def Ensures {α : Type} (m : Engine State α) (s : State) (Q : α → State → Prop) : Prop := m.Ends s Q fun _ _ => True

namespace Ensures

variable {α β : Type} {s : State} {Q Q' : α → State → Prop} {R : β → State → Prop} {m : Engine State α}

theorem of_forall (h : ∀ a t, Q a t) : Ensures m s Q := by
  unfold Ensures Engine.Ends
  split
  · exact h _ _
  · trivial

theorem mono (h : Ensures m s Q) (hQ : ∀ a t, Q a t → Q' a t) : Ensures m s Q' :=
  Engine.Ends.mono h hQ fun _ _ _ => trivial

theorem and (h : Ensures m s Q) (h' : Ensures m s Q') : Ensures m s fun a t => Q a t ∧ Q' a t :=
  (Engine.Ends.and h h').mono (fun _ _ h => h) fun _ _ _ => trivial

theorem pure {a : α} (h : Q a s) : Ensures (Pure.pure a) s Q := h

theorem bind {f : α → Engine State β} (hm : Ensures m s Q) (hf : ∀ a t, Q a t → Ensures (f a) t R) :
    Ensures (m >>= f) s R := by
  rw [Ensures, Engine.ends_bind]
  exact Engine.Ends.mono hm hf fun _ _ _ => trivial

/-- A first part of which nothing needs to be known. -/
theorem after {f : α → Engine State β} (hf : ∀ a t, Ensures (f a) t R) : Ensures (m >>= f) s R :=
  bind (Q := fun _ _ => True) (of_forall fun _ _ => trivial) fun a t _ => hf a t

theorem get_bind {f : State → Engine State β} (hf : Ensures (f s) s R) : Ensures (get >>= f) s R := by
  rw [Ensures, Engine.ends_bind, Engine.ends_get]
  exact hf

theorem ite {c : Prop} [Decidable c] {n : Engine State α} (hm : c → Ensures m s Q) (hn : ¬ c → Ensures n s Q) :
    Ensures (if c then m else n) s Q := by
  split
  · exact hm ‹_›
  · exact hn ‹_›

theorem of_bounded {p q : Parts} {E : List ErrCode} (h : Bounded p q E m) (s : State) :
    Ensures m s fun _ t => SameBut p s t := (h s).mono (fun _ _ h => h) fun _ _ _ => trivial

end Ensures

/-! ### Compression (R305, R306) -/

/-- The raw bytes not yet coded: those not yet loaded, and the lookahead. -/
def Encoding.left (c : Encoding) (i : Input) : Nat := i.len.toNat - c.ip + c.len

/-- The errors of the LZSS codec's steps. -/
def lzhErrors : List ErrCode := [.sizeExceeded, .illegalCommand]

theorem slideOne_bounded (c : Encoding) : Bounded Bounded.lzhParts Bounded.lzhParts lzhErrors (slideOne c) :=
  .slideOne rfl (by simp [lzhErrors])

/-- A pass of the slide takes a byte of the lookahead; it loads another one only for it. -/
theorem slideOne_left (s : State) (c : Encoding) : Ensures (slideOne c) s fun c' t =>
    t.inp = s.inp ∧ c'.left s.inp ≤ c.left s.inp ∧ (0 < c.len → c'.left s.inp < c.left s.inp) := by
  have hleft : Ensures (slideOne c) s fun c' _ =>
      c'.left s.inp ≤ c.left s.inp ∧ (0 < c.len → c'.left s.inp < c.left s.inp) := by
    unfold Encoding.left
    refine .bind (.of_bounded (.deletePos (p := Bounded.lzhParts) (q := {}) (E := []) rfl) s) fun _ t ht => .get_bind ?_
    rw [ht.inp]
    exact .ite (fun h => .after fun _ _ => .after fun _ _ => .pure (by dsimp only; omega))
      fun _ => .ite (fun h => .after fun _ _ => .pure (by dsimp only; omega)) fun _ => .pure (by dsimp only; omega)
  exact ((Ensures.of_bounded (slideOne_bounded c) s).and hleft).mono fun _ _ h => ⟨h.1.inp, h.2⟩

theorem slide_left (s : State) (n : Nat) (c : Encoding) : Ensures (slide n c) s fun c' t =>
    t.inp = s.inp ∧ c'.left s.inp ≤ c.left s.inp ∧ (0 < n → 0 < c.len → c'.left s.inp < c.left s.inp) := by
  induction n generalizing s c with
  | zero => exact .pure ⟨rfl, Nat.le_refl _, nofun⟩
  | succ n ih =>
    refine .bind (slideOne_left s c) fun c' t ⟨hinp, hle, hlt⟩ => (ih t c').mono fun c'' u ⟨hinp', hle', _⟩ => ?_
    rw [hinp] at hinp' hle'
    exact ⟨hinp', hle'.trans hle, fun _ h => hle'.trans_lt (hlt h)⟩

/-- Each pass of the coding loop codes a byte (R306). -/
theorem encodeStep_left (s : State) {c : Encoding} (hc : 0 < c.len) :
    Ensures (encodeStep c) s fun c' t => t.inp = s.inp ∧ c'.left s.inp < c.left s.inp := by
  have hslide (t : State) (ht : t.inp = s.inp) {n : Nat} (hn : 0 < n) :
      Ensures (slide n c) t fun c' u => u.inp = s.inp ∧ c'.left s.inp < c.left s.inp :=
    (slide_left t n c).mono fun c' u ⟨hinp, _, hlt⟩ => by rw [ht] at hinp hlt; exact ⟨hinp, hlt hn hc⟩
  have hsymbol (y : Sym) : Ensures (encodeSymbol y) s fun _ t => t.inp = s.inp :=
    (Ensures.of_bounded (.encodeSymbol (p := Bounded.lzhParts) (E := lzhErrors) rfl rfl (by simp [lzhErrors])) s).mono
      fun _ _ h => h.inp
  refine .get_bind (.ite (fun _ => .bind (hsymbol _) fun _ t ht => hslide t ht Nat.one_pos) fun hlong =>
    .bind (hsymbol _) fun _ t ht => .bind (Q := fun _ u => u.inp = s.inp) ?_ fun _ u hu => hslide u hu (by omega))
  exact (Ensures.of_bounded (.putAll (p := Bounded.lzhParts) (q := Bounded.lzhParts) (E := lzhErrors) rfl rfl
    (by simp [lzhErrors])) t).mono fun _ _ h => h.inp.trans ht

theorem loadLookahead_left (s : State) (n : Nat) (c : Encoding) :
    Ensures (loadLookahead n c) s fun c' _ => c'.left s.inp ≤ c.left s.inp := by
  induction n generalizing s c with
  | zero => exact .pure (Nat.le_refl _)
  | succ n ih =>
    refine .get_bind (.ite (fun h => .bind (Q := fun _ t => t.inp = s.inp) rfl fun _ t ht => ?_)
      fun _ => .pure (Nat.le_refl _))
    refine (ih t _).mono fun c' _ hle => ?_
    rw [ht] at hle
    exact hle.trans (by unfold Encoding.left; dsimp only; omega)

/-- The coding loop begins with no more bytes to code than `n_in` of R302 counts. -/
theorem startEncoding_left (s : State) (ip : Nat) :
    Ensures (startEncoding ip) s fun c t => t.inp = s.inp ∧ c.left s.inp ≤ s.inp.len.toNat - ip := by
  have hleft : Ensures (startEncoding ip) s fun c _ => c.left s.inp ≤ s.inp.len.toNat - ip :=
    .bind (Q := fun _ t => t.inp = s.inp) rfl fun _ t ht => .bind (Q := fun _ u => u.inp = s.inp) ht fun _ u hu =>
      .bind (loadLookahead_left u 60 _) fun c _ hc => .after fun _ _ => .after fun _ _ => .pure (hu ▸ hc)
  have hbounded : Bounded Bounded.lzhParts Bounded.lzhParts lzhErrors (startEncoding ip) :=
    .startEncoding rfl rfl (by simp [lzhErrors])
  exact ((Ensures.of_bounded hbounded s).and hleft).mono fun _ _ h => ⟨h.1.inp, h.2⟩

/-! ### Expansion (R310) -/

/-- `n` more passes of the decoding loop suffice: in `Lzhuf` mode for the bytes not yet produced, in `None` mode for the
bits not yet read. -/
def Decoding.Within (c : Decoding) (size : Option Nat) (n : Nat) (s : State) : Prop :=
  match size with
  | some m => c.count ≤ m ∧ m ≤ c.count + n
  | none => 8 * s.inp.len.toNat ≤ s.rd.pos + n

theorem Decoding.Within.start (size : Option Nat) (s : State) (r : Pos) :
    Decoding.Within ⟨r, 0⟩ size (expandBound size s) s := by
  unfold Decoding.Within expandBound
  cases size <;> dsimp only <;> omega

theorem Decoding.Within.done {c : Decoding} {size : Option Nat} {s : State} (h : c.Within size 0 s) :
    expandDone size c s = true := by
  unfold Decoding.Within at h
  unfold expandDone
  cases size <;> simp only [decide_eq_true_eq] at h ⊢ <;> omega

/-- What a pass adds brings the end nearer. -/
theorem Decoding.Within.next {c c' : Decoding} {size : Option Nat} {n : Nat} {s t : State} (h : c.Within size (n + 1) s)
    (hinp : t.inp = s.inp) (hpos : s.rd.pos < t.rd.pos) (hcount : c.count < c'.count)
    (hsize : ∀ m, size = some m → c'.count ≤ m) : c'.Within size n t := by
  unfold Decoding.Within at h ⊢
  cases size with
  | none => rw [hinp]; dsimp only at h ⊢; omega
  | some m => have := hsize m rfl; dsimp only at h ⊢; omega

theorem emitByte_count (s : State) (b : Byte) (c : Decoding) :
    Ensures (emitByte b c) s fun c' _ => c'.count = c.count + 1 := .after fun _ _ => .after fun _ _ => .pure rfl

theorem copyMatch_count (s : State) (n : Nat) (x : Pos) (c : Decoding) :
    Ensures (copyMatch n x c) s fun c' _ => c'.count = c.count + n := by
  induction n generalizing s x c with
  | zero => exact .pure rfl
  | succ n ih =>
    exact .get_bind (.bind (emitByte_count s _ c) fun c' t hc => (ih t _ c').mono fun c'' _ h => by omega)

/-- A symbol is counted with the bytes it stands for (R312). -/
theorem emit_count (s : State) (y : Sym) (d : Nat) (c : Decoding) :
    Ensures (emit y d (symbolLength y) c) s fun c' _ => c'.count = c.count + symbolLength y := by
  refine .ite (fun h => ?_) fun _ => copyMatch_count s _ _ c
  rw [symbolLength, if_pos h]
  exact emitByte_count s _ c

theorem symbolLength_pos (y : Sym) : 0 < symbolLength y := by
  unfold symbolLength
  split <;> omega

/-- A symbol other than `EOS` adds bytes, and in `Lzhuf` mode no more than the declared size allows (R310). -/
theorem expandSymbol_count (s : State) (size : Option Nat) (y : Sym) (d : Nat) (c : Decoding) :
    Ensures (expandSymbol size y d c) s fun o _ => ∀ c', o = some c' →
      c.count < c'.count ∧ ∀ m, size = some m → c'.count ≤ m := by
  refine .get_bind (.after fun _ t => .ite (fun _ => .after fun _ _ => .pure nofun) fun _ =>
    .bind (Q := fun _ _ => passesSize size (c.count + symbolLength y) = false) ?_ fun _ u hsize =>
      .after fun _ v => .bind (emit_count v y d c) fun c' _ hc => .pure ?_)
  · rw [Ensures, Engine.ends_raiseIf]
    split
    · trivial
    · exact Bool.eq_false_iff.2 ‹_›
  · rintro _ ⟨⟩
    have hpos := symbolLength_pos y
    refine ⟨by omega, ?_⟩
    rintro m rfl
    have hle := of_decide_eq_false hsize
    omega

theorem hufDecode_pos {s : State} (hs : s.huf.Sound) : Ensures hufDecode s fun _ t => s.rd.pos < t.rd.pos := by
  obtain ⟨y, n, hn, -, hdecode⟩ := hs.decode_eq s.inp s.rd
  rw [Ensures, ends_hufDecode hdecode, Reader.getBits_reader]
  dsimp only
  omega

theorem readDistance_pos (s : State) (y : Sym) : Ensures (readDistance y) s fun _ t => s.rd.pos ≤ t.rd.pos := by
  refine .ite (fun _ => ?_) fun _ => .pure (Nat.le_refl _)
  obtain ⟨d, -, -, hread⟩ := s.rd.decodePos_eq s.inp
  rw [Ensures, ends_decodePos hread]
  exact Nat.le_add_right _ _

/-- Each pass of the decoding loop reads a bit, and one that goes on adds a byte (R310). -/
theorem expandStep_next {s : State} (hs : s.huf.Sound) {size : Option Nat} {n : Nat} {c : Decoding}
    (h : c.Within size (n + 1) s) :
    Ensures (expandStep size c) s fun o t => ∀ c', o = some c' → c'.Within size n t := by
  have hpos : Ensures (expandStep size c) s fun o t =>
      s.rd.pos < t.rd.pos ∧ ∀ c', o = some c' → c.count < c'.count ∧ ∀ m, size = some m → c'.count ≤ m := by
    refine .bind (hufDecode_pos hs) fun y t ht => .bind (Q := fun _ u => s.rd.pos < u.rd.pos) ?update fun _ u hu =>
      .bind (Q := fun _ v => s.rd.pos < v.rd.pos) ?distance fun d v hv => ?symbol
    case update =>
      exact (Ensures.of_bounded (.hufUpdate (p := { huf := true }) (q := {}) (E := []) rfl) t).mono fun _ u h => by
        rwa [h.rd.resolve_left nofun]
    case distance => exact (readDistance_pos u y).mono fun _ _ h => hu.trans_le h
    case symbol =>
      exact ((Ensures.of_bounded (.expandSymbol (p := { out := true, win := true })
        (E := [.sizeExceeded, .unexpectedEof, .invalidData]) rfl rfl (by simp) (by simp) (by simp)) v).and
          (expandSymbol_count v size y d c)).mono fun _ _ h => ⟨by rwa [h.1.rd.resolve_left nofun], h.2⟩
  have hbounded : Bounded Bounded.lzhParts Bounded.lzhParts [.sizeExceeded, .unexpectedEof, .invalidData]
      (expandStep size c) := .expandStep rfl rfl rfl rfl (by simp) (by simp) (by simp)
  exact ((Ensures.of_bounded hbounded s).and hpos).mono fun o t ⟨hsame, hlt, hcount⟩ c' hc' => h.next hsame.inp hlt (hcount c' hc').1 (hcount c' hc').2

/-! ### LZW expansion (R351, R361) -/

/-- `n` more passes of the LZW decoding loop suffice: one for each whole code of the input, and the last (R361). -/
def State.LzwWithin (s : State) (n : Nat) : Prop := s.lzw.done = true ∨ lzwExpandBound s ≤ n

/-- A code read before the end of the input brings the end nearer; at the end the decoder is done or raises (R351, R352). -/
theorem lzwDecodeCode_next {s : State} {n : Nat} (h : s.LzwWithin (n + 1)) :
    Ensures lzwDecodeCode s fun _ t => t.LzwWithin n := by
  have hbounded : Bounded Bounded.lzwParts Bounded.lzwParts [.sizeExceeded, .invalidCode, .unexpectedEof]
      lzwDecodeCode := .lzwDecodeCode rfl rfl rfl (by simp) (by simp) (by simp)
  have hread : Ensures lzwDecodeCode s fun _ t =>
      t.lzw.done = true ∨ (s.lzw.done = false ∧ s.rd.pos + 12 ≤ 8 * s.inp.len.toNat ∧ t.rd.pos = s.rd.pos + 12) := by
    refine .get_bind (.ite (fun hdone => .pure (.inl hdone)) fun hdone => .ite (fun _ => ?atEnd) fun hmore => ?code)
    case atEnd =>
      exact .get_bind (.after fun _ t => .bind (Q := fun _ u => u.lzw.done = true) rfl fun _ u hu => .pure (.inl hu))
    case code =>
      refine .bind (Q := fun _ t => t.rd.pos = s.rd.pos + 12) ?_ fun k t ht => ?_
      · rw [Ensures, getBits, ends_reading, Reader.getBits_reader]
      · exact (Ensures.of_bounded (.decodeValue (p := { out := true, lzw := true }) (E := [.sizeExceeded, .invalidCode])
          rfl rfl (by simp) (by simp)) t).mono fun _ u hu =>
            .inr ⟨Bool.eq_false_iff.2 hdone, by omega, by rw [hu.rd.resolve_left nofun, ht]⟩
  refine ((Ensures.of_bounded hbounded s).and hread).mono fun _ t ⟨hsame, hcode⟩ => hcode.imp_right ?_
  rintro ⟨hdone, hmore, hpos⟩
  have hleft := h.resolve_left (by rw [hdone]; nofun)
  unfold lzwExpandBound at hleft ⊢
  rw [hsame.inp, hpos]
  omega

end Sys2Proof.Machine
end

section
/-! SUPPORT. No procedure gets stuck on a sound state (43_huffman.md R254, R256, R262; 44_lzss_codec.md R306, R310;
45_lzw.md R361): one lemma for each procedure, by the parts it is put together from. -/

namespace Sys2Proof.Machine

/-- The stop is one of the spec's errors (R380), not a stuck procedure. -/
def Stop.IsRaise : Stop → Prop
  | .raise _ => True
  | .stuck _ => False

/-- From `s` the procedure ends in a sound state, or raises. -/
def EndsSound {α : Type} (m : Engine State α) (s : State) : Prop := m.Ends s (fun _ t => t.Sound) fun e _ => e.IsRaise

/-- From every sound state the procedure ends in a sound state, or raises. -/
def Unstuck {α : Type} (m : Engine State α) : Prop := ∀ s : State, s.Sound → EndsSound m s

section
variable {α β : Type} {m : Engine State α} {s : State}

/-- A procedure that ends or raises, and what follows it from the states it can end in. -/
theorem EndsSound.bind {Q : α → State → Prop} {f : α → Engine State β} (hm : EndsSound m s) (hq : Ensures m s Q)
    (hf : ∀ a t, t.Sound → Q a t → EndsSound (f a) t) : EndsSound (m >>= f) s := by
  rw [EndsSound, Engine.ends_bind]
  exact (hm.and hq).mono (fun a t h => hf a t h.1 h.2) fun _ _ h => h.1

theorem EndsSound.andThen {f : α → Engine State β} (hm : EndsSound m s) (hf : ∀ a, Unstuck (f a)) :
    EndsSound (m >>= f) s :=
  hm.bind (Q := fun _ _ => True) (.of_forall fun _ _ => trivial) fun a t ht _ => hf a t ht

end

namespace Unstuck

variable {α β : Type} {m : Engine State α}

theorem pure (a : α) : Unstuck (Pure.pure a) := fun _ hs => hs

theorem raise (e : ErrCode) : Unstuck (Machine.raise e : Engine State α) := fun _ _ => trivial

theorem bind {f : α → Engine State β} (hm : Unstuck m) (hf : ∀ a, Unstuck (f a)) : Unstuck (m >>= f) :=
  fun s hs => (hm s hs).andThen hf

theorem get_bind {f : State → Engine State β} (hf : ∀ s, Unstuck (f s)) : Unstuck (get >>= f) := fun s hs => by
  rw [EndsSound, Engine.ends_bind, Engine.ends_get]
  exact hf s s hs

theorem ite {c : Prop} [Decidable c] {n : Engine State α} (hm : Unstuck m) (hn : Unstuck n) :
    Unstuck (if c then m else n) := by split <;> assumption

theorem doIf {c : Prop} [Decidable c] {m : Engine State Unit} (hm : Unstuck m) : Unstuck (Machine.doIf c m) :=
  ite hm (pure ())

theorem raiseIf {c : Prop} [Decidable c] {e : ErrCode} : Unstuck (Machine.raiseIf c e) := ite (raise e) (pure ())

/-- Elementary writes keep a state sound, so only the stops matter. -/
theorem of_writes (hw : ByWrites m) (h : ∀ s : State, s.Sound → m.Ends s (fun _ _ => True) fun e _ => e.IsRaise) :
    Unstuck m := fun s hs =>
  ((hw s).and (h s hs)).mono (fun _ _ h => h.1.keeps (fun _ _ hw hs => hs.write hw) hs) fun _ _ h => h.2

/-! ### The shared operations -/

theorem reading {f : Input → Reader → α × Reader} : Unstuck (Machine.reading f) :=
  of_writes .reading fun _ _ => trivial

theorem setRes0 {v : Word} : Unstuck (Machine.setRes0 v) := of_writes .setRes0 fun _ _ => trivial

theorem bitInit : Unstuck Machine.bitInit := of_writes .bitInit fun _ _ => trivial

/-- A change of the state outside the tree and the window. -/
theorem change {f : State → State} (hf : ∀ s, (f s).huf = s.huf ∧ (f s).win = s.win) : Unstuck (modify f) :=
  fun s hs => ⟨(hf s).1 ▸ hs.tree, (hf s).2 ▸ hs.index⟩

/-- The bit writer stops with `SizeExceeded` only (R182). -/
theorem writing {f : Word → Engine Output Unit}
    (hf : ∀ {cap o o' e}, f cap o = .error e o' → e = .raise .sizeExceeded) : Unstuck (Machine.writing f) :=
  fun s hs => by
    rw [EndsSound, ends_writing]
    unfold Engine.Ends
    split
    · exact ⟨hs.tree, hs.index⟩
    · next h => rw [hf h]; trivial

theorem outByte {v : Byte} : Unstuck (Machine.outByte v) := writing Bounded.outByte_raises

theorem putAll {bits : List Bool} : Unstuck (Machine.putAll bits) := writing Bounded.putAll_raises

theorem putBits {n v : Nat} : Unstuck (Machine.putBits n v) := putAll

theorem flush : Unstuck Machine.flush := writing Bounded.flush_raises

theorem indexBelow {k : Nat} {x : BitVec 16} : Unstuck (Machine.indexBelow k x : Engine State (Fin k)) := by
  unfold Machine.indexBelow
  split
  · exact pure _
  · exact raise _

theorem bitCount {n : BitVec 5} : Unstuck (Machine.bitCount n : Engine State Nat) := ite (pure _) (raise _)

/-! ### The window (R210 to R221) -/

theorem ends_onWindow_raise {s : State} {f : Window → Except Stop Window} (h : ∀ e, f s.win = .error e → e.IsRaise) :
    (Machine.onWindow f).Ends s (fun _ _ => True) fun e _ => e.IsRaise := by
  unfold Engine.Ends Machine.onWindow
  cases hf : f s.win with
  | ok w => trivial
  | error e => exact h e hf

/-- On linked windows a search ends within its bound (R216). -/
theorem insertPos {p : Pos} : Unstuck (Machine.insertPos p) :=
  of_writes .insertPos fun s hs => ends_onWindow_raise fun e he => by
    cases hp : s.win.indexed p with
    | true =>
      rw [Window.insert, if_pos hp] at he
      cases he
      trivial
    | false =>
      obtain ⟨-, -, w', hw', -⟩ := hs.index.insert_spec hp
      cases hw'.symm.trans he

theorem findPos {p : Pos} : Unstuck (Machine.findPos p) :=
  of_writes .findPos fun s hs => ends_onWindow_raise fun e he => by
    cases hp : s.win.indexed p with
    | true =>
      rw [Window.find, if_pos hp] at he
      cases he
      trivial
    | false =>
      obtain ⟨-, -, w', hw', -⟩ := hs.index.insert_spec hp
      cases (Window.find_of_insert hw').symm.trans he

theorem deletePos {p : Pos} : Unstuck (Machine.deletePos p) :=
  of_writes .deletePos fun s hs => ends_onWindow_raise (f := fun w => w.delete s.params.delMode p) fun e he => by
    obtain ⟨w', hw'⟩ := hs.index.exists_delete s.params.delMode p
    cases hw'.symm.trans he

theorem writeWin {p : Pos} {b : Byte} : Unstuck (Machine.writeWin p b) := of_writes .writeWin fun _ _ => trivial

theorem winInit : Unstuck Machine.winInit := of_writes .winInit fun _ _ => trivial

theorem reportMatch : Unstuck Machine.reportMatch := change fun _ => ⟨rfl, rfl⟩

/-! ### The Huffman tree and the distance code (R254 to R257, R262) -/

theorem hufInit : Unstuck Machine.hufInit := of_writes .hufInit fun _ _ => trivial

theorem hufEncode {y : Sym} : Unstuck (Machine.hufEncode y) := fun s hs => by
  obtain ⟨bits, hcode, -, -⟩ := hs.tree.codeword_eq y
  rw [EndsSound, Machine.hufEncode, Engine.ends_bind, Engine.ends_get, Engine.ends_bind, Engine.ends_orStuck, hcode]
  exact ⟨fun bits _ => putAll s hs, nofun⟩

theorem hufDecode : Unstuck Machine.hufDecode := of_writes .hufDecode fun s hs => by
  obtain ⟨y, n, -, -, hdecode⟩ := hs.tree.decode_eq s.inp s.rd
  exact (ends_hufDecode hdecode).2 trivial

theorem hufUpdate {y : Sym} : Unstuck (Machine.hufUpdate y) := of_writes .hufUpdate fun s hs => by
  obtain ⟨t, hupdate, -, -⟩ := HufTree.update_sound hs.tree y
  exact (ends_hufUpdate hupdate).2 trivial

theorem hufRescale : Unstuck hufRescaleProc := of_writes (.ofProcedure .hufRescale) fun _ _ => trivial

theorem decodePos : Unstuck Machine.decodePos := of_writes .decodePos fun s _ => by
  obtain ⟨d, -, -, hread⟩ := s.rd.decodePos_eq s.inp
  exact (ends_decodePos hread).2 trivial

/-! ### The codecs' common steps -/

theorem checkOffsets : Unstuck Machine.checkOffsets := get_bind fun _ => raiseIf

theorem checkInputSize : Unstuck Machine.checkInputSize := get_bind fun _ => raiseIf

theorem readIn {a : Nat} : Unstuck (Machine.readIn a) := get_bind fun _ => pure _

theorem copyBytes {a n : Nat} : Unstuck (Machine.copyBytes a n) := by
  induction n generalizing a with
  | zero => exact pure ()
  | succ n ih => exact bind readIn fun _ => bind outByte fun _ => ih

theorem copyPrefix : Unstuck Machine.copyPrefix := get_bind fun _ => copyBytes

theorem reportCompress : Unstuck Machine.reportCompress := change fun _ => ⟨rfl, rfl⟩

theorem reportExpand : Unstuck Machine.reportExpand := change fun _ => ⟨rfl, rfl⟩

/-! ### LZSS compression (R303 to R308) -/

theorem writeHeader {n : Nat} : Unstuck (Machine.writeHeader n) :=
  bind outByte fun _ => bind outByte fun _ => bind outByte fun _ => outByte

theorem loadLookahead {n : Nat} {c : Encoding} : Unstuck (Machine.loadLookahead n c) := by
  induction n generalizing c with
  | zero => exact pure _
  | succ n ih => exact get_bind fun _ => ite (bind writeWin fun _ => ih) (pure _)

theorem insertBefore {r : Pos} {n : Nat} : Unstuck (Machine.insertBefore r n) := by
  induction n with
  | zero => exact pure _
  | succ n ih => exact bind insertPos fun _ => ih

theorem startEncoding {ip : Nat} : Unstuck (Machine.startEncoding ip) :=
  bind hufInit fun _ => bind winInit fun _ => bind loadLookahead fun _ => bind insertBefore fun _ =>
    bind insertPos fun _ => pure _

theorem slideOne {c : Encoding} : Unstuck (Machine.slideOne c) :=
  bind deletePos fun _ => get_bind fun _ => ite (bind writeWin fun _ => bind insertPos fun _ => pure _)
    (ite (bind insertPos fun _ => pure _) (pure _))

theorem slide {n : Nat} {c : Encoding} : Unstuck (Machine.slide n c) := by
  induction n generalizing c with
  | zero => exact pure _
  | succ n ih => exact bind slideOne fun _ => ih

theorem encodeSymbol {y : Sym} : Unstuck (Machine.encodeSymbol y) := bind hufEncode fun _ => hufUpdate

theorem encodeStep {c : Encoding} : Unstuck (Machine.encodeStep c) :=
  get_bind fun _ => ite (bind encodeSymbol fun _ => slide)
    (bind encodeSymbol fun _ => bind putAll fun _ => slide)

/-- The coding loop (R306) ends within as many passes as there are bytes to code. -/
theorem encodeLoop {n : Nat} {s : State} {c : Encoding} (hs : s.Sound) (hn : c.left s.inp ≤ n) :
    EndsSound (Machine.encodeLoop n c) s := by
  induction n generalizing s c with
  | zero =>
    have hlen : c.len = 0 := by unfold Encoding.left at hn; omega
    rw [Machine.encodeLoop, if_pos hlen]
    exact hs
  | succ n ih =>
    rw [Machine.encodeLoop]
    split
    · exact hs
    · next hlen =>
      exact (encodeStep s hs).bind (encodeStep_left s (Nat.pos_of_ne_zero hlen)) fun c' t ht ⟨hinp, hlt⟩ =>
        ih ht (by rw [hinp]; omega)

theorem endEncoding {r : Pos} : Unstuck (Machine.endEncoding r) :=
  get_bind fun _ => bind (doIf encodeSymbol) fun _ => bind flush fun _ => change fun _ => ⟨rfl, rfl⟩

theorem lzhCompress : Unstuck Machine.lzhCompress := by
  refine bind checkOffsets fun _ => bind checkInputSize fun _ => bind bitInit fun _ => bind copyPrefix fun _ s hs => ?_
  have hbounded : Bounded Bounded.lzhParts Bounded.lzhParts lzhErrors
      (Machine.doIf (s.hdr = true) (Machine.writeHeader (rawSize s))) := .doIf (.writeHeader rfl (by simp [lzhErrors]))
  have hheader := (Ensures.of_bounded hbounded s).mono (Q' := fun _ t => t.inp = s.inp) fun _ _ h => h.inp
  rw [EndsSound, Engine.ends_bind, Engine.ends_get]
  refine (doIf writeHeader s hs).bind hheader fun _ t ht hinp => ?_
  refine (startEncoding t ht).bind (startEncoding_left t s.inOffset.toNat) fun c u hu ⟨hinp', hleft⟩ => ?_
  rw [hinp] at hinp' hleft
  exact (encodeLoop hu (by rw [hinp']; exact hleft)).andThen fun _ => bind endEncoding fun _ => reportCompress

/-! ### LZSS expansion (R309 to R312) -/

theorem readHeader : Unstuck Machine.readHeader :=
  get_bind fun _ => ite (bind raiseIf fun _ => bind reading fun _ => bind reading fun _ => bind reading fun _ =>
    bind reading fun _ => bind raiseIf fun _ => pure _) (pure _)

theorem emitByte {b : Byte} {c : Decoding} : Unstuck (Machine.emitByte b c) :=
  bind outByte fun _ => bind writeWin fun _ => pure _

theorem copyMatch {n : Nat} {x : Pos} {c : Decoding} : Unstuck (Machine.copyMatch n x c) := by
  induction n generalizing x c with
  | zero => exact pure _
  | succ n ih => exact get_bind fun _ => bind emitByte fun _ => ih

theorem emit {y : Sym} {d n : Nat} {c : Decoding} : Unstuck (Machine.emit y d n c) := ite emitByte copyMatch

theorem readDistance {y : Sym} : Unstuck (Machine.readDistance y) := ite decodePos (pure _)

theorem expandSymbol {size : Option Nat} {y : Sym} {d : Nat} {c : Decoding} :
    Unstuck (Machine.expandSymbol size y d c) :=
  get_bind fun _ => bind raiseIf fun _ => ite (bind raiseIf fun _ => pure _)
    (bind raiseIf fun _ => bind raiseIf fun _ => bind emit fun _ => pure _)

theorem expandStep {size : Option Nat} {c : Decoding} : Unstuck (Machine.expandStep size c) :=
  bind hufDecode fun _ => bind hufUpdate fun _ => bind readDistance fun _ => expandSymbol

/-- The decoding loop (R310) ends within the passes its bytes or bits allow. -/
theorem expandLoop {size : Option Nat} {n : Nat} {s : State} {c : Decoding} (hs : s.Sound) (hn : c.Within size n s) :
    EndsSound (Machine.expandLoop size n c) s := by
  induction n generalizing s c with
  | zero =>
    rw [EndsSound, Machine.expandLoop, Engine.ends_bind, Engine.ends_get, if_pos hn.done]
    exact hs
  | succ n ih =>
    rw [EndsSound, Machine.expandLoop, Engine.ends_bind, Engine.ends_get, Engine.ends_ite]
    split
    · exact hs
    · refine (expandStep s hs).bind (expandStep_next hs.tree hn) fun o t ht hnext => ?_
      cases o with
      | none => exact ht
      | some c' => exact ih ht (hnext c' rfl)

theorem lzhExpand : Unstuck Machine.lzhExpand := by
  refine bind checkOffsets fun _ => bind bitInit fun _ => bind copyPrefix fun _ => bind readHeader fun size =>
    bind hufInit fun _ => bind winInit fun _ s hs => ?_
  rw [EndsSound, Engine.ends_bind, Engine.ends_get]
  exact (expandLoop hs (.start size s 4036)).andThen fun _ => bind (change fun _ => ⟨rfl, rfl⟩) fun _ => reportExpand

/-! ### The LZW unit (R340 to R361) -/

theorem onLzw {f : Lzw → α × Lzw} : Unstuck (Machine.onLzw f) := fun _ hs => ⟨hs.tree, hs.index⟩

theorem setLzw {f : Lzw → Lzw} : Unstuck (Machine.setLzw f) := change fun _ => ⟨rfl, rfl⟩

theorem setPrefix {k : Option Code} : Unstuck (Machine.setPrefix k) := setLzw

theorem lookupCode {p : Code} {c : Byte} : Unstuck (Machine.lookupCode p c) := onLzw

theorem emitCode {k : Code} : Unstuck (Machine.emitCode k) :=
  get_bind fun _ => ite putBits (bind putBits fun _ => bind setLzw fun _ => putBits)

theorem growTable {p : Code} {c : Byte} : Unstuck (Machine.growTable p c) :=
  get_bind fun _ => doIf (bind setLzw fun _ => get_bind fun _ => doIf (bind putBits fun _ => setLzw))

theorem extendPrefix {p : Code} {c : Byte} {k : Option Code} : Unstuck (Machine.extendPrefix p c k) := by
  cases k with
  | none => exact bind emitCode fun _ => bind growTable fun _ => setPrefix
  | some k => exact setPrefix

theorem encodeAfter {c : Byte} {p : Option Code} : Unstuck (Machine.encodeAfter c p) := by
  cases p with
  | none => exact setPrefix
  | some p =>
    show Unstuck (Machine.lookupCode p c >>= fun k => Machine.extendPrefix p c k)
    refine bind ?_ ?_
    · exact lookupCode
    · exact fun _ => extendPrefix

theorem lzwEncodeByte {c : Byte} : Unstuck (Machine.lzwEncodeByte c) := get_bind fun _ => encodeAfter

theorem emitPrefix {p : Option Code} : Unstuck (Machine.emitPrefix p) := by
  cases p with
  | none => exact pure _
  | some p => exact bind emitCode fun _ => setPrefix

theorem lzwEncodeEnd : Unstuck Machine.lzwEncodeEnd :=
  bind (get_bind fun _ => emitPrefix) fun _ => get_bind fun _ => bind (doIf putBits) fun _ => flush

theorem lzwEncodeBytes {a n : Nat} : Unstuck (Machine.lzwEncodeBytes a n) := by
  induction n generalizing a with
  | zero => exact pure _
  | succ n ih => exact bind readIn fun _ => bind lzwEncodeByte fun _ => ih

theorem lzwCompress : Unstuck Machine.lzwCompress :=
  bind checkOffsets fun _ => bind checkInputSize fun _ => bind bitInit fun _ => bind copyPrefix fun _ =>
    bind setLzw fun _ => get_bind fun _ => bind lzwEncodeBytes fun _ => bind lzwEncodeEnd fun _ => reportCompress

theorem outBytes {bs : List Byte} : Unstuck (Machine.outBytes bs) := by
  induction bs with
  | nil => exact pure _
  | cons b bs ih => exact bind outByte fun _ => ih

theorem decodeString {k : Code} : Unstuck (Machine.decodeString k) := by
  refine get_bind fun s => ?_
  cases s.lzw.prev with
  | none => exact bind raiseIf fun _ => pure _
  | some p => exact ite (bind onLzw fun _ => pure _) (ite (bind onLzw fun _ => pure _) (raise _))

theorem addNew {new : Option (Code × Byte)} : Unstuck (Machine.addNew new) := by
  cases new with
  | none => exact pure _
  | some e => exact setLzw (f := fun l => l.addEntry e.1 e.2)

theorem decodeData {k : Code} : Unstuck (Machine.decodeData k) :=
  bind decodeString fun _ => get_bind fun _ => bind raiseIf fun _ => bind addNew fun _ => bind outBytes fun _ =>
    bind setLzw fun _ => pure _

theorem decodeValue {k : Nat} : Unstuck (Machine.decodeValue k) :=
  ite (bind setLzw fun _ => pure _) (ite (bind setLzw fun _ => pure _) decodeData)

theorem lzwDecodeCode : Unstuck Machine.lzwDecodeCode :=
  get_bind fun _ => ite (pure _) (ite (get_bind fun _ => bind raiseIf fun _ => bind setLzw fun _ => pure _)
    (bind reading fun _ => decodeValue))

/-- The LZW decoding loop (R361) ends within one pass for each whole code of the input, and one more. -/
theorem lzwExpandLoop {n : Nat} {s : State} (hs : s.Sound) (hn : s.LzwWithin n) :
    EndsSound (Machine.lzwExpandLoop n) s := by
  induction n generalizing s with
  | zero =>
    rw [EndsSound, Machine.lzwExpandLoop, Engine.ends_bind, Engine.ends_get, if_pos (hn.resolve_right nofun)]
    exact hs
  | succ n ih =>
    rw [EndsSound, Machine.lzwExpandLoop, Engine.ends_bind, Engine.ends_get, Engine.ends_ite]
    split
    · exact hs
    · exact (lzwDecodeCode s hs).bind (lzwDecodeCode_next hn) fun _ t => ih

theorem lzwExpand : Unstuck Machine.lzwExpand := by
  refine bind checkOffsets fun _ => bind bitInit fun _ => bind copyPrefix fun _ => bind setLzw fun _ s hs => ?_
  rw [EndsSound, Engine.ends_bind, Engine.ends_get]
  exact (lzwExpandLoop hs (.inr (Nat.le_refl _))).andThen fun _ => reportExpand

/-! ### The commands -/

theorem ofProcedure (i : Instr) : Unstuck (procedure i) := by
  cases i
  case nop => exact pure ()
  case reset => exact pure ()
  case clrerr => exact pure ()
  case bitInit => exact bitInit
  case bitGet n => exact bind bitCount fun _ => bind reading fun _ => setRes0
  case bitPut n v => exact bind bitCount fun _ => putBits
  case bitGetByte => exact bind reading fun _ => setRes0
  case bitPutByte b => exact putBits
  case bitCount => exact change fun _ => ⟨rfl, rfl⟩
  case bitFlush => exact flush
  case winInit => exact winInit
  case winRd x => exact bind indexBelow fun _ => change fun _ => ⟨rfl, rfl⟩
  case winWr x b => exact bind indexBelow fun _ => writeWin
  case winInsert x => exact bind indexBelow fun _ => bind insertPos fun _ => reportMatch
  case winDelete x => exact bind indexBelow fun _ => deletePos
  case winFind x => exact bind indexBelow fun _ => bind findPos fun _ => reportMatch
  case hufInit => exact hufInit
  case hufEnc x => exact bind indexBelow fun _ => hufEncode
  case hufDec => exact bind hufDecode fun _ => setRes0
  case hufUpd x => exact bind indexBelow fun _ => hufUpdate
  case hufEncPos x => exact bind indexBelow fun _ => putAll
  case hufDecPos => exact bind decodePos fun _ => setRes0
  case hufRescale => exact hufRescale
  case hufPeek x => exact bind indexBelow fun _ => change fun _ => ⟨rfl, rfl⟩
  case lzhCompress => exact lzhCompress
  case lzhExpand => exact lzhExpand
  case lzwInit => exact setLzw
  case lzwEncByte b => exact lzwEncodeByte
  case lzwEncEnd => exact lzwEncodeEnd
  case lzwDecCode => exact bind lzwDecodeCode fun _ => setRes0
  case lzwCompress => exact lzwCompress
  case lzwExpand => exact lzwExpand

end Unstuck

/-! ### A step -/

theorem command_ne_fault {m : Engine State Unit} {s : State} (hm : Unstuck m) (hs : s.Sound) (f : Fault) :
    command m s ≠ .fault f := by
  rcases command_cases m s with ⟨-, h⟩ | ⟨-, t, -, h⟩ | ⟨-, e, t, -, h⟩ | ⟨-, why, t, hstuck, -⟩
  · rw [h]; nofun
  · rw [h]; nofun
  · rw [h]; nofun
  · exact ((Engine.ends_of_error hstuck).1 (hm s hs)).elim

/-- A command runs its procedure behind the gate of R160, or is a control command, which has a next state. -/
theorem exec_gated_or_next (i : Instr) (s : State) :
    exec i s = command (procedure i) s ∨ ∃ t, exec i s = .next t := by
  by_cases h1 : i = .nop
  · exact .inr ⟨_, by rw [h1]; rfl⟩
  by_cases h2 : i = .reset
  · exact .inr ⟨_, by rw [h2]; rfl⟩
  by_cases h3 : i = .clrerr
  · exact .inr ⟨_, by rw [h3]; rfl⟩
  exact .inl (exec_eq_command s h1 h2 h3)

theorem exec_ne_fault {s : State} (hs : s.Sound) (i : Instr) (f : Fault) : exec i s ≠ .fault f := by
  rcases exec_gated_or_next i s with h | ⟨t, h⟩
  · rw [h]; exact command_ne_fault (.ofProcedure i) hs f
  · rw [h]; nofun

theorem exec_ne_refused (i : Instr) (s : State) (r : Refusal) : exec i s ≠ .refused r := by
  rcases exec_gated_or_next i s with h | ⟨t, h⟩
  · rw [h]; exact command_not_refused _ s r
  · rw [h]; nofun

theorem writeReg_ne_fault {s : State} (hs : s.Sound) (r : Reg) (v : Word) (f : Fault) : writeReg r v s ≠ .fault f := by
  by_cases hr : r = .cmd
  · subst hr
    show issue v s ≠ _
    cases hd : decode v with
    | ok i => rw [issue_of_ok s hd]; exact exec_ne_fault hs i f
    | error e => rw [issue_of_error s hd]; nofun
  · rw [writeReg_eq hr]; nofun

theorem hostRead_ne_fault (addr width : Nat) (s : State) (f : Fault) : hostRead addr width s ≠ .fault f := by
  unfold hostRead
  cases regionAt s.params addr with
  | window off => dsimp only; split <;> nofun
  | inMem a => dsimp only; split <;> nofun
  | outMem a => dsimp only; split <;> nofun
  | elsewhere => nofun

theorem hostWrite_ne_fault {s : State} (hs : s.Sound) (addr width : Nat) (data : Word) (f : Fault) :
    hostWrite addr width data s ≠ .fault f := by
  unfold hostWrite
  cases regionAt s.params addr with
  | window off =>
    dsimp only
    split
    · exact writeReg_ne_fault hs _ data f
    · nofun
  | inMem a => dsimp only; split <;> nofun
  | outMem a => dsimp only; split <;> nofun
  | elsewhere => nofun

/-- Settles O59: on a sound state every procedure ends or raises, and of a step's events only a `CMD` write runs one. -/
theorem noStepGetsStuck : Obligations.NoStepGetsStuck := by
  refine ⟨fun s f hs => ?_, exec_ne_refused⟩
  cases hhost : s.host with
  | nil => rw [step_idle hhost]; nofun
  | cons e rest =>
    rw [step_pending hhost]
    have hrest : ({ s with host := rest } : State).Sound := ⟨hs.tree, hs.index⟩
    cases e with
    | read addr width => exact hostRead_ne_fault addr width _ f
    | write addr width data => exact hostWrite_ne_fault hrest addr width data f
    | powerOn => nofun

end Sys2Proof.Machine
end

section
/-! SUPPORT. What the tree, table and codec commands leave alone (43_huffman.md R270, R273, R277; 44_lzss_codec.md R320,
R321; 45_lzw.md R345, R351, R360, R361): their parts, and that the LZW decoder only writes behind the end of the
output. -/

namespace Sys2Proof.Machine

/-! ### By parts -/

/-- A command with the tree as its only part changes no OUT byte, and without an error nothing of the output side. -/
theorem frame_of_treeParts {i : Instr} {s t : State} (h : exec i s = .next t)
    (hg : exec i s = command (procedure i) s) (hp : (partsOf i).Within { huf := true }) :
    t = { s with err := t.err, huf := t.huf, out := t.out } ∧ t.out.mem = s.out.mem ∧
      (t.err = s.err → t.out = s.out) := by
  obtain ⟨u, err, out, hu, rfl, hmem, hout⟩ := exec_changes h hg
  have hu := hu.mono hp
  have heq := hu.eq
  rw [hu.res0.resolve_left nofun, hu.res1.resolve_left nofun, hu.rd.resolve_left nofun, hu.win.resolve_left nofun,
    hu.lzw.resolve_left nofun, hu.r.resolve_left nofun] at heq
  rw [hu.out.resolve_left nofun] at hmem hout
  exact ⟨congrArg (fun v : State => { v with err := err, out := out }) heq, hmem, hout⟩

theorem frame_of_lzwDecCode {s t : State} (h : exec .lzwDecCode s = .next t) :
    t = { s with err := t.err, res0 := t.res0, rd := t.rd, lzw := t.lzw, out := t.out } := by
  obtain ⟨u, err, out, hu, rfl, -, -⟩ := exec_changes h rfl
  have heq := hu.eq
  rw [hu.res1.resolve_left nofun, hu.win.resolve_left nofun, hu.huf.resolve_left nofun, hu.r.resolve_left nofun] at heq
  exact congrArg (fun v : State => { v with err := err, out := out }) heq

/-- A command without the LZSS parts leaves the window, the tree and `R`. -/
theorem lzss_of_parts {i : Instr} {s t : State} (h : exec i s = .next t) (hg : exec i s = command (procedure i) s)
    (hw : (partsOf i).win = false) (hh : (partsOf i).huf = false) (hr : (partsOf i).r = false) :
    t.win = s.win ∧ t.huf = s.huf ∧ t.r = s.r := by
  obtain ⟨u, err, out, hu, rfl, -, -⟩ := exec_changes h hg
  exact ⟨hu.win.resolve_left (Bool.eq_false_iff.1 hw), hu.huf.resolve_left (Bool.eq_false_iff.1 hh),
    hu.r.resolve_left (Bool.eq_false_iff.1 hr)⟩

/-! ### The LZW decoder only appends (R351) -/

theorem Output.outByte_grows {cap : Word} {o : Output} (h : o.len ≤ cap) (v : Byte) :
    (outByte cap v).Ends o (fun _ o' => o.Grows cap o') fun _ o' => o.Grows cap o' := by
  by_cases hc : o.len = cap
  · exact (Engine.ends_of_error (outByte_full hc)).2 (.refl h)
  · exact (Engine.ends_of_ok (outByte_ok hc)).2 (.store h hc _ _ _)

namespace Appending

theorem raiseIf {c : Prop} [Decidable c] {e : ErrCode} : Appending (Machine.raiseIf c e) := ite (stop _) (pure ())

theorem reading {α : Type} {f : Input → Reader → α × Reader} : Appending (Machine.reading f) :=
  of_same fun _ => ⟨rfl, rfl⟩

theorem setRes0 {v : Word} : Appending (Machine.setRes0 v) := of_same fun _ => ⟨rfl, rfl⟩

theorem outByte {v : Byte} : Appending (Machine.outByte v) := writing fun _ _ h => Output.outByte_grows h v

theorem outBytes {bs : List Byte} : Appending (Machine.outBytes bs) := by
  induction bs with
  | nil => exact pure _
  | cons b bs ih => exact bind outByte fun _ => ih

theorem decodeString {k : Code} : Appending (Machine.decodeString k) := by
  refine get_bind fun s => ?_
  cases s.lzw.prev with
  | none => exact bind raiseIf fun _ => pure _
  | some p => exact ite (bind onLzw fun _ => pure _) (ite (bind onLzw fun _ => pure _) (stop _))

theorem addNew {new : Option (Code × Byte)} : Appending (Machine.addNew new) := by
  cases new with
  | none => exact pure _
  | some e => exact setLzw (f := fun l => l.addEntry e.1 e.2)

theorem decodeData {k : Code} : Appending (Machine.decodeData k) :=
  bind decodeString fun _ => get_bind fun _ => bind raiseIf fun _ => bind addNew fun _ => bind outBytes fun _ =>
    bind setLzw fun _ => pure _

theorem decodeValue {k : Nat} : Appending (Machine.decodeValue k) :=
  ite (bind setLzw fun _ => pure _) (ite (bind setLzw fun _ => pure _) decodeData)

theorem lzwDecodeCode : Appending Machine.lzwDecodeCode :=
  get_bind fun _ => ite (pure _) (ite (get_bind fun _ => bind raiseIf fun _ => bind setLzw fun _ => pure _)
    (bind reading fun _ => decodeValue))

theorem lzwDecCodeProc : Appending Machine.lzwDecCodeProc := bind lzwDecodeCode fun _ => setRes0

end Appending

/-- Settles O18: each command by its parts, and the LZW decoder only appends. -/
theorem frameTreeAndTableCommands : Obligations.FrameTreeAndTableCommands := by
  intro x s t
  refine ⟨?tree, ?lzwInit, fun h => ⟨frame_of_lzwDecCode h, ?lzwDecCode⟩, ?lzss, ?lzw⟩
  case tree =>
    rintro (h | h | h) <;> exact frame_of_treeParts h rfl (by constructor <;> simp [partsOf])
  case lzwInit =>
    exact fun h => command_next (m := lzwInit) (P := fun t => t = { s with lzw := t.lzw }) h (fun _ => rfl) fun _ => rfl
  case lzwDecCode => exact keepsOutBytes_of_appending h rfl .lzwDecCodeProc
  case lzss => rintro (h | h) <;> exact lzw_of_parts h rfl rfl
  case lzw => rintro (h | h) <;> exact lzss_of_parts h rfl rfl rfl rfl

end Sys2Proof.Machine
end

section
/-! SUPPORT. The steps the codec commands share (44_lzss_codec.md R300 to R304): the checks before anything is written, and
whole bytes stored on the output. -/

namespace Sys2Proof.Machine

open Engine

/-! ### From a procedure's ends to the command's answer (R160, R384) -/

/-- A command whose procedure ends or raises answers with a next state. -/
theorem command_answers {m : Engine State Unit} {s : State} {Q : State → Prop} (he : s.err = 0)
    (h : m.Ends s (fun _ t => Q t) fun e t => ∃ c, e = .raise c ∧ Q (errorEntry c t)) :
    ∃ t, command m s = .next t ∧ Q t := by
  unfold Ends at h
  rw [command_run he]
  split at h
  · next hm => exact ⟨_, runProcedure_ok hm, h⟩
  · next hm =>
    obtain ⟨c, rfl, hq⟩ := h
    exact ⟨_, runProcedure_raise hm, hq⟩

/-- What a procedure's ends say of a command that has completed without an error. -/
theorem command_ended {m : Engine State Unit} {s t : State} {Q : State → Prop} {E : Stop → State → Prop} (he : s.err = 0)
    (hm : command m s = .next t) (ht : t.err = 0) (h : m.Ends s (fun _ t => Q t) E) : Q t := by
  rcases command_cases m s with ⟨hne, -⟩ | ⟨-, u, hu, hc⟩ | ⟨-, c, u, -, hc⟩ | ⟨-, why, u, -, hc⟩
  · exact absurd he hne
  · cases hc.symm.trans hm
    exact (ends_of_ok hu).1 h
  · cases hc.symm.trans hm
    exact absurd ht (errorEntry_err_ne_zero c u)
  · exact nomatch hc.symm.trans hm

/-! ### The checks (R300, R302) -/

/-- The offsets lie within the input (R300). -/
def State.OffsetsInRange (s : State) : Prop := s.inOffset ≤ s.inp.len ∧ s.outOffset ≤ s.inp.len

section
variable {s : State} {Q : Unit → State → Prop} {E : Stop → State → Prop}

theorem ends_checkOffsets (h : s.OffsetsInRange) : checkOffsets.Ends s Q E ↔ Q () s := by
  obtain ⟨hin, hout⟩ := h
  rw [BitVec.le_def] at hin hout
  rw [checkOffsets, ends_bind, ends_get, ends_raiseIf, if_neg (by omega)]

theorem ends_checkOffsets_beyond (h : s.inp.len.toNat < s.inOffset.toNat ∨ s.inp.len.toNat < s.outOffset.toNat) :
    checkOffsets.Ends s Q E ↔ E (.raise .unexpectedEof) s := by
  rw [checkOffsets, ends_bind, ends_get, ends_raiseIf, if_pos h]

theorem ends_checkInputSize (h : rawSize s ≤ s.maxExpanded.toNat) : checkInputSize.Ends s Q E ↔ Q () s := by
  rw [checkInputSize, ends_bind, ends_get, ends_raiseIf, if_neg (Nat.not_lt.2 h)]

theorem ends_checkInputSize_above (h : s.maxExpanded.toNat < rawSize s) :
    checkInputSize.Ends s Q E ↔ E (.raise .sizeExceeded) s := by
  rw [checkInputSize, ends_bind, ends_get, ends_raiseIf, if_pos h]

end

/-- A procedure that raises in the state it was started in makes its command perform the error entry and nothing else. -/
theorem command_of_ends_raise {m : Engine State Unit} {s : State} {c : ErrCode} (he : s.err = 0)
    (h : m.Ends s (fun _ _ => False) fun e t => e = .raise c ∧ t = s) : command m s = .next (errorEntry c s) := by
  obtain ⟨t, ht, rfl⟩ := command_answers (Q := fun t => t = errorEntry c s) he
    (h.mono (fun _ _ hf => hf.elim) fun e t ⟨h1, h2⟩ => ⟨c, h1, by rw [h2]⟩)
  exact ht

/-- The error entry changes `ERR` and the output side only, and no OUT byte (R384). -/
theorem errorEntry_changes {s : State} (he : s.err = 0) (c : ErrCode) : (errorEntry c s).err = c.code ∧
    (errorEntry c s).out.len = 0 ∧ (errorEntry c s).out.acc = 0 ∧ (errorEntry c s).out.accN = 0 ∧
    (errorEntry c s).out.mem = s.out.mem ∧
    errorEntry c s = { s with err := (errorEntry c s).err, out := (errorEntry c s).out } :=
  ⟨by rw [errorEntry_err, if_pos he], rfl, rfl, rfl, rfl, rfl⟩

/-- Settles O39: each procedure begins with the checks. -/
theorem codecChecksComeFirst : Obligations.CodecChecksComeFirst := by
  intro s he
  constructor
  · intro h
    have hends {f : Unit → Engine State Unit} :
        (checkOffsets >>= f).Ends s (fun _ _ => False) fun e t => e = .raise .unexpectedEof ∧ t = s := by
      rw [ends_bind, ends_checkOffsets_beyond h]
      exact ⟨rfl, rfl⟩
    exact ⟨errorEntry .unexpectedEof s, command_of_ends_raise he hends, command_of_ends_raise he hends,
      command_of_ends_raise he hends, command_of_ends_raise he hends, errorEntry_changes he _⟩
  · intro hin hout h
    have hends {f : Unit → Engine State Unit} : (checkOffsets >>= fun _ => checkInputSize >>= f).Ends s
        (fun _ _ => False) fun e t => e = .raise .sizeExceeded ∧ t = s := by
      rw [ends_bind, ends_checkOffsets ⟨hin, hout⟩, ends_bind, ends_checkInputSize_above h]
      exact ⟨rfl, rfl⟩
    exact ⟨errorEntry .sizeExceeded s, command_of_ends_raise he hends, command_of_ends_raise he hends,
      errorEntry_changes he _⟩

/-! ### Whole bytes on the output (R182) -/

/-- The whole bytes `new` are stored at the end of the output; the valid bytes before them and the waiting bits stay. -/
structure Output.Stores (o o' : Output) (new : List Byte) : Prop where
  len : o'.len.toNat = o.len.toNat + new.length
  accN : o'.accN = o.accN
  before : ∀ a, a < o.len.toNat → o'.byte a = o.byte a
  stored : ∀ k, k < new.length → some (o'.byte (o.len.toNat + k)) = new[k]?

theorem Output.Stores.refl (o : Output) : o.Stores o [] := ⟨rfl, rfl, fun _ _ => rfl, nofun⟩

theorem Output.Stores.trans {o o' o'' : Output} {x y : List Byte} (h : o.Stores o' x) (h' : o'.Stores o'' y) :
    o.Stores o'' (x ++ y) := by
  have hlen := h.len
  refine ⟨by rw [h'.len, h.len, List.length_append, Nat.add_assoc], h'.accN.trans h.accN, fun a ha => ?_, fun k hk => ?_⟩
  · rw [h'.before a (by omega), h.before a ha]
  · rw [List.length_append] at hk
    rcases Nat.lt_or_ge k x.length with hx | hx
    · rw [h'.before _ (by omega), h.stored k hx, List.getElem?_append_left hx]
    · rw [List.getElem?_append_right hx, ← h'.stored _ (by omega), hlen]
      congr 2
      omega

/-- Bytes appended as bits leave the valid bytes before them. -/
theorem Output.Appends.before {o o' : Output} {new : List Bool} (h : o.Appends o' new) {a : Nat} (ha : a < o.len.toNat) :
    o'.byte a = o.byte a := by
  have hcount := h.count
  have hn := o.accN.isLt
  have hn' := o'.accN.isLt
  unfold Output.byte
  rw [h.epoch, h.outside a (.inl ha), if_pos ha, if_pos (by omega)]

/-- Bytes were stored on the output of `s`, within the OUT memory, and nothing else changed. -/
structure State.Stored (s t : State) (new : List Byte) : Prop where
  same : SameBut { out := true } s t
  stores : s.out.Stores t.out new
  fits : t.out.len ≤ t.params.outCap

theorem State.Stored.trans {s t u : State} {x y : List Byte} (h : s.Stored t x) (h' : t.Stored u y) :
    s.Stored u (x ++ y) := ⟨h.same.trans h'.same, h.stores.trans h'.stores, h'.fits⟩

section
variable {s : State} {lim : Nat}

/-- `OutByte` stores its byte, or the OUT memory is smaller than any bound on the bytes stored (R182). -/
theorem ends_outByte (v : Byte) (hlim : s.out.len.toNat < lim) (hfits : s.out.len ≤ s.params.outCap) :
    (outByte v).Ends s (fun _ t => s.Stored t [v]) fun _ _ => s.params.outCap.toNat < lim := by
  rw [outByte, ends_writing]
  by_cases hcap : s.out.len = s.params.outCap
  · rw [ends_of_error (Output.outByte_full hcap), ← hcap]
    exact hlim
  · rw [ends_of_ok (Output.outByte_ok hcap)]
    have hlt : s.out.len.toNat + 1 < 2 ^ 32 := by
      have := s.params.outCap.isLt
      bv_omega
    have hlen : (s.out.len + 1).toNat = s.out.len.toNat + 1 := by bv_omega
    have hbyte {a : Nat} (ha : a < s.out.len.toNat + 1) := s.out.byte_append v s.out.acc s.out.accN hlt ha
    refine ⟨by constructor <;> simp, ⟨hlen, rfl, fun a ha => ?_, fun k hk => ?_⟩, by dsimp only; bv_omega⟩
    · exact (hbyte (by omega)).trans (if_neg (by omega))
    · obtain rfl : k = 0 := by simpa using hk
      exact congrArg some ((hbyte (by omega)).trans (if_pos rfl))

/-- The loop of `CopyPrefix` stores the input's bytes (R301). -/
theorem ends_copyBytes (a n : Nat) (hlim : s.out.len.toNat + n ≤ lim) (hfits : s.out.len ≤ s.params.outCap) :
    (copyBytes a n).Ends s (fun _ t => s.Stored t ((List.range' a n).map s.inp.byte))
      fun _ _ => s.params.outCap.toNat < lim := by
  induction n generalizing s a with
  | zero => exact ⟨.refl _ s, .refl _, hfits⟩
  | succ n ih =>
    rw [copyBytes, ends_bind, readIn, ends_bind, ends_get, ends_pure, ends_bind]
    refine (ends_outByte (s.inp.byte a) (by omega) hfits).mono (fun _ t ht => ?_) fun _ _ h => h
    have hlen := ht.stores.len
    rw [← ht.same.params]
    refine (ih (a + 1) (by rw [hlen, List.length_singleton]; omega) ht.fits).mono (fun _ u hu => ?_) fun _ _ h => h
    rw [ht.same.inp] at hu
    exact ht.trans hu

/-- The verbatim bytes (R301). -/
def State.verbatim (s : State) : List Byte := (List.range' 0 s.outOffset.toNat).map s.inp.byte

@[simp] theorem State.length_verbatim (s : State) : s.verbatim.length = s.outOffset.toNat := by simp [verbatim]

theorem ends_copyPrefix (hlim : s.out.len.toNat + s.outOffset.toNat ≤ lim) (hfits : s.out.len ≤ s.params.outCap) :
    copyPrefix.Ends s (fun _ t => s.Stored t s.verbatim) fun _ _ => s.params.outCap.toNat < lim := by
  rw [copyPrefix, ends_bind, ends_get]
  exact ends_copyBytes 0 _ hlim hfits

/-- The state in which a codec command has copied the verbatim bytes (R184, R301). -/
structure State.Prepared (s t : State) : Prop where
  same : SameBut { rd := true, out := true } s t
  rd : t.rd = { pos := 8 * s.inOffset.toNat, ovr := false }
  accN : t.out.accN = 0
  len : t.out.len = s.outOffset
  verbatim : ∀ a, a < s.outOffset.toNat → t.out.byte a = s.inp.byte a

/-- `BitInit` and `CopyPrefix` (R184, R301). -/
theorem ends_prepare {f : Unit → Engine State Unit} {Q : Unit → State → Prop} {E : Stop → State → Prop}
    (hlim : s.outOffset.toNat ≤ lim) (hQ : ∀ t, s.Prepared t → t.out.len ≤ t.params.outCap → (f ()).Ends t Q E)
    (hE : ∀ e t, s.params.outCap.toNat < lim → E e t) : (bitInit >>= fun _ => copyPrefix >>= f).Ends s Q E := by
  rw [ends_bind, ends_bitInit, ends_bind]
  refine (ends_copyPrefix (by simpa using hlim) (zero_le_word _)).mono (fun _ t ht => hQ t ?_ ht.fits)
    fun e t h => hE e t h
  obtain ⟨hsame, ⟨hlen, haccN, -, hstored⟩, -⟩ := ht
  simp only [State.length_verbatim, show (0 : Word).toNat = 0 from rfl, Nat.zero_add] at hlen hstored
  refine ⟨?_, hsame.rd.resolve_left nofun, haccN, BitVec.eq_of_toNat_eq hlen, fun a ha => ?_⟩
  · exact SameBut.trans (by constructor <;> simp) (hsame.mono (q := { rd := true, out := true }) (by constructor <;> simp))
  · have := hstored a ha
    rw [State.verbatim, List.getElem?_map, List.getElem?_range' (by exact ha)] at this
    simpa using this

end

end Sys2Proof.Machine
end

section
/-! SUPPORT. Reading one symbol of the LZSS stream (44_lzss_codec.md R310; 43_huffman.md R256, R262): the codes are
prefix codes, and so the bits at the cursor tell the symbol and its distance. -/

namespace Sys2Proof.Machine

open Engine

/-- The bits of a number below `2 ^ n` tell it. -/
theorem bitsOf_inj {n v w : Nat} (hv : v < 2 ^ n) (hw : w < 2 ^ n) (h : bitsOf n v = bitsOf n w) : v = w :=
  Nat.eq_of_testBit_eq fun k => by
    rcases Nat.lt_or_ge k n with hk | hk
    · exact testBit_eq_of_bitsOf h k hk
    · have hpow := Nat.pow_le_pow_right (n := 2) (by omega) hk
      rw [Nat.testBit_lt_two_pow (hv.trans_le hpow), Nat.testBit_lt_two_pow (hw.trans_le hpow)]

/-! ### Both codes are prefix codes -/

namespace HufTree

variable {t : HufTree}

/-- A walk that has ended at a leaf does not go on. -/
theorem walk_append {s : Slot} {bits rest : List Bool} {y z : Sym} (h : t.walk s bits = some y)
    (h' : t.walk s (bits ++ rest) = some z) : rest = [] ∧ y = z := by
  induction bits generalizing s with
  | nil =>
    unfold walk at h
    cases hs : t.son.get s with
    | node c => simp [hs] at h
    | leaf x => cases rest <;> simp_all [walk]
  | cons b bits ih =>
    rw [List.cons_append] at h'
    unfold walk at h h'
    cases hs : t.son.get s with
    | leaf x => simp [hs] at h
    | node c =>
      simp only [hs] at h h'
      exact ih h h'

/-- One codeword at most begins at a bit of the input (R127). -/
theorem walk_unique {s : Slot} {i : Input} {k m n : Nat} {y z : Sym} (h : t.walk s (i.bits k m) = some y)
    (h' : t.walk s (i.bits k n) = some z) : m = n ∧ y = z := by
  have hlen {j l : Nat} (hnil : i.bits j l = []) : l = 0 := (i.length_bits j l).symm.trans (congrArg List.length hnil)
  rcases Nat.le_total m n with hle | hle <;> obtain ⟨l, rfl⟩ := Nat.exists_eq_add_of_le hle
  · rw [Input.bits_add] at h'
    obtain ⟨hnil, rfl⟩ := walk_append h h'
    exact ⟨by rw [hlen hnil, Nat.add_zero], rfl⟩
  · rw [Input.bits_add] at h
    obtain ⟨hnil, rfl⟩ := walk_append h' h
    exact ⟨by rw [hlen hnil, Nat.add_zero], rfl⟩

/-- `HufDecode` on a sound tree (R256) reads the codeword at the cursor. -/
theorem Sound.decode_of_walk (ht : t.Sound) {i : Input} {r : Reader} {n : Nat} {y : Sym}
    (h : t.walk 628 (i.bits r.pos n) = some y) :
    0 < n ∧ t.decode i r = some (y, ⟨r.pos + n, r.ovr || decide (8 * i.len.toNat < r.pos + n)⟩) := by
  obtain ⟨z, m, hm, hwalk, hdecode⟩ := ht.decode_eq i r
  obtain ⟨rfl, rfl⟩ := walk_unique h hwalk
  rw [hdecode, Reader.getBits_reader]
  simp [hm]

end HufTree

/-- The upper 6 bits of a distance are told by the first 8 bits of any stream that begins with its code (R130). -/
theorem dCode_of_distanceCode {i : Input} {k d v : Nat} (hd : d < 4096)
    (h : i.bits k (distanceCode d).length = distanceCode d) (hv : i.bits k 8 = bitsOf 8 v) (hv8 : v < 2 ^ 8) :
    dCode v = d / 64 := by
  have hlen := pLen_bounds (d / 64)
  refine (dCode_of_prefix (u := d / 64) (by omega) (Nat.eq_of_testBit_eq fun j => ?_)).1
  rw [Nat.testBit_div_two_pow, pCodeword, Nat.testBit_div_two_pow]
  rcases Nat.lt_or_ge j (pLen (d / 64)) with hj | hj
  · have hcode := getElem?_distanceCode_prefix (d := d) (k := pLen (d / 64) - 1 - j) (by omega)
    rw [← h, Input.getElem?_bits (by rw [length_distanceCode]; omega)] at hcode
    have hbyte := getElem?_bitsOf (n := 8) (v := v) (k := pLen (d / 64) - 1 - j) (by omega)
    rw [← hv, Input.getElem?_bits (by omega)] at hbyte
    rw [show j + (8 - pLen (d / 64)) = 8 - 1 - (pLen (d / 64) - 1 - j) by omega, ← Option.some.inj hbyte,
      Option.some.inj hcode]
  · have hcode : pCode (d / 64) < 2 ^ 8 := by
      have := ((dCode_pCode_add (d / 64) (by omega)).2 0 (Nat.two_pow_pos _)).1
      omega
    have hpow : 2 ^ 8 ≤ 2 ^ (j + (8 - pLen (d / 64))) := Nat.pow_le_pow_right (by omega) (by omega)
    rw [Nat.testBit_lt_two_pow (hv8.trans_le hpow), Nat.testBit_lt_two_pow (hcode.trans_le hpow)]

/-- One distance code at most begins at a bit of the input (R124). -/
theorem distanceCode_unique {i : Input} {k d d' : Nat} (hd : d < 4096) (hd' : d' < 4096)
    (h : i.bits k (distanceCode d).length = distanceCode d) (h' : i.bits k (distanceCode d').length = distanceCode d') :
    d = d' := by
  have hv := ((Reader.mk k false).getBits_bits i 8).symm
  have hv8 := (Reader.mk k false).getBits_lt i 8
  have hhigh : d / 64 = d' / 64 := (dCode_of_distanceCode hd h hv hv8).symm.trans (dCode_of_distanceCode hd' h' hv hv8)
  have hcode : distanceCode d = distanceCode d' := by rw [← h, ← h', length_distanceCode, length_distanceCode, hhigh]
  have hlow : bitsOf 6 (d % 64) = bitsOf 6 (d' % 64) := by
    rw [distanceCode, distanceCode, hhigh] at hcode
    exact List.append_cancel_left hcode
  have hmod : d % 64 = d' % 64 := bitsOf_inj (n := 6) (by omega) (by omega) hlow
  omega

/-- `DecodePos` (R262) reads the distance code at the cursor. -/
theorem Reader.decodePos_of_code {i : Input} {r : Reader} {d : Nat} (hd : d < 4096)
    (h : i.bits r.pos (distanceCode d).length = distanceCode d) :
    r.decodePos i = some (d, ⟨r.pos + (distanceCode d).length,
      r.ovr || decide (8 * i.len.toNat < r.pos + (distanceCode d).length)⟩) := by
  obtain ⟨d', hd', hcode, hread⟩ := r.decodePos_eq i
  obtain rfl := distanceCode_unique hd hd' h (by rwa [length_distanceCode])
  rw [hread, length_distanceCode]

/-! ### A symbol with its update and distance (R310) -/

/-- Symbols that have a distance (R121, R122). -/
abbrev IsMatch (y : Sym) : Prop := 256 ≤ y.val ∧ y.val < 314

theorem Input.Reads.sound {i : Input} {e : Expansion} {y : Sym} {d pos : Nat} {tree : HufTree}
    (h : i.Reads e y d tree pos) (ht : e.tree.Sound) : tree.Sound := by
  obtain ⟨t, hupdate, hsound, -⟩ := HufTree.update_sound ht y
  obtain rfl := Option.some.inj (h.updated.symm.trans hupdate)
  exact hsound

/-- Each symbol has at least one bit (R256). -/
theorem Input.Reads.lt {i : Input} {e : Expansion} {y : Sym} {d pos : Nat} {tree : HufTree}
    (h : i.Reads e y d tree pos) (ht : e.tree.Sound) : e.pos < pos := by
  obtain ⟨n, hwalk, hcode⟩ := h.codes
  have hn := (ht.decode_of_walk (r := ⟨e.pos, false⟩) hwalk).1
  split at hcode <;> omega

/-- A symbol begins at every bit: the walk down a sound tree ends, and after a match the distance code does (R256, R262). -/
theorem Input.exists_reads (i : Input) {e : Expansion} (ht : e.tree.Sound) :
    ∃ y d tree pos, d < 4096 ∧ (¬ IsMatch y → d = 0) ∧ i.Reads e y d tree pos := by
  obtain ⟨y, n, -, hwalk, -⟩ := ht.decode_eq i ⟨e.pos, false⟩
  obtain ⟨tree, hupdate, -⟩ := HufTree.update_sound ht y
  by_cases hy : IsMatch y
  · obtain ⟨d, hd, hcode, -⟩ := (Reader.mk (e.pos + n) false).decodePos_eq i
    rw [← length_distanceCode] at hcode
    exact ⟨y, d, tree, _, hd, fun h => absurd hy h, hupdate, n, hwalk, by rw [if_pos hy]; exact ⟨hd, hcode, rfl⟩⟩
  · exact ⟨y, 0, tree, _, by omega, fun _ => rfl, hupdate, n, hwalk, by rw [if_neg hy]⟩

/-- What follows `HufDecode`, `HufUpdate` and `DecodePos` when the input has symbol `y` at the cursor (R310). -/
theorem ends_expandStep_of_reads {s : State} {e : Expansion} {y : Sym} {d pos : Nat} {tree : HufTree} {size : Option Nat}
    {c : Decoding} {Q : Option Decoding → State → Prop} {E : Stop → State → Prop} (ht : s.huf.Sound)
    (htree : s.huf = e.tree) (hpos : s.rd.pos = e.pos) (h : s.inp.Reads e y d tree pos)
    (hsymbol : ∀ d', (IsMatch y → d' = d) → (expandSymbol size y d' c).Ends
      { s with huf := tree, rd := ⟨pos, s.rd.ovr || decide (8 * s.inp.len.toNat < pos)⟩ } Q E) :
    (expandStep size c).Ends s Q E := by
  obtain ⟨hupdate, n, hwalk, hcode⟩ := h
  rw [← htree] at hupdate hwalk
  rw [← hpos] at hwalk hcode
  rw [expandStep, ends_bind, ends_hufDecode (ht.decode_of_walk hwalk).2, ends_bind]
  refine (ends_hufUpdate (t := tree) ?_).2 ?_
  · exact hupdate
  rw [ends_bind, readDistance, ends_ite]
  by_cases hy : IsMatch y
  · rw [if_pos hy] at hcode ⊢
    obtain ⟨hd, hbits, rfl⟩ := hcode
    have hread := Reader.decodePos_of_code
      (r := ⟨s.rd.pos + n, s.rd.ovr || decide (8 * s.inp.len.toNat < s.rd.pos + n)⟩) hd hbits
    have hovr : (s.rd.ovr || decide (8 * s.inp.len.toNat < s.rd.pos + n) ||
        decide (8 * s.inp.len.toNat < s.rd.pos + n + (distanceCode d).length)) =
        (s.rd.ovr || decide (8 * s.inp.len.toNat < s.rd.pos + n + (distanceCode d).length)) := by
      rw [Bool.or_assoc, ← Bool.decide_or]
      congr 2
      rw [eq_iff_iff]
      omega
    dsimp only at hread
    rw [hovr] at hread
    refine (ends_decodePos (d := d) ?_).2 (hsymbol d fun _ => rfl)
    exact hread
  · rw [if_neg hy] at hcode ⊢
    subst hcode
    exact hsymbol 0 fun h => absurd h hy

end Sys2Proof.Machine
end

section
/-! SUPPORT. The bytes of one symbol (44_lzss_codec.md R310, R312): `Emit` writes what the symbol means, to the output and
to the window. -/

namespace Sys2Proof.Machine

open Engine

/-! ### The window's bytes after some bytes of an expansion -/

/-- How far a position lies behind another, modulo `N`. -/
theorem pos_sub_val (q r : Pos) : (q - r).val = (q.val + 4096 - r.val) % 4096 := by
  rw [Fin.sub_def]
  dsimp only
  congr 1
  omega

theorem pos_add_val (r : Pos) (n : Nat) : (r + Fin.ofNat 4096 n).val = (r.val + n) % 4096 := by
  rw [Fin.val_add, Fin.val_ofNat, Nat.add_mod_mod]

/-- The bytes put lie from the write position on, and the other ones stay (R312). -/
theorem Expansion.putAll_win_get (e : Expansion) {new : List Byte} (h : new.length ≤ 4096) (q : Pos) :
    (e.putAll new).win.get q = new[(q - e.r).val]?.getD (e.win.get q) := by
  induction new using List.reverseRecOn with
  | nil => rfl
  | append_singleton new b ih =>
    rw [List.length_append, List.length_singleton] at h
    rw [putAll_append, putAll_cons, putAll_nil, put_win, Table.get_set, ih (by omega)]
    have hr := e.putAll_r new
    have hq := pos_sub_val q e.r
    have hlt := q.isLt
    have hlt' := e.r.isLt
    by_cases hqr : q = (e.putAll new).r
    · have hval : (q - e.r).val = new.length := by
        rw [hqr] at hq ⊢
        omega
      rw [if_pos hqr, hval, List.getElem?_append_right (Nat.le_refl _), Nat.sub_self]
      rfl
    · have hne : (q - e.r).val ≠ new.length := fun hval => hqr (Fin.ext (by omega))
      rw [if_neg hqr]
      rcases Nat.lt_or_gt_of_ne hne with hval | hval
      · rw [List.getElem?_append_left hval]
      · rw [List.getElem?_eq_none hval.le, List.getElem?_eq_none (by simpa using hval)]

/-- The source of byte `k` of a match with distance `d` (R123), counted from the write position. -/
theorem source_offset (r : Pos) {d k : Nat} (hd : d < 4096) (hk : k < 4096) :
    (source r d + Fin.ofNat 4096 k - r).val = if k ≤ d then 4095 + k - d else k - d - 1 := by
  have hr := r.isLt
  rw [pos_sub_val, pos_add_val, source, Fin.val_ofNat]
  split <;> omega

/-- The next byte of a match is the window's byte at its source, when the bytes before it have been written (R312). -/
theorem Expansion.Means.next {e : Expansion} {y : Sym} {d : Nat} {pre rest : List Byte} {b : Byte}
    (h : e.Means y d (pre ++ b :: rest)) (hy : 256 ≤ y.val) (hd : d < 4096) :
    (e.putAll pre).win.get (source e.r d + Fin.ofNat 4096 pre.length) = b := by
  have hlen := h.length hy
  have hlt := y.isLt
  rw [List.length_append, List.length_cons] at hlen
  rw [Expansion.Means, if_neg (by omega)] at h
  have hb := h.2 pre.length (by simp)
  rw [List.getElem?_append_right (Nat.le_refl _), Nat.sub_self, List.getElem?_cons_zero] at hb
  rw [putAll_win_get e (by omega), source_offset e.r hd (by omega)]
  split at hb <;> rename_i hk
  · rw [if_pos hk, List.getElem?_eq_none (by omega), Option.getD_none]
    exact (Option.some.inj hb).symm
  · rw [if_neg hk]
    rw [List.getElem?_append_left (by omega)] at hb
    rw [← hb, Option.getD_some]

/-! ### `Emit` (R312) -/

/-- The bytes `new` were put out and a window `win` left; the reader and the tree may have moved before. -/
structure State.Emits (s t : State) (new : List Byte) : Prop where
  same : SameBut Bounded.lzhParts s t
  stores : s.out.Stores t.out new
  fits : t.out.len ≤ t.params.outCap

theorem State.Emits.refl {s : State} (h : s.out.len ≤ s.params.outCap) : s.Emits s [] := ⟨.refl _ s, .refl _, h⟩

theorem State.Emits.trans {s t u : State} {x y : List Byte} (h : s.Emits t x) (h' : t.Emits u y) : s.Emits u (x ++ y) :=
  ⟨h.same.trans h'.same, h.stores.trans h'.stores, h'.fits⟩

section
variable {s : State} {lim : Nat}

theorem ends_emitByte (b : Byte) (c : Decoding) (hlim : s.out.len.toNat < lim) (hfits : s.out.len ≤ s.params.outCap) :
    (emitByte b c).Ends s
      (fun c' t => c' = ⟨c.r + 1, c.count + 1⟩ ∧ s.Emits t [b] ∧ t.win.win = s.win.win.set c.r b ∧ t.huf = s.huf ∧
        t.rd = s.rd)
      fun _ _ => s.params.outCap.toNat < lim := by
  rw [emitByte, ends_bind]
  refine (ends_outByte b hlim hfits).mono (fun _ t ht => ?_) fun _ _ h => h
  obtain ⟨hsame, hstores, hfits'⟩ := ht
  rw [ends_bind, writeWin, ends_modify, ends_pure]
  refine ⟨rfl, ⟨?_, hstores, hfits'⟩, ?_, hsame.huf.resolve_left nofun, hsame.rd.resolve_left nofun⟩
  · exact (hsame.mono (q := Bounded.lzhParts) (by constructor <;> simp [Bounded.lzhParts])).trans
      (by constructor <;> simp [Bounded.lzhParts])
  · rw [hsame.win.resolve_left nofun]

/-- The copy loop writes the bytes of a match that are still to come (R312). -/
theorem ends_copyMatch {e : Expansion} {y : Sym} {d : Nat} {pre rest : List Byte} {c : Decoding}
    (hm : e.Means y d (pre ++ rest)) (hy : 256 ≤ y.val) (hd : d < 4096) (hwin : s.win.win = (e.putAll pre).win)
    (hr : c.r = (e.putAll pre).r) (hlim : s.out.len.toNat + rest.length ≤ lim) (hfits : s.out.len ≤ s.params.outCap) :
    (copyMatch rest.length (source e.r d + Fin.ofNat 4096 pre.length) c).Ends s
      (fun c' t => c' = ⟨(e.putAll (pre ++ rest)).r, c.count + rest.length⟩ ∧ s.Emits t rest ∧
        t.win.win = (e.putAll (pre ++ rest)).win ∧ t.huf = s.huf ∧ t.rd = s.rd)
      fun _ _ => s.params.outCap.toNat < lim := by
  induction rest generalizing s pre c with
  | nil =>
    rw [List.append_nil]
    exact ⟨by rw [← hr]; rfl, .refl hfits, hwin, rfl, rfl⟩
  | cons b rest ih =>
    rw [List.length_cons] at hlim ⊢
    rw [copyMatch, ends_bind, ends_get, hwin, hm.next hy hd, ends_bind]
    refine (ends_emitByte b c (by omega) hfits).mono (fun c' t ⟨hc, hemits, hwin', hhuf, hrd⟩ => ?_) fun _ _ h => h
    subst hc
    have hput : (e.putAll (pre ++ [b])) = (e.putAll pre).put b := Expansion.putAll_append e pre [b]
    have hsrc : source e.r d + Fin.ofNat 4096 pre.length + 1 = source e.r d + Fin.ofNat 4096 (pre ++ [b]).length := by
      rw [List.length_append, List.length_singleton, add_assoc]
      congr 1
      exact Fin.ext (by rw [Fin.val_add, Fin.val_ofNat, Fin.val_ofNat]; omega)
    have hlen := hemits.stores.len
    rw [List.length_singleton] at hlen
    rw [hsrc, ← hemits.same.params]
    refine (ih (pre := pre ++ [b]) (by rwa [List.append_assoc]) ?_ ?_ (by omega) hemits.fits).mono
      (fun c'' u ⟨hc, hemits', hwin'', hhuf', hrd'⟩ => ?_) fun _ _ h => h
    · rw [hput, hwin', hwin, hr]
      rfl
    · rw [hput, Expansion.put_r, ← hr]
    · rw [List.append_assoc] at hc hwin''
      refine ⟨hc.trans ?_, hemits.trans hemits', hwin'', hhuf'.trans hhuf, hrd'.trans hrd⟩
      rw [Nat.add_assoc, Nat.add_comm 1]
      rfl

end

/-! ### One symbol of the loop (R310) -/

/-- The machine stands at `e` in its decoding loop. -/
structure State.StandsAt (s : State) (e : Expansion) (c : Decoding) : Prop where
  tree : s.huf = e.tree
  win : s.win.win = e.win
  r : c.r = e.r
  pos : s.rd.pos = e.pos
  ovr : s.rd.ovr = decide (8 * s.inp.len.toNat < e.pos)
  count : c.count = e.bytes.length

/-- The length that `Means` gives a symbol's bytes is the one R310 counts. -/
theorem Expansion.Means.symbolLength {e : Expansion} {y : Sym} {d : Nat} {new : List Byte} (h : e.Means y d new) :
    Machine.symbolLength y = new.length := by
  unfold Machine.symbolLength
  split
  · next hy => rw [Expansion.Means, if_pos hy] at h; rw [h]; rfl
  · next hy =>
    rw [h.length (by omega)]
    omega

section
variable {s : State} {lim : Nat} {e : Expansion} {c : Decoding} {y : Sym} {d pos : Nat} {tree : HufTree}
  {new : List Byte} {size : Option Nat}

/-- The reader's note of a read past the end, after more bits have been read (R49, R180). -/
theorem State.StandsAt.ovr_or (h : s.StandsAt e c) (hpos : e.pos ≤ pos) :
    (s.rd.ovr || decide (8 * s.inp.len.toNat < pos)) = decide (8 * s.inp.len.toNat < pos) := by
  rw [h.ovr, ← Bool.decide_or]
  congr 1
  rw [eq_iff_iff]
  omega

/-- `Emit` of a symbol (R312). -/
theorem ends_emit (hm : e.Means y d new) (hd : 256 ≤ y.val → d < 4096) (hwin : s.win.win = e.win) (hr : c.r = e.r)
    (hlim : s.out.len.toNat + new.length ≤ lim) (hfits : s.out.len ≤ s.params.outCap) :
    (emit y d (symbolLength y) c).Ends s
      (fun c' t => c' = ⟨(e.putAll new).r, c.count + new.length⟩ ∧ s.Emits t new ∧ t.win.win = (e.putAll new).win ∧
        t.huf = s.huf ∧ t.rd = s.rd)
      fun _ _ => s.params.outCap.toNat < lim := by
  rw [hm.symbolLength, emit, ends_ite]
  split
  · next hy =>
    rw [Expansion.Means, if_pos hy] at hm
    subst hm
    rw [List.length_singleton] at hlim
    refine (ends_emitByte _ c (by omega) hfits).mono (fun c' t ⟨hc, hemits, hwin', hhuf, hrd⟩ => ?_) fun _ _ h => h
    rw [hr, hwin] at hwin'
    exact ⟨by rw [hc, hr]; rfl, hemits, hwin', hhuf, hrd⟩
  · next hy =>
    have hsrc : source e.r d = source e.r d + Fin.ofNat 4096 ([] : List Byte).length := (add_zero _).symm
    rw [hr, hsrc]
    exact ends_copyMatch (pre := []) hm (by omega) (hd (by omega)) hwin hr hlim hfits

end

end Sys2Proof.Machine
end

section
/-! SUPPORT. The decoding loop (44_lzss_codec.md R310) follows `Input.Expands`: from a point of an expansion the loop goes
on as it does from any point the input's symbols lead to. -/

namespace Sys2Proof.Machine

open Engine

section
variable {s : State} {lim : Nat} {e e' : Expansion} {c : Decoding} {y : Sym} {d pos : Nat} {tree : HufTree}
  {new : List Byte} {size : Option Nat}

/-- A symbol and its bytes that the checks of R310 let pass. -/
theorem ends_expandStep_of_means (hs : s.StandsAt e c) (ht : e.tree.Sound) (hread : s.inp.Reads e y d tree pos)
    (hy : y ≠ 314) (hm : e.Means y d new) (hsize : ∀ n, size = some n → e.bytes.length + new.length ≤ n)
    (hovr : size.isSome → pos ≤ 8 * s.inp.len.toNat) (hmax : e.bytes.length + new.length ≤ s.maxExpanded.toNat)
    (hlim : s.out.len.toNat + new.length ≤ lim) (hfits : s.out.len ≤ s.params.outCap) :
    (expandStep size c).Ends s
      (fun o t => ∃ c', o = some c' ∧ t.StandsAt (Expansion.putAll { e with tree := tree, pos := pos } new) c' ∧
        s.Emits t new)
      fun _ _ => s.params.outCap.toNat < lim := by
  refine ends_expandStep_of_reads (hs.tree ▸ ht) hs.tree hs.pos hread fun d' hd' => ?_
  have hm' : Expansion.Means { e with tree := tree, pos := pos } y d' new := by
    by_cases hlit : y.val < 256
    · rw [Expansion.Means, if_pos hlit] at hm ⊢
      exact hm
    · have hne : y.val ≠ 314 := fun h => hy (Fin.ext h)
      rw [hd' ⟨by omega, by omega⟩]
      exact hm
  have hdist : 256 ≤ y.val → d' < 4096 := fun h => by
    have hne : y.val ≠ 314 := fun h => hy (Fin.ext h)
    obtain ⟨n, -, hcode⟩ := hread.codes
    rw [if_pos ⟨h, by omega⟩] at hcode
    rw [hd' ⟨h, by omega⟩]
    exact hcode.1
  have hpass : ¬ passesSize size (c.count + symbolLength y) = true := by
    rw [hs.count, hm.symbolLength]
    cases size with
    | none => exact Bool.false_ne_true
    | some n => exact fun h => by have := of_decide_eq_true h; have := hsize n rfl; omega
  rw [hs.ovr_or hread.le, expandSymbol, ends_bind, ends_get, ends_bind, ends_raiseIf, if_neg ?_, ends_ite,
    if_neg (show ¬ y = eos from hy), ends_bind, ends_raiseIf, if_neg hpass, ends_bind, ends_raiseIf, if_neg ?_, ends_bind]
  · refine (ends_emit (s := { s with rd := _, huf := tree }) hm' hdist hs.win hs.r hlim hfits).mono
      (fun c' t ⟨hc, hemits, hwin, hhuf, hrd⟩ => ?_) fun _ _ h => h
    refine ⟨c', rfl, ⟨?_, hwin, ?_, ?_, ?_, ?_⟩, ⟨?_, hemits.stores, hemits.fits⟩⟩
    · rw [hhuf, Expansion.putAll_tree]
    · rw [hc]
    · rw [hrd, Expansion.putAll_pos]
    · rw [hrd, hemits.same.inp, Expansion.putAll_pos]
    · rw [hc, hs.count, Expansion.putAll_bytes, List.length_append]
    · exact SameBut.trans (by constructor <;> simp [Bounded.lzhParts]) hemits.same
  · rw [hs.count, hm.symbolLength]
    exact Nat.not_lt.2 hmax
  · rintro ⟨hsome, hlate⟩
    have := of_decide_eq_true hlate
    have := hovr hsome
    omega

/-- A symbol keeps the number of passes that suffice above the passes left (R310). -/
theorem Decoding.Within.symbol {n : Nat} {c' : Decoding} {t : State} (h : c.Within size (n + 1) s) (hs : s.StandsAt e c)
    (ht : t.StandsAt (Expansion.putAll { e with tree := tree, pos := pos } new) c') (hinp : t.inp = s.inp)
    (hpos : e.pos < pos) (hm : e.Means y d new) (hsize : ∀ m, size = some m → e.bytes.length + new.length ≤ m) :
    c'.Within size n t := by
  have hcount := ht.count
  have hpos' := ht.pos
  rw [Expansion.putAll_bytes, List.length_append] at hcount
  rw [Expansion.putAll_pos] at hpos'
  dsimp only at hcount
  have hone := hm.pos
  refine h.next hinp ?_ ?_ fun m hm' => ?_
  · rw [hs.pos, hpos']
    exact hpos
  · rw [hs.count, hcount]
    omega
  · rw [hcount]
    exact hsize m hm'

/-- The caps let pass what an expansion has produced at `e` (R310, R311). -/
structure State.Allows (s : State) (size : Option Nat) (e : Expansion) : Prop where
  size : ∀ n, size = some n → e.bytes.length ≤ n ∧ e.pos ≤ 8 * s.inp.len.toNat
  max : e.bytes.length ≤ s.maxExpanded.toNat

/-- The loop has reached `e'`, with the bytes `new` put out on the way and passes enough left. -/
structure State.Reached (s : State) (e' : Expansion) (size : Option Nat) (new : List Byte) (t : State) (c : Decoding)
    (n : Nat) : Prop where
  emits : s.Emits t new
  stands : t.StandsAt e' c
  within : c.Within size n t
  sound : e'.tree.Sound

theorem Input.Expands.sound {i : Input} (h : i.Expands e e') (ht : e.tree.Sound) : e'.tree.Sound := by
  induction h with
  | none e => exact ht
  | symbol e e' y d tree pos new _ hr _ _ _ ih =>
    rw [Expansion.putAll_tree] at ih
    exact ih (hr.sound ht)

theorem Input.Expands.length_le {i : Input} (h : i.Expands e e') : e.bytes.length ≤ e'.bytes.length := by
  induction h with
  | none e => exact Nat.le_refl _
  | symbol e e' y d tree pos new _ _ _ _ _ ih =>
    rw [Expansion.putAll_bytes, List.length_append] at ih
    exact Nat.le_of_add_right_le ih

/-- The exit tests of the loop let a symbol be read (R310). -/
theorem expandDone_of_more (hs : s.StandsAt e c) (hpos : e.pos < 8 * s.inp.len.toNat)
    (hsize : ∀ n, size = some n → e.bytes.length < n) : ¬ expandDone size c s = true := by
  unfold expandDone
  cases size with
  | none =>
    dsimp only
    rw [hs.pos, decide_eq_true_eq]
    omega
  | some n =>
    have := hsize n rfl
    dsimp only
    rw [hs.count, decide_eq_true_eq]
    omega

/-- One pass of the loop that is not its last. -/
theorem ends_expandLoop_step {n : Nat} {Q : Decoding → State → Prop} {E : Stop → State → Prop}
    (hdone : ¬ expandDone size c s = true) (h : (expandStep size c).Ends s
      (fun o t => match o with
        | none => Q c t
        | some c' => (expandLoop size n c').Ends t Q E) E) : (expandLoop size (n + 1) c).Ends s Q E := by
  rw [expandLoop, ends_bind, ends_get, ends_ite, if_neg hdone, ends_bind]
  refine h.mono (fun o t h => ?_) fun _ _ h => h
  cases o with
  | none => exact h
  | some c' => exact h

/-- The loop follows the input's symbols (R310): what it ends with from wherever it can stand at `e'`, it ends with from
`e`. -/
theorem ends_expandLoop_of_expands {i : Input} {n : Nat} {Q : Decoding → State → Prop} {E : Stop → State → Prop}
    (h : i.Expands e e') (hi : s.inp = i) (hs : s.StandsAt e c) (ht : e.tree.Sound) (hn : c.Within size n s)
    (hallows : s.Allows size e') (hfits : s.out.len ≤ s.params.outCap)
    (hlim : s.out.len.toNat + (e'.bytes.length - e.bytes.length) ≤ s.params.outCap.toNat)
    (hend : ∀ new t c' m, e'.bytes = e.bytes ++ new → s.Reached e' size new t c' m → (expandLoop size m c').Ends t Q E) :
    (expandLoop size n c).Ends s Q E := by
  induction h generalizing s c n with
  | none e => exact hend [] s c n (List.append_nil _).symm ⟨.refl hfits, hs, hn, ht⟩
  | symbol e e' y d tree pos new hpos hr hy hm hrest ih =>
    subst hi
    have hlength := hrest.length_le
    have hle := hrest.pos_le
    have hone := hm.pos
    rw [Expansion.putAll_bytes, List.length_append] at hlength
    rw [Expansion.putAll_pos] at hle
    dsimp only at hlength
    obtain ⟨hsize, hmax⟩ := hallows
    have hsize' : ∀ m, size = some m → e.bytes.length + new.length ≤ m := fun m hm => by
      have := (hsize m hm).1
      omega
    have hdone := expandDone_of_more hs hpos fun m hm => by have := hsize' m hm; omega
    cases n with
    | zero => exact absurd hn.done hdone
    | succ n =>
      refine ends_expandLoop_step hdone ?_
      refine (ends_expandStep_of_means (lim := s.params.outCap.toNat) hs ht hr hy hm hsize' (fun hsome => ?_)
        (hlength.trans hmax) (by omega) hfits).mono (fun o t ⟨c', ho, hs', hemits⟩ => ?_)
        fun _ _ h => absurd h (Nat.lt_irrefl _)
      · obtain ⟨m, hm⟩ := Option.isSome_iff_exists.1 hsome
        exact hle.trans (hsize m hm).2
      · subst ho
        have hlen := hemits.stores.len
        refine ih hemits.same.inp hs' (by rw [Expansion.putAll_tree]; exact hr.sound ht)
          (hn.symbol hs hs' hemits.same.inp (hr.lt ht) hm hsize') ⟨?_, ?_⟩ hemits.fits ?_ ?_
        · rw [hemits.same.inp]
          exact hsize
        · rw [hemits.same.maxExpanded]
          exact hmax
        · rw [hemits.same.params, hlen, Expansion.putAll_bytes, List.length_append]
          dsimp only
          omega
        · intro more u c'' m hbytes ⟨hemits', hs'', hn', ht'⟩
          rw [Expansion.putAll_bytes, List.append_assoc] at hbytes
          exact hend _ u c'' m hbytes ⟨hemits.trans hemits', hs'', hn', ht'⟩

end

end Sys2Proof.Machine
end

section
/-! SUPPORT. `LZH_EXPAND` (44_lzss_codec.md R301, R309 to R312, R321): what precedes its decoding loop, and how a loop that
the input's symbols have brought to a point ends. -/

namespace Sys2Proof.Machine

open Engine

/-! ### Whole bytes read through the bit reader (R85, R309) -/

/-- The bits of a byte of the input, in stream order (R53, R85). -/
theorem Input.bits_byte {i : Input} {a : Nat} (ha : a < i.len.toNat) :
    i.bits (8 * a) 8 = bitsOf 8 (i.byte a).toNat := by
  refine List.ext_getElem? fun k => ?_
  rcases Nat.lt_or_ge k 8 with hk | hk
  · rw [getElem?_bits hk, getElem?_bitsOf hk, BitVec.testBit_toNat, bit, show (8 * a + k) / 8 = a by omega,
      show (8 * a + k) % 8 = k by omega, decide_eq_true ha, Bool.true_and]
  · rw [List.getElem?_eq_none (by simpa using hk), List.getElem?_eq_none (by simpa using hk)]

/-- Eight bits read at a byte boundary within the input are that byte (R309). -/
theorem Reader.getBits_byte {i : Input} {a : Nat} (ha : a < i.len.toNat) :
    Reader.getBits i 8 ⟨8 * a, false⟩ = ((i.byte a).toNat, ⟨8 * (a + 1), false⟩) := by
  refine Prod.ext ?_ ?_
  · exact bitsOf_inj (getBits_lt i 8 _) (BitVec.isLt _) ((getBits_bits i 8 _).trans (Input.bits_byte ha))
  · rw [getBits_reader]
    simp only [Reader.mk.injEq, Bool.false_or, decide_eq_false_iff_not]
    omega

section
variable {s : State} {E : Stop → State → Prop}

theorem ends_getBits_byte {a : Nat} (hrd : s.rd = ⟨8 * a, false⟩) (ha : a < s.inp.len.toNat)
    {Q : Nat → State → Prop} :
    (getBits 8).Ends s Q E ↔ Q (s.inp.byte a).toNat { s with rd := ⟨8 * (a + 1), false⟩ } := by
  rw [getBits, ends_reading, hrd, Reader.getBits_byte ha]

/-- The header's four bytes are there, and `readHeader` checks the size they spell (R309). -/
theorem ends_readHeader {a : Nat} {Q : Option Nat → State → Prop} (hhdr : s.hdr = true) (hrd : s.rd = ⟨8 * a, false⟩)
    (ha : s.inOffset.toNat = a) (hlen : a + 4 ≤ s.inp.len.toNat) :
    readHeader.Ends s Q E ↔
      if s.maxExpanded.toNat < s.inp.sizeAt a then E (.raise .sizeExceeded) { s with rd := ⟨8 * a + 32, false⟩ }
      else Q (some (s.inp.sizeAt a)) { s with rd := ⟨8 * a + 32, false⟩ } := by
  rw [readHeader, ends_bind, ends_get, if_pos hhdr, ends_bind, ends_raiseIf, if_neg (by omega), ends_bind,
    ends_getBits_byte hrd (by omega), ends_bind, ends_getBits_byte rfl (by dsimp only; omega), ends_bind,
    ends_getBits_byte rfl (by dsimp only; omega), ends_bind, ends_getBits_byte rfl (by dsimp only; omega), ends_bind,
    ends_raiseIf]
  exact Iff.rfl

end

/-! ### Before the loop -/

/-- What follows the header (R310, R321). -/
def expandRest (size : Option Nat) : Engine State Unit := do
  hufInit
  winInit
  let s ← get
  let c ← expandLoop size (expandBound size s) { r := 4036, count := 0 }
  modify fun s => { s with r := c.r }
  reportExpand

theorem lzhExpand_eq : lzhExpand = (checkOffsets >>= fun _ => bitInit >>= fun _ => copyPrefix >>= fun _ =>
    readHeader >>= expandRest) := rfl

section
variable {s t : State} {size : Option Nat} {start pos m : Nat} {e : Expansion} {c : Decoding} {tree : HufTree}
  {E : Stop → State → Prop}

theorem ends_lzhExpand_prepared {Q : Unit → State → Prop} (hrange : s.OffsetsInRange)
    (hcap : s.outOffset.toNat ≤ s.params.outCap.toNat)
    (h : ∀ t, s.Prepared t → t.out.len ≤ t.params.outCap → (readHeader >>= expandRest).Ends t Q E) :
    lzhExpand.Ends s Q E := by
  rw [lzhExpand_eq, ends_bind, ends_checkOffsets hrange]
  exact ends_prepare hcap h fun _ _ hlt => absurd hlt (Nat.lt_irrefl _)

/-- The loop of an `LZH_EXPAND` started in `s` has come to `e`: the machine stands there with passes enough left, and the
output is the verbatim bytes and those of `e`. -/
structure State.ExpandsTo (s : State) (size : Option Nat) (e : Expansion) (t : State) (c : Decoding) (n : Nat) : Prop where
  same : SameBut Bounded.lzhParts s t
  stands : t.StandsAt e c
  within : c.Within size n t
  sound : e.tree.Sound
  len : t.out.len.toNat = s.outOffset.toNat + e.bytes.length
  accN : t.out.accN = 0
  verbatim : ∀ a, a < s.outOffset.toNat → t.out.byte a = s.inp.byte a
  bytes : ∀ k, k < e.bytes.length → some (t.out.byte (s.outOffset.toNat + k)) = e.bytes[k]?

/-- `readHeader` finds the declared size `size` and leaves the reader at bit `start` (R309). -/
def State.HasHeader (s : State) (size : Option Nat) (start : Nat) : Prop :=
  ∀ t, s.Prepared t → readHeader.Ends t
    (fun o u => o = size ∧ SameBut { rd := true } t u ∧ u.rd = ⟨start, false⟩) fun _ _ => False

/-- The end of `LZH_EXPAND` after its loop (R310, R321). -/
def expandResults (c : Decoding) (s : State) : State :=
  { s with
    r := c.r
    res0 := BitVec.ofNat 32 (min s.inp.len.toNat ((s.rd.pos + 7) / 8) - s.inOffset.toNat)
    res1 := s.out.len - s.outOffset }

/-- `LZH_EXPAND` ends as its loop does from the point the input's symbols lead to (R310). -/
theorem ends_lzhExpand {Q : Unit → State → Prop} (hrange : s.OffsetsInRange) (hheader : s.HasHeader size start)
    (hstart : start ≤ 8 * s.inp.len.toNat) (hexp : s.inp.Expands (.start s.fill start) e) (hallows : s.Allows size e)
    (hroom : s.outOffset.toNat + e.bytes.length ≤ s.params.outCap.toNat)
    (hend : ∀ t c n, s.ExpandsTo size e t c n →
      (expandLoop size n c).Ends t (fun c' u => Q () (expandResults c' u)) E) : lzhExpand.Ends s Q E := by
  refine ends_lzhExpand_prepared hrange (by omega) fun t ht hfits => ?_
  rw [ends_bind]
  refine (hheader t ht).mono (fun o u ⟨ho, hsame, hrd⟩ => ?_) fun _ _ h => h.elim
  subst ho
  have hbefore : SameBut Bounded.lzhParts s u :=
    (ht.same.mono (q := Bounded.lzhParts) (by constructor <;> simp [Bounded.lzhParts])).trans
      (hsame.mono (q := Bounded.lzhParts) (by constructor <;> simp [Bounded.lzhParts]))
  have hout : u.out = t.out := hsame.out.resolve_left nofun
  have hfill : u.fill = s.fill := congrArg (BitVec.extractLsb' 8 8) hbefore.opt
  have hparams := hsame.params
  have hlen := congrArg BitVec.toNat ht.len
  rw [expandRest, ends_bind, hufInit, ends_modify, ends_bind, winInit, ends_modify, ends_bind, ends_get, ends_bind]
  have hfrom : SameBut Bounded.lzhParts s { u with huf := .initial, win := .initial u.fill } :=
    hbefore.trans (by constructor <;> simp [Bounded.lzhParts])
  refine ends_expandLoop_of_expands hexp hbefore.inp ⟨rfl, ?_, rfl, ?_, ?_, rfl⟩ HufTree.initial_sound
    (.start o _ 4036) ⟨?_, ?_⟩ ?_ ?_ fun new v c n hbytes hreached => ?_
  · exact congrArg (fun f => (Window.initial f).win) hfill
  · exact congrArg Reader.pos hrd
  · refine (congrArg Reader.ovr hrd).trans (decide_eq_false (Nat.not_lt.2 ?_)).symm
    rw [hfrom.inp]
    exact hstart
  · rw [hfrom.inp]
    exact hallows.size
  · rw [hfrom.maxExpanded]
    exact hallows.max
  · dsimp only
    rw [hout, hparams]
    exact hfits
  · dsimp only
    rw [hout, hbefore.params, hlen]
    exact hroom
  · obtain ⟨⟨hemits, hstores, -⟩, hstands, hwithin, hsound⟩ := hreached
    dsimp only [Expansion.start, List.nil_append] at hbytes hstores
    subst hbytes
    rw [hout] at hstores
    refine hend v c n ⟨hfrom.trans hemits, hstands, hwithin, hsound, ?_, ?_, fun a ha => ?_, fun k hk => ?_⟩
    · rw [hstores.len, hlen]
    · rw [hstores.accN, ht.accN]
    · rw [hstores.before a (by rwa [hlen]), ht.verbatim a ha]
    · rw [← hstores.stored k hk, hlen]

/-! ### How the loop ends -/

/-- Where an expansion stops at `e` without an error (R310), and the tree and the next bit it leaves. -/
def Input.Stops (i : Input) (size : Option Nat) (e : Expansion) (tree : HufTree) (pos : Nat) : Prop :=
  match size with
  | some n => e.bytes.length = n ∧ tree = e.tree ∧ pos = e.pos
  | none => (8 * i.len.toNat ≤ e.pos ∧ tree = e.tree ∧ pos = e.pos) ∨
      (e.pos < 8 * i.len.toNat ∧ i.Reads e 314 0 tree pos)

theorem ends_expandLoop_done {n : Nat} {Q : Decoding → State → Prop} (h : expandDone size c s = true) (hq : Q c s) :
    (expandLoop size n c).Ends s Q E := by
  rw [expandLoop.eq_def, ends_bind, ends_get, ends_ite, if_pos h]
  exact hq

/-- A pass that is not over at once needs a pass. -/
theorem Decoding.Within.exists_succ {n : Nat} (h : c.Within size n s) (hdone : ¬ expandDone size c s = true) :
    ∃ k, n = k + 1 := by
  cases n with
  | zero => exact absurd h.done hdone
  | succ k => exact ⟨k, rfl⟩

/-- The symbol at `e` is the loop's last (R310): how the loop ends is how its checks and its output end. -/
theorem ends_expandLoop_last {n : Nat} {Q : Decoding → State → Prop} {y : Sym} {d : Nat} (hs : s.StandsAt e c)
    (ht : e.tree.Sound) (hn : c.Within size n s) (hdone : ¬ expandDone size c s = true)
    (hread : s.inp.Reads e y d tree pos)
    (h : ∀ d', (expandSymbol size y d' c).Ends
      { s with huf := tree, rd := ⟨pos, decide (8 * s.inp.len.toNat < pos)⟩ } (fun o t => o = none ∧ Q c t) E) :
    (expandLoop size n c).Ends s Q E := by
  obtain ⟨k, rfl⟩ := hn.exists_succ hdone
  refine ends_expandLoop_step hdone (ends_expandStep_of_reads (hs.tree ▸ ht) hs.tree hs.pos hread fun d' _ => ?_)
  rw [hs.ovr_or hread.le]
  exact (h d').mono (fun o t ⟨ho, hq⟩ => by subst ho; exact hq) fun _ _ h => h

theorem ends_expandLoop_stops {n : Nat} (hs : s.StandsAt e c) (ht : e.tree.Sound) (hn : c.Within size n s)
    (hstop : s.inp.Stops size e tree pos) : (expandLoop size n c).Ends s
      (fun c' t => c' = c ∧ t = { s with huf := tree, rd := ⟨pos, decide (8 * s.inp.len.toNat < pos)⟩ })
      fun _ _ => False := by
  have hsame : s = { s with huf := e.tree, rd := ⟨e.pos, decide (8 * s.inp.len.toNat < e.pos)⟩ } := by
    rw [← hs.tree, ← hs.pos, hs.pos, ← hs.ovr, ← hs.pos]
  cases size with
  | some m =>
    obtain ⟨hlen, rfl, rfl⟩ := hstop
    exact ends_expandLoop_done (decide_eq_true (hs.count.trans hlen)) ⟨rfl, hsame⟩
  | none =>
    rcases hstop with ⟨hpos, rfl, rfl⟩ | ⟨hpos, hread⟩
    · exact ends_expandLoop_done (decide_eq_true (hs.pos ▸ hpos)) ⟨rfl, hsame⟩
    · refine ends_expandLoop_last hs ht hn (expandDone_of_more hs hpos nofun) hread fun d' => ?_
      rw [expandSymbol, ends_bind, ends_get, ends_bind, ends_raiseIf, if_neg nofun, ends_ite,
        if_pos (show (314 : Sym) = eos from rfl), ends_bind, ends_raiseIf, if_neg nofun, ends_pure]
      exact ⟨rfl, rfl, rfl⟩

/-! ### Completion -/

/-- What an `LZH_EXPAND` that has expanded its input to `e` leaves, the tree and the next bit being `tree` and `pos`
(R310, R312, R321). -/
structure State.Expanded (s : State) (e : Expansion) (tree : HufTree) (pos : Nat) (t : State) : Prop where
  frame : t = { s with res0 := t.res0, res1 := t.res1, rd := t.rd, out := t.out, win := t.win, huf := t.huf, r := t.r }
  res0 : t.res0.toNat = min s.inp.len.toNat ((pos + 7) / 8) - s.inOffset.toNat
  res1 : t.res1.toNat = e.bytes.length
  rd : t.rd = ⟨pos, decide (8 * s.inp.len.toNat < pos)⟩
  r : t.r = e.r
  huf : t.huf = tree
  win : t.win.win = e.win
  len : t.out.len.toNat = s.outOffset.toNat + e.bytes.length
  accN : t.out.accN = 0
  verbatim : ∀ a, a < s.outOffset.toNat → t.out.byte a = s.inp.byte a
  bytes : ∀ k, k < e.bytes.length → some (t.out.byte (s.outOffset.toNat + k)) = e.bytes[k]?

/-- A command of the LZSS codec changes no part but its own. -/
theorem SameBut.eq_of_lzhResults (h : SameBut Bounded.lzhResults s t) :
    t = { s with res0 := t.res0, res1 := t.res1, rd := t.rd, out := t.out, win := t.win, huf := t.huf, r := t.r } := by
  have hlzw : t.lzw = s.lzw := h.lzw.resolve_left nofun
  have heq := h.eq
  rw [hlzw] at heq
  exact heq

theorem State.ExpandsTo.expanded (h : s.ExpandsTo size e t c m) :
    s.Expanded e tree pos
      (expandResults c { t with huf := tree, rd := ⟨pos, decide (8 * t.inp.len.toNat < pos)⟩ }) := by
  have hlen := h.len
  have hsame := h.same
  have hlt := s.inp.len.isLt
  have hlt' := t.out.len.isLt
  refine ⟨?_, ?_, ?_, ?_, h.stands.r, rfl, h.stands.win, h.len, h.accN, h.verbatim, h.bytes⟩
  · refine SameBut.eq_of_lzhResults (SameBut.trans (hsame.mono Bounded.lzhWithin) ?_)
    constructor <;> simp [expandResults, Bounded.lzhResults, Bounded.lzhParts]
  · simp only [expandResults, hsame.inp, hsame.inOffset, BitVec.toNat_ofNat]
    exact Nat.mod_eq_of_lt (by omega)
  · simp only [expandResults, hsame.outOffset]
    rw [BitVec.toNat_sub_of_le (by rw [BitVec.le_def]; omega)]
    omega
  · simp only [expandResults, hsame.inp]

/-- `LZH_EXPAND` completes where the input's symbols lead to a point at which the loop stops (R310, R321). -/
theorem exec_lzhExpand_of_stops (he : s.err = 0) (hrange : s.OffsetsInRange) (hheader : s.HasHeader size start)
    (hstart : start ≤ 8 * s.inp.len.toNat) (hexp : s.inp.Expands (.start s.fill start) e) (hallows : s.Allows size e)
    (hroom : s.outOffset.toNat + e.bytes.length ≤ s.params.outCap.toNat) (hstop : s.inp.Stops size e tree pos) :
    ∃ t, exec .lzhExpand s = .next t ∧ t.err = 0 ∧ s.Expanded e tree pos t := by
  obtain ⟨t, ht, hexpanded⟩ := command_completes (Q := s.Expanded e tree pos) he
    (ends_lzhExpand hrange hheader hstart hexp hallows hroom fun t c n h => by
      rw [← h.same.inp] at hstop
      refine (ends_expandLoop_stops h.stands h.sound h.within hstop).mono (fun c' u ⟨hc, hu⟩ => ?_) fun _ _ h => h
      subst hc hu
      exact h.expanded)
  exact ⟨t, ht, by rw [hexpanded.frame]; exact he, hexpanded⟩

/-! ### Errors -/

/-- What an `LZH_EXPAND` that raises leaves (R384), the reader and the tree being those the last symbol left. -/
theorem exec_lzhExpand_of_raise {code : ErrCode} (he : s.err = 0) (hrange : s.OffsetsInRange)
    (hheader : s.HasHeader size start) (hstart : start ≤ 8 * s.inp.len.toNat)
    (hexp : s.inp.Expands (.start s.fill start) e) (hallows : s.Allows size e)
    (hroom : s.outOffset.toNat + e.bytes.length ≤ s.params.outCap.toNat) {y : Sym} {d : Nat}
    (hread : s.inp.Reads e y d tree pos) (hmore : e.pos < 8 * s.inp.len.toNat ∨ size.isSome)
    (hsize : ∀ n, size = some n → e.bytes.length < n)
    (hraise : ∀ (t : State) d', t.maxExpanded = s.maxExpanded → t.rd = ⟨pos, decide (8 * s.inp.len.toNat < pos)⟩ →
      (expandSymbol size y d' ⟨e.r, e.bytes.length⟩).Ends t (fun _ _ => False) fun x u => x = .raise code ∧ u = t) :
    ∃ t, exec .lzhExpand s = .next t ∧ t.err = code.code ∧ t.out.len = 0 ∧
      t.rd = ⟨pos, decide (8 * s.inp.len.toNat < pos)⟩ ∧ t.huf = tree := by
  refine command_answers he (ends_lzhExpand hrange hheader hstart hexp hallows hroom fun t c n h => ?_)
  obtain ⟨hsame, hstands, hwithin, hsound, -⟩ := h
  have hc : c = ⟨e.r, e.bytes.length⟩ := by rw [← hstands.r, ← hstands.count]
  have hdone : ¬ expandDone size c t = true := by
    cases size with
    | none => exact expandDone_of_more hstands (hsame.inp ▸ hmore.resolve_right nofun) hsize
    | some n =>
      refine fun h => absurd (of_decide_eq_true h) ?_
      rw [hstands.count]
      exact (hsize n rfl).ne
  rw [← hsame.inp] at hread
  refine ends_expandLoop_last hstands hsound hwithin hdone hread fun d' => ?_
  rw [hc]
  have hrd : Reader.mk pos (decide (8 * t.inp.len.toNat < pos)) = ⟨pos, decide (8 * s.inp.len.toNat < pos)⟩ := by
    rw [hsame.inp]
  refine (hraise { t with huf := tree, rd := _ } d' hsame.maxExpanded hrd).mono (fun _ _ h => h.elim)
    fun x u ⟨hx, hu⟩ => ?_
  refine ⟨code, hx, ?_⟩
  subst hu
  exact ⟨by rw [errorEntry_err, if_pos (hsame.err.trans he)], rfl, hrd, rfl⟩

end

end Sys2Proof.Machine
end

section
/-! SUPPORT. `LZH_EXPAND` in its two modes (44_lzss_codec.md R309 to R312, R321): the header each one finds, and that in
`None` mode every input leads to a point at which the loop stops. -/

namespace Sys2Proof.Machine

open Engine

section
variable {s : State} {i : Input} {e e' : Expansion} {size : Option Nat} {y : Sym} {d : Nat}

/-! ### The headers (R309) -/

theorem hasHeader_none (h : s.hdr = false) : s.HasHeader none (8 * s.inOffset.toNat) := by
  intro t ht
  have hhdr : ¬ t.hdr = true := by
    have : t.hdr = s.hdr := congrArg (BitVec.getLsbD · 0) ht.same.opt
    rw [this, h]
    exact Bool.false_ne_true
  rw [readHeader, ends_bind, ends_get, if_neg hhdr, ends_pure]
  exact ⟨rfl, .refl _ t, ht.rd⟩

/-- What `readHeader` finds after the steps before it, in `Lzhuf` mode (R309). -/
theorem State.Prepared.ends_readHeader {t : State} {Q : Option Nat → State → Prop} {E : Stop → State → Prop}
    (ht : s.Prepared t) (h : s.hdr = true) (hlen : s.inOffset.toNat + 4 ≤ s.inp.len.toNat) : readHeader.Ends t Q E ↔
      if s.maxExpanded.toNat < s.inp.sizeAt s.inOffset.toNat then
        E (.raise .sizeExceeded) { t with rd := ⟨8 * s.inOffset.toNat + 32, false⟩ }
      else Q (some (s.inp.sizeAt s.inOffset.toNat)) { t with rd := ⟨8 * s.inOffset.toNat + 32, false⟩ } := by
  have hhdr : t.hdr = true := (congrArg (BitVec.getLsbD · 0) ht.same.opt).trans h
  have hinp := ht.same.inp
  rw [Machine.ends_readHeader hhdr ht.rd (congrArg BitVec.toNat ht.same.inOffset) (by rw [hinp]; exact hlen), hinp,
    ht.same.maxExpanded]

theorem hasHeader_some (h : s.hdr = true) (hlen : s.inOffset.toNat + 4 ≤ s.inp.len.toNat)
    (hmax : s.inp.sizeAt s.inOffset.toNat ≤ s.maxExpanded.toNat) :
    s.HasHeader (some (s.inp.sizeAt s.inOffset.toNat)) (8 * s.inOffset.toNat + 32) := by
  intro t ht
  rw [ht.ends_readHeader h hlen, if_neg (Nat.not_lt.2 hmax)]
  exact ⟨rfl, by constructor <;> simp, rfl⟩

/-! ### Every input in `None` mode (R310, R313) -/

/-- Every symbol but `EOS` stands for bytes, at most 59 of them (R122, R312). -/
theorem Expansion.exists_means (e : Expansion) (hy : y ≠ 314) (d : Nat) :
    ∃ new, e.Means y d new ∧ new.length ≤ 59 := by
  have hlt := y.isLt
  have hne : y.val ≠ 314 := fun h => hy (Fin.ext h)
  by_cases hlit : y.val < 256
  · exact ⟨[BitVec.ofNat 8 y.val], by rw [Means, if_pos hlit], by simp⟩
  · refine ⟨(List.range (y.val - 254)).map fun k => e.win.get (source e.r d + Fin.ofNat 4096 (k % (d + 1))), ?_,
      by simp; omega⟩
    rw [Means, if_neg hlit]
    refine ⟨by simp, fun k hk => ?_⟩
    rw [List.length_map, List.length_range] at hk
    have hget {j : Nat} (hj : j < y.val - 254) : (List.range (y.val - 254))[j]? = some j := List.getElem?_range hj
    rw [List.getElem?_map, List.getElem?_map, hget hk, Option.map_some]
    split
    · next hkd => rw [Nat.mod_eq_of_lt (by omega : k < d + 1)]
    · next hkd =>
      rw [hget (by omega : k - d - 1 < y.val - 254), show k - d - 1 = k - (d + 1) by omega, Option.map_some,
        ← Nat.mod_eq_sub_mod (by omega : d + 1 ≤ k)]

/-- In `None` mode every input leads to a point at which the loop stops, with at most 59 bytes for each bit (R310). -/
theorem Input.exists_stops (i : Input) (e : Expansion) (ht : e.tree.Sound) : ∃ e' tree pos, i.Expands e e' ∧
    i.Stops none e' tree pos ∧ e'.bytes.length ≤ e.bytes.length + 59 * (8 * i.len.toNat - e.pos) := by
  rcases Nat.lt_or_ge e.pos (8 * i.len.toNat) with hpos | hpos
  · obtain ⟨y, d, tree, pos, -, hd, hread⟩ := i.exists_reads ht
    by_cases hy : y = 314
    · subst hy
      rw [hd (by decide)] at hread
      exact ⟨e, tree, pos, .none e, .inr ⟨hpos, hread⟩, Nat.le_add_right _ _⟩
    · obtain ⟨new, hm, hnew⟩ := e.exists_means hy d
      have hlt := hread.lt ht
      obtain ⟨e', tree', pos', hexp, hstop, hlen⟩ := i.exists_stops
        (Expansion.putAll { e with tree := tree, pos := pos } new)
        (by rw [Expansion.putAll_tree]; exact hread.sound ht)
      rw [Expansion.putAll_bytes, Expansion.putAll_pos, List.length_append] at hlen
      dsimp only at hlen
      exact ⟨e', tree', pos', .symbol e e' y d tree pos new hpos hread hy hm hexp, hstop, by omega⟩
  · exact ⟨e, _, _, .none e, .inl ⟨hpos, rfl, rfl⟩, Nat.le_add_right _ _⟩
termination_by 8 * i.len.toNat - e.pos
decreasing_by
  rw [Expansion.putAll_pos]
  dsimp only
  omega

/-- The write position moves with the bytes (R312). -/
theorem Input.Expands.r_val (h : i.Expands e e') :
    (e'.r.val + e.bytes.length) % 4096 = (e.r.val + e'.bytes.length) % 4096 := by
  induction h with
  | none e => rfl
  | symbol e e' y d tree pos new _ _ _ _ _ ih =>
    rw [Expansion.putAll_r, Expansion.putAll_bytes, List.length_append] at ih
    dsimp only at ih
    omega

end

/-! ### The obligations -/

/-- Settles O41: the loop follows the input's symbols, which lead from the start to a point at which it stops. -/
theorem lzhExpandNoneCompletes : Obligations.LzhExpandNoneCompletes := by
  intro s he hnone hin hout
  have hheader : s.HasHeader none (8 * s.inOffset.toNat) := hasHeader_none hnone
  have hstart : 8 * s.inOffset.toNat ≤ 8 * s.inp.len.toNat := Nat.mul_le_mul_left 8 (BitVec.le_def.1 hin)
  refine ⟨fun hmax hcap => ?completes, fun e hexp hmax hcap => ⟨fun tree pos hstop => ?stops,
    fun y d tree pos hpos hread hy hlarge => ?large⟩⟩
  case completes =>
    obtain ⟨e, tree, pos, hexp, hstop, hlen⟩ := s.inp.exists_stops (.start s.fill (8 * s.inOffset.toNat))
      HufTree.initial_sound
    have hlen' : e.bytes.length ≤ 472 * (s.inp.len.toNat - s.inOffset.toNat) := by
      dsimp only [Expansion.start, List.length_nil] at hlen
      omega
    obtain ⟨t, hexec, herr, h⟩ := exec_lzhExpand_of_stops he ⟨hin, hout⟩ hheader hstart hexp
      ⟨nofun, hlen'.trans hmax⟩ (by omega) hstop
    have hr := hexp.r_val
    dsimp only [Expansion.start, List.length_nil] at hr
    refine ⟨t, hexec, herr, h.frame, ?_, ?_, ?_, h.accN, h.verbatim⟩
    · rw [h.res0, h.rd]
    · rw [h.res1, h.len, Nat.add_comm]
    · rw [h.r, h.res1, ← Nat.mod_eq_of_lt e.r.isLt]
      exact hr
  case stops =>
    obtain ⟨t, hexec, herr, h⟩ := exec_lzhExpand_of_stops he ⟨hin, hout⟩ hheader hstart hexp
      ⟨nofun, hmax⟩ hcap hstop
    exact ⟨t, hexec, herr, h.frame, h.res0, h.res1, congrArg Reader.pos h.rd, congrArg Reader.ovr h.rd, h.r, h.huf,
      h.win, h.len, h.accN, h.verbatim, h.bytes⟩
  case large =>
    obtain ⟨t, hexec, herr, hlen, hrd, hhuf⟩ := exec_lzhExpand_of_raise (code := .sizeExceeded) he ⟨hin, hout⟩ hheader
      hstart hexp ⟨nofun, hmax⟩ hcap hread (.inl hpos) nofun fun t d' ht _ => by
        have hlarge' : t.maxExpanded.toNat < e.bytes.length + symbolLength y := by
          rw [ht, symbolLength]
          by_cases hlit : y.val < 256
          · rw [if_pos hlit] at hlarge ⊢
            omega
          · rw [if_neg hlit] at hlarge ⊢
            omega
        rw [expandSymbol, ends_bind, ends_get, ends_bind, ends_raiseIf, if_neg nofun, ends_ite,
          if_neg (show ¬ y = eos from hy), ends_bind, ends_raiseIf, if_neg nofun, ends_bind, ends_raiseIf,
          if_pos hlarge']
        exact ⟨rfl, rfl⟩
    exact ⟨t, hexec, herr, hlen, congrArg Reader.pos hrd, hhuf⟩

/-- `LZH_EXPAND` raises what reading its header raises (R309). -/
theorem exec_lzhExpand_of_header_raise {s : State} {code : ErrCode} (he : s.err = 0) (hrange : s.OffsetsInRange)
    (hcap : s.outOffset ≤ s.params.outCap)
    (h : ∀ t, s.Prepared t → readHeader.Ends t (fun _ _ => False) fun x u => x = .raise code ∧ u.err = t.err) :
    ∃ t, exec .lzhExpand s = .next t ∧ t.err = code.code ∧ t.out.len = 0 := by
  refine command_answers he (ends_lzhExpand_prepared hrange (BitVec.le_def.1 hcap) fun t ht _ => ?_)
  rw [ends_bind]
  refine (h t ht).mono (fun _ _ h => h.elim) fun x u ⟨hx, hu⟩ => ⟨code, hx, ?_, rfl⟩
  rw [errorEntry_err, if_pos (hu.trans (ht.same.err.trans he))]

/-- Settles O42: the header decides before the loop, and the loop follows the input's symbols up to the declared size, or
to the symbol that raises. -/
theorem lzhExpandLzhufMode : Obligations.LzhExpandLzhufMode := by
  intro s he hlzhuf hin hout hcap
  have hhdr : s.hdr = true := hlzhuf
  refine ⟨fun hlen => ?short, fun hlen hmax => ?large, fun hlen hzero => ?empty,
    fun size e hlen hsize hmax hroom hexp hpos => ?loop⟩
  case short =>
    refine exec_lzhExpand_of_header_raise (code := .unexpectedEof) he ⟨hin, hout⟩ hcap fun t ht => ?_
    have hhdr' : t.hdr = true := (congrArg (BitVec.getLsbD · 0) ht.same.opt).trans hlzhuf
    rw [readHeader, ends_bind, ends_get, if_pos hhdr', ends_bind, ends_raiseIf,
      if_pos (by rw [ht.same.inp, ht.same.inOffset]; exact hlen)]
    exact ⟨rfl, rfl⟩
  case large =>
    refine exec_lzhExpand_of_header_raise (code := .sizeExceeded) he ⟨hin, hout⟩ hcap fun t ht => ?_
    rw [ht.ends_readHeader hhdr (by omega), if_pos hmax]
    exact ⟨rfl, rfl⟩
  case empty =>
    have hsize : s.inp.sizeAt s.inOffset.toNat = 0 := by
      have hzero' {k : Nat} (hk : k < 4) : (s.inp.byte (s.inOffset.toNat + k)).toNat = 0 :=
        congrArg BitVec.toNat (hzero k hk)
      rw [Input.sizeAt, hzero' (k := 1) (by omega), hzero' (k := 2) (by omega), hzero' (k := 3) (by omega)]
      exact hzero' (k := 0) (by omega)
    have hheader := hasHeader_some hhdr (by omega) (by rw [hsize]; exact Nat.zero_le _)
    rw [hsize] at hheader
    obtain ⟨t, hexec, herr, h⟩ := exec_lzhExpand_of_stops he ⟨hin, hout⟩ hheader (by omega) (.none _)
      ⟨fun n hn => ⟨Nat.zero_le _, by dsimp only [Expansion.start]; omega⟩, Nat.zero_le _⟩ hcap ⟨rfl, rfl, rfl⟩
    refine ⟨t, hexec, herr, ?_, BitVec.eq_of_toNat_eq h.res1, BitVec.eq_of_toNat_eq h.len, h.r⟩
    rw [h.res0]
    dsimp only [Expansion.start]
    omega
  case loop =>
    subst hsize
    have hheader := hasHeader_some hhdr (by omega) hmax
    have hstart : 8 * s.inOffset.toNat + 32 ≤ 8 * s.inp.len.toNat := by omega
    have hallows (hle : e.bytes.length ≤ s.inp.sizeAt s.inOffset.toNat) :
        s.Allows (some (s.inp.sizeAt s.inOffset.toNat)) e :=
      ⟨fun n hn => by cases hn; exact ⟨hle, hpos⟩, hle.trans hmax⟩
    refine ⟨fun hdone => ?done, fun hmore y d tree pos hread => ⟨fun hlate => ?late, fun hearly hbad => ?bad⟩⟩
    case done =>
      obtain ⟨t, hexec, herr, h⟩ := exec_lzhExpand_of_stops he ⟨hin, hout⟩ hheader hstart hexp (hallows hdone.le)
        (by omega) ⟨hdone, rfl, rfl⟩
      refine ⟨t, hexec, herr, h.frame, ?_, h.res1.trans hdone, congrArg Reader.pos h.rd,
        (congrArg Reader.ovr h.rd).trans (decide_eq_false (Nat.not_lt.2 hpos)), h.r, h.huf, h.win, ?_, h.accN, h.verbatim,
        fun k hk => h.bytes k (hdone.symm ▸ hk)⟩
      · rw [h.res0]
        omega
      · rw [h.len, hdone]
    case late =>
      obtain ⟨t, hexec, herr, hlen', hrd, hhuf⟩ := exec_lzhExpand_of_raise (code := .unexpectedEof) he ⟨hin, hout⟩
        hheader hstart hexp (hallows hmore.le) (by omega) hread (.inr rfl) (fun n hn => by cases hn; exact hmore)
        fun t d' _ ht => by
          rw [expandSymbol, ends_bind, ends_get, ends_bind, ends_raiseIf,
            if_pos ⟨rfl, by rw [ht]; exact decide_eq_true hlate⟩]
          exact ⟨rfl, rfl⟩
      exact ⟨t, hexec, herr, hlen', congrArg Reader.pos hrd, (congrArg Reader.ovr hrd).trans (decide_eq_true hlate),
        hhuf⟩
    case bad =>
      have hovr : decide (8 * s.inp.len.toNat < pos) = false := decide_eq_false (Nat.not_lt.2 hearly)
      obtain ⟨t, hexec, herr, hlen', hrd, hhuf⟩ := exec_lzhExpand_of_raise (code := .invalidData) he ⟨hin, hout⟩
        hheader hstart hexp (hallows hmore.le) (by omega) hread (.inr rfl) (fun n hn => by cases hn; exact hmore)
        fun t d' _ ht => by
          rw [expandSymbol, ends_bind, ends_get, ends_bind, ends_raiseIf, if_neg (by rw [ht, hovr]; nofun), ends_ite]
          by_cases hy : y = eos
          · rw [if_pos hy, ends_bind, ends_raiseIf,
              if_pos (show (some (s.inp.sizeAt s.inOffset.toNat)).isSome = true from rfl)]
            exact ⟨rfl, rfl⟩
          · obtain ⟨hmatch, hpast⟩ := hbad.resolve_left hy
            have hpasses : passesSize (some (s.inp.sizeAt s.inOffset.toNat)) (e.bytes.length + symbolLength y) =
                true := by
              rw [symbolLength, if_neg (by omega)]
              exact decide_eq_true (by omega)
            rw [if_neg hy, ends_bind, ends_raiseIf, if_pos hpasses]
            exact ⟨rfl, rfl⟩
      exact ⟨t, hexec, herr, hlen', congrArg Reader.pos hrd, (congrArg Reader.ovr hrd).trans hovr, hhuf⟩

end Sys2Proof.Machine
end

section
/-! SUPPORT. Bits on the output within a bound (20_memory.md R181 to R183; 43_huffman.md R255): the compress commands write
bits, and either a bound on their number lies above the OUT memory or they are appended. -/

namespace Sys2Proof.Machine

open Engine

/-! ### The output as a stream (R85) -/

/-- How many bits the stream has. -/
def Output.count (o : Output) : Nat := 8 * o.len.toNat + o.accN.val

theorem Output.length_bits (o : Output) : o.bits.length = o.count := by
  rw [bits, List.length_append, List.length_flatMap, length_bitsOf, count, Nat.add_right_cancel_iff]
  simp [bitsOfByte, Nat.mul_comm]

theorem Output.Appends.count_eq {o o' : Output} {new : List Bool} (h : o.Appends o' new) :
    o'.count = o.count + new.length := h.count

/-- The bits of whole bytes of the input. -/
theorem Input.bits_whole {i : Input} {n : Nat} (h : n ≤ i.len.toNat) :
    i.bits 0 (8 * n) = (List.range n).flatMap fun a => bitsOfByte (i.byte a) := by
  induction n with
  | zero => rfl
  | succ n ih =>
    rw [Nat.mul_succ, bits_add, ih (by omega), Nat.zero_add, bits_byte (by omega), List.range_succ, List.flatMap_append,
      List.flatMap_singleton]
    rfl

/-- The stream of an input with the bytes of an output of whole bytes. -/
theorem Input.bits_of_output {i : Input} {o : Output} (hlen : i.len = o.len)
    (hbyte : ∀ a, a < o.len.toNat → i.byte a = o.byte a) (haccN : o.accN = 0) :
    i.bits 0 (8 * i.len.toNat) = o.bits := by
  rw [bits_whole (Nat.le_refl _), Output.bits, haccN, hlen]
  refine ((List.append_nil _).trans (List.flatMap_congr fun a ha => ?_)).symm
  rw [hbyte a (List.mem_range.1 ha)]

/-- A part of the input's stream, from the parts of the output's. -/
theorem Input.bits_of_append {i : Input} {n : Nat} {pre new post : List Bool} (h : i.bits 0 n = pre ++ (new ++ post)) :
    i.bits pre.length new.length = new ∧ i.bits (pre.length + new.length) post.length = post := by
  have hn : n = pre.length + (new.length + post.length) := by
    rw [← i.length_bits 0 n, h, List.length_append, List.length_append]
  rw [hn, bits_add, Nat.zero_add, bits_add] at h
  have h' := (List.append_inj h (length_bits ..)).2
  exact List.append_inj h' (length_bits ..)

/-! ### Writing within a bound -/

/-- What the steps of a compression may change beside the output. -/
def codingParts : Parts := { out := true, win := true, huf := true, lzw := true }

/-- The bits `new` were appended to the stream, within the OUT memory. -/
structure State.Codes (s t : State) (new : List Bool) : Prop where
  same : SameBut codingParts s t
  appends : s.out.Appends t.out new
  fits : t.out.len ≤ t.params.outCap

theorem State.Codes.trans {s t u : State} {x y : List Bool} (h : s.Codes t x) (h' : t.Codes u y) : s.Codes u (x ++ y) :=
  ⟨h.same.trans h'.same, h.appends.trans h'.appends, h'.fits⟩

/-- A step that leaves the output. -/
theorem State.Codes.of_same {s t : State} (h : SameBut codingParts s t) (hout : t.out = s.out)
    (hfits : s.out.len ≤ s.params.outCap) : s.Codes t [] := by
  refine ⟨h, hout ▸ .refl s.out, ?_⟩
  rw [hout, h.params]
  exact hfits

section
variable {s : State} {lim : Nat}

/-- Bits are appended, or the OUT memory is smaller than any bound on the bytes written (R182). -/
theorem ends_putAll_within {bits : List Bool} (hlim : s.out.count + bits.length ≤ 8 * lim)
    (hfits : s.out.len ≤ s.params.outCap) :
    (putAll bits).Ends s (fun _ t => t = { s with out := t.out } ∧ s.Codes t bits)
      fun _ _ => s.params.outCap.toNat < lim := by
  rw [Output.count] at hlim
  by_cases hroom : s.out.hasRoom s.params.outCap bits.length
  · refine (ends_putAll hroom).mono (fun _ t ⟨ht, happ⟩ => ⟨ht, ?_, happ, ?_⟩) fun _ _ h => h.elim
    · rw [ht]
      constructor <;> simp [codingParts]
    · have hcount := happ.count
      have hn := t.out.accN.isLt
      rw [ht, BitVec.le_def]
      unfold Output.hasRoom at hroom
      dsimp only
      omega
  · obtain ⟨o, ho⟩ := Output.putAll_full hfits hroom
    rw [putAll, ends_writing, ends_of_error ho]
    unfold Output.hasRoom at hroom
    omega

/-- `Flush` pads the waiting bits, or the OUT memory is smaller than any bound on the bytes written (R183). -/
theorem ends_flush_within (hlim : s.out.count + 7 ≤ 8 * lim) (hfits : s.out.len ≤ s.params.outCap) :
    flush.Ends s (fun _ t => t = { s with out := t.out } ∧ t.out.accN = 0 ∧
      ∃ pad, pad < 8 ∧ s.Codes t (List.replicate pad false)) fun _ _ => s.params.outCap.toNat < lim := by
  rw [flush, ends_writing]
  rw [Output.count] at hlim
  by_cases hroom : s.out.accN = 0 ∨ s.out.len ≠ s.params.outCap
  · obtain ⟨o, ho, happ, haccN, -⟩ := Output.flush_ok hroom hfits
    rw [ends_of_ok ho]
    refine ⟨rfl, haccN, _, Nat.mod_lt _ (by decide), ⟨by constructor <;> simp [codingParts], happ, ?_⟩⟩
    have hcount := happ.count
    rw [List.length_replicate, haccN] at hcount
    rw [BitVec.le_def] at hfits ⊢
    dsimp only
    have hn := s.out.accN.isLt
    rcases hroom with h0 | hne
    · rw [h0] at hcount
      simp only [Fin.val_zero] at hcount
      omega
    · have hne' : s.out.len.toNat ≠ s.params.outCap.toNat := fun h => hne (BitVec.eq_of_toNat_eq h)
      simp only [Fin.val_zero] at hcount
      omega
  · obtain ⟨hn, hfull⟩ := not_or.1 hroom
    rw [ends_of_error (Output.flush_full hn (not_not.1 hfull)), ← not_not.1 hfull]
    have hn' : s.out.accN.val ≠ 0 := fun h => hn (Fin.ext h)
    omega

end

/-! ### Codewords (R127, R255) -/

namespace HufTree

variable {t : HufTree}

/-- A path rises from its end to the root, slot 628, by one slot at least in each step. -/
theorem Sound.length_of_reach (ht : t.Sound) {bits : List Bool} {e : Slot} (h : t.reach 628 bits = some e) :
    bits.length + e.val ≤ 628 := by
  induction bits using List.reverseRecOn generalizing e with
  | nil =>
    cases h
    exact Nat.le_refl _
  | append_singleton bits b ih =>
    obtain ⟨p, hreach, hp⟩ := reach_concat.1 h
    obtain ⟨hroot, rfl, -⟩ := ht.childAt_iff.1 hp
    have hle := ih hreach
    have hlt := ht.lt_parent hroot
    rw [List.length_append, List.length_singleton]
    omega

/-- A codeword has at least one bit and at most 628. -/
theorem Sound.length_of_walk (ht : t.Sound) {bits : List Bool} {y : Sym} (h : t.walk 628 bits = some y) :
    0 < bits.length ∧ bits.length ≤ 628 := by
  obtain ⟨e, he, -⟩ := walk_eq_some.1 h
  refine ⟨List.length_pos_iff.2 fun hnil => ?_, by have := ht.length_of_reach he; omega⟩
  obtain ⟨c, hc⟩ := ht.root_node
  rw [hnil, walk, hc] at h
  cases h

end HufTree

theorem length_distanceCode_le (d : Nat) : (distanceCode d).length ≤ 14 := by
  rw [length_distanceCode]
  have := (pLen_bounds (d / 64)).2
  omega

/-- One symbol with its update (R307): its codeword is appended. -/
theorem ends_encodeSymbol {s : State} {lim : Nat} (y : Sym) (ht : s.huf.Sound) (hlim : s.out.count + 628 ≤ 8 * lim)
    (hfits : s.out.len ≤ s.params.outCap) :
    (encodeSymbol y).Ends s (fun _ t => ∃ bits, s.Codes t bits ∧ s.huf.walk 628 bits = some y ∧
      s.huf.update y = some t.huf ∧ t.win = s.win) fun _ _ => s.params.outCap.toNat < lim := by
  obtain ⟨bits, hcode, hwalk, -⟩ := ht.codeword_eq y
  obtain ⟨tree, hupdate, -⟩ := HufTree.update_sound ht y
  have hlen := (ht.length_of_walk hwalk).2
  rw [encodeSymbol, ends_bind, hufEncode, ends_bind, ends_get, ends_bind, ends_orStuck, hcode]
  refine ⟨?_, nofun⟩
  rintro _ ⟨⟩
  refine (ends_putAll_within (by omega) hfits).mono (fun _ t ⟨ht', hcodes⟩ => ?_) fun _ _ h => h
  have hhuf : t.huf = s.huf := by rw [ht']
  refine (ends_hufUpdate (t := tree) (by rw [hhuf]; exact hupdate)).2
    ⟨bits, ⟨?_, hcodes.appends, hcodes.fits⟩, hwalk, hupdate, ?_⟩
  · exact hcodes.same.trans (by constructor <;> simp [codingParts])
  · rw [ht']

end Sys2Proof.Machine
end

section
/-! SUPPORT. The match index of a compression (42_window.md R210 to R219; 44_lzss_codec.md R305, R306): its positions lie
close behind the write position, so the insertions and the bytes written keep it a set of search trees. -/

namespace Sys2Proof.Machine.Window

variable {w w' : Window} {p q r z : Pos} {n : Nat}

/-! ### A byte outside every key -/

/-- The window with another byte at one position. -/
def setByte (w : Window) (p : Pos) (b : Byte) : Window := { w with win := w.win.set p b }

theorem Linked.setByte (h : w.Linked) (p : Pos) (b : Byte) : (w.setByte p b).Linked :=
  h.congr rfl fun c x _ => by cases c <;> cases x <;> rfl

theorem under_setByte {p q z : Pos} {b : Byte} (h : (w.setByte p b).Under q z) : w.Under q z := by
  induction h with
  | self => exact .self q
  | step z d hd _ ih => exact .step q z d hd ih

theorem below_setByte {c : Bool} {x : Node} {b : Byte} (h : (w.setByte p b).Below c x z) : w.Below c x z := by
  obtain ⟨l, hl, hu⟩ := h
  exact ⟨l, by cases c <;> cases x <;> exact hl, under_setByte hu⟩

/-- A key is told by the bytes that `Compare` looks at. -/
theorem keyTail_of_bytes (h : ∀ k, k < 60 → w'.keyByte q k = w.keyByte q k) (n : Nat) :
    w'.keyTail q n = w.keyTail q n := by
  induction n with
  | zero => rfl
  | succ n ih => rw [keyTail, keyTail, ih, h _ (by omega)]

/-- A byte that lies in the key of no position in the index can change (R212). -/
theorem Sorted.setByte (ho : w.Sorted) (hl : w.Linked) {b : Byte}
    (h : ∀ q, w.indexed q = true → ∀ k, k < 60 → q + Fin.ofNat 4096 k ≠ p) : (w.setByte p b).Sorted := by
  have hbyte {q : Pos} (hq : w.indexed q = true) {k : Nat} (hk : k < 60) :
      (w.setByte p b).keyByte q k = w.keyByte q k := by
    have hpos : Fin.ofNat 4096 (q.val + k) = q + Fin.ofNat 4096 k := Fin.ext (by rw [pos_add_val, Fin.val_ofNat])
    rw [keyByte, keyByte, hpos]
    exact (Table.get_set ..).trans (if_neg (h q hq k hk))
  have hkey {q : Pos} (hq : w.indexed q = true) : (w.setByte p b).key q = w.key q :=
    keyTail_of_bytes (fun k hk => hbyte hq hk) 59
  have hroot {d : Byte} {z : Pos} (hz : w.Below true (.rootn d) z) : w.indexed z = true :=
    hl.indexed_of_below (live_rootn w d) hz
  refine ⟨fun d z hz => ?_, fun q c z hq hz => ?_, fun d q z hq hz hk => ?_⟩
  · have hz' := below_setByte hz
    rw [← ho.firstByte d z hz', ← keyByte_zero, ← keyByte_zero]
    exact hbyte (hroot hz') (by decide)
  · have hz' := below_setByte hz
    rw [hkey hq, hkey (hl.indexed_of_below (x := .pos q) hq hz')]
    exact ho.side q c z hq hz'
  · have hq' := below_setByte hq
    have hz' := below_setByte hz
    rw [hkey (hroot hq'), hkey (hroot hz')] at hk
    exact ho.oneKey d q z hq' hz' hk

/-! ### The index behind the write position -/

/-- The index is a set of search trees of positions at most `n` behind `r`. -/
structure Indexes (w : Window) (r : Pos) (n : Nat) : Prop where
  linked : w.Linked
  sorted : w.Sorted
  near : ∀ q, w.indexed q = true → (r - q).val ≤ n

theorem Empty.indexes (h : w.Empty) (r : Pos) (n : Nat) : w.Indexes r n :=
  ⟨h.linked, h.ordered.sorted, fun q hq => by rw [h.indexed] at hq; cases hq⟩

theorem Indexes.mono {m : Nat} (h : w.Indexes r n) (hm : n ≤ m) : w.Indexes r m :=
  ⟨h.linked, h.sorted, fun q hq => (h.near q hq).trans hm⟩

/-- The write position moves on. -/
theorem Indexes.succ (h : w.Indexes r n) : w.Indexes (r + 1) (n + 1) :=
  ⟨h.linked, h.sorted, fun q hq => by
    have hnear := h.near q hq
    have hr : (r + 1 : Pos).val = (r.val + 1) % 4096 := Fin.val_add _ _
    rw [pos_sub_val] at hnear ⊢
    omega⟩

/-- A position farther behind is not in the index. -/
theorem Indexes.not_indexed (h : w.Indexes r n) (hp : n < (r - p).val) : w.indexed p = false :=
  Bool.eq_false_iff.2 fun hi => absurd (h.near p hi) (Nat.not_le.2 hp)

/-- A byte beyond the keys of the farthest position may be written (R306). -/
theorem Indexes.setByte (h : w.Indexes r 4035) (b : Byte) : (w.setByte (r + 60) b).Indexes r 4035 := by
  refine ⟨h.linked.setByte _ b, h.sorted.setByte h.linked fun q hq k hk heq => ?_, h.near⟩
  have hnear := h.near q hq
  have hval := congrArg Fin.val heq
  have h60 : (r + 60 : Pos).val = (r.val + 60) % 4096 := Fin.val_add _ _
  rw [pos_add_val, h60] at hval
  rw [pos_sub_val] at hnear
  have hq := q.isLt
  have hr := r.isLt
  omega

/-- The deletion of R306 completes: the farthest position leaves the index. -/
theorem Indexes.delete (h : w.Indexes r 4036) (mode : DelMode) :
    ∃ w', w.delete mode (r + 60) = .ok w' ∧ w'.win = w.win ∧ w'.Indexes r 4035 := by
  obtain ⟨w', hw'⟩ := h.linked.exists_delete mode (r + 60)
  refine ⟨w', hw', win_delete hw', h.linked.delete hw', h.sorted.delete h.linked hw', fun q hq => ?_⟩
  obtain ⟨hne, hq'⟩ := (h.linked.indexed_delete hw' q).1 hq
  have hnear := h.near q hq'
  have h60 : (r + 60 : Pos).val = (r.val + 60) % 4096 := Fin.val_add _ _
  have hval : q.val ≠ (r + 60 : Pos).val := fun hv => hne (Fin.ext hv)
  rw [pos_sub_val] at hnear ⊢
  have hq := q.isLt
  have hr := r.isLt
  omega

/-- The match result is a match of the key at `r` with one that begins at most 4036 before it, or too short to be coded
(R214). -/
def Matches (w : Window) (r : Pos) : Prop :=
  2 ≤ w.ml.toNat → w.Agree r (source r w.mp.toNat) w.ml.toNat ∧ w.mp.toNat ≤ 4035

theorem agree_congr (h : w'.win = w.win) {m : Nat} (ha : w.Agree p q m) : w'.Agree p q m := fun k hk => by
  rw [keyByte, keyByte, h]
  exact ha k hk

/-- An insertion of a new position completes (R216): it alone comes into the index, and the match left is one with a
position that was there. -/
theorem Indexes.insert (h : w.Indexes r n) (hp : w.indexed p = false) (hnear : (r - p).val ≤ n) :
    ∃ w', w.insert p = .ok w' ∧ w'.win = w.win ∧ w'.Indexes r n ∧
      (∀ z, w'.indexed z = true → z = p ∨ w.indexed z = true) ∧
      (2 ≤ w'.ml.toNat → w.indexed (source p w'.mp.toNat) = true ∧ w'.Agree p (source p w'.mp.toNat) w'.ml.toNat) := by
  obtain ⟨e, m, w', hins, hs, rfl, hi⟩ := h.linked.insert_spec hp
  have hwin := win_insert hins
  have hnew : ∀ z, w'.indexed z = true → z = p ∨ w.indexed z = true := fun z hz => by
    cases e with
    | empty x b => exact (Attached.indexed hi).1 hz
    | full q =>
      by_cases hzq : z = q
      · rw [hzq, Replaced.indexed hi, Equiv.swap_apply_left, hp] at hz
        cases hz
      · exact or_iff_not_imp_left.2 fun hzp => (Replaced.indexed_of_ne hi hzp hzq).symm.trans hz
  refine ⟨w', hins, hwin, ⟨h.linked.insert hins, h.sorted.insert h.linked hins, fun z hz => ?_⟩, hnew, fun h2 => ?_⟩
  · rcases hnew z hz with rfl | hz'
    · exact hnear
    · exact h.near z hz'
  · rcases hs.reached h.linked hp with ⟨h0, -⟩ | ⟨-, hv, hshare⟩
    · rw [show w'.ml = 0 from h0] at h2
      cases h2
    · exact ⟨(hv.inTree h.linked).1,
        agree_congr hwin (agree_of_le_share hshare.ge (hv.firstByte h.linked h.sorted))⟩

/-- The insertion at the write position (R305, R306) leaves a match that `EncodePos` and the decoder can use. -/
theorem Indexes.insert_self (h : w.Indexes r 4036) (hr : w.indexed r = false) :
    ∃ w', w.insert r = .ok w' ∧ w'.win = w.win ∧ w'.Indexes r 4036 ∧ w'.Matches r := by
  obtain ⟨w', hins, hwin, hindex, -, hmatch⟩ := h.insert hr (by rw [sub_self]; exact Nat.zero_le _)
  refine ⟨w', hins, hwin, hindex, fun h2 => ?_⟩
  obtain ⟨hsource, hagree⟩ := hmatch h2
  refine ⟨hagree, ?_⟩
  have hnear := h.near _ hsource
  have hne : source r w'.mp.toNat ≠ r := fun heq => by rw [heq, hr] at hsource; cases hsource
  have hval : (source r w'.mp.toNat).val = (r.val + 8192 - w'.mp.toNat - 1) % 4096 := rfl
  have hne' : (source r w'.mp.toNat).val ≠ r.val := fun h => hne (Fin.ext h)
  rw [pos_sub_val] at hnear
  have hmp := w'.mp.isLt
  have hr := r.isLt
  omega

end Sys2Proof.Machine.Window
end

section
/-! SUPPORT. The window of a compression beside that of an expansion (44_lzss_codec.md R305, R306, R312): the lookahead
holds the bytes to be coded, and all other bytes are those of a decoder that has produced the bytes coded so far. -/

namespace Sys2Proof.Machine

open Engine

/-! ### The window's bytes -/

/-- The IN address of the next byte to be coded. -/
def Encoding.next (c : Encoding) : Nat := c.ip - c.len

/-- The bytes of an encoder's window: those to be coded from the write position on, and elsewhere those of the decoder. -/
structure Encoding.Mirrors (c : Encoding) (i : Input) (win : Table Byte 4096) (e : Expansion) : Prop where
  ip : c.ip ≤ i.len.toNat
  behind : c.len ≤ c.ip
  r : e.r = c.r
  lookahead : ∀ k, k < c.len → win.get (c.r + Fin.ofNat 4096 k) = i.byte (c.next + k)
  history : ∀ q, c.len ≤ (q - c.r).val → win.get q = e.win.get q

theorem Encoding.next_of_load {c : Encoding} : Encoding.next { c with ip := c.ip + 1, len := c.len + 1 } = c.next := by
  unfold Encoding.next
  dsimp only
  omega

section
variable {c : Encoding} {i : Input} {win : Table Byte 4096} {e : Expansion}

/-- One more byte is loaded behind the lookahead (R305). -/
theorem Encoding.Mirrors.load (h : c.Mirrors i win e) (hlen : c.len < 4096) (hip : c.ip < i.len.toNat) :
    Encoding.Mirrors { c with ip := c.ip + 1, len := c.len + 1 } i
      (win.set (c.r + Fin.ofNat 4096 c.len) (i.byte c.ip)) e := by
  have hbehind := h.behind
  refine ⟨hip, Nat.succ_le_succ hbehind, h.r, fun k hk => ?_, fun q hq => ?_⟩
  · rw [Encoding.next_of_load, Table.get_set]
    dsimp only at hk ⊢
    split
    · next heq =>
      have hval := congrArg Fin.val heq
      rw [pos_add_val, pos_add_val] at hval
      rw [Encoding.next]
      congr 1
      omega
    · next hne =>
      have hk' : k ≠ c.len := fun hk => hne (by rw [hk])
      exact h.lookahead k (by omega)
  · dsimp only at hq ⊢
    rw [Table.get_set, if_neg, h.history q (by omega)]
    rintro rfl
    have hr := c.r.isLt
    rw [pos_sub_val, pos_add_val] at hq
    omega

/-- The byte at the write position has been coded (R306). -/
theorem Encoding.Mirrors.slide (h : c.Mirrors i win e) (hpos : 0 < c.len) (hlen : c.len ≤ 4096) :
    Encoding.Mirrors { c with r := c.r + 1, len := c.len - 1 } i win (e.put (i.byte c.next)) := by
  have hbehind := h.behind
  have hr1 : (c.r + 1 : Pos).val = (c.r.val + 1) % 4096 := Fin.val_add _ _
  refine ⟨h.ip, (Nat.sub_le _ _).trans hbehind, congrArg (· + 1) h.r, fun k hk => ?_, fun q hq => ?_⟩
  · have hpos' : c.r + 1 + Fin.ofNat 4096 k = c.r + Fin.ofNat 4096 (k + 1) :=
      Fin.ext (by rw [pos_add_val, pos_add_val, hr1]; omega)
    dsimp only at hk ⊢
    rw [hpos', h.lookahead (k + 1) (by omega), Encoding.next, Encoding.next]
    congr 1
    dsimp only
    omega
  · dsimp only at hq
    rw [Expansion.put_win, h.r, Table.get_set]
    split
    · next heq =>
      have hfirst := h.lookahead 0 hpos
      rwa [show c.r + Fin.ofNat 4096 0 = c.r from add_zero _, ← heq] at hfirst
    · next hne =>
      have hne' : q.val ≠ c.r.val := fun hv => hne (Fin.ext hv)
      refine h.history q ?_
      have hq' := q.isLt
      have hr := c.r.isLt
      rw [pos_sub_val, hr1] at hq
      rw [pos_sub_val]
      omega

end

/-! ### The encoder between two bytes -/

/-- The encoder stands at `c` with window `w` beside a decoder that stands at `e`, ready to code the byte at `c.next`. -/
structure Encoding.Stands (c : Encoding) (i : Input) (w : Window) (e : Expansion) : Prop where
  mirrors : c.Mirrors i w.win e
  index : w.Indexes c.r 4036
  len : c.len ≤ 60
  full : c.len < 60 → c.ip = i.len.toNat
  found : 0 < c.len → w.Matches c.r

theorem ends_onWindow_ok {s : State} {f : Window → Except Stop Window} {w : Window} {Q : Unit → State → Prop}
    {E : Stop → State → Prop} (h : f s.win = .ok w) : (onWindow f).Ends s Q E ↔ Q () { s with win := w } :=
  ends_of_ok (by rw [onWindow, h])

section
variable {s : State} {c : Encoding} {e : Expansion}

/-- The insertion at the next write position (R306). -/
theorem ends_insertPos_next {w : Window} {r : Pos} (hw : w.Indexes r 4035) (ht : s.win = w) {Q : Unit → State → Prop}
    {E : Stop → State → Prop}
    (hQ : ∀ w', w'.win = w.win → w'.Indexes (r + 1) 4036 → w'.Matches (r + 1) → Q () { s with win := w' }) :
    (insertPos (r + 1)).Ends s Q E := by
  have hr1 : (r + 1 : Pos).val = (r.val + 1) % 4096 := Fin.val_add _ _
  have hnot : w.indexed (r + 1) = false := hw.not_indexed (by rw [pos_sub_val, hr1]; omega)
  obtain ⟨w', hins, hwin, hindex, hmatch⟩ := hw.succ.insert_self hnot
  exact (ends_onWindow_ok (by rw [ht]; exact hins)).2 (hQ w' hwin hindex hmatch)

/-- One pass of the slide completes, and the encoder stands one byte further (R306). -/
theorem ends_slideOne (h : c.Stands s.inp s.win e) (hpos : 0 < c.len) :
    (slideOne c).Ends s (fun c' t => SameBut { win := true } s t ∧ c'.Stands s.inp t.win (e.put (s.inp.byte c.next)) ∧
      c'.next = c.next + 1 ∧ c.len ≤ c'.len + 1) fun _ _ => False := by
  obtain ⟨hmirrors, hindex, hlen, hfull, -⟩ := h
  have hbehind := hmirrors.behind
  obtain ⟨w, hdelete, hwin, hw⟩ := hindex.delete s.params.delMode
  rw [← hwin] at hmirrors
  rw [slideOne, ends_bind]
  refine (ends_onWindow_ok (f := fun w => w.delete s.params.delMode (c.r + 60)) hdelete).2 ?_
  rw [ends_bind, ends_get, ends_ite]
  split
  · next hip =>
    have hip : c.ip < s.inp.len.toNat := hip
    have hlen60 : c.len = 60 := by have := mt hfull (by omega : ¬ c.ip = s.inp.len.toNat); omega
    rw [ends_bind, writeWin, ends_modify, ends_bind]
    refine ends_insertPos_next (hw.setByte (s.inp.byte c.ip)) rfl fun w' hwin' hindex' hmatch => ?_
    have hmirrors' := (hmirrors.load (by omega) hip).slide (Nat.succ_pos _) (by dsimp only; omega)
    rw [Encoding.next_of_load, hlen60, ← show (c.r + 60 : Pos) = c.r + Fin.ofNat 4096 60 from rfl] at hmirrors'
    refine ⟨by constructor <;> simp, ⟨?_, hindex', hlen, fun hlt => absurd hlen60 (Nat.ne_of_lt hlt), fun _ => hmatch⟩, ?_,
      Nat.le_succ _⟩
    · dsimp only
      rw [hwin', hlen60]
      exact hmirrors'
    · unfold Encoding.next
      dsimp only
      omega
  · next hip =>
    have hend : c.ip = s.inp.len.toNat := Nat.le_antisymm hmirrors.ip (Nat.not_lt.1 hip)
    have hmirrors' := hmirrors.slide hpos (by omega)
    have hnext : Encoding.next { c with r := c.r + 1, len := c.len - 1 } = c.next + 1 := by
      unfold Encoding.next
      dsimp only
      omega
    rw [ends_ite]
    split
    · rw [ends_bind]
      refine ends_insertPos_next hw rfl fun w' hwin' hindex' hmatch => ?_
      refine ⟨by constructor <;> simp, ⟨?_, hindex', (Nat.sub_le _ _).trans hlen, fun _ => hend, fun _ => hmatch⟩, hnext,
        by dsimp only; omega⟩
      dsimp only
      rw [hwin']
      exact hmirrors'
    · refine ⟨by constructor <;> simp, ⟨hmirrors', hw.succ, (Nat.sub_le _ _).trans hlen, fun _ => hend, fun hlt => ?_⟩,
        hnext, by dsimp only; omega⟩
      dsimp only at hlt
      omega

/-- The input's bytes in a range of addresses. -/
def Input.slice (i : Input) (a n : Nat) : List Byte := (List.range' a n).map i.byte

@[simp] theorem Input.length_slice (i : Input) (a n : Nat) : (i.slice a n).length = n := by simp [slice]

theorem Input.getElem?_slice {i : Input} {a n k : Nat} (hk : k < n) : (i.slice a n)[k]? = some (i.byte (a + k)) := by
  rw [slice, List.getElem?_map, List.getElem?_range' hk]
  simp

theorem Input.slice_add (i : Input) (a m n : Nat) : i.slice a (m + n) = i.slice a m ++ i.slice (a + m) n := by
  rw [slice, slice, slice, ← List.map_append, List.range'_append_1]

/-- The slide over bytes of the lookahead (R306). -/
theorem ends_slide {n : Nat} (h : c.Stands s.inp s.win e) (hn : n ≤ c.len) :
    (slide n c).Ends s (fun c' t => SameBut { win := true } s t ∧
      c'.Stands s.inp t.win (e.putAll (s.inp.slice c.next n)) ∧ c'.next = c.next + n) fun _ _ => False := by
  induction n generalizing s c e with
  | zero => exact ⟨.refl _ s, h, rfl⟩
  | succ n ih =>
    rw [slide, ends_bind]
    refine (ends_slideOne h (by omega)).mono (fun c' t ⟨hsame, h', hnext, hlen⟩ => ?_) fun _ _ h => h
    rw [← hsame.inp] at h'
    refine (ih h' (by omega)).mono (fun c'' u ⟨hsame', h'', hnext'⟩ => ?_) fun _ _ h => h
    rw [hsame.inp, hnext] at h''
    exact ⟨hsame.trans hsame', h'', by rw [hnext', hnext]; omega⟩

end

/-! ### The start (R305) -/

section
variable {s : State} {c : Encoding} {e : Expansion}

theorem ends_loadLookahead {n : Nat} (h : c.Mirrors s.inp s.win.win e) (hw : s.win.Empty) (hn : c.len + n = 60) :
    (loadLookahead n c).Ends s (fun c' t => SameBut { win := true } s t ∧ t.win.Empty ∧ c'.Mirrors s.inp t.win.win e ∧
      c'.len ≤ 60 ∧ (c'.len < 60 → c'.ip = s.inp.len.toNat) ∧ c'.next = c.next) fun _ _ => False := by
  induction n generalizing s c with
  | zero => exact ⟨.refl _ s, hw, h, by omega, fun hlt => by omega, rfl⟩
  | succ n ih =>
    rw [loadLookahead, ends_bind, ends_get, ends_ite]
    split
    · next hip =>
      rw [ends_bind, writeWin, ends_modify]
      refine (ih (s := { s with win := s.win.setByte _ _ }) (h.load (by omega) hip) ⟨hw.dad, hw.root⟩
        (by dsimp only; omega)).mono
        (fun c' t ⟨hsame, hw', h', hlen, hfull, hnext⟩ => ?_) fun _ _ h => h
      exact ⟨SameBut.trans (by constructor <;> simp) hsame, hw', h', hlen, hfull, hnext.trans Encoding.next_of_load⟩
    · next hip => exact ⟨.refl _ s, hw, h, by omega, fun _ => by have := h.ip; omega, rfl⟩

/-- The insertions of the 60 positions before the write position. -/
theorem ends_insertBefore {r : Pos} {k : Nat} (hk : k ≤ 60) (h : s.win.Indexes r (60 - k))
    (hr : s.win.indexed r = false) :
    (insertBefore r k).Ends s (fun _ t => SameBut { win := true } s t ∧ t.win.win = s.win.win ∧ t.win.Indexes r 60 ∧
      t.win.indexed r = false) fun _ _ => False := by
  induction k generalizing s with
  | zero => exact ⟨.refl _ s, rfl, h, hr⟩
  | succ k ih =>
    have hval : (r - (r - Fin.ofNat 4096 (60 - k))).val = 60 - k := by
      rw [sub_sub_cancel, Fin.val_ofNat]
      omega
    obtain ⟨w, hins, hwin, hindex, hnew, -⟩ := (h.mono (by omega : 60 - (k + 1) ≤ 60 - k)).insert
      (h.not_indexed (by omega : 60 - (k + 1) < (r - (r - Fin.ofNat 4096 (60 - k))).val)) hval.le
    have hne : r ≠ r - Fin.ofNat 4096 (60 - k) := fun heq => by
      rw [← heq, sub_self] at hval
      have : (0 : Pos).val = 0 := rfl
      omega
    rw [insertBefore, ends_bind]
    refine (ends_onWindow_ok hins).2
      ((ih (by omega) hindex ?_).mono (fun _ t ⟨hsame, hwin', h', hr'⟩ => ?_) fun _ _ h => h)
    · exact Bool.eq_false_iff.2 fun hi => (hnew r hi).elim hne (Bool.eq_false_iff.1 hr)
    · exact ⟨SameBut.trans (by constructor <;> simp) hsame, hwin'.trans hwin, h', hr'⟩

/-- The start of a compression (R305) beside the start of an expansion. -/
theorem ends_startEncoding {ip : Nat} (hip : ip ≤ s.inp.len.toNat) (pos : Nat) :
    (startEncoding ip).Ends s (fun c t => SameBut { win := true, huf := true } s t ∧ t.huf = .initial ∧
      c.Stands s.inp t.win (.start s.fill pos) ∧ c.next = ip) fun _ _ => False := by
  rw [startEncoding, ends_bind, hufInit, ends_modify, ends_bind, winInit, ends_modify, ends_bind]
  refine (ends_loadLookahead (e := .start s.fill pos) ⟨hip, Nat.zero_le _, rfl, fun k hk => absurd hk (Nat.not_lt_zero k),
    fun _ _ => rfl⟩ (Window.initial_empty _) rfl).mono (fun c t ⟨hsame, hempty, hmirrors, hlen, hfull, hnext⟩ => ?_) fun _ _ h => h
  rw [ends_bind]
  refine (ends_insertBefore (Nat.le_refl 60) (hempty.indexes c.r 0) (hempty.indexed c.r)).mono
    (fun _ u ⟨hsame', hwin, hindex, hr⟩ => ?_) fun _ _ h => h
  obtain ⟨w, hins, hwin', hindex', hmatch⟩ := (hindex.mono (by decide : 60 ≤ 4036)).insert_self hr
  rw [ends_bind]
  refine (ends_onWindow_ok hins).2 ⟨?_, ?_, ⟨?_, hindex', hlen, hfull, fun _ => hmatch⟩, hnext⟩
  · have hparts : Parts.Within { win := true } { win := true, huf := true } := by constructor <;> simp
    refine SameBut.trans ?_ (((hsame.trans hsame').mono hparts).trans ?_) <;> constructor <;> simp
  · exact (hsame.trans hsame').huf.resolve_left nofun
  · dsimp only
    rw [hwin', hwin]
    exact hmirrors

end

end Sys2Proof.Machine
end

section
/-! SUPPORT. The coding loop (44_lzss_codec.md R306, R307) and what its bits mean to a decoder (R310): the symbol that each
pass writes stands for the bytes it codes. -/

namespace Sys2Proof.Machine

open Engine

/-! ### Bits as symbols of an expansion -/

/-- In every input that has the bits `bits` from the next bit of `e` on, their symbols lead from `e` to `e'`. -/
structure Expansion.Follows (e : Expansion) (bits : List Bool) (e' : Expansion) : Prop where
  pos : e'.pos = e.pos + bits.length
  expands : ∀ i : Input, i.bits e.pos bits.length = bits → e'.pos ≤ 8 * i.len.toNat → i.Expands e e'

section
variable {e e' e'' : Expansion} {x x' : List Bool} {y : Sym} {d : Nat} {tree : HufTree} {new : List Byte}

theorem Expansion.Follows.refl (e : Expansion) : e.Follows [] e := ⟨rfl, fun _ _ _ => .none e⟩

theorem Expansion.Follows.trans (h : e.Follows x e') (h' : e'.Follows x' e'') : e.Follows (x ++ x') e'' := by
  have hpos := h.pos
  have hpos' := h'.pos
  refine ⟨by rw [hpos', hpos, List.length_append, Nat.add_assoc], fun i hbits hle => ?_⟩
  rw [List.length_append, Input.bits_add, ← hpos] at hbits
  obtain ⟨hx, hx'⟩ := List.append_inj hbits (Input.length_bits ..)
  exact (h.expands i hx (by omega)).trans (h'.expands i hx' hle)

/-- The bits of a symbol with its distance (R310). -/
def symbolBits (y : Sym) (d : Nat) (codeword : List Bool) : List Bool :=
  codeword ++ if IsMatch y then distanceCode d else []

/-- A codeword with the distance code after a match symbol is one symbol of an expansion (R306, R310). -/
theorem Expansion.follows_symbol (ht : e.tree.Sound) (hwalk : e.tree.walk 628 x = some y)
    (hu : e.tree.update y = some tree)
    (hy : y ≠ 314) (hd : IsMatch y → d < 4096) (hm : e.Means y d new) :
    e.Follows (symbolBits y d x)
      (Expansion.putAll { e with tree := tree, pos := e.pos + (symbolBits y d x).length } new) := by
  refine ⟨Expansion.putAll_pos .., fun i hbits hle => ?_⟩
  rw [Expansion.putAll_pos] at hle
  dsimp only at hle
  have hone := (ht.length_of_walk hwalk).1
  unfold symbolBits at hbits hle
  rw [List.length_append, Input.bits_add] at hbits
  rw [List.length_append] at hle
  obtain ⟨hcode, hdist⟩ := List.append_inj hbits (Input.length_bits ..)
  refine .symbol e _ y d tree _ new (by omega) ⟨hu, x.length, by rw [hcode]; exact hwalk, ?_⟩ hy hm (.none _)
  unfold symbolBits
  by_cases hmatch : IsMatch y
  · rw [if_pos hmatch] at hdist ⊢
    rw [if_pos hmatch]
    exact ⟨hd hmatch, hdist, by rw [List.length_append, Nat.add_assoc]⟩
  · rw [if_neg hmatch, if_neg hmatch, List.append_nil]

end

/-! ### The symbol of a pass -/

section
variable {c : Encoding} {i : Input} {w : Window} {e : Expansion} {n : Nat}

/-- The decoder reads a symbol, and has yet to put out its bytes. -/
theorem Encoding.Stands.read (h : c.Stands i w e) (tree : HufTree) (pos : Nat) :
    c.Stands i w { e with tree := tree, pos := pos } :=
  ⟨⟨h.mirrors.ip, h.mirrors.behind, h.mirrors.r, h.mirrors.lookahead, h.mirrors.history⟩,
    h.index, h.len, h.full, h.found⟩

theorem Encoding.Stands.next_le (h : c.Stands i w e) : c.next ≤ i.len.toNat := (Nat.sub_le _ _).trans h.mirrors.ip

/-- The lookahead is empty exactly when all bytes have been coded. -/
theorem Encoding.Stands.len_eq_zero_iff (h : c.Stands i w e) : c.len = 0 ↔ c.next = i.len.toNat := by
  have hip := h.mirrors.ip
  have hbehind := h.mirrors.behind
  have hfull := h.full
  unfold next
  omega

/-- A literal stands for the next byte (R121). -/
theorem Encoding.Stands.means_literal (h : c.Stands i w e) (hpos : 0 < c.len) (d : Nat) :
    e.Means (literal (w.win.get c.r)) d (i.slice c.next 1) := by
  have hfirst := h.mirrors.lookahead 0 hpos
  rw [show c.r + Fin.ofNat 4096 0 = c.r from add_zero _] at hfirst
  rw [Expansion.Means, if_pos (show (literal (w.win.get c.r)).val < 256 from (w.win.get c.r).isLt), hfirst]
  exact congrArg (fun b : Byte => [b]) ((BitVec.ofNat_toNat ..).trans (BitVec.setWidth_eq _)).symm

theorem matchSymbol_val (hn : n ≤ 59) : (matchSymbol n).val = 256 + n - 2 := Nat.mod_eq_of_lt (by omega)

/-- The bytes of the lookahead and of the match source, from the window's agreement (R211, R312). -/
theorem Encoding.Stands.byte_of_agree (h : c.Stands i w e) {d k : Nat} (hn : n ≤ c.len) (hd : d ≤ 4035)
    (hagree : w.Agree c.r (source c.r d) n) (hk : k < n) :
    i.byte (c.next + k) =
      if k ≤ d then e.win.get (source c.r d + Fin.ofNat 4096 k) else i.byte (c.next + (k - d - 1)) := by
  have hlen := h.len
  have hbyte := hagree k hk
  have hget (p : Pos) : w.keyByte p k = w.win.get (p + Fin.ofNat 4096 k) := by
    rw [Window.keyByte]
    congr 1
    exact Fin.ext (by rw [pos_add_val, Fin.val_ofNat])
  have hoffset := source_offset c.r (d := d) (k := k) (by omega) (by omega)
  rw [hget, hget, h.mirrors.lookahead k (by omega)] at hbyte
  rw [hbyte]
  split
  · next hkd =>
    rw [if_pos hkd] at hoffset
    exact h.mirrors.history _ (by omega)
  · next hkd =>
    rw [if_neg hkd] at hoffset
    rw [← h.mirrors.lookahead (k - d - 1) (by omega)]
    congr 1
    have hval := pos_sub_val (source c.r d + Fin.ofNat 4096 k) c.r
    have hlt := (source c.r d + Fin.ofNat 4096 k).isLt
    have hr := c.r.isLt
    exact Fin.ext (by rw [pos_add_val c.r]; omega)

/-- A match symbol with the distance of the match found stands for the next bytes (R122, R306). -/
theorem Encoding.Stands.means_match (h : c.Stands i w e) (h2 : 2 ≤ stepLength w.ml.toNat c.len) :
    e.Means (matchSymbol (stepLength w.ml.toNat c.len)) w.mp.toNat (i.slice c.next (stepLength w.ml.toNat c.len)) := by
  have hstep : stepLength w.ml.toNat c.len ≤ w.ml.toNat ∧ stepLength w.ml.toNat c.len ≤ 59 ∧
      stepLength w.ml.toNat c.len ≤ c.len := by unfold stepLength; omega
  generalize stepLength w.ml.toNat c.len = n at h2 hstep
  obtain ⟨hml, h59, hlen⟩ := hstep
  obtain ⟨hagree, hmp⟩ := h.found (by omega) (h2.trans hml)
  have hval := matchSymbol_val h59
  rw [Expansion.Means, if_neg (by omega), Input.length_slice, hval]
  refine ⟨by omega, fun k hk => ?_⟩
  rw [Input.getElem?_slice hk, h.byte_of_agree hlen hmp (fun j hj => hagree j (hj.trans_le hml)) hk, h.mirrors.r]
  split
  · rfl
  · rw [Input.getElem?_slice (by omega)]

end

/-! ### One pass (R306) -/

/-- The machine codes at `c`, beside a decoder that stands at `e`. -/
structure State.Encodes (s : State) (c : Encoding) (e : Expansion) : Prop where
  tree : s.huf = e.tree
  sound : e.tree.Sound
  stands : c.Stands s.inp s.win e
  fits : s.out.len ≤ s.params.outCap

/-- `n` bytes have been coded by the bits `bits`. -/
structure State.CodesBytes (s : State) (c : Encoding) (e : Expansion) (bits : List Bool) (n : Nat) (t : State)
    (c' : Encoding) (e' : Expansion) : Prop where
  codes : s.Codes t bits
  encodes : t.Encodes c' e'
  follows : e.Follows bits e'
  bytes : e'.bytes = e.bytes ++ s.inp.slice c.next n
  next : c'.next = c.next + n
  r : e'.r.val = (e.r.val + n) % 4096

section
variable {s t : State} {lim n : Nat} {c : Encoding} {e : Expansion} {x : List Bool} {y : Sym} {d : Nat}

/-- The slide after a symbol has been written (R306). -/
theorem ends_slide_codesBytes (h : s.Encodes c e) (hwalk : s.huf.walk 628 x = some y) (hu : s.huf.update y = some t.huf)
    (hcodes : s.Codes t (symbolBits y d x)) (hwin : t.win = s.win) (hy : y ≠ 314) (hd : IsMatch y → d < 4096)
    (hm : e.Means y d (s.inp.slice c.next n)) (hn : n ≤ c.len) :
    (slide n c).Ends t (fun c' u => ∃ e', s.CodesBytes c e (symbolBits y d x) n u c' e') fun _ _ => False := by
  rw [h.tree] at hwalk hu
  have hread := h.stands.read t.huf (e.pos + (symbolBits y d x).length)
  rw [← hcodes.same.inp, ← hwin] at hread
  refine (ends_slide hread hn).mono (fun c' u ⟨hsame, hstands, hnext⟩ => ?_) fun _ _ h => h
  rw [hcodes.same.inp] at hstands
  have hcodes' := hcodes.trans (.of_same (hsame.mono (by constructor <;> simp [codingParts]))
    (hsame.out.resolve_left nofun) hcodes.fits)
  rw [List.append_nil] at hcodes'
  refine ⟨_, hcodes', ⟨?_, ?_, ?_, hcodes'.fits⟩, Expansion.follows_symbol h.sound hwalk hu hy hd hm, ?_, hnext, ?_⟩
  · rw [Expansion.putAll_tree]
    exact hsame.huf.resolve_left nofun
  · rw [Expansion.putAll_tree]
    obtain ⟨tree, htree, hsound, -⟩ := HufTree.update_sound h.sound y
    obtain rfl := Option.some.inj (htree.symm.trans hu)
    exact hsound
  · rw [hsame.inp, hcodes.same.inp]
    exact hstands
  · rw [Expansion.putAll_bytes]
  · rw [Expansion.putAll_r, Input.length_slice]

/-- One pass of the coding loop (R306) codes at least one byte, by at most 642 bits. -/
theorem ends_encodeStep (h : s.Encodes c e) (hpos : 0 < c.len) (hlim : s.out.count + 642 ≤ 8 * lim) :
    (encodeStep c).Ends s (fun c' t => ∃ bits n e', 0 < n ∧ bits.length ≤ 642 ∧ s.CodesBytes c e bits n t c' e')
      fun _ _ => s.params.outCap.toNat < lim := by
  have hsound : s.huf.Sound := h.tree ▸ h.sound
  rw [encodeStep, ends_bind, ends_get, ends_ite]
  split
  · next hshort =>
    have hlit : ¬ IsMatch (literal (s.win.win.get c.r)) := fun hm =>
      absurd (s.win.win.get c.r).isLt (Nat.not_lt.2 hm.1)
    have hy : literal (s.win.win.get c.r) ≠ 314 := fun heq => by
      have hval : (s.win.win.get c.r).toNat = 314 := congrArg Fin.val heq
      have := (s.win.win.get c.r).isLt
      omega
    rw [ends_bind]
    refine (ends_encodeSymbol (lim := lim) _ hsound (by omega) h.fits).mono
      (fun _ t ⟨x, hcodes, hwalk, hu, hwin⟩ => ?_) fun _ _ h => h
    have hbits : symbolBits (literal (s.win.win.get c.r)) 0 x = x := by
      rw [symbolBits, if_neg hlit, List.append_nil]
    have hlen := (hsound.length_of_walk hwalk).2
    rw [← hbits] at hcodes
    refine (ends_slide_codesBytes h hwalk hu hcodes hwin hy (fun hm => absurd hm hlit)
      (h.stands.means_literal hpos 0) hpos).mono (fun c' u ⟨e', hbytes⟩ => ?_) fun _ _ h => h.elim
    exact ⟨_, 1, e', Nat.one_pos, by rw [hbits]; omega, hbytes⟩
  · next hlong =>
    have hm := h.stands.means_match (Nat.not_lt.1 hlong)
    have hstep : stepLength s.win.ml.toNat c.len ≤ 59 ∧ stepLength s.win.ml.toNat c.len ≤ c.len := by
      unfold stepLength; omega
    generalize stepLength s.win.ml.toNat c.len = n at hlong hm hstep
    obtain ⟨h59, hlen⟩ := hstep
    have hval := matchSymbol_val h59
    have hmatch : IsMatch (matchSymbol n) := ⟨by omega, by omega⟩
    have hy : matchSymbol n ≠ 314 := fun heq => by
      have : (matchSymbol n).val = 314 := congrArg Fin.val heq
      omega
    rw [ends_bind]
    refine (ends_encodeSymbol (lim := lim) _ hsound (by omega) h.fits).mono
      (fun _ t ⟨x, hcodes, hwalk, hu, hwin⟩ => ?_) fun _ _ h => h
    have hcount := hcodes.appends.count_eq
    have hx := (hsound.length_of_walk hwalk).2
    have hdist := length_distanceCode_le s.win.mp.toNat
    have hbits : symbolBits (matchSymbol n) s.win.mp.toNat x = x ++ distanceCode s.win.mp.toNat := by
      rw [symbolBits, if_pos hmatch]
    rw [ends_bind, encodePos, ← hcodes.same.params]
    refine (ends_putAll_within (lim := lim) (by omega) hcodes.fits).mono (fun _ u ⟨hu', hcodes'⟩ => ?_) fun _ _ h => h
    have hhuf : t.huf = u.huf := by rw [hu']
    have hwin' : u.win = s.win := by rw [hu', hwin]
    rw [hhuf] at hu
    refine (ends_slide_codesBytes h hwalk hu (by rw [hbits]; exact hcodes.trans hcodes') hwin' hy
      (fun _ => s.win.mp.isLt) hm hlen).mono (fun c' v ⟨e', hbytes⟩ => ?_) fun _ _ h => h.elim
    exact ⟨_, n, e', by omega, by rw [hbits, List.length_append]; omega, hbytes⟩

theorem State.CodesBytes.trans {t u : State} {c' c'' : Encoding} {e' e'' : Expansion} {x x' : List Bool} {m : Nat}
    (h : s.CodesBytes c e x m t c' e') (h' : t.CodesBytes c' e' x' n u c'' e'') :
    s.CodesBytes c e (x ++ x') (m + n) u c'' e'' := by
  refine ⟨h.codes.trans h'.codes, h'.encodes, h.follows.trans h'.follows, ?_, ?_, ?_⟩
  · rw [h'.bytes, h.bytes, h.codes.same.inp, h.next, Input.slice_add, List.append_assoc]
  · rw [h'.next, h.next, Nat.add_assoc]
  · rw [h'.r, h.r, Nat.mod_add_mod, Nat.add_assoc]

/-- Nothing has been coded. -/
theorem State.CodesBytes.refl (h : s.Encodes c e) : s.CodesBytes c e [] 0 s c e :=
  ⟨.of_same (.refl _ s) rfl h.fits, h, .refl e, (List.append_nil _).symm, rfl, (Nat.mod_eq_of_lt e.r.isLt).symm⟩

/-- The coding loop (R306) codes all bytes, by at most 648 bits each. -/
theorem ends_encodeLoop {fuel : Nat} (h : s.Encodes c e) (hn : n = s.inp.len.toNat - c.next) (hfuel : n ≤ fuel)
    (hlim : s.out.count + 648 * n ≤ 8 * lim) :
    (encodeLoop fuel c).Ends s (fun c' t => ∃ bits e', bits.length ≤ 648 * n ∧ c'.len = 0 ∧
      s.CodesBytes c e bits n t c' e') fun _ _ => s.params.outCap.toNat < lim := by
  have hle := h.stands.next_le
  have hzero := h.stands.len_eq_zero_iff
  induction fuel generalizing s c e n with
  | zero =>
    obtain rfl : n = 0 := by omega
    rw [encodeLoop.eq_def, ends_ite, if_pos (hzero.2 (by omega))]
    exact ⟨[], e, Nat.zero_le _, hzero.2 (by omega), .refl h⟩
  | succ fuel ih =>
    rw [encodeLoop.eq_def, ends_ite]
    split
    · next hlen =>
      obtain rfl : n = 0 := by have := hzero.1 hlen; omega
      exact ⟨[], e, Nat.zero_le _, hlen, .refl h⟩
    · next hlen =>
      rw [ends_bind]
      refine (ends_encodeStep (lim := lim) h (by omega) (by omega)).mono
        (fun c' t ⟨x, m, e', hm, hx, hcoded⟩ => ?_) fun _ _ h => h
      have hcount := hcoded.codes.appends.count_eq
      have hnext := hcoded.next
      have hinp := hcoded.codes.same.inp
      have hle' := hcoded.encodes.stands.next_le
      rw [hinp] at hle'
      rw [← hcoded.codes.same.params]
      refine (ih (n := n - m) hcoded.encodes (by rw [hinp]; omega) (by omega) (by omega)
        hcoded.encodes.stands.next_le hcoded.encodes.stands.len_eq_zero_iff).mono
        (fun c'' u ⟨x', e'', hx', hlen', hcoded'⟩ => ?_) fun _ _ h => h
      have hall := hcoded.trans hcoded'
      rw [Nat.add_sub_of_le (by omega : m ≤ n)] at hall
      exact ⟨x ++ x', e'', by rw [List.length_append]; omega, hlen', hall⟩

end

end Sys2Proof.Machine
end

section
/-! SUPPORT. `LZH_COMPRESS` (44_lzss_codec.md R301 to R308, R320): what it leaves, and what its stream means to a decoder. -/

namespace Sys2Proof.Machine

open Engine

/-! ### The header (R303) -/

/-- The header of `n` raw bytes (R303). -/
def headerBytes (n : Nat) : List Byte := (List.range 4).map fun k => BitVec.ofNat 8 (n / 2 ^ (8 * k))

theorem headerBytes_eq (n : Nat) : headerBytes n =
    [BitVec.ofNat 8 n] ++ ([BitVec.ofNat 8 (n / 2 ^ 8)] ++
      ([BitVec.ofNat 8 (n / 2 ^ 16)] ++ [BitVec.ofNat 8 (n / 2 ^ 24)])) := by
  simp [headerBytes, List.range_succ]

/-- What stands before the stream of `n` raw bytes: the header in `Lzhuf` mode (R303). -/
def State.header (s : State) (n : Nat) : List Byte := if s.hdr = true then headerBytes n else []

theorem ends_writeHeader {s : State} {lim n : Nat} (hlim : s.out.len.toNat + 4 ≤ lim)
    (hfits : s.out.len ≤ s.params.outCap) :
    (writeHeader n).Ends s (fun _ t => s.Stored t (headerBytes n)) fun _ _ => s.params.outCap.toNat < lim := by
  rw [writeHeader, ends_bind]
  refine (ends_outByte _ (by omega) hfits).mono (fun _ t ht => ?_) fun _ _ h => h
  have hlen := ht.stores.len
  rw [List.length_singleton] at hlen
  rw [ends_bind, ← ht.same.params]
  refine (ends_outByte _ (by omega) ht.fits).mono (fun _ u hu => ?_) fun _ _ h => h
  have hlen' := hu.stores.len
  rw [List.length_singleton] at hlen'
  rw [ends_bind, ← hu.same.params]
  refine (ends_outByte _ (by omega) hu.fits).mono (fun _ v hv => ?_) fun _ _ h => h
  have hlen'' := hv.stores.len
  rw [List.length_singleton] at hlen''
  rw [← hv.same.params, headerBytes_eq]
  exact (ends_outByte _ (by omega) hv.fits).mono (fun _ w hw => ht.trans (hu.trans (hv.trans hw))) fun _ _ h => h

theorem ends_header {s : State} {lim n : Nat} (hlim : s.out.len.toNat + 4 ≤ lim) (hfits : s.out.len ≤ s.params.outCap) :
    (doIf (s.hdr = true) (writeHeader n)).Ends s (fun _ t => s.Stored t (s.header n))
      fun _ _ => s.params.outCap.toNat < lim := by
  rw [doIf, ends_ite, State.header]
  split
  · exact ends_writeHeader hlim hfits
  · exact ⟨.refl _ s, .refl _, hfits⟩

/-! ### The end (R308) -/

/-- `EOS` in `Lzhuf` mode, the flush, and the final write position. -/
theorem ends_endEncoding {s : State} {lim : Nat} {r : Pos} (ht : s.huf.Sound) (hlim : s.out.count + 635 ≤ 8 * lim)
    (hfits : s.out.len ≤ s.params.outCap) :
    (endEncoding r).Ends s (fun _ t => ∃ u post, s.Codes u post ∧ u.win = s.win ∧ u.out.accN = 0 ∧
      (s.hdr = false → u.huf = s.huf ∧ ∃ pad, pad < 8 ∧ post = List.replicate pad false) ∧ t = { u with r := r })
      fun _ _ => s.params.outCap.toNat < lim := by
  rw [endEncoding, ends_bind, ends_get, ends_bind]
  have heos : (doIf (s.hdr = true) (encodeSymbol eos)).Ends s (fun _ t => ∃ x, s.Codes t x ∧ x.length ≤ 628 ∧
      t.win = s.win ∧ (s.hdr = false → t.huf = s.huf ∧ x = [])) fun _ _ => s.params.outCap.toNat < lim := by
    rw [doIf, ends_ite]
    split
    · next hhdr =>
      refine (ends_encodeSymbol _ ht (by omega) hfits).mono (fun _ t ⟨x, hcodes, hwalk, _, hwin⟩ => ?_) fun _ _ h => h
      exact ⟨x, hcodes, (ht.length_of_walk hwalk).2, hwin, fun h => absurd (hhdr.symm.trans h) nofun⟩
    · exact ⟨[], .of_same (.refl _ s) rfl hfits, Nat.zero_le _, rfl, fun _ => ⟨rfl, rfl⟩⟩
  refine heos.mono (fun _ t ⟨x, hcodes, hx, hwin, hnone⟩ => ?_) fun _ _ h => h
  have hcount := hcodes.appends.count_eq
  rw [ends_bind, ← hcodes.same.params]
  refine (ends_flush_within (lim := lim) (by omega) hcodes.fits).mono
    (fun _ u ⟨hu, haccN, pad, hpad, hcodes'⟩ => ?_) fun _ _ h => h
  refine ⟨u, _, hcodes.trans hcodes', by rw [hu, hwin], haccN, fun h => ?_, rfl⟩
  obtain ⟨hhuf, hnil⟩ := hnone h
  exact ⟨by rw [hu, hhuf], pad, hpad, by rw [hnil, List.nil_append]⟩

/-! ### The command -/

/-- What `LZH_COMPRESS` does after the verbatim bytes (R303 to R308, R320). -/
def compressRest : Engine State Unit := do
  let s ← get
  doIf (s.hdr = true) (writeHeader (rawSize s))
  let c ← startEncoding s.inOffset.toNat
  let c ← encodeLoop (rawSize s) c
  endEncoding c.r
  reportCompress

theorem lzhCompress_eq : lzhCompress = (checkOffsets >>= fun _ => checkInputSize >>= fun _ => bitInit >>= fun _ =>
    copyPrefix >>= fun _ => compressRest) := rfl

/-- An upper bound on the bytes `LZH_COMPRESS` writes. -/
def State.compressLimit (s : State) : Nat := s.outOffset.toNat + 5 + 81 * (rawSize s + 1)

/-- The stream of a compression (R303 to R308): after the verbatim bytes and the header the bits `bits`, whose symbols lead
a decoder to `e` with the raw bytes produced, and then `post`. -/
structure State.Streams (s t : State) (e : Expansion) (bits post : List Bool) : Prop where
  stream : ∃ pre : List Bool, pre.length = 8 * (s.outOffset.toNat + (s.header (rawSize s)).length) ∧
    t.out.bits = pre ++ (bits ++ post) ∧ (Expansion.start s.fill pre.length).Follows bits e
  bytes : e.bytes = s.inp.slice s.inOffset.toNat (rawSize s)
  win : t.win.win = e.win
  r : t.r = e.r
  padding : s.hdr = false → t.huf = e.tree ∧ ∃ pad, pad < 8 ∧ post = List.replicate pad false

/-- The coding loop with what follows it (R306, R308, R320), beside a decoder that stands at `e`. -/
structure State.CodesAll (s : State) (e : Expansion) (new : List Byte) (t : State) (e' : Expansion)
    (bits post : List Bool) : Prop where
  appends : s.out.Appends t.out (bits ++ post)
  accN : t.out.accN = 0
  follows : e.Follows bits e'
  bytes : e'.bytes = e.bytes ++ new
  win : t.win.win = e'.win
  r : t.r = e'.r
  moved : e'.r.val = (e.r.val + new.length) % 4096
  rd : t.rd = s.rd
  padding : s.hdr = false → t.huf = e'.tree ∧ ∃ pad, pad < 8 ∧ post = List.replicate pad false
  res0 : t.res0 = BitVec.ofNat 32 (rawSize s)
  res1 : t.res1 = t.out.len - s.outOffset

theorem ends_codeAll {s : State} {c : Encoding} {e : Expansion} {n lim : Nat} (h : s.Encodes c e)
    (hn : n = s.inp.len.toNat - c.next) (hlim : s.out.count + 648 * n + 635 ≤ 8 * lim) :
    (encodeLoop n c >>= fun c' => endEncoding c'.r >>= fun _ => reportCompress).Ends s
      (fun _ t => ∃ e' bits post, s.CodesAll e (s.inp.slice c.next n) t e' bits post)
      fun _ _ => s.params.outCap.toNat < lim := by
  rw [ends_bind]
  refine (ends_encodeLoop (lim := lim) h hn (Nat.le_refl n) (by omega)).mono
    (fun c' t ⟨bits, e', hlen, hzero, hcoded⟩ => ?_) fun _ _ h => h
  obtain ⟨hcodes, hencodes, hfollows, hbytes, -, hr⟩ := hcoded
  have hcount := hcodes.appends.count_eq
  have hhdr : t.hdr = s.hdr := congrArg (BitVec.getLsbD · 0) hcodes.same.opt
  have hmirrors := hencodes.stands.mirrors
  have hwin : t.win.win = e'.win := Table.ext fun q => hmirrors.history q (by rw [hzero]; exact Nat.zero_le _)
  rw [ends_bind, ← hcodes.same.params]
  refine (ends_endEncoding (lim := lim) (hencodes.tree ▸ hencodes.sound) (by omega) hencodes.fits).mono
    (fun _ u ⟨v, post, hcodes', hwin', haccN, hpad, hu⟩ => ?_) fun _ _ h => h
  subst hu
  have hall := hcodes.trans hcodes'
  rw [reportCompress, ends_modify]
  refine ⟨e', bits, post, hall.appends, haccN, hfollows, hbytes, by rw [← hwin, ← hwin'], hmirrors.r.symm, ?_,
    hall.same.rd.resolve_left nofun, fun hnone => ?_, ?_, ?_⟩
  · rw [hr, Input.length_slice]
  · obtain ⟨hhuf, hpad'⟩ := hpad (hhdr.trans hnone)
    exact ⟨hhuf.trans hencodes.tree, hpad'⟩
  · exact congrArg (BitVec.ofNat 32) (by rw [rawSize, rawSize, ← hall.same.inp, ← hall.same.inOffset])
  · rw [← hall.same.outOffset]

/-- What an `LZH_COMPRESS` that has completed leaves (R301, R303, R308, R320). -/
structure State.Compressed (s t : State) : Prop where
  res0 : t.res0.toNat = rawSize s
  res1 : t.res1.toNat + s.outOffset.toNat = t.out.len.toNat
  r : t.r.val = (4036 + rawSize s) % 4096
  rd : t.rd = ⟨8 * s.inOffset.toNat, false⟩
  accN : t.out.accN = 0
  verbatim : ∀ a, a < s.outOffset.toNat → t.out.byte a = s.inp.byte a
  header : ∀ k, k < (s.header (rawSize s)).length →
    some (t.out.byte (s.outOffset.toNat + k)) = (s.header (rawSize s))[k]?
  streams : ∃ e bits post, s.Streams t e bits post

section
variable {s t : State} {lim : Nat}

theorem ends_compressRest (hrange : s.OffsetsInRange) (h : s.Prepared t) (hfits : t.out.len ≤ t.params.outCap)
    (hlim : s.compressLimit ≤ lim) :
    compressRest.Ends t (fun _ u => s.Compressed u) fun _ _ => s.params.outCap.toNat < lim := by
  have hraw : rawSize t = rawSize s := by rw [rawSize, rawSize, h.same.inp, h.same.inOffset]
  have hlen := congrArg BitVec.toNat h.len
  have hhdr : t.hdr = s.hdr := congrArg (BitVec.getLsbD · 0) h.same.opt
  have hheader : t.header = s.header := by unfold State.header; rw [hhdr]
  have hle : (s.header (rawSize s)).length ≤ 4 := by unfold State.header; split <;> simp [headerBytes]
  unfold State.compressLimit at hlim
  rw [compressRest, ends_bind, ends_get, ends_bind, hraw, ← h.same.params]
  refine (ends_header (by omega) hfits).mono (fun _ u ⟨hsame, hstores, hfits'⟩ => ?_) fun _ _ h => h
  rw [hheader] at hstores
  have hulen := hstores.len
  have hcount : u.out.count = 8 * (s.outOffset.toNat + (s.header (rawSize s)).length) := by
    rw [Output.count, hstores.accN, h.accN, hulen, hlen]
    rfl
  have hin := (BitVec.le_def.1 hrange.1)
  rw [ends_bind, h.same.inOffset]
  refine (ends_startEncoding (s := u) (ip := s.inOffset.toNat) (by rw [hsame.inp, h.same.inp]; exact hin)
    u.out.count).mono
    (fun c v ⟨hsame', hhuf, hstands, hnext⟩ => ?_) fun _ _ h => h.elim
  have hout : v.out = u.out := hsame'.out.resolve_left nofun
  have hinp : v.inp = s.inp := hsame'.inp.trans (hsame.inp.trans h.same.inp)
  have hparams : v.params = t.params := hsame'.params.trans hsame.params
  have hfill : u.fill = s.fill := congrArg (BitVec.extractLsb' 8 8) (hsame.opt.trans h.same.opt)
  have hopt : v.hdr = s.hdr := congrArg (BitVec.getLsbD · 0) (hsame'.opt.trans (hsame.opt.trans h.same.opt))
  have hin' : v.inOffset = s.inOffset := hsame'.inOffset.trans (hsame.inOffset.trans h.same.inOffset)
  have hout' : v.outOffset = s.outOffset := hsame'.outOffset.trans (hsame.outOffset.trans h.same.outOffset)
  have hencodes : v.Encodes c (.start s.fill u.out.count) := by
    refine ⟨hhuf, HufTree.initial_sound, ?_, ?_⟩
    · rw [hsame'.inp, ← hfill]
      exact hstands
    · rw [hout, hsame'.params]
      exact hfits'
  rw [← hparams]
  refine (ends_codeAll (lim := lim) hencodes (by rw [hinp, hnext, rawSize]) (by rw [hout, hcount]; omega)).mono
    (fun _ w ⟨e, bits, post, hall⟩ => ?_) fun _ _ h => h
  obtain ⟨happends, haccN, hfollows, hbytes, hwin, hr, hmoved, hrd, hpadding, hres0, hres1⟩ := hall
  rw [hout] at happends
  have hwlen := happends.count_eq
  have hwcount : w.out.count = 8 * w.out.len.toNat := by rw [Output.count, haccN]; rfl
  have hlt := s.inp.len.isLt
  have hwlt := w.out.len.isLt
  refine ⟨?_, ?_, ?_, ?_, haccN, fun a ha => ?_, fun k hk => ?_, e, bits, post, ⟨u.out.bits, ?_, ?_, ?_⟩, ?_, hwin, hr,
    fun hnone => hpadding (hopt.trans hnone)⟩
  · rw [hres0, rawSize, hinp, hin', BitVec.toNat_ofNat, rawSize]
    exact Nat.mod_eq_of_lt (by omega)
  · rw [hres1, hout', BitVec.toNat_sub_of_le (by rw [BitVec.le_def]; omega)]
    omega
  · rw [hr, hmoved, Input.length_slice]
    rfl
  · rw [hrd, hsame'.rd.resolve_left nofun, hsame.rd.resolve_left nofun, h.rd]
  · rw [happends.before (by omega), hstores.before a (by omega), h.verbatim a ha]
  · rw [happends.before (by omega), ← hstores.stored k hk, hlen]
  · rw [Output.length_bits, hcount]
  · exact happends.bits
  · rw [Output.length_bits]
    exact hfollows
  · rw [hbytes, hinp, hnext]
    rfl

/-- `LZH_COMPRESS` completes unless the raw bytes pass `MAX_EXPANDED` (R302) or the OUT memory is small (R182). -/
theorem ends_lzhCompress (hrange : s.OffsetsInRange) : lzhCompress.Ends s (fun _ t => s.Compressed t)
    fun _ _ => s.maxExpanded.toNat < rawSize s ∨ s.params.outCap.toNat < s.compressLimit := by
  rw [lzhCompress_eq, ends_bind, ends_checkOffsets hrange, ends_bind]
  rcases Nat.lt_or_ge s.maxExpanded.toNat (rawSize s) with hlarge | hmax
  · rw [ends_checkInputSize_above hlarge]
    exact .inl hlarge
  · rw [ends_checkInputSize hmax]
    refine ends_prepare (lim := s.compressLimit) (by unfold State.compressLimit; omega) (fun t ht hfits => ?_)
      fun _ _ h => .inr h
    exact (ends_compressRest hrange ht hfits (Nat.le_refl _)).mono (fun _ _ h => h) fun _ _ h => .inr h

end

/-- Settles O40: with room for any codewords no step raises. -/
theorem lzhCompressCompletes : Obligations.LzhCompressCompletes := by
  intro s he hin hout hmax hcap
  have hends := (ends_lzhCompress (s := s) ⟨hin, hout⟩).and
    (Bounded.lzhCompress (E := [.sizeExceeded, .unexpectedEof, .illegalCommand]) (by simp) (by simp) (by simp) s)
  obtain ⟨t, hexec, h, hsame⟩ := command_completes (Q := fun t => s.Compressed t ∧ SameBut Bounded.lzhResults s t) he
    (hends.mono (fun _ _ h => h) fun _ _ h => h.1.elim (Nat.not_lt.2 hmax) (Nat.not_lt.2 hcap))
  refine ⟨t, hexec, hsame.err.trans he, hsame.eq_of_lzhResults, h.res0, h.res1, h.r, congrArg Reader.pos h.rd,
    congrArg Reader.ovr h.rd, h.accN, h.verbatim, fun hlzhuf k hk => ?_⟩
  have hheader : s.header (rawSize s) = headerBytes (rawSize s) := if_pos hlzhuf
  have hbyte := h.header k (by rw [hheader]; simpa [headerBytes] using hk)
  rw [hheader, headerBytes, List.getElem?_map, List.getElem?_range hk] at hbyte
  rw [Option.some.inj hbyte, BitVec.toNat_ofNat]
  rfl

end Sys2Proof.Machine
end

section
/-! SUPPORT. The round trips of the LZSS codec (44_lzss_codec.md R313, R314): the stream that a compression wrote leads a
decoder to the raw bytes. -/

namespace Sys2Proof.Machine

open Engine

/-! ### Bytes produced before -/

section
variable {i : Input} {e e' : Expansion} {pre : List Byte}

/-- The same point of an expansion, with other bytes produced before it. -/
def Expansion.after (pre : List Byte) (e : Expansion) : Expansion := { e with bytes := pre ++ e.bytes }

theorem Expansion.putAll_after (pre : List Byte) (e : Expansion) (new : List Byte) :
    (e.after pre).putAll new = (e.putAll new).after pre := by
  induction new generalizing e with
  | nil => rfl
  | cons b new ih =>
    rw [putAll_cons, putAll_cons, ← ih]
    congr 1
    exact congrArg (fun bytes => ({ e.put b with bytes := bytes } : Expansion)) (List.append_assoc pre e.bytes [b])

theorem Input.Reads.after {y : Sym} {d pos : Nat} {tree : HufTree} (h : i.Reads e y d tree pos) (pre : List Byte) :
    i.Reads (e.after pre) y d tree pos := ⟨h.updated, h.codes⟩

/-- What symbols stand for does not depend on the bytes produced before (R310, R312). -/
theorem Input.Expands.after (h : i.Expands e e') (pre : List Byte) : i.Expands (e.after pre) (e'.after pre) := by
  induction h with
  | none e => exact .none _
  | symbol e e' y d tree pos new hpos hr hy hm _ ih =>
    refine .symbol _ _ y d tree pos new hpos (hr.after pre) hy hm ?_
    rw [← Expansion.putAll_after] at ih
    exact ih

theorem Input.Stops.after {tree : HufTree} {pos : Nat} (h : i.Stops none e tree pos) (pre : List Byte) :
    i.Stops none (e.after pre) tree pos := h.imp_right fun h => ⟨h.1, h.2.after pre⟩

end

/-! ### The stream of a compression in an input -/

section
variable {s t : State} {i : Input} {e : Expansion} {bits post : List Bool}

/-- In the input that a compression wrote its symbols lead to the raw bytes, and `post` is what is left. -/
theorem State.Streams.expands (h : s.Streams t e bits post) (haccN : t.out.accN = 0) (hlen : i.len = t.out.len)
    (hbyte : ∀ a, a < t.out.len.toNat → i.byte a = t.out.byte a) :
    i.Expands (.start s.fill (8 * (s.outOffset.toNat + (s.header (rawSize s)).length))) e ∧
      8 * (s.outOffset.toNat + (s.header (rawSize s)).length) ≤ e.pos ∧
      8 * i.len.toNat = e.pos + post.length ∧ i.bits e.pos post.length = post := by
  obtain ⟨pre, hpre, hstream, hfollows⟩ := h.stream
  have hall := Input.bits_of_output hlen hbyte haccN
  rw [hstream] at hall
  have hcount := congrArg List.length hall
  rw [Input.length_bits, List.length_append, List.length_append] at hcount
  obtain ⟨hbits, hpost⟩ := Input.bits_of_append hall
  have hpos : e.pos = pre.length + bits.length := hfollows.pos
  rw [← hpre]
  exact ⟨hfollows.expands i hbits (by omega), by omega, by omega, by rw [hpos]; exact hpost⟩

theorem Input.sizeAt_of_header {n a : Nat} (hn : n < 2 ^ 32)
    (h : ∀ k, k < 4 → i.byte (a + k) = BitVec.ofNat 8 (n / 2 ^ (8 * k))) : i.sizeAt a = n := by
  have hbyte {k : Nat} (hk : k < 4) : (i.byte (a + k)).toNat = n / 2 ^ (8 * k) % 2 ^ 8 := by
    rw [h k hk, BitVec.toNat_ofNat]
  have h0 : (i.byte a).toNat = n / 2 ^ (8 * 0) % 2 ^ 8 := hbyte (k := 0) (by omega)
  rw [sizeAt, h0, hbyte (by omega), hbyte (by omega), hbyte (by omega)]
  omega

/-- A command with both offsets 0 passes the checks of R300. -/
theorem State.offsetsInRange_of_zero (hin : s.inOffset = 0) (hout : s.outOffset = 0) : s.OffsetsInRange := by
  constructor
  · rw [hin]
    exact zero_le_word _
  · rw [hout]
    exact zero_le_word _

/-- An `LZH_COMPRESS` that has completed without an error. -/
theorem compressed_of_exec (he : s.err = 0) (hin : s.inOffset = 0) (hout : s.outOffset = 0)
    (hexec : exec .lzhCompress s = .next t) (ht : t.err = 0) : s.Compressed t :=
  command_ended he hexec ht (ends_lzhCompress (State.offsetsInRange_of_zero hin hout))

theorem rawSize_of_zero (hin : s.inOffset = 0) : rawSize s = s.inp.len.toNat := by
  rw [rawSize, hin]
  rfl

end

/-- Settles O43: the header gives the size, and the symbols of the stream lead to the raw bytes. -/
theorem lzhRoundTrip : Obligations.LzhRoundTrip := by
  intro s t u hs hsin hsout hsopt hexec ht hu huin huout huopt hfill hlen hbyte hmax hcap
  have h := compressed_of_exec hs hsin hsout hexec ht
  obtain ⟨e, bits, post, hstreams⟩ := h.streams
  have hraw := rawSize_of_zero hsin
  have hheader : s.header (rawSize s) = headerBytes (rawSize s) := if_pos hsopt
  have hbytes := h.header
  obtain ⟨hexp, hstart, hend, -⟩ := hstreams.expands h.accN hlen hbyte
  have hfour : (headerBytes (rawSize s)).length = 4 := by simp [headerBytes]
  have hs0 : s.outOffset.toNat = 0 := congrArg BitVec.toNat hsout
  have hu0 : u.inOffset.toNat = 0 := congrArg BitVec.toNat huin
  have hv0 : u.outOffset.toNat = 0 := congrArg BitVec.toNat huout
  rw [hheader, hfour, hs0] at hexp hstart
  rw [hheader, hfour, hs0] at hbytes
  have hsize : u.inp.sizeAt u.inOffset.toNat = s.inp.len.toNat := by
    refine Input.sizeAt_of_header s.inp.len.isLt fun k hk => ?_
    have hk' := hbytes k hk
    rw [headerBytes, List.getElem?_map, List.getElem?_range hk, Nat.zero_add] at hk'
    rw [hu0, Nat.zero_add, hbyte k (by rw [← hlen]; omega), ← hraw]
    exact Option.some.inj hk'
  have helen : e.bytes.length = s.inp.len.toNat := by rw [hstreams.bytes, Input.length_slice, hraw]
  rw [BitVec.le_def] at hmax hcap
  have hfill' : s.fill = u.fill := hfill.symm
  have hstart' : 8 * u.inOffset.toNat + 32 = 8 * (0 + 4) := by rw [hu0]
  rw [hfill', ← hstart'] at hexp
  obtain ⟨v, hv, hverr, hex⟩ := exec_lzhExpand_of_stops hu (State.offsetsInRange_of_zero huin huout)
    (hasHeader_some huopt (by omega) (by omega)) (by omega) hexp
    ⟨fun n hn => by cases hn; omega, by omega⟩ (by omega) ⟨by omega, rfl, rfl⟩
  refine ⟨v, hv, hverr, BitVec.eq_of_toNat_eq (by rw [hex.len]; omega), fun a ha => ?_⟩
  have hout := hex.bytes a (by omega)
  rw [hstreams.bytes, Input.getElem?_slice (by omega), hv0, hsin] at hout
  rw [Nat.zero_add, show (0 : Word).toNat = 0 from rfl, Nat.zero_add] at hout
  exact Option.some.inj hout

/-- Settles O60: after the raw bytes the loop goes on over the padding, from where the compressor's symbols end. -/
theorem lzhNoneRoundTrip : Obligations.LzhNoneRoundTrip := by
  intro s t u hs hsin hsout hsopt hexec ht hu huin huout huopt hfill hlen hbyte hmax hcap
  have h := compressed_of_exec hs hsin hsout hexec ht
  obtain ⟨e, bits, post, hstreams⟩ := h.streams
  have hraw := rawSize_of_zero hsin
  have hheader : s.header (rawSize s) = [] := if_neg (Bool.eq_false_iff.1 hsopt)
  obtain ⟨hexp, hstart, hend, hpost⟩ := hstreams.expands h.accN hlen hbyte
  obtain ⟨htree, pad, hpad, rfl⟩ := hstreams.padding hsopt
  have hs0 : s.outOffset.toNat = 0 := congrArg BitVec.toNat hsout
  have hu0 : u.inOffset.toNat = 0 := congrArg BitVec.toNat huin
  have hv0 : u.outOffset.toNat = 0 := congrArg BitVec.toNat huout
  have hi0 : s.inOffset.toNat = 0 := congrArg BitVec.toNat hsin
  have hfill' : s.fill = u.fill := hfill.symm
  rw [List.length_replicate] at hend hpost
  rw [hheader, hs0, hfill'] at hexp
  have helen : e.bytes.length = s.inp.len.toNat := by rw [hstreams.bytes, Input.length_slice, hraw]
  have hebytes : e.bytes = (List.range s.inp.len.toNat).map s.inp.byte := by
    rw [hstreams.bytes, Input.slice, hi0, hraw, List.range_eq_range']
  have he : e = ⟨t.huf, t.win.win, t.r, e.pos, (List.range s.inp.len.toNat).map s.inp.byte⟩ := by
    rw [htree, hstreams.win, hstreams.r, ← hebytes]
  obtain ⟨e', tree, pos, hexp', hstop, hlen'⟩ := u.inp.exists_stops ⟨t.huf, t.win.win, t.r, e.pos, []⟩
    (htree ▸ hexp.sound HufTree.initial_sound)
  dsimp only [List.length_nil] at hlen'
  have hafter := hexp'.after e.bytes
  have hall : u.inp.Expands (.start u.fill (8 * u.inOffset.toNat)) (e'.after e.bytes) := by
    rw [hu0]
    refine hexp.trans ?_
    rw [he] at hafter ⊢
    rw [Expansion.after, List.append_nil] at hafter
    exact hafter
  have hlenall : (e'.after e.bytes).bytes.length = s.inp.len.toNat + e'.bytes.length := by
    rw [Expansion.after, List.length_append, helen]
  obtain ⟨v, hv, hverr, hex⟩ := exec_lzhExpand_of_stops hu (State.offsetsInRange_of_zero huin huout)
    (hasHeader_none huopt) (by omega) hall ⟨nofun, by omega⟩ (by omega) (hstop.after e.bytes)
  refine ⟨v, e.pos, e', hv, hverr, by rw [hex.len, hlenall]; omega, by omega, fun a ha => ?_, fun k hk => ?_, by omega,
    by omega, fun k hk hk' => ?_, ?_, hexp', hstop.imp And.left fun h => ⟨tree, pos, h.2⟩⟩
  · have hout := hex.bytes a (by omega)
    rw [Expansion.after, List.getElem?_append_left (by omega), hstreams.bytes, Input.getElem?_slice (by omega), hv0, hi0,
      Nat.zero_add] at hout
    exact Option.some.inj hout
  · have hout := hex.bytes (s.inp.len.toNat + k) (by omega)
    rw [Expansion.after, List.getElem?_append_right (by omega), helen, Nat.add_sub_cancel_left, hv0, Nat.zero_add] at hout
    exact hout
  · have hbit : (u.inp.bits e.pos pad)[k - e.pos]? = (List.replicate pad false)[k - e.pos]? := by rw [hpost]
    rw [Input.getElem?_bits (by omega), List.getElem?_replicate_of_lt (by omega), Nat.add_sub_of_le hk] at hbit
    exact Option.some.inj hbit
  · rw [← he]
    exact hexp

end Sys2Proof.Machine
end

section
/-! SUPPORT. `LZW_COMPRESS` (45_lzw.md R343, R346 to R349, R360): each byte writes at most three codes, and the end of the
stream at most three codes and the padding. -/

namespace Sys2Proof.Machine

open Engine

/-- `m` appends at most `k` bits, or the OUT memory is smaller than any bound on the bytes they make (R182). -/
def WritesAtMost {α : Type} (k : Nat) (m : Engine State α) : Prop :=
  ∀ (s : State) (lim : Nat), s.out.len ≤ s.params.outCap → s.out.count + k ≤ 8 * lim →
    m.Ends s (fun _ t => ∃ bits, bits.length ≤ k ∧ s.Codes t bits) fun _ _ => s.params.outCap.toNat < lim

namespace WritesAtMost

variable {α β : Type} {m : Engine State α} {j k : Nat}

theorem mono (h : WritesAtMost j m) (hk : j ≤ k) : WritesAtMost k m := fun s lim hfits hlim =>
  (h s lim hfits (by omega)).mono (fun _ _ ⟨bits, hlen, hcodes⟩ => ⟨bits, hlen.trans hk, hcodes⟩) fun _ _ h => h

theorem pure (a : α) : WritesAtMost k (Pure.pure a) := fun s _ hfits _ =>
  ⟨[], Nat.zero_le k, .of_same (.refl _ s) rfl hfits⟩

theorem bind {f : α → Engine State β} (hm : WritesAtMost j m) (hf : ∀ a, WritesAtMost k (f a)) :
    WritesAtMost (j + k) (m >>= f) := fun s lim hfits hlim => by
  rw [ends_bind]
  refine (hm s lim hfits (by omega)).mono (fun a t ⟨bits, hlen, hcodes⟩ => ?_) fun _ _ h => h
  have hcount := hcodes.appends.count_eq
  rw [← hcodes.same.params]
  refine (hf a t lim hcodes.fits (by omega)).mono (fun _ u ⟨bits', hlen', hcodes'⟩ => ?_) fun _ _ h => h
  exact ⟨bits ++ bits', by rw [List.length_append]; omega, hcodes.trans hcodes'⟩

theorem get_bind {f : State → Engine State β} (hf : ∀ s, WritesAtMost k (f s)) : WritesAtMost k (get >>= f) :=
  fun s lim hfits hlim => by
    rw [ends_bind, ends_get]
    exact hf s s lim hfits hlim

theorem doIf {c : Prop} [Decidable c] {m : Engine State Unit} (hm : WritesAtMost k m) :
    WritesAtMost k (Machine.doIf c m) := by
  unfold Machine.doIf
  split
  · exact hm
  · exact pure ()

theorem onLzw {f : Lzw → α × Lzw} : WritesAtMost 0 (Machine.onLzw f) := fun _ _ hfits _ =>
  ⟨[], Nat.le_refl 0, .of_same (by constructor <;> simp [codingParts]) rfl hfits⟩

theorem setLzw {f : Lzw → Lzw} : WritesAtMost 0 (Machine.setLzw f) := fun _ _ hfits _ =>
  ⟨[], Nat.le_refl 0, .of_same (by constructor <;> simp [codingParts]) rfl hfits⟩

theorem putBits {n v : Nat} : WritesAtMost n (Machine.putBits n v) := fun s lim hfits hlim => by
  rw [← length_bitsOf n v] at hlim
  refine (ends_putAll_within hlim hfits).mono (fun _ t ⟨_, hcodes⟩ => ⟨_, ?_, hcodes⟩) fun _ _ h => h
  rw [length_bitsOf]

/-! ### The encoder (R343, R346, R347) -/

theorem emitCode {k : Code} : WritesAtMost 24 (Machine.emitCode k) :=
  get_bind fun s => by
    split
    · exact putBits.mono (by decide)
    · exact bind (j := 12) (k := 12) putBits fun _ => bind (j := 0) (k := 12) setLzw fun _ => putBits

theorem clearWhenFull : WritesAtMost 12 Machine.clearWhenFull :=
  get_bind fun _ => doIf (bind (j := 12) (k := 0) putBits fun _ => setLzw)

theorem growTable {p : Code} {c : Byte} : WritesAtMost 12 (Machine.growTable p c) :=
  get_bind fun _ => doIf (bind (j := 0) (k := 12) setLzw fun _ => clearWhenFull)

theorem endPrefix {p : Code} {c : Byte} : WritesAtMost 36 (Machine.endPrefix p c) :=
  bind (j := 24) (k := 12) emitCode fun _ => bind (j := 12) (k := 0) growTable fun _ => setLzw

theorem setPrefix {k : Option Code} : WritesAtMost 0 (Machine.setPrefix k) := setLzw

theorem lookupCode {p : Code} {c : Byte} : WritesAtMost 0 (Machine.lookupCode p c) := onLzw

theorem extendPrefix {p : Code} {c : Byte} {k : Option Code} : WritesAtMost 36 (Machine.extendPrefix p c k) := by
  cases k with
  | none => exact endPrefix
  | some k => exact setPrefix.mono (Nat.zero_le 36)

theorem encodeAfter {c : Byte} {p : Option Code} : WritesAtMost 36 (Machine.encodeAfter c p) := by
  cases p with
  | none => exact setPrefix.mono (Nat.zero_le 36)
  | some p =>
    have h := @bind _ _ (Machine.lookupCode p c) 0 36 (Machine.extendPrefix p c) lookupCode fun _ => extendPrefix
    rwa [Nat.zero_add] at h

theorem lzwEncodeByte {c : Byte} : WritesAtMost 36 (Machine.lzwEncodeByte c) := get_bind fun _ => encodeAfter

theorem lzwEncodeBytes {a n : Nat} : WritesAtMost (36 * n) (Machine.lzwEncodeBytes a n) := by
  induction n generalizing a with
  | zero => exact pure ()
  | succ n ih =>
    exact (get_bind fun _ => bind lzwEncodeByte fun _ => ih).mono (by omega)

theorem emitLastPrefix : WritesAtMost 24 Machine.emitLastPrefix := get_bind fun s => by
  cases s.lzw.pfx with
  | none => exact pure ()
  | some p => exact bind (j := 24) (k := 0) emitCode fun _ => setLzw

end WritesAtMost

/-! ### The end of the stream (R349) -/

theorem emitLastPrefix_none (s : State) : Ensures emitLastPrefix s fun _ t => t.lzw.pfx = none := by
  refine .get_bind ?_
  cases h : s.lzw.pfx with
  | none => exact h
  | some p => exact .after fun _ _ => rfl

theorem ends_lzwEncodeEnd {s : State} {lim : Nat} (hfits : s.out.len ≤ s.params.outCap)
    (hlim : s.out.count + 43 ≤ 8 * lim) :
    lzwEncodeEnd.Ends s (fun _ t => t.lzw.pfx = none ∧ t.out.accN = 0 ∧ ∃ bits, s.Codes t bits)
      fun _ _ => s.params.outCap.toNat < lim := by
  rw [lzwEncodeEnd, ends_bind]
  refine ((WritesAtMost.emitLastPrefix s lim hfits (by omega)).and (emitLastPrefix_none s)).mono
    (fun _ t ⟨⟨x, hx, hcodes⟩, hpfx⟩ => ?_) fun _ _ h => h.1
  have hcount := hcodes.appends.count_eq
  have hstop : (doIf (t.lzwStop = true) (putBits 12 257)).Ends t
      (fun _ u => u = { t with out := u.out } ∧ ∃ y : List Bool, y.length ≤ 12 ∧ t.Codes u y)
      fun _ _ => t.params.outCap.toNat < lim := by
    rw [doIf, ends_ite]
    split
    · refine (ends_putAll_within (bits := bitsOf 12 257) (by rw [length_bitsOf]; omega) hcodes.fits).mono
        (fun _ u ⟨hu, hcodes'⟩ => ⟨hu, _, (length_bitsOf 12 257).le, hcodes'⟩) fun _ _ h => h
    · exact ⟨rfl, [], Nat.zero_le _, .of_same (.refl _ t) rfl hcodes.fits⟩
  rw [ends_bind, ends_get, ends_bind, ← hcodes.same.params]
  refine hstop.mono (fun _ u ⟨hu, y, hy, hcodes'⟩ => ?_) fun _ _ h => h
  have hcount' := hcodes'.appends.count_eq
  rw [← hcodes'.same.params]
  refine (ends_flush_within (lim := lim) (by omega) hcodes'.fits).mono
    (fun _ v ⟨hv, haccN, pad, _, hcodes''⟩ => ⟨?_, haccN, _, (hcodes.trans hcodes').trans hcodes''⟩) fun _ _ h => h
  rw [hv, hu]
  exact hpfx

/-! ### The command (R360) -/

/-- What `LZW_COMPRESS` does after the verbatim bytes (R360). -/
def lzwCompressRest : Engine State Unit := do
  lzwInit
  let s ← get
  lzwEncodeBytes s.inOffset.toNat (rawSize s)
  lzwEncodeEnd
  reportCompress

theorem lzwCompress_eq : lzwCompress = (checkOffsets >>= fun _ => checkInputSize >>= fun _ => bitInit >>= fun _ =>
    copyPrefix >>= fun _ => lzwCompressRest) := rfl

/-- An upper bound on the bytes `LZW_COMPRESS` writes. -/
def State.lzwLimit (s : State) : Nat := s.outOffset.toNat + 5 * (rawSize s + 2)

/-- What an `LZW_COMPRESS` that has completed leaves (R301, R349, R360). -/
structure State.LzwCompressed (s t : State) : Prop where
  res0 : t.res0.toNat = rawSize s
  res1 : t.res1.toNat + s.outOffset.toNat = t.out.len.toNat
  rd : t.rd = ⟨8 * s.inOffset.toNat, false⟩
  accN : t.out.accN = 0
  pfx : t.lzw.pfx = none
  verbatim : ∀ a, a < s.outOffset.toNat → t.out.byte a = s.inp.byte a

section
variable {s t : State}

theorem ends_lzwCompressRest (h : s.Prepared t) (hfits : t.out.len ≤ t.params.outCap) :
    lzwCompressRest.Ends t (fun _ u => s.LzwCompressed u) fun _ _ => s.params.outCap.toNat < s.lzwLimit := by
  have hlen := congrArg BitVec.toNat h.len
  have hcount : t.out.count = 8 * s.outOffset.toNat := by rw [Output.count, h.accN, hlen]; rfl
  have hraw : rawSize t = rawSize s := by rw [rawSize, rawSize, h.same.inp, h.same.inOffset]
  have hlimit : s.lzwLimit = s.outOffset.toNat + 5 * (rawSize s + 2) := rfl
  rw [lzwCompressRest, ends_bind, lzwInit, setLzw, ends_modify, ends_bind, ends_get, ends_bind, ← h.same.params]
  have hbytes : WritesAtMost (36 * rawSize s) (lzwEncodeBytes t.inOffset.toNat (rawSize t)) := by
    rw [hraw]
    exact .lzwEncodeBytes
  refine (hbytes { t with lzw := t.lzw.init } s.lzwLimit hfits
    (by rw [show Output.count _ = _ from hcount, hlimit]; omega)).mono
    (fun _ u ⟨x, hx, hcodes⟩ => ?_) fun _ _ h => h
  have hcount' := hcodes.appends.count_eq
  rw [show Output.count _ = _ from hcount] at hcount'
  have hparams : u.params = t.params := hcodes.same.params
  rw [ends_bind, ← hparams]
  refine (ends_lzwEncodeEnd (lim := s.lzwLimit) hcodes.fits (by omega)).mono
    (fun _ v ⟨hpfx, haccN, y, hcodes'⟩ => ?_) fun _ _ h => h
  have hall := hcodes.trans hcodes'
  have hsame : SameBut codingParts t v := SameBut.trans (by constructor <;> simp [codingParts]) hall.same
  have happends : t.out.Appends v.out (x ++ y) := hall.appends
  have hvcount := happends.count_eq
  have hv : v.out.count = 8 * v.out.len.toNat := by rw [Output.count, haccN]; rfl
  have hlt := s.inp.len.isLt
  have hvlt := v.out.len.isLt
  have houtOffset : v.outOffset = s.outOffset := hsame.outOffset.trans h.same.outOffset
  have hvraw : rawSize v = rawSize s := by rw [← hraw, rawSize, rawSize, hsame.inp, hsame.inOffset]
  rw [reportCompress, ends_modify]
  refine ⟨?_, ?_, ?_, haccN, hpfx, fun a ha => ?_⟩
  · dsimp only
    rw [hvraw, BitVec.toNat_ofNat]
    exact Nat.mod_eq_of_lt (by unfold rawSize; omega)
  · dsimp only
    rw [houtOffset, BitVec.toNat_sub_of_le (by rw [BitVec.le_def]; omega)]
    omega
  · exact (hsame.rd.resolve_left nofun).trans h.rd
  · exact (happends.before (by omega)).trans (h.verbatim a ha)

end

/-- A command of the LZW codec changes no part but its own. -/
theorem SameBut.eq_of_lzwResults {s t : State} (h : SameBut Bounded.lzwResults s t) :
    t = { s with res0 := t.res0, res1 := t.res1, rd := t.rd, out := t.out, lzw := t.lzw } := by
  have heq := h.eq
  rw [h.win.resolve_left nofun, h.huf.resolve_left nofun, h.r.resolve_left nofun] at heq
  exact heq

/-- Settles O49: with room for three codes a byte no step raises. -/
theorem lzwCompressCompletes : Obligations.LzwCompressCompletes := by
  intro s he hin hout hmax hcap
  have hends : lzwCompress.Ends s (fun _ t => s.LzwCompressed t) fun _ _ => s.params.outCap.toNat < s.lzwLimit := by
    rw [lzwCompress_eq, ends_bind, ends_checkOffsets ⟨hin, hout⟩, ends_bind, ends_checkInputSize hmax]
    exact ends_prepare (lim := s.lzwLimit) (by unfold State.lzwLimit; omega)
      (fun t ht hfits => ends_lzwCompressRest ht hfits) fun _ _ h => h
  have hbounded := Bounded.lzwCompress (E := [.sizeExceeded, .unexpectedEof]) (by simp) (by simp) s
  obtain ⟨t, hexec, h, hsame⟩ := command_completes (Q := fun t => s.LzwCompressed t ∧ SameBut Bounded.lzwResults s t) he
    ((hends.and hbounded).mono (fun _ _ h => h) fun _ _ h => absurd h.1 (Nat.not_lt.2 hcap))
  exact ⟨t, hexec, hsame.err.trans he, hsame.eq_of_lzwResults, h.res0, h.res1, congrArg Reader.pos h.rd,
    congrArg Reader.ovr h.rd, h.accN, h.pfx, h.verbatim⟩

end Sys2Proof.Machine
end

section
/-! SUPPORT. The LZW table (45_lzw.md R340 to R342, R346): its entries after an insertion, the strings of its codes,
and what `Lookup` finds. -/

namespace Sys2Proof.Machine.Lzw

variable {l l' : Lzw} {p : Code} {c : Byte} {k n : Nat} {str str' : List Byte}

/-! ### Entries (R59) -/

/-- The entries below `n` of two tables are the same. -/
def Agree (l l' : Lzw) (n : Nat) : Prop :=
  ∀ j, 258 ≤ j → j < n → l'.prefixOf j = l.prefixOf j ∧ l'.lastByte j = l.lastByte j

theorem Agree.symm (h : l.Agree l' n) : l'.Agree l n := fun j h1 h2 => ⟨(h j h1 h2).1.symm, (h j h1 h2).2.symm⟩

theorem Agree.trans {l'' : Lzw} (h : l.Agree l' n) (h' : l'.Agree l'' n) : l.Agree l'' n := fun j h1 h2 =>
  ⟨(h' j h1 h2).1.trans (h j h1 h2).1, (h' j h1 h2).2.trans (h j h1 h2).2⟩

theorem entryIndex_ne {j k : Nat} (hj : 258 ≤ j ∧ j < 4096) (hk : 258 ≤ k ∧ k < 4096) (h : j ≠ k) :
    entryIndex j ≠ entryIndex k := fun e => by
  have hval := congrArg Fin.val e
  simp only [entryIndex, Fin.val_ofNat] at hval
  omega

@[simp] theorem prefixOf_addEntry_self : (l.addEntry p c).prefixOf l.next = p := Table.get_set_self ..

@[simp] theorem lastByte_addEntry_self : (l.addEntry p c).lastByte l.next = c := Table.get_set_self ..

/-- An insertion leaves every other entry. -/
theorem addEntry_of_ne {j : Nat} (hl : 258 ≤ l.next ∧ l.next < 4096) (hj : 258 ≤ j ∧ j < 4096) (h : j ≠ l.next) :
    (l.addEntry p c).prefixOf j = l.prefixOf j ∧ (l.addEntry p c).lastByte j = l.lastByte j :=
  have hne := entryIndex_ne hl hj h.symm
  ⟨Table.get_set_ne _ p hne, Table.get_set_ne _ c hne⟩

theorem agree_addEntry (h1 : 258 ≤ l.next) (h2 : l.next < 4096) : l.Agree (l.addEntry p c) l.next := fun _ h3 h4 =>
  addEntry_of_ne ⟨h1, h2⟩ ⟨h3, by omega⟩ (by omega)

/-! ### Strings (R342) -/

theorem Spells.length_pos (h : l.Spells k str) : 1 ≤ str.length := by
  cases h with
  | byte => exact Nat.le_refl 1
  | entry => simp

theorem Spells.unique (h : l.Spells k str) (h' : l.Spells k str') : str = str' := by
  induction h generalizing str' with
  | byte k hk =>
    cases h' with
    | byte => rfl
    | entry _ _ hk' => omega
  | entry k str hk _ _ ih =>
    cases h' with
    | byte _ hk' => omega
    | entry _ _ _ _ h' => rw [ih h']

/-- A code that spells a string is a byte or an entry. -/
theorem Spells.code (h : l.Spells k str) : k < 256 ∨ 258 ≤ k ∧ k < l.next := by
  cases h with
  | byte _ hk => exact .inl hk
  | entry _ _ hk hk' => exact .inr ⟨hk, hk'⟩

theorem Spells.lt (h : l.Spells k str) (hl : 258 ≤ l.next) : k < l.next := by
  have := h.code
  omega

/-- On the way to a string lie strings of every shorter length, of two bytes at least, each of an entry. -/
theorem Spells.exists_shorter (h : l.Spells k str) (h2 : 2 ≤ n) (hn : n ≤ str.length) :
    ∃ j ∈ Finset.Ico 258 l.next, ∃ pre, pre.length = n ∧ l.Spells j pre := by
  induction h with
  | byte k hk => simp only [List.length_singleton] at hn; omega
  | entry k str hk hk' h ih =>
    rw [List.length_append, List.length_singleton] at hn
    rcases Nat.lt_or_ge str.length n with hlt | hge
    · exact ⟨k, Finset.mem_Ico.2 ⟨hk, hk'⟩, str ++ [l.lastByte k], by simp; omega, .entry k str hk hk' h⟩
    · exact ih hge

/-- A string has at most one byte more than the table has entries (R342): the entries on the way to it are distinct,
as their strings have distinct lengths. -/
theorem Spells.length_le (h : l.Spells k str) : str.length ≤ l.next - 258 + 1 := by
  have hcard := Finset.card_le_card_of_forall_subsingleton (s := Finset.Icc 2 str.length) (t := Finset.Ico 258 l.next)
    (fun n j => ∃ pre, pre.length = n ∧ l.Spells j pre)
    (fun n hn => h.exists_shorter (Finset.mem_Icc.1 hn).1 (Finset.mem_Icc.1 hn).2)
    fun _ _ _ ⟨_, a, ha, h⟩ _ ⟨_, b, hb, h'⟩ => by rw [← ha, ← hb, h.unique h']
  rw [Nat.card_Icc, Nat.card_Ico] at hcard
  omega

/-- `spell` finds the string when its fuel suffices for the entries on the way. -/
theorem spell_of_spells (h : l.Spells k str) {fuel : Nat} (hfuel : str.length ≤ fuel + 1) (tail : List Byte) :
    l.spell fuel k tail = some (str ++ tail) := by
  induction h generalizing fuel tail with
  | byte k hk => rw [spell.eq_def, if_pos hk]; rfl
  | entry k str hk hk' h ih =>
    have hpos := h.length_pos
    rw [List.length_append, List.length_singleton] at hfuel
    obtain ⟨fuel, rfl⟩ : ∃ m, fuel = m + 1 := ⟨fuel - 1, by omega⟩
    rw [spell, if_neg (by omega), if_pos ⟨hk, hk'⟩, ih (by omega), List.append_assoc]
    rfl

/-- `String(k)` where R342 states it. -/
theorem string_of_spells (h : l.Spells k str) (hnext : l.next ≤ 4096) : l.string k = (str, l) := by
  have hlen := h.length_le
  rw [string, spell_of_spells h (by omega), List.append_nil]

/-- Every entry's prefix is an older code (R346). -/
def Rising (l : Lzw) : Prop := ∀ j, 258 ≤ j → j < l.next → (l.prefixOf j).toNat < j

/-- A code's string depends only on the entries up to the code, where prefixes are older codes. -/
theorem Spells.of_agree (h : l.Spells k str) (hrising : l.Rising) (hagree : l.Agree l' n) (hk : k < n)
    (hn : n ≤ l'.next) : l'.Spells k str := by
  induction h with
  | byte k hk' => exact .byte k hk'
  | entry k str hk1 hk2 _ ih =>
    obtain ⟨hprefix, hlast⟩ := hagree k hk1 hk
    have hlt := hrising k hk1 hk2
    rw [← hlast]
    refine .entry k str hk1 (by omega) ?_
    rw [hprefix]
    exact ih (by omega)

/-! ### `Lookup` (R341) -/

theorem mem_candidates : k ∈ l.candidates p c ↔ 258 ≤ k ∧ k < l.next ∧ l.prefixOf k = p ∧ l.lastByte k = c := by
  rw [candidates, List.mem_filter, List.mem_range'_1, Bool.and_eq_true, beq_iff_eq, beq_iff_eq]
  constructor
  · rintro ⟨⟨h1, h2⟩, h3⟩
    exact ⟨h1, by omega, h3⟩
  · rintro ⟨h1, h2, h3⟩
    exact ⟨⟨h1, by omega⟩, h3⟩

/-- What `Lookup` can return: `NIL` where no entry matches, else a matching entry; of the unit it changes the model's
own counter at most. -/
theorem lookup_cases (l : Lzw) (p : Code) (c : Byte) :
    (l.candidates p c = [] ∧ l.lookup p c = (none, l)) ∨
    ∃ k tick, k ∈ l.candidates p c ∧ l.lookup p c = (some (BitVec.ofNat 12 k), { l with freeTick := tick }) := by
  unfold lookup
  split
  · next h => exact .inl ⟨h, rfl⟩
  · next k h => exact .inr ⟨k, l.freeTick, by simp [h], rfl⟩
  · next k k' ks h =>
    refine .inr ⟨_, l.freeTick + 1, ?_, rfl⟩
    have hlt : Config.lookupPick l.freeTick % (ks.length + 2) < (k :: k' :: ks).length := Nat.mod_lt _ (by omega)
    rw [h, List.getD_eq_getElem _ _ hlt]
    exact List.getElem_mem hlt

theorem lookup_of_none (h : ∀ j, 258 ≤ j → j < l.next → ¬ (l.prefixOf j = p ∧ l.lastByte j = c)) :
    l.lookup p c = (none, l) := by
  rcases lookup_cases l p c with ⟨-, hlookup⟩ | ⟨k, _, hk, -⟩
  · exact hlookup
  · obtain ⟨h1, h2, h3⟩ := mem_candidates.1 hk
    exact absurd h3 (h k h1 h2)

/-- `Lookup` returns the one matching entry and changes nothing. -/
theorem lookup_of_unique (hk : k ∈ l.candidates p c) (h : ∀ j ∈ l.candidates p c, j = k) :
    l.lookup p c = (some (BitVec.ofNat 12 k), l) := by
  have hone : l.candidates p c = [k] := by
    refine List.perm_singleton.1 ((List.perm_ext_iff_of_nodup ?_ (List.nodup_singleton k)).2 fun j => ?_)
    · exact List.Nodup.filter _ List.nodup_range'
    · rw [List.mem_singleton]
      exact ⟨h j, fun hj => hj ▸ hk⟩
  unfold lookup
  rw [hone]

end Sys2Proof.Machine.Lzw
end

section
/-! SUPPORT. The LZW encoder's procedures (45_lzw.md R343 to R349): the codes each of them writes and the unit it
leaves. -/

namespace Sys2Proof.Machine

open Engine

/-! ### Codes on the output (R85, R343) -/

/-- The stream bits of some codes. -/
def codeBits (ks : List Nat) : List Bool := ks.flatMap (bitsOf 12)

theorem codeBits_cons (k : Nat) (ks : List Nat) : codeBits (k :: ks) = bitsOf 12 k ++ codeBits ks := rfl

@[simp] theorem codeBits_singleton (k : Nat) : codeBits [k] = bitsOf 12 k := List.append_nil _

@[simp] theorem codeBits_append (ks ks' : List Nat) : codeBits (ks ++ ks') = codeBits ks ++ codeBits ks' :=
  List.flatMap_append

@[simp] theorem length_codeBits (ks : List Nat) : (codeBits ks).length = 12 * ks.length := by
  induction ks with
  | nil => rfl
  | cons k ks ih =>
    rw [codeBits_cons, List.length_append, length_bitsOf, ih, List.length_cons]
    omega

/-- The codes `ks` were appended to the stream, and the LZW unit is now `l`. -/
structure State.EmitsCodes (s t : State) (ks : List Nat) (l : Lzw) : Prop where
  same : t = { s with lzw := l, out := t.out }
  appends : s.out.Appends t.out (codeBits ks)
  fits : t.out.len ≤ t.params.outCap

/-- `n` codes more end at or before bit `lim` of the stream. -/
structure State.RoomFor (s : State) (n lim : Nat) : Prop where
  fits : s.out.len ≤ s.params.outCap
  count : s.out.count + 12 * n ≤ lim

theorem State.RoomFor.mono {s : State} {m n lim : Nat} (h : s.RoomFor n lim) (hm : m ≤ n) : s.RoomFor m lim :=
  ⟨h.fits, by have := h.count; omega⟩

section
variable {s t u : State} {ks ks' : List Nat} {l l' : Lzw} {n lim : Nat}

theorem State.EmitsCodes.trans (h : s.EmitsCodes t ks l) (h' : t.EmitsCodes u ks' l') : s.EmitsCodes u (ks ++ ks') l' :=
  ⟨h'.same.trans (by rw [h.same]), codeBits_append ks ks' ▸ h.appends.trans h'.appends, h'.fits⟩

theorem State.EmitsCodes.lzw (h : s.EmitsCodes t ks l) : t.lzw = l := by rw [h.same]

theorem State.EmitsCodes.params (h : s.EmitsCodes t ks l) : t.params = s.params := by rw [h.same]

theorem State.EmitsCodes.opt (h : s.EmitsCodes t ks l) : t.opt = s.opt := by rw [h.same]

theorem State.EmitsCodes.roomFor (h : s.EmitsCodes t ks l) (hroom : s.RoomFor n lim) (hn : ks.length ≤ n) :
    t.RoomFor (n - ks.length) lim := by
  have hcount := h.appends.count_eq
  have hroom := hroom.count
  rw [length_codeBits] at hcount
  exact ⟨h.fits, by omega⟩

/-- Bits are appended, or the OUT memory ends before any bit `lim` that they reach at most (R182). -/
theorem ends_putAll_upTo {bits : List Bool} (hfits : s.out.len ≤ s.params.outCap)
    (hlim : s.out.count + bits.length ≤ lim) :
    (putAll bits).Ends s
      (fun _ t => t = { s with out := t.out } ∧ s.out.Appends t.out bits ∧ t.out.len ≤ t.params.outCap)
      fun _ _ => s.params.outCap.toNat < lim / 8 := by
  rw [Output.count] at hlim
  by_cases hroom : s.out.hasRoom s.params.outCap bits.length
  · refine (ends_putAll hroom).mono (fun _ t ⟨ht, happ⟩ => ⟨ht, happ, ?_⟩) fun _ _ h => h.elim
    have hcount := happ.count
    unfold Output.hasRoom at hroom
    rw [ht, BitVec.le_def]
    dsimp only
    omega
  · obtain ⟨o, ho⟩ := Output.putAll_full hfits hroom
    rw [putAll, ends_writing, ends_of_error ho]
    unfold Output.hasRoom at hroom
    omega

/-- `Flush` pads the waiting bits, or the OUT memory ends before any bit `lim` that the padding reaches at most
(R183). -/
theorem ends_flush_upTo (hfits : s.out.len ≤ s.params.outCap) (hlim : s.out.count + 7 ≤ lim) :
    flush.Ends s (fun _ t => t = { s with out := t.out } ∧ t.out.accN = 0 ∧
      ∃ pad, pad < 8 ∧ s.out.Appends t.out (List.replicate pad false))
      fun _ _ => s.params.outCap.toNat < lim / 8 := by
  rw [flush, ends_writing]
  rw [Output.count] at hlim
  by_cases hroom : s.out.accN = 0 ∨ s.out.len ≠ s.params.outCap
  · obtain ⟨o, ho, happ, haccN, -⟩ := Output.flush_ok hroom hfits
    rw [ends_of_ok ho]
    exact ⟨rfl, haccN, _, Nat.mod_lt _ (by decide), happ⟩
  · obtain ⟨hn, hfull⟩ := not_or.1 hroom
    have hn' : s.out.accN.val ≠ 0 := fun h => hn (Fin.ext h)
    rw [ends_of_error (Output.flush_full hn (not_not.1 hfull)), ← not_not.1 hfull]
    omega

/-- `m` started in `s` writes the codes `ks` and leaves the LZW unit as `l`, or the OUT memory ends before bit `lim`
of the stream. -/
def EmitsWithin (lim : Nat) (m : Engine State Unit) (s : State) (ks : List Nat) (l : Lzw) : Prop :=
  m.Ends s (fun _ t => s.EmitsCodes t ks l) fun _ _ => s.params.outCap.toNat < lim / 8

namespace EmitsWithin

theorem bind {m : Engine State Unit} {f : Unit → Engine State Unit} (hm : EmitsWithin lim m s ks l)
    (hf : ∀ t, s.EmitsCodes t ks l → EmitsWithin lim (f ()) t ks' l') : EmitsWithin lim (m >>= f) s (ks ++ ks') l' := by
  rw [EmitsWithin, ends_bind]
  refine hm.mono (fun _ t ht => ?_) fun _ _ h => h
  have hrest := hf t ht
  rw [EmitsWithin, ht.params] at hrest
  exact hrest.mono (fun _ u hu => ht.trans hu) fun _ _ h => h

theorem get_bind {f : State → Engine State Unit} (hf : EmitsWithin lim (f s) s ks l) :
    EmitsWithin lim (get >>= f) s ks l := by
  rw [EmitsWithin, ends_bind, ends_get]
  exact hf

theorem pure (hfits : s.out.len ≤ s.params.outCap) : EmitsWithin lim (Pure.pure ()) s [] s.lzw :=
  ⟨rfl, .refl _, hfits⟩

theorem setLzw (f : Lzw → Lzw) (hfits : s.out.len ≤ s.params.outCap) :
    EmitsWithin lim (Machine.setLzw f) s [] (f s.lzw) := ⟨rfl, .refl _, hfits⟩

theorem putCode (k : Nat) (h : s.RoomFor 1 lim) : EmitsWithin lim (putBits 12 k) s [k] s.lzw := by
  refine (ends_putAll_upTo h.fits ((length_bitsOf 12 k).symm ▸ h.count)).mono (fun _ t ⟨ht, happ, hfits⟩ => ?_)
    fun _ _ h => h
  exact ⟨by rw [ht], (codeBits_singleton k).symm ▸ happ, hfits⟩

end EmitsWithin

end

/-! ### One code (R343) -/

/-- The codes that go out for a data code: a stream's first one is preceded by `CLEAR` (R343). -/
def Lzw.codesFor (l : Lzw) (k : Code) : List Nat := if l.started then [k.toNat] else [256, k.toNat]

theorem Lzw.length_codesFor (l : Lzw) (k : Code) : (l.codesFor k).length ≤ 2 := by
  unfold codesFor
  split
  · exact Nat.le_succ 1
  · exact Nat.le_refl 2

theorem Lzw.codeBits_codesFor (l : Lzw) (k : Code) :
    codeBits (l.codesFor k) = (if l.started then [] else bitsOf 12 256) ++ bitsOf 12 k.toNat := by
  unfold codesFor
  split
  · exact codeBits_singleton _
  · rw [codeBits_cons, codeBits_singleton]

section
variable {s : State} {lim : Nat}

theorem emitCode_emits (k : Code) (h : s.RoomFor 2 lim) :
    EmitsWithin lim (emitCode k) s (s.lzw.codesFor k) { s.lzw with started := true } := by
  refine .get_bind ?_
  unfold Lzw.codesFor
  split
  · next hstarted =>
    rw [← hstarted]
    exact .putCode _ (h.mono (by decide))
  · refine .bind (ks := [256]) (ks' := [k.toNat]) (.putCode _ (h.mono (by decide))) fun t ht => ?_
    have hroom := ht.roomFor h (by decide)
    refine .bind (ks := []) (ks' := [k.toNat]) (.setLzw _ ht.fits) fun u hu => ?_
    have hput := EmitsWithin.putCode k.toNat (hu.roomFor hroom (by decide))
    rwa [hu.lzw, ht.lzw] at hput

/-! ### The end of a prefix (R346, R347) -/

/-- The codes that follow an insertion (R347). -/
def Lzw.fillCodes (clr : Bool) (l : Lzw) : List Nat := if l.next = 4095 ∧ clr = true then [256] else []

theorem Lzw.codeBits_fillCodes (clr : Bool) (l : Lzw) :
    codeBits (l.fillCodes clr) = if l.next = 4095 ∧ clr = true then bitsOf 12 256 else [] := by
  unfold fillCodes
  split
  · exact codeBits_singleton _
  · rfl

/-- The table after the insertion of R346, and the fill `CLEAR` of R347. -/
def Lzw.grow (clr : Bool) (l : Lzw) (p : Code) (c : Byte) : Lzw :=
  if l.next = 4095 ∧ clr = true then (l.addEntry p c).resetTable
  else if l.next < 4096 then l.addEntry p c else l

theorem growTable_emits (p : Code) (c : Byte) (h : s.RoomFor 1 lim) :
    EmitsWithin lim (growTable p c) s (s.lzw.fillCodes s.lzwClrFull) (s.lzw.grow s.lzwClrFull p c) := by
  refine .get_bind ?_
  unfold doIf Lzw.fillCodes Lzw.grow
  by_cases hroom : s.lzw.next < 4096
  · rw [if_pos hroom, if_pos hroom]
    rw [← List.nil_append (ite _ _ _)]
    refine .bind (ks := []) (.setLzw _ h.fits) fun t ht => .get_bind ?_
    have hnext : t.lzw.next = s.lzw.next + 1 := congrArg Lzw.next ht.lzw
    have hclr : t.lzwClrFull = s.lzwClrFull := congrArg (BitVec.getLsbD · 2) ht.opt
    have hcond : (t.lzwClrFull = true ∧ t.lzw.next = 4096) ↔ (s.lzw.next = 4095 ∧ s.lzwClrFull = true) := by
      rw [hclr, hnext, and_comm, Nat.add_left_inj]
    unfold doIf
    by_cases hfull : s.lzw.next = 4095 ∧ s.lzwClrFull = true
    · rw [if_pos hfull, if_pos hfull, if_pos (hcond.2 hfull), ← ht.lzw]
      refine .bind (ks := [256]) (ks' := []) (.putCode _ (ht.roomFor h (by decide))) fun u hu => ?_
      rw [← hu.lzw]
      exact .setLzw _ hu.fits
    · rw [if_neg hfull, if_neg hfull, if_neg fun h => hfull (hcond.1 h), ← ht.lzw]
      exact .pure ht.fits
  · rw [if_neg hroom, if_neg hroom, if_neg (by omega), if_neg (by omega)]
    exact .pure h.fits

/-- The unit after a byte that does not extend the prefix (R346). -/
def Lzw.afterPrefix (clr : Bool) (l : Lzw) (p : Code) (c : Byte) : Lzw :=
  { Lzw.grow clr { l with started := true } p c with pfx := some (c.setWidth 12) }

/-- It changes the table, `STARTED` and `PREFIX`. -/
theorem Lzw.afterPrefix_eq (clr : Bool) (l : Lzw) (p : Code) (c : Byte) :
    l.afterPrefix clr p c =
      { l with
        dictP := (l.afterPrefix clr p c).dictP
        dictC := (l.afterPrefix clr p c).dictC
        next := (l.afterPrefix clr p c).next
        started := true
        pfx := some (c.setWidth 12) } := by
  unfold afterPrefix grow
  split
  · rfl
  · split <;> rfl

theorem endPrefix_emits (p : Code) (c : Byte) (h : s.RoomFor 3 lim) :
    EmitsWithin lim (endPrefix p c) s (s.lzw.codesFor p ++ s.lzw.fillCodes s.lzwClrFull)
      (s.lzw.afterPrefix s.lzwClrFull p c) := by
  have hlen := s.lzw.length_codesFor p
  refine .bind (emitCode_emits p (h.mono (by decide))) fun t ht => ?_
  have hclr : t.lzwClrFull = s.lzwClrFull := congrArg (BitVec.getLsbD · 2) ht.opt
  have hgrow := growTable_emits p c ((ht.roomFor h (by omega)).mono (m := 1) (by omega))
  rw [ht.lzw, hclr] at hgrow
  rw [← List.append_nil (s.lzw.fillCodes _)]
  refine .bind (ks' := []) hgrow fun u hu => ?_
  have hset := EmitsWithin.setLzw (lim := lim) (fun l => { l with pfx := some (c.setWidth 12) }) hu.fits
  rwa [hu.lzw] at hset

/-! ### One byte (R346) -/

variable {c : Byte} {p : Code} {Q : Unit → State → Prop} {E : Stop → State → Prop}

theorem ends_onLzw {α : Type} {f : Lzw → α × Lzw} {Q : α → State → Prop} :
    (onLzw f).Ends s Q E ↔ Q (f s.lzw).1 { s with lzw := (f s.lzw).2 } := Iff.rfl

theorem ends_lzwEncodeByte_none (h : s.lzw.pfx = none) :
    (lzwEncodeByte c).Ends s Q E ↔ Q () { s with lzw := { s.lzw with pfx := some (c.setWidth 12) } } := by
  rw [lzwEncodeByte, ends_bind, ends_get, h]
  exact Iff.rfl

theorem ends_lzwEncodeByte_some (h : s.lzw.pfx = some p) :
    (lzwEncodeByte c).Ends s Q E ↔
      (extendPrefix p c (s.lzw.lookup p c).1).Ends { s with lzw := (s.lzw.lookup p c).2 } Q E := by
  rw [lzwEncodeByte, ends_bind, ends_get, h]
  show (lookupCode p c >>= fun k => extendPrefix p c k).Ends s Q E ↔ _
  rw [ends_bind, lookupCode, ends_onLzw]

theorem ends_extendPrefix_some {k : Code} :
    (extendPrefix p c (some k)).Ends s Q E ↔ Q () { s with lzw := { s.lzw with pfx := some k } } := Iff.rfl

end

/-! ### The command (R346) -/

/-- A command whose procedure can only end in state `t` answers with it. -/
theorem command_eq_of_ends {m : Engine State Unit} {s t : State} (he : s.err = 0)
    (h : m.Ends s (fun _ u => u = t) fun _ _ => False) : command m s = .next t := by
  obtain ⟨u, hu, rfl⟩ := command_completes he h
  exact hu

/-- Room for some bits on the output is room for codes. -/
theorem State.roomFor_of_hasRoom {s : State} {k n : Nat} (h : s.out.hasRoom s.params.outCap k) (hn : 12 * n ≤ k) :
    s.RoomFor n (s.out.count + k) := by
  unfold Output.hasRoom at h
  exact ⟨by rw [BitVec.le_def]; omega, by omega⟩

/-- The entries and `NEXT` after a byte that does not extend the prefix (R346, R347). -/
theorem Lzw.grow_table {l : Lzw} (clr : Bool) (p : Code) (c : Byte) (h1 : 258 ≤ l.next) (h2 : l.next ≤ 4096) :
    (l.grow clr p c).next =
        (if l.next = 4095 ∧ clr = true then 258 else if l.next < 4096 then l.next + 1 else 4096) ∧
      (l.next < 4096 → (l.grow clr p c).prefixOf l.next = p ∧ (l.grow clr p c).lastByte l.next = c) ∧
      ∀ j, 258 ≤ j → j < 4096 → j ≠ l.next →
        (l.grow clr p c).prefixOf j = l.prefixOf j ∧ (l.grow clr p c).lastByte j = l.lastByte j := by
  have hother {j : Nat} (hlt : l.next < 4096) (hj1 : 258 ≤ j) (hj2 : j < 4096) (hj : j ≠ l.next) :=
    addEntry_of_ne (p := p) (c := c) ⟨h1, hlt⟩ ⟨hj1, hj2⟩ hj
  have hself : (l.addEntry p c).prefixOf l.next = p ∧ (l.addEntry p c).lastByte l.next = c :=
    ⟨prefixOf_addEntry_self, lastByte_addEntry_self⟩
  unfold grow
  by_cases hfull : l.next = 4095 ∧ clr = true
  · rw [if_pos hfull, if_pos hfull]
    exact ⟨rfl, fun _ => hself, fun j => hother (by omega)⟩
  · rw [if_neg hfull, if_neg hfull]
    by_cases hlt : l.next < 4096
    · rw [if_pos hlt, if_pos hlt]
      exact ⟨rfl, fun _ => hself, fun j => hother hlt⟩
    · rw [if_neg hlt, if_neg hlt]
      exact ⟨by omega, fun h => absurd h hlt, fun _ _ _ _ => ⟨rfl, rfl⟩⟩

/-- Settles O44: the byte's case is decided by what `PREFIX` holds and what `Lookup` returns. -/
theorem lzwEncByteCases : Obligations.LzwEncByteCases := by
  intro s b he
  refine ⟨fun hpfx => ?first, fun p k hpfx _ hk1 hk2 hp hb huniq => ?longer, fun p hpfx hroom h1 h2 hno => ?broken⟩
  case first => exact command_eq_of_ends he ((ends_lzwEncodeByte_none hpfx).2 rfl)
  case longer =>
    refine command_eq_of_ends he ((ends_lzwEncodeByte_some hpfx).2 ?_)
    rw [Lzw.lookup_of_unique (Lzw.mem_candidates.2 ⟨hk1, hk2, hp, hb⟩) fun j hj => ?_]
    · exact ends_extendPrefix_some.2 rfl
    · obtain ⟨hj1, hj2, hjp, hjb⟩ := Lzw.mem_candidates.1 hj
      exact huniq j hj1 hj2 hjp hjb
  case broken =>
    have hemits := endPrefix_emits p b (s.roomFor_of_hasRoom (n := 3) hroom (by decide))
    obtain ⟨t, hexec, ht⟩ := command_completes (m := lzwEncodeByte b) (Q := fun t => s.EmitsCodes t _ _) he (by
      rw [ends_lzwEncodeByte_some hpfx, Lzw.lookup_of_none hno]
      refine hemits.mono (fun _ _ h => h) fun _ _ h => ?_
      unfold Output.hasRoom at hroom
      unfold Output.count at h
      omega)
    have hgrow := Lzw.grow_table (l := { s.lzw with started := true }) s.lzwClrFull p b h1 h2
    have hstream := ht.appends
    rw [codeBits_append, Lzw.codeBits_codesFor, Lzw.codeBits_fillCodes] at hstream
    refine ⟨t, hexec, ?_, hstream, ?_, ?_⟩
    · rw [ht.lzw]
      exact ht.same
    · rw [ht.lzw]
      exact Lzw.afterPrefix_eq ..
    · rw [ht.lzw]
      exact hgrow

/-! ### The end of the input (R349) -/

/-- The codes that go out for the last prefix (R349). -/
def Lzw.lastCodes (l : Lzw) : List Nat :=
  match l.pfx with
  | none => []
  | some p => l.codesFor p

/-- The unit after the last prefix (R343, R349). -/
def Lzw.atEnd (l : Lzw) : Lzw := { l with pfx := none, started := l.started || l.pfx.isSome }

/-- The codes that end a stream: the last prefix and `STOP` (R349). -/
def State.endCodes (s : State) : List Nat := s.lzw.lastCodes ++ if s.lzwStop = true then [257] else []

section
variable {s : State} {lim : Nat}

theorem emitLastPrefix_emits (h : s.RoomFor 2 lim) :
    EmitsWithin lim emitLastPrefix s s.lzw.lastCodes s.lzw.atEnd := by
  refine .get_bind ?_
  unfold Lzw.lastCodes Lzw.atEnd
  cases hpfx : s.lzw.pfx with
  | none =>
    have hsame : ({ s.lzw with pfx := none, started := s.lzw.started || false } : Lzw) = s.lzw := by
      rw [Bool.or_false, ← hpfx]
    exact hsame.symm ▸ EmitsWithin.pure h.fits
  | some p =>
    show EmitsWithin lim _ s (s.lzw.codesFor p) { s.lzw with pfx := none, started := s.lzw.started || true }
    rw [Bool.or_true, ← List.append_nil (s.lzw.codesFor p)]
    refine .bind (ks' := []) (emitCode_emits p h) fun t ht => ?_
    have hset := EmitsWithin.setLzw (lim := lim) (fun l => { l with pfx := none }) ht.fits
    rwa [ht.lzw] at hset

theorem putStop_emits (h : s.RoomFor 1 lim) :
    EmitsWithin lim (doIf (s.lzwStop = true) (putBits 12 257)) s (if s.lzwStop = true then [257] else []) s.lzw := by
  unfold doIf
  split
  · exact .putCode _ h
  · exact .pure h.fits

theorem Lzw.length_lastCodes (l : Lzw) : l.lastCodes.length ≤ 2 := by
  unfold lastCodes
  split
  · exact Nat.zero_le 2
  · exact l.length_codesFor _

/-- `LZW_ENCEND` writes the codes that end the stream and pads them, or the OUT memory ends before any bit `lim` that
they reach at most (R349). -/
theorem ends_lzwEncodeEnd_codes (hfits : s.out.len ≤ s.params.outCap) (hlim : s.out.count + 43 ≤ lim) :
    lzwEncodeEnd.Ends s (fun _ t => t = { s with lzw := s.lzw.atEnd, out := t.out } ∧ t.out.accN = 0 ∧
      ∃ pad, pad < 8 ∧ s.out.Appends t.out (codeBits s.endCodes ++ List.replicate pad false))
      fun _ _ => s.params.outCap.toNat < lim / 8 := by
  have hroom : s.RoomFor 3 (lim - 7) := ⟨hfits, by omega⟩
  have hlen := s.lzw.length_lastCodes
  have hlast : EmitsWithin lim emitLastPrefix s s.lzw.lastCodes s.lzw.atEnd :=
    emitLastPrefix_emits ⟨hfits, by omega⟩
  rw [lzwEncodeEnd, ends_bind]
  refine hlast.mono (fun _ t ht => ?_) fun _ _ h => h
  have hstop : t.lzwStop = s.lzwStop := congrArg (BitVec.getLsbD · 1) ht.opt
  have hcount := ht.appends.count_eq
  rw [length_codeBits] at hcount
  have hput := putStop_emits (s := t) (lim := lim) ⟨ht.fits, by omega⟩
  rw [ends_bind, ends_get, ends_bind, ← ht.params]
  refine hput.mono (fun _ u hu => ?_) fun _ _ h => h
  have hall := ht.trans hu
  have hcount' := hu.appends.count_eq
  have hone : (if t.lzwStop = true then [257] else []).length ≤ 1 := by split <;> decide
  rw [length_codeBits] at hcount'
  rw [← hu.params]
  refine (ends_flush_upTo hu.fits (by omega)).mono (fun _ v ⟨hv, haccN, pad, hpad, happ⟩ => ?_) fun _ _ h => h
  refine ⟨hv.trans ?_, haccN, pad, hpad, ?_⟩
  · rw [hall.same, ht.lzw]
  · rw [State.endCodes, ← hstop]
    exact hall.appends.trans happ

end

theorem State.codeBits_endCodes (s : State) :
    codeBits s.endCodes =
      (match s.lzw.pfx with
        | none => []
        | some p => (if s.lzw.started then [] else bitsOf 12 256) ++ bitsOf 12 p.toNat) ++
      (if s.lzwStop = true then bitsOf 12 257 else []) := by
  rw [endCodes, codeBits_append, Lzw.lastCodes]
  congr 1
  · cases s.lzw.pfx with
    | none => rfl
    | some p => exact s.lzw.codeBits_codesFor p
  · split
    · exact codeBits_singleton 257
    · rfl

/-- Settles O45: the last prefix and `STOP` are at most three codes, and a flush pads the byte that waits. -/
theorem lzwEncEndWritesEnd : Obligations.LzwEncEndWritesEnd := by
  intro s he hroom
  have hfits := (s.roomFor_of_hasRoom (n := 0) hroom (Nat.zero_le 43)).fits
  obtain ⟨t, hexec, ht, haccN, pad, hpad, happ⟩ := command_completes he
    ((ends_lzwEncodeEnd_codes hfits (Nat.le_refl _)).mono (fun _ _ h => h) fun _ _ h => by
      unfold Output.hasRoom at hroom
      unfold Output.count at h
      omega)
  have hlzw : t.lzw = s.lzw.atEnd := by rw [ht]
  exact ⟨t, codeBits s.endCodes, pad, hexec, hlzw ▸ ht, hlzw, s.codeBits_endCodes, happ, hpad, haccN⟩

end Sys2Proof.Machine
end

section
/-! SUPPORT. The LZW decoder's procedures (45_lzw.md R351 to R356): the string a code stands for, the entry it adds,
and how the stream ends. -/

namespace Sys2Proof.Machine

open Engine

/-! ### The bytes of a string on the output (R182, R351) -/

/-- The bytes `new` were stored behind the end of the output; beside them only `OUT_LEN` changed. -/
structure State.PutsBytes (s t : State) (new : List Byte) : Prop where
  same : t = { s with out := { s.out with mem := t.out.mem, len := t.out.len } }
  stores : s.out.Stores t.out new

section
variable {s : State}

theorem ends_outByte_of_room (v : Byte) (hroom : s.out.len.toNat < s.params.outCap.toNat) :
    (outByte v).Ends s (fun _ t => s.PutsBytes t [v]) fun _ _ => False := by
  have hne : s.out.len ≠ s.params.outCap := fun h => Nat.lt_irrefl _ (h ▸ hroom)
  have hstored := ends_outByte (lim := s.params.outCap.toNat) v hroom (BitVec.le_def.2 hroom.le)
  have hsame : (outByte v).Ends s (fun _ t => t = { s with out := { s.out with mem := t.out.mem, len := t.out.len } })
      fun _ _ => False := by
    rw [outByte, ends_writing, ends_of_ok (Output.outByte_ok hne)]
  exact (hsame.and hstored).mono (fun _ _ h => ⟨h.1, h.2.stores⟩) fun _ _ h => h.1

theorem ends_outBytes (new : List Byte) (hroom : s.out.len.toNat + new.length ≤ s.params.outCap.toNat) :
    (outBytes new).Ends s (fun _ t => s.PutsBytes t new) fun _ _ => False := by
  induction new generalizing s with
  | nil => exact ⟨rfl, .refl _⟩
  | cons v new ih =>
    rw [List.length_cons] at hroom
    rw [outBytes, ends_bind]
    refine (ends_outByte_of_room v (by omega)).mono (fun _ t ht => ?_) fun _ _ h => h
    have hlen := ht.stores.len
    have hparams : t.params = s.params := by rw [ht.same]
    refine (ih (by rw [hlen, hparams, List.length_singleton]; omega)).mono (fun _ u hu => ?_) fun _ _ h => h
    exact ⟨hu.same.trans (by rw [ht.same]), ht.stores.trans hu.stores⟩

end

/-! ### The string of a data code (R351, R353) -/

/-- Code `k` stands for the string `str`: as a first code, as a known code, or as the code to be assigned next. -/
def Lzw.Stands (l : Lzw) (k : Nat) (str : List Byte) : Prop :=
  l.prev = none ∧ k < 256 ∧ str = [BitVec.ofNat 8 k] ∨
    (∃ p, l.prev = some p ∧ k < l.next ∧ l.Spells k str) ∨
    ∃ p pre, l.prev = some p ∧ k = l.next ∧ l.Spells p.toNat pre ∧ str = pre ++ [pre.headD 0]

/-- The entry that a data code with the string `str` adds (R351, R354). -/
def Lzw.newEntry (l : Lzw) (str : List Byte) : Option (Code × Byte) :=
  match l.prev with
  | none => none
  | some p => if l.next < 4096 then some (p, str.headD 0) else none

/-- The table after that entry. -/
def Lzw.learn (l : Lzw) (str : List Byte) : Lzw :=
  match l.newEntry str with
  | none => l
  | some (p, c) => l.addEntry p c

theorem Lzw.learn_of_none {l : Lzw} {str : List Byte} (h : l.prev = none) : l.learn str = l := by
  rw [learn, newEntry, h]

theorem Lzw.learn_of_room {l : Lzw} {str : List Byte} {p : Code} (h : l.prev = some p) (hnext : l.next < 4096) :
    l.learn str = l.addEntry p (str.headD 0) := by
  simp only [learn, newEntry, h, if_pos hnext]

/-- A full table takes no entry (R354). -/
theorem Lzw.learn_of_full {l : Lzw} {str : List Byte} (h : 4096 ≤ l.next) : l.learn str = l := by
  unfold learn newEntry
  cases l.prev with
  | none => rfl
  | some p => simp only [if_neg (Nat.not_lt.2 h)]

/-- The unit after data code `k` with the string `str` (R351). -/
def Lzw.afterCode (l : Lzw) (k : Code) (str : List Byte) : Lzw :=
  { l.learn str with outCnt := l.outCnt + BitVec.ofNat 32 str.length, prev := some k }

section
variable {s : State} {k : Code} {str : List Byte} {E : Stop → State → Prop}

theorem ends_stringOf {n : Nat} (h : s.lzw.Spells n str) (hnext : s.lzw.next ≤ 4096) {Q : List Byte → State → Prop} :
    (stringOf n).Ends s Q E ↔ Q str s := by
  rw [stringOf, ends_onLzw, Lzw.string_of_spells h hnext]

theorem headD_append_headD {a : Byte} (pre : List Byte) : (pre ++ [pre.headD a]).headD a = pre.headD a := by
  cases pre <;> rfl

theorem ends_decodeString (h : s.lzw.Stands k.toNat str) (hnext : s.lzw.next ≤ 4096)
    {Q : List Byte × Option (Code × Byte) → State → Prop} :
    (decodeString k).Ends s Q E ↔ Q (str, s.lzw.newEntry str) s := by
  rw [decodeString, ends_bind, ends_get, Lzw.newEntry]
  rcases h with ⟨hprev, hk, rfl⟩ | ⟨p, hprev, hk, hspells⟩ | ⟨p, pre, hprev, hk, hspells, rfl⟩ <;>
    rw [hprev, stringAfter]
  · rw [firstCode, ends_bind, ends_raiseIf, if_neg (Nat.not_le.2 hk), BitVec.ofNat_toNat]
    exact Iff.rfl
  · rw [if_pos hk, knownCode, ends_bind, ends_stringOf hspells hnext]
    exact Iff.rfl
  · have hlt : s.lzw.next < 4096 := hk ▸ k.isLt
    rw [if_neg (Nat.not_lt.2 hk.ge), if_pos hk, nextCode, ends_bind, ends_stringOf hspells hnext]
    show _ ↔ Q (_, if s.lzw.next < 4096 then some (p, (pre ++ [pre.headD 0]).headD 0) else none) s
    rw [if_pos hlt, headD_append_headD]
    exact Iff.rfl

/-- The codes that stand for no string (R351). -/
theorem ends_decodeString_invalid
    (h : s.lzw.prev = none ∧ 256 ≤ k.toNat ∨ ∃ p, s.lzw.prev = some p ∧ s.lzw.next < k.toNat)
    {Q : List Byte × Option (Code × Byte) → State → Prop} :
    (decodeString k).Ends s Q E ↔ E (.raise .invalidCode) s := by
  rw [decodeString, ends_bind, ends_get]
  rcases h with ⟨hprev, hk⟩ | ⟨p, hprev, hk⟩ <;> rw [hprev, stringAfter]
  · rw [firstCode, ends_bind, ends_raiseIf, if_pos hk]
  · rw [if_neg (by omega), if_neg (by omega), ends_raise]

theorem ends_addNew {Q : Unit → State → Prop} :
    (addNew (s.lzw.newEntry str)).Ends s Q E ↔ Q () { s with lzw := s.lzw.learn str } := by
  rw [Lzw.learn]
  cases s.lzw.newEntry str <;> exact Iff.rfl

/-! ### A data code (R351) -/

theorem ends_decodeData_tooLong (h : s.lzw.Stands k.toNat str) (hnext : s.lzw.next ≤ 4096)
    (hmax : s.maxExpanded.toNat < s.lzw.outCnt.toNat + str.length) {Q : Nat → State → Prop} :
    (decodeData k).Ends s Q E ↔ E (.raise .sizeExceeded) s := by
  rw [decodeData, ends_bind, ends_decodeString h hnext, ends_bind, ends_get, ends_bind, ends_raiseIf, if_pos hmax]

/-- `n` codes have been read, the string `new` has gone out, and the LZW unit is now `l`. -/
structure State.Decodes (s t : State) (n : Nat) (new : List Byte) (l : Lzw) : Prop where
  same : t = { s with
    rd := { s.rd with pos := s.rd.pos + 12 * n }
    lzw := l
    out := { s.out with mem := t.out.mem, len := t.out.len } }
  stores : s.out.Stores t.out new

theorem State.Decodes.frame {t : State} {n : Nat} {new : List Byte} {l : Lzw} (h : s.Decodes t n new l) :
    t = { s with rd := { s.rd with pos := s.rd.pos + 12 * n }, lzw := l, out := t.out } := by
  have hout : t.out = { s.out with mem := t.out.mem, len := t.out.len } := congrArg State.out h.same
  have hsame := h.same
  rwa [← hout] at hsame

theorem State.Decodes.trans {t u : State} {m n : Nat} {new new' : List Byte} {l l' : Lzw} (h : s.Decodes t m new l)
    (h' : t.Decodes u n new' l') : s.Decodes u (m + n) (new ++ new') l' := by
  refine ⟨h'.same.trans ?_, h.stores.trans h'.stores⟩
  rw [h.same, Nat.mul_add, ← Nat.add_assoc]

theorem ends_decodeData (h : s.lzw.Stands k.toNat str) (hnext : s.lzw.next ≤ 4096)
    (hmax : s.lzw.outCnt.toNat + str.length ≤ s.maxExpanded.toNat)
    (hroom : s.out.len.toNat + str.length ≤ s.params.outCap.toNat) :
    (decodeData k).Ends s (fun n t => n = str.length ∧ s.Decodes t 0 str (s.lzw.afterCode k str)) fun _ _ => False := by
  rw [decodeData, ends_bind, ends_decodeString h hnext, ends_bind, ends_get, ends_bind, ends_raiseIf,
    if_neg (Nat.not_lt.2 hmax), ends_bind, ends_addNew, ends_bind]
  refine (ends_outBytes (s := { s with lzw := s.lzw.learn str }) str hroom).mono (fun _ t ht => ?_) fun _ _ h => h
  rw [ends_bind, setLzw, ends_modify, ends_pure]
  refine ⟨rfl, ?_, ht.stores⟩
  have hout : t.out = { s.out with mem := t.out.mem, len := t.out.len } := congrArg State.out ht.same
  have hlzw : t.lzw = s.lzw.learn str := congrArg State.lzw ht.same
  have hcnt : (s.lzw.learn str).outCnt = s.lzw.outCnt := by
    unfold Lzw.learn
    split <;> rfl
  rw [hlzw, hcnt]
  exact congrArg (fun u : State => { u with lzw := s.lzw.afterCode k str }) ht.same

/-! ### Reading a code (R351, R352) -/

/-- The next code of the stream is `k`, which lies within the input, and the decoder is to read it. -/
structure State.NextCode (s : State) (k : Nat) : Prop where
  running : s.lzw.done = false
  inside : s.rd.pos + 12 ≤ 8 * s.inp.len.toNat
  bits : s.inp.bits s.rd.pos 12 = bitsOf 12 k
  lt : k < 4096

/-- The state in which a code has been read. -/
def State.afterRead (s : State) : State := { s with rd := { s.rd with pos := s.rd.pos + 12 } }

variable {Q : Nat → State → Prop}

theorem ends_lzwDecodeCode_done (h : s.lzw.done = true) : lzwDecodeCode.Ends s Q E ↔ Q 0 s := by
  rw [lzwDecodeCode, ends_bind, ends_get, ends_ite, if_pos h, ends_pure]

theorem ends_lzwDecodeCode_atEnd (h : s.lzw.done = false) (hend : 8 * s.inp.len.toNat < s.rd.pos + 12) :
    lzwDecodeCode.Ends s Q E ↔
      if s.lzwStop = true then E (.raise .unexpectedEof) s else Q 0 { s with lzw := { s.lzw with done := true } } := by
  rw [lzwDecodeCode, ends_bind, ends_get, ends_ite, if_neg (Bool.eq_false_iff.1 h), ends_ite, if_pos hend, endOfInput,
    ends_bind, ends_get, ends_bind, ends_raiseIf]
  exact Iff.rfl

theorem ends_getBits_code {n : Nat} (h : s.NextCode n) : (getBits 12).Ends s Q E ↔ Q n s.afterRead := by
  have hvalue : (s.rd.getBits s.inp 12).1 = n :=
    bitsOf_inj (Reader.getBits_lt s.inp 12 s.rd) h.lt ((Reader.getBits_bits s.inp 12 s.rd).trans h.bits)
  have hovr : decide (0 < 12 ∧ 8 * s.inp.len.toNat < s.rd.pos + 12) = false :=
    decide_eq_false fun ⟨_, hlt⟩ => Nat.not_lt.2 h.inside hlt
  rw [getBits, ends_reading, hvalue, Reader.getBits_reader, hovr, Bool.or_false]
  exact Iff.rfl

theorem ends_lzwDecodeCode_of_code {n : Nat} (h : s.NextCode n) :
    lzwDecodeCode.Ends s Q E ↔ (decodeValue n).Ends s.afterRead Q E := by
  rw [lzwDecodeCode, ends_bind, ends_get, ends_ite, if_neg (Bool.eq_false_iff.1 h.running), ends_ite,
    if_neg (Nat.not_lt.2 h.inside), decodeNext, ends_bind, ends_getBits_code h]

theorem ends_decodeValue_clear :
    (decodeValue 256).Ends s Q E ↔ Q 0 { s with lzw := { s.lzw with next := 258, prev := none } } := Iff.rfl

theorem ends_decodeValue_stop :
    (decodeValue 257).Ends s Q E ↔ Q 0 { s with lzw := { s.lzw with done := true } } := Iff.rfl

theorem decodeValue_data (h1 : k.toNat ≠ 256) (h2 : k.toNat ≠ 257) : decodeValue k.toNat = decodeData k := by
  rw [decodeValue, if_neg h1, if_neg h2, BitVec.ofNat_toNat, BitVec.setWidth_eq]

theorem ends_lzwDecCodeProc {Q : Unit → State → Prop} :
    lzwDecCodeProc.Ends s Q E ↔
      lzwDecodeCode.Ends s (fun n t => Q () { t with res0 := BitVec.ofNat 32 n }) E := by
  rw [lzwDecCodeProc, ends_bind]
  exact Iff.rfl

end

/-! ### The command (R351) -/

/-- A command whose procedure can only raise one error, in one state, answers with the error entry there. -/
theorem command_eq_errorEntry {m : Engine State Unit} {s t : State} {c : ErrCode} (he : s.err = 0)
    (h : m.Ends s (fun _ _ => False) fun e u => e = .raise c ∧ u = t) : command m s = .next (errorEntry c t) := by
  obtain ⟨u, hu, rfl⟩ := command_answers (Q := fun u => u = errorEntry c t) he
    (h.mono (fun _ _ hf => hf.elim) fun e u ⟨h1, h2⟩ => ⟨c, h1, by rw [h2]⟩)
  exact hu

/-- Settles O46: what the decoder does is decided by `LZW_DONE`, by the bits left and by the code read. -/
theorem lzwDecEndOfStream : Obligations.LzwDecEndOfStream := by
  intro s he
  refine ⟨fun hdone => ?done, fun hdone hend hstop => ?eof, fun hdone hend hstop => ?noStop,
    fun hdone hin hbits => ?stop, fun hdone hin hbits => ?clear⟩
  case done => exact command_eq_of_ends he (ends_lzwDecCodeProc.2 ((ends_lzwDecodeCode_done hdone).2 rfl))
  case eof =>
    refine command_eq_errorEntry he (ends_lzwDecCodeProc.2 ((ends_lzwDecodeCode_atEnd hdone hend).2 ?_))
    rw [if_pos (show s.lzwStop = true from hstop)]
    exact ⟨rfl, rfl⟩
  case noStop =>
    refine command_eq_of_ends he (ends_lzwDecCodeProc.2 ((ends_lzwDecodeCode_atEnd hdone hend).2 ?_))
    rw [if_neg (show ¬ s.lzwStop = true from Bool.eq_false_iff.1 hstop)]
    rfl
  case stop =>
    exact command_eq_of_ends he (ends_lzwDecCodeProc.2
      ((ends_lzwDecodeCode_of_code ⟨hdone, hin, hbits, by decide⟩).2 (ends_decodeValue_stop.2 rfl)))
  case clear =>
    exact command_eq_of_ends he (ends_lzwDecCodeProc.2
      ((ends_lzwDecodeCode_of_code ⟨hdone, hin, hbits, by decide⟩).2 (ends_decodeValue_clear.2 rfl)))

/-- Settles O48: `InvalidCode` is raised before there is a string, `SizeExceeded` before the string does anything. -/
theorem lzwDecErrorsOnBadCode : Obligations.LzwDecErrorsOnBadCode := by
  intro s k he hdone hin hbits hclear hstop _ hnext
  have hcode : s.NextCode k.toNat := ⟨hdone, hin, hbits, k.isLt⟩
  refine ⟨fun hbad => ?invalid, fun str hstands hmax => ?tooLong⟩ <;>
    refine command_eq_errorEntry he (ends_lzwDecCodeProc.2 ((ends_lzwDecodeCode_of_code hcode).2 ?_)) <;>
    rw [decodeValue_data hclear hstop]
  case invalid =>
    rw [decodeData, ends_bind]
    exact (ends_decodeString_invalid (s := s.afterRead) hbad).2 ⟨rfl, rfl⟩
  case tooLong => exact (ends_decodeData_tooLong (s := s.afterRead) hstands hnext hmax).2 ⟨rfl, rfl⟩

/-- The entries and `NEXT` after a data code (R351, R354). -/
theorem Lzw.learn_table {l : Lzw} (str : List Byte) (h1 : 258 ≤ l.next) :
    (l.learn str).next = (if l.prev.isSome ∧ l.next < 4096 then l.next + 1 else l.next) ∧
      (∀ p, l.prev = some p → l.next < 4096 →
        (l.learn str).prefixOf l.next = p ∧ (l.learn str).lastByte l.next = str.headD 0) ∧
      ∀ j, 258 ≤ j → j < 4096 → j ≠ l.next ∨ l.prev = none →
        (l.learn str).prefixOf j = l.prefixOf j ∧ (l.learn str).lastByte j = l.lastByte j := by
  cases hprev : l.prev with
  | none =>
    rw [learn_of_none hprev]
    exact ⟨(if_neg nofun).symm, nofun, fun _ _ _ _ => ⟨rfl, rfl⟩⟩
  | some p =>
    by_cases hlt : l.next < 4096
    · rw [learn_of_room hprev hlt, if_pos ⟨rfl, hlt⟩]
      refine ⟨rfl, fun q hq _ => ?_, fun j hj1 hj2 hj => addEntry_of_ne ⟨h1, hlt⟩ ⟨hj1, hj2⟩ (hj.resolve_right nofun)⟩
      rw [← Option.some.inj hq]
      exact ⟨prefixOf_addEntry_self, lastByte_addEntry_self⟩
    · rw [learn_of_full (Nat.not_lt.1 hlt), if_neg fun h => hlt h.2]
      exact ⟨rfl, fun _ _ h => absurd h hlt, fun _ _ _ _ => ⟨rfl, rfl⟩⟩

/-- A data code changes the table, `PREV` and the count of bytes. -/
theorem Lzw.afterCode_eq (l : Lzw) (k : Code) (str : List Byte) :
    l.afterCode k str =
      { l with
        dictP := (l.afterCode k str).dictP
        dictC := (l.afterCode k str).dictC
        next := (l.afterCode k str).next
        prev := some k
        outCnt := l.outCnt + BitVec.ofNat 32 str.length } := by
  unfold afterCode learn
  split <;> rfl

/-- Settles O47: the three cases are those of the string; what is written is the string, and the table learns its
entry. -/
theorem lzwDecDataWritesString : Obligations.LzwDecDataWritesString := by
  intro s k str he hdone hin hbits hclear hstop h258 hnext hstands hmax hroom
  have hdata := ends_decodeData (s := s.afterRead) hstands hnext hmax hroom
  rw [← decodeValue_data hclear hstop] at hdata
  have hcode : s.NextCode k.toNat := ⟨hdone, hin, hbits, k.isLt⟩
  have hgrows := Appending.lzwDecCodeProc s (by rw [BitVec.le_def]; omega)
  obtain ⟨t, hexec, ⟨v, hv, rfl⟩, hgrows⟩ := command_completes (m := lzwDecCodeProc)
    (Q := fun t => (∃ u, s.afterRead.Decodes u 0 str (s.lzw.afterCode k str) ∧
      t = { u with res0 := BitVec.ofNat 32 str.length }) ∧ s.Grows t) he
    (((ends_lzwDecCodeProc.2 ((ends_lzwDecodeCode_of_code hcode).2 (hdata.mono (fun n u ⟨hn, hu⟩ =>
      ⟨u, hu, by rw [hn]⟩) fun _ _ h => h))).and hgrows).mono (fun _ _ h => h) fun _ _ h => h.1)
  have hlzw : v.lzw = s.lzw.afterCode k str := congrArg State.lzw hv.same
  have hlen : str.length < 2 ^ 32 := by
    have := s.maxExpanded.isLt
    omega
  refine ⟨_, hexec, ?_, ?_, congrArg State.out hv.same, hv.stores.len, hv.stores.stored, hgrows.out.outside, ?_, ?_⟩
  · have hframe := hv.frame
    rw [← hlzw] at hframe
    exact congrArg (fun u : State => { u with res0 := BitVec.ofNat 32 str.length }) hframe
  · exact (BitVec.toNat_ofNat ..).trans (Nat.mod_eq_of_lt hlen)
  · rw [hlzw]
    exact s.lzw.afterCode_eq k str
  · rw [hlzw]
    exact Lzw.learn_table str h258

end Sys2Proof.Machine
end

section
/-! SUPPORT. `LZW_EXPAND` (45_lzw.md R351, R352, R356, R361): the decoding loop follows the codes of the stream, and
what the command leaves where the stream ends after them. -/

namespace Sys2Proof.Machine

open Engine

/-! ### Codes, one after the other (R351, R356) -/

/-- The decoder's unit after a `CLEAR` (R351). -/
def Lzw.cleared (l : Lzw) : Lzw := { l with next := 258, prev := none }

/-- The codes `ks`, each `CLEAR` or a data code, take the decoder's unit from one state to another and stand for some
bytes (R351). -/
inductive Lzw.Expands : Lzw → List Nat → List Byte → Lzw → Prop where
  | nil (l : Lzw) : Expands l [] [] l
  | clear (l l' : Lzw) (ks : List Nat) (new : List Byte) :
    Expands l.cleared ks new l' → Expands l (256 :: ks) new l'
  | data (l l' : Lzw) (k : Code) (str : List Byte) (ks : List Nat) (new : List Byte) :
    k.toNat ≠ 256 → k.toNat ≠ 257 → l.Stands k.toNat str → Expands (l.afterCode k str) ks new l' →
    Expands l (k.toNat :: ks) (str ++ new) l'

theorem Lzw.Expands.trans {l l' l'' : Lzw} {ks ks' : List Nat} {new new' : List Byte} (h : l.Expands ks new l')
    (h' : l'.Expands ks' new' l'') : l.Expands (ks ++ ks') (new ++ new') l'' := by
  induction h with
  | nil l => exact h'
  | clear l l' ks new _ ih => exact .clear _ _ _ _ (ih h')
  | data l l' k str ks new h1 h2 hstands _ ih =>
    rw [List.append_assoc]
    exact .data _ _ _ _ _ _ h1 h2 hstands (ih h')

/-- One data code. -/
theorem Lzw.Expands.single {l : Lzw} {k : Code} {str : List Byte} (h1 : k.toNat ≠ 256) (h2 : k.toNat ≠ 257)
    (h : l.Stands k.toNat str) : l.Expands [k.toNat] str (l.afterCode k str) := by
  have hone := Lzw.Expands.data l _ k str [] [] h1 h2 h (.nil _)
  rwa [List.append_nil] at hone

theorem Lzw.learn_next_le {l : Lzw} (str : List Byte) (h : l.next ≤ 4096) : (l.learn str).next ≤ 4096 := by
  cases hprev : l.prev with
  | none => rwa [learn_of_none hprev]
  | some p =>
    rcases Nat.lt_or_ge l.next 4096 with hlt | hge
    · rw [learn_of_room hprev hlt]
      exact hlt
    · rwa [learn_of_full hge]

theorem Lzw.afterCode_done (l : Lzw) (k : Code) (str : List Byte) : (l.afterCode k str).done = l.done := by
  rw [afterCode_eq]

/-- Only the end of the stream sets `LZW_DONE`. -/
theorem Lzw.Expands.done {l l' : Lzw} {ks : List Nat} {new : List Byte} (h : l.Expands ks new l') :
    l'.done = l.done := by
  induction h with
  | nil l => rfl
  | clear l l' ks new _ ih => exact ih
  | data l l' k str ks new _ _ _ _ ih => exact ih.trans (l.afterCode_done k str)

/-! ### The decoding loop (R361) -/

/-- The codes `ks` come next in the input, and the bytes `new` they stand for pass neither cap (R355). -/
structure State.CanDecode (s : State) (ks : List Nat) (new : List Byte) : Prop where
  running : s.lzw.done = false
  next : s.lzw.next ≤ 4096
  inside : s.rd.pos + 12 * ks.length ≤ 8 * s.inp.len.toNat
  bits : s.inp.bits s.rd.pos (12 * ks.length) = codeBits ks
  max : s.lzw.outCnt.toNat + new.length ≤ s.maxExpanded.toNat
  room : s.out.len.toNat + new.length ≤ s.params.outCap.toNat

section
variable {s t : State} {k : Nat} {ks : List Nat} {str new : List Byte} {l l' : Lzw} {n : Nat} {Q : Unit → State → Prop}
  {E : Stop → State → Prop}

/-- The bits of some codes are those of the first and those of the others. -/
theorem State.CanDecode.bits_cons (h : s.CanDecode (k :: ks) new) :
    s.inp.bits s.rd.pos 12 = bitsOf 12 k ∧ s.inp.bits (s.rd.pos + 12) (12 * ks.length) = codeBits ks := by
  have hbits := h.bits
  rw [List.length_cons, Nat.mul_add, Nat.add_comm (12 * ks.length), Input.bits_add, codeBits_cons] at hbits
  exact List.append_inj hbits (by rw [Input.length_bits, length_bitsOf])

theorem State.CanDecode.nextCode (h : s.CanDecode (k :: ks) new) (hk : k < 4096) : s.NextCode k := by
  have hinside := h.inside
  rw [List.length_cons] at hinside
  exact ⟨h.running, by omega, h.bits_cons.1, hk⟩

theorem State.CanDecode.tail (h : s.CanDecode (k :: ks) (str ++ new)) (ht : s.Decodes t 1 str l)
    (hrunning : l.done = false) (hnext : l.next ≤ 4096) (hcnt : l.outCnt = s.lzw.outCnt + BitVec.ofNat 32 str.length) :
    t.CanDecode ks new := by
  have hinside := h.inside
  have hmax := h.max
  have hroom := h.room
  have hlen := ht.stores.len
  have hlt := s.maxExpanded.isLt
  rw [List.length_cons] at hinside
  rw [List.length_append] at hmax hroom
  have hcnt' : l.outCnt.toNat = s.lzw.outCnt.toNat + str.length := by
    rw [hcnt, BitVec.toNat_add, BitVec.toNat_ofNat]
    omega
  refine ⟨?_, ?_, ?_, ?_, ?_, ?_⟩ <;> rw [ht.frame]
  · exact hrunning
  · exact hnext
  · dsimp only
    omega
  · exact h.bits_cons.2
  · dsimp only
    omega
  · dsimp only
    omega

theorem ends_lzwExpandLoop_done (h : s.lzw.done = true) : (lzwExpandLoop n).Ends s Q E ↔ Q () s := by
  rw [lzwExpandLoop.eq_def, ends_bind, ends_get, ends_ite, if_pos h, ends_pure]

theorem ends_lzwExpandLoop_succ (h : s.lzw.done = false) :
    (lzwExpandLoop (n + 1)).Ends s Q E ↔ lzwDecodeCode.Ends s (fun _ t => (lzwExpandLoop n).Ends t Q E) E := by
  rw [lzwExpandLoop, ends_bind, ends_get, ends_ite, if_neg (Bool.eq_false_iff.1 h), ends_bind]

/-- The loop goes over codes that it can decode, to what they stand for. -/
theorem ends_lzwExpandLoop_codes (h : l.Expands ks new l') (hl : s.lzw = l) (hcan : s.CanDecode ks new)
    (hrest : ∀ t, s.Decodes t ks.length new l' → (lzwExpandLoop n).Ends t Q E) :
    (lzwExpandLoop (ks.length + n)).Ends s Q E := by
  induction h generalizing s with
  | nil l =>
    subst hl
    rw [List.length_nil, Nat.zero_add]
    exact hrest s ⟨rfl, .refl _⟩
  | clear l l' ks new _ ih =>
    subst hl
    rw [List.length_cons, Nat.add_right_comm, ends_lzwExpandLoop_succ hcan.running,
      ends_lzwDecodeCode_of_code (hcan.nextCode (by decide)), ends_decodeValue_clear]
    have hstep : s.Decodes { s.afterRead with lzw := s.lzw.cleared } 1 [] s.lzw.cleared := ⟨rfl, .refl _⟩
    have htail := hcan.tail hstep hcan.running (show 258 ≤ 4096 by decide) (BitVec.add_zero _).symm
    refine ih rfl htail fun t ht => hrest t ?_
    rw [List.length_cons, Nat.add_comm]
    exact hstep.trans ht
  | data l l' k str ks new h1 h2 hstands _ ih =>
    subst hl
    have hmax := hcan.max
    have hroom := hcan.room
    rw [List.length_append] at hmax hroom
    rw [List.length_cons, Nat.add_right_comm, ends_lzwExpandLoop_succ hcan.running,
      ends_lzwDecodeCode_of_code (hcan.nextCode k.isLt), decodeValue_data h1 h2]
    refine (ends_decodeData (s := s.afterRead) hstands hcan.next
      (show s.lzw.outCnt.toNat + _ ≤ s.maxExpanded.toNat by omega)
      (show s.out.len.toNat + _ ≤ s.params.outCap.toNat by omega)).mono (fun _ t ⟨_, ht⟩ => ?_) fun _ _ h => h.elim
    have hstep : s.Decodes t 1 str (s.lzw.afterCode k str) := ⟨ht.same, ht.stores⟩
    refine ih (by rw [ht.frame]; rfl) (hcan.tail hstep ?_ (Lzw.learn_next_le str hcan.next) rfl) fun u hu => hrest u ?_
    · rw [Lzw.afterCode_done]
      exact hcan.running
    · rw [List.length_cons, Nat.add_comm]
      exact hstep.trans hu

/-! ### The end of the stream (R352, R356) -/

/-- The stream ends at bit `pos` of the input, with a `STOP` or, where none is required, with fewer bits than a code
has; the bits before `used` have been read then. -/
def State.LzwEnds (s : State) (pos used : Nat) : Prop :=
  (pos + 12 ≤ 8 * s.inp.len.toNat ∧ s.inp.bits pos 12 = bitsOf 12 257 ∧ used = pos + 12) ∨
    (8 * s.inp.len.toNat < pos + 12 ∧ s.lzwStop = false ∧ used = pos)

theorem ends_lzwExpandLoop_end {used : Nat} (h : s.LzwEnds s.rd.pos used) (hrunning : s.lzw.done = false) :
    (lzwExpandLoop (n + 1)).Ends s Q E ↔
      Q () { s with rd := { s.rd with pos := used }, lzw := { s.lzw with done := true } } := by
  rw [ends_lzwExpandLoop_succ hrunning]
  rcases h with ⟨hin, hbits, rfl⟩ | ⟨hend, hstop, rfl⟩
  · rw [ends_lzwDecodeCode_of_code ⟨hrunning, hin, hbits, by decide⟩, ends_decodeValue_stop,
      ends_lzwExpandLoop_done (by rfl)]
    exact Iff.rfl
  · rw [ends_lzwDecodeCode_atEnd hrunning hend, if_neg (Bool.eq_false_iff.1 hstop), ends_lzwExpandLoop_done (by rfl)]

end

/-! ### The command (R361) -/

/-- What `LZW_EXPAND` does after the verbatim bytes (R361). -/
def lzwExpandRest : Engine State Unit := do
  lzwInit
  let s ← get
  lzwExpandLoop (lzwExpandBound s)
  reportExpand

theorem lzwExpand_eq : lzwExpand = (checkOffsets >>= fun _ => bitInit >>= fun _ => copyPrefix >>= fun _ =>
    lzwExpandRest) := rfl

/-- What an `LZW_EXPAND` leaves that has read the bits before `used` and written the bytes `new` behind the verbatim
ones (R301, R361). -/
structure State.LzwExpanded (s : State) (used : Nat) (new : List Byte) (t : State) : Prop where
  frame : t = { s with res0 := t.res0, res1 := t.res1, rd := t.rd, out := t.out, lzw := t.lzw }
  res0 : t.res0.toNat = min s.inp.len.toNat ((used + 7) / 8) - s.inOffset.toNat
  res1 : t.res1.toNat = new.length
  len : t.out.len.toNat = s.outOffset.toNat + new.length
  done : t.lzw.done = true
  verbatim : ∀ a, a < s.outOffset.toNat → t.out.byte a = s.inp.byte a
  bytes : ∀ k, k < new.length → some (t.out.byte (s.outOffset.toNat + k)) = new[k]?

/-- The codes `ks` fill the input from `IN_OFFSET` on up to the end of the stream, and the bytes `new` they stand for
pass neither cap. -/
structure State.HoldsStream (s : State) (ks : List Nat) (new : List Byte) (used : Nat) : Prop where
  expands : ∃ l, s.lzw.init.Expands ks new l
  inside : 8 * s.inOffset.toNat + 12 * ks.length ≤ 8 * s.inp.len.toNat
  bits : s.inp.bits (8 * s.inOffset.toNat) (12 * ks.length) = codeBits ks
  ends : s.LzwEnds (8 * s.inOffset.toNat + 12 * ks.length) used
  max : new.length ≤ s.maxExpanded.toNat
  room : s.outOffset.toNat + new.length ≤ s.params.outCap.toNat

section
variable {s t : State} {ks : List Nat} {new : List Byte} {used : Nat}

/-- The state in which the loop of `LZW_EXPAND` begins can decode the stream's codes. -/
theorem State.HoldsStream.canDecode (h : s.HoldsStream ks new used) (ht : s.Prepared t) :
    State.CanDecode { t with lzw := t.lzw.init } ks new := by
  have hlen := congrArg BitVec.toNat ht.len
  have hpos := congrArg Reader.pos ht.rd
  refine ⟨rfl, show 258 ≤ 4096 by decide, ?_, ?_, ?_, ?_⟩ <;> dsimp only
  · rw [hpos, ht.same.inp]
    exact h.inside
  · rw [hpos, ht.same.inp]
    exact h.bits
  · rw [ht.same.maxExpanded]
    exact (Nat.zero_add _).symm ▸ h.max
  · rw [hlen, ht.same.params]
    exact h.room

/-- The results of `LZW_EXPAND` (R361). -/
def lzwExpandResults (used : Nat) (s : State) : State :=
  { s with
    rd := { s.rd with pos := used }
    lzw := { s.lzw with done := true }
    res0 := BitVec.ofNat 32 (min s.inp.len.toNat ((used + 7) / 8) - s.inOffset.toNat)
    res1 := s.out.len - s.outOffset }

/-- Bytes stored behind the verbatim ones are those that an `LZW_EXPAND` leaves. -/
theorem State.Prepared.lzwExpanded {u : State} (ht : s.Prepared t) (hstores : t.out.Stores u.out new)
    (hsame : SameBut Bounded.lzwParts s u) : s.LzwExpanded used new (lzwExpandResults used u) := by
  have hlen := hstores.len
  have hlt := s.inp.len.isLt
  have hlt' := u.out.len.isLt
  rw [ht.len] at hlen
  refine ⟨?_, ?_, ?_, hlen, rfl, fun a ha => ?_, fun k hk => ?_⟩
  · refine SameBut.eq_of_lzwResults ((hsame.mono Bounded.lzwWithin).trans ?_)
    constructor <;> simp [lzwExpandResults, Bounded.lzwResults, Bounded.lzwParts]
  · rw [lzwExpandResults, hsame.inp, hsame.inOffset, BitVec.toNat_ofNat]
    exact Nat.mod_eq_of_lt (by omega)
  · rw [lzwExpandResults, hsame.outOffset, BitVec.toNat_sub_of_le (by rw [BitVec.le_def]; omega)]
    omega
  · exact (hstores.before a (by rw [ht.len]; exact ha)).trans (ht.verbatim a ha)
  · have hbyte := hstores.stored k hk
    rwa [ht.len] at hbyte

theorem ends_lzwExpandRest (h : s.HoldsStream ks new used) (ht : s.Prepared t) :
    lzwExpandRest.Ends t (fun _ u => s.LzwExpanded used new u) fun _ _ => False := by
  obtain ⟨l, hexp⟩ := h.expands
  rw [← ht.same.lzw.resolve_left nofun] at hexp
  have hcan := h.canDecode ht
  have hinside := hcan.inside
  obtain ⟨n, hn⟩ : ∃ n, lzwExpandBound { t with lzw := t.lzw.init } = ks.length + (n + 1) :=
    ⟨lzwExpandBound { t with lzw := t.lzw.init } - ks.length - 1, by unfold lzwExpandBound; omega⟩
  rw [lzwExpandRest, ends_bind, lzwInit, setLzw, ends_modify, ends_bind, ends_get, ends_bind, hn]
  refine ends_lzwExpandLoop_codes hexp rfl hcan fun u hu => ?_
  have hsame : SameBut Bounded.lzwParts s u :=
    (ht.same.mono (by constructor <;> simp [Bounded.lzwParts])).trans
      (by rw [hu.frame]; constructor <;> simp [Bounded.lzwParts])
  have hpos : u.rd.pos = 8 * s.inOffset.toNat + 12 * ks.length := by
    have hstart : t.rd.pos = 8 * s.inOffset.toNat := congrArg Reader.pos ht.rd
    rw [← hstart]
    exact congrArg (fun v : State => v.rd.pos) hu.frame
  have hrunning : u.lzw.done = false := (congrArg (fun v : State => v.lzw.done) hu.frame).trans hexp.done
  have hends : u.LzwEnds u.rd.pos used := by
    rw [hpos, State.LzwEnds, State.lzwStop, hsame.inp, hsame.opt]
    exact h.ends
  rw [ends_lzwExpandLoop_end hends hrunning, reportExpand, ends_modify]
  exact ht.lzwExpanded (u := u) hu.stores hsame

/-- `LZW_EXPAND` of a stream whose codes stand for the bytes `new`. -/
theorem exec_lzwExpand_of_stream (he : s.err = 0) (hrange : s.OffsetsInRange) (h : s.HoldsStream ks new used) :
    ∃ t, exec .lzwExpand s = .next t ∧ t.err = 0 ∧ s.LzwExpanded used new t := by
  have hends : lzwExpand.Ends s (fun _ t => s.LzwExpanded used new t) fun _ _ => False := by
    rw [lzwExpand_eq, ends_bind, ends_checkOffsets hrange]
    exact ends_prepare ((Nat.le_add_right _ _).trans h.room) (fun t ht _ => ends_lzwExpandRest h ht) fun _ _ hlt =>
      Nat.lt_irrefl _ hlt
  obtain ⟨t, ht, hexp⟩ := command_completes he hends
  exact ⟨t, ht, by rw [hexp.frame]; exact he, hexp⟩

end

/-! ### Byte codes and `CLEAR`s -/

/-- The bytes of a stream of byte codes and `CLEAR`s. -/
def literals (codes : List Nat) : List Byte := (codes.filter (· < 256)).map (BitVec.ofNat 8)

@[simp] theorem length_literals (codes : List Nat) : (literals codes).length = (codes.filter (· < 256)).length :=
  List.length_map ..

/-- Byte codes and `CLEAR`s stand for their bytes, whatever the table holds (R351). -/
theorem Lzw.expands_literals {codes : List Nat} (h : ∀ k ∈ codes, k ≤ 256) {l : Lzw} (hl : 258 ≤ l.next) :
    ∃ l', l.Expands codes (literals codes) l' := by
  induction codes generalizing l with
  | nil => exact ⟨l, .nil l⟩
  | cons k codes ih =>
    have hcodes (j : Nat) (hj : j ∈ codes) : j ≤ 256 := h j (List.mem_cons_of_mem k hj)
    rcases Nat.lt_or_ge k 256 with hk | hk
    · have hnat : (BitVec.ofNat 12 k).toNat = k := (BitVec.toNat_ofNat ..).trans (Nat.mod_eq_of_lt (by omega))
      have hstands : l.Stands k [BitVec.ofNat 8 k] := by
        cases hprev : l.prev with
        | none => exact .inl ⟨hprev, hk, rfl⟩
        | some p => exact .inr (.inl ⟨p, hprev, by omega, .byte k hk⟩)
      have hnext : 258 ≤ (l.afterCode (BitVec.ofNat 12 k) [BitVec.ofNat 8 k]).next := by
        have htable := (l.learn_table [BitVec.ofNat 8 k] hl).1
        show 258 ≤ (l.learn _).next
        split at htable <;> omega
      obtain ⟨l', hl'⟩ := ih hcodes hnext
      have hdata := Lzw.Expands.data l l' (BitVec.ofNat 12 k) _ codes _ (by omega) (by omega) (hnat.symm ▸ hstands) hl'
      rw [hnat] at hdata
      rw [literals, List.filter_cons_of_pos (by simpa using hk), List.map_cons]
      exact ⟨l', hdata⟩
    · obtain rfl : k = 256 := Nat.le_antisymm (h k List.mem_cons_self) hk
      obtain ⟨l', hl'⟩ := ih hcodes (l := l.cleared) (Nat.le_refl 258)
      rw [literals, List.filter_cons_of_neg (by decide)]
      exact ⟨l', .clear _ _ _ _ hl'⟩

/-- Settles O50: the codes stand for their bytes, and `STOP` ends the stream behind them. -/
theorem lzwExpandLiterals : Obligations.LzwExpandLiterals := by
  intro s codes he hin hout hcodes hinside hbits hmax hroom
  rw [Nat.mul_add, Input.bits_add, List.flatMap_append] at hbits
  obtain ⟨hcodeBits, hstop⟩ := List.append_inj hbits (by rw [Input.length_bits]; exact (length_codeBits codes).symm)
  have hstream : s.HoldsStream codes (literals codes) (8 * s.inOffset.toNat + 12 * codes.length + 12) :=
    ⟨Lzw.expands_literals hcodes (Nat.le_refl 258), by omega, hcodeBits,
      .inl ⟨by omega, hstop.trans (List.append_nil _), rfl⟩, by rwa [length_literals], by rwa [length_literals]⟩
  obtain ⟨t, hexec, herr, hexp⟩ := exec_lzwExpand_of_stream he ⟨hin, hout⟩ hstream
  have hlen := length_literals codes
  refine ⟨t, hexec, herr, hexp.frame, ?_, hexp.res1.trans hlen, hexp.len.trans (by rw [hlen]), hexp.done,
    hexp.verbatim, fun j hj => ?_⟩
  · rw [hexp.res0]
    omega
  · have hbyte := hexp.bytes j (by omega)
    rw [literals, List.getElem?_map, List.getElem?_eq_getElem hj] at hbyte
    have hmem := List.mem_filter.1 (List.getElem_mem hj)
    rw [Option.some.inj hbyte, BitVec.toNat_ofNat, List.getD_eq_getElem _ _ hj]
    exact Nat.mod_eq_of_lt (by simpa using hmem.2)

end Sys2Proof.Machine
end

section
/-! SUPPORT. The LZW round trip (45_lzw.md R346, R347, R351 to R354, R362): the decoder's table follows the encoder's,
one entry behind it, and so each code stands for the string that the encoder replaced by it. -/

namespace Sys2Proof.Machine

open Engine

/-! ### The decoder beside the encoder -/

namespace Lzw

variable {d l : Lzw} {p : Code} {c : Byte} {k : Nat} {last : List Byte}

/-- A table as the encoder builds it. -/
structure Built (l : Lzw) : Prop where
  low : 258 ≤ l.next
  high : l.next ≤ 4096
  rising : l.Rising

/-- The decoder's unit `d` beside the encoder's `l`, whose prefix is a string that begins with `c`: both tables are
empty and the decoder waits for a first code; or `d` lacks the newest entry, which is its previous code followed by
`c`; or both tables are full. -/
def Behind (d l : Lzw) (c : Byte) : Prop :=
  (d.prev = none ∧ d.next = 258 ∧ l.next = 258) ∨
    ∃ q, d.prev = some q ∧ l.Agree d d.next ∧
      (258 ≤ d.next ∧ l.next = d.next + 1 ∧ l.prefixOf d.next = q ∧ l.lastByte d.next = c ∨
        d.next = 4096 ∧ l.next = 4096)

/-- The encoder's prefix is a code that stands, for the decoder, for the prefix's string (R351, R353). -/
theorem Behind.stands (h : d.Behind l (last.headD 0)) (hl : l.Built) (hspells : l.Spells k last) :
    d.Stands k last := by
  have hlt := hspells.lt hl.low
  rcases h with ⟨hprev, hd, hnext⟩ | ⟨q, hprev, hagree, ⟨hd, hnext, hprefix, hlast⟩ | ⟨hd, hnext⟩⟩
  · cases hspells with
    | byte k hk => exact .inl ⟨hprev, hk, rfl⟩
    | entry k str hk hk' => omega
  · rcases Nat.lt_or_ge k d.next with hknown | hge
    · exact .inr (.inl ⟨q, hprev, hknown, hspells.of_agree hl.rising hagree hknown (Nat.le_refl _)⟩)
    · obtain rfl : k = d.next := by omega
      cases hspells with
      | byte _ hk => omega
      | entry _ str _ hk' hspells =>
        have hrising := hl.rising d.next hd hk'
        rw [hprefix] at hspells hrising
        refine .inr (.inr ⟨q, str, hprev, rfl, hspells.of_agree hl.rising hagree hrising (Nat.le_refl _), ?_⟩)
        have hpos := hspells.length_pos
        rw [hlast]
        cases str with
        | nil => simp at hpos
        | cons a str => rfl
  · exact .inr (.inl ⟨q, hprev, by omega, hspells.of_agree hl.rising hagree (by omega) (Nat.le_refl _)⟩)

/-- Having decoded the prefix's code, the decoder has the encoder's table (R351, R354). -/
theorem Behind.learn (h : d.Behind l (last.headD 0)) (hl : l.Built) :
    (d.learn last).next = l.next ∧ l.Agree (d.learn last) l.next := by
  have hhigh := hl.high
  rcases h with ⟨hprev, hd, hnext⟩ | ⟨q, hprev, hagree, ⟨hd, hnext, hprefix, hlast⟩ | ⟨hd, hnext⟩⟩
  · rw [learn_of_none hprev, hd, hnext]
    exact ⟨rfl, fun j h1 h2 => by omega⟩
  · rw [learn_of_room hprev (by omega), hnext]
    refine ⟨rfl, fun j h1 h2 => ?_⟩
    rcases Nat.lt_succ_iff_lt_or_eq.1 h2 with hlt | rfl
    · exact (hagree.trans (agree_addEntry hd (by omega))) j h1 hlt
    · rw [prefixOf_addEntry_self, lastByte_addEntry_self, hprefix, hlast]
      exact ⟨rfl, rfl⟩
  · rw [learn_of_full hd.ge, hd, hnext]
    rw [hd] at hagree
    exact ⟨rfl, hagree⟩

/-- A decoder that has the encoder's table is one entry behind it after the encoder's next insertion (R346, R347). -/
theorem behind_grow (clr : Bool) (c : Byte) (hl : l.Built) (hprev : d.prev = some p) (hnext : d.next = l.next)
    (hagree : l.Agree d l.next) :
    ∃ d', d.Expands (l.fillCodes clr) [] d' ∧ d'.Behind (l.grow clr p c) c := by
  unfold fillCodes grow
  by_cases hfill : l.next = 4095 ∧ clr = true
  · rw [if_pos hfill, if_pos hfill]
    exact ⟨d.cleared, .clear _ _ _ _ (.nil _), .inl ⟨rfl, rfl, rfl⟩⟩
  · rw [if_neg hfill, if_neg hfill]
    refine ⟨d, .nil d, .inr ⟨p, hprev, ?_⟩⟩
    rw [hnext]
    by_cases hlt : l.next < 4096
    · rw [if_pos hlt]
      exact ⟨(agree_addEntry hl.low hlt).symm.trans hagree,
        .inl ⟨hl.low, rfl, prefixOf_addEntry_self, lastByte_addEntry_self⟩⟩
    · have hfull : l.next = 4096 := Nat.le_antisymm hl.high (Nat.not_lt.1 hlt)
      rw [if_neg hlt]
      exact ⟨hagree, .inr ⟨hfull, hfull⟩⟩

/-- The codes for a prefix that ends take the decoder over the prefix's string. -/
theorem Behind.codesFor (h : d.Behind l (last.headD 0)) (hl : l.Built) (hfresh : l.started = false → l.next = 258)
    (hspells : l.Spells p.toNat last) :
    ∃ d', d.Expands (l.codesFor p) last d' ∧ d'.prev = some p ∧ d'.next = l.next ∧ l.Agree d' l.next := by
  have hcode := hspells.code
  have hsingle {d : Lzw} (h : d.Behind l (last.headD 0)) : d.Expands [p.toNat] last (d.afterCode p last) :=
    .single (by omega) (by omega) (h.stands hl hspells)
  unfold Lzw.codesFor
  split
  · exact ⟨_, hsingle h, rfl, h.learn hl⟩
  · next hstarted =>
    have hcleared : d.cleared.Behind l (last.headD 0) :=
      .inl ⟨rfl, rfl, hfresh (Bool.eq_false_iff.2 hstarted)⟩
    exact ⟨_, .clear _ _ _ _ (hsingle hcleared), rfl, hcleared.learn hl⟩

/-! ### What the encoder has written so far -/

theorem Built.of_empty (h : l.next = 258) : l.Built := ⟨h.ge, by omega, fun j h1 h2 => by omega⟩

theorem Built.addEntry (hl : l.Built) (hlt : l.next < 4096) (hp : p.toNat < l.next) : (l.addEntry p c).Built := by
  refine ⟨hl.low.trans (Nat.le_succ _), hlt, fun j h1 h2 => ?_⟩
  rcases Nat.lt_succ_iff_lt_or_eq.1 h2 with hj | rfl
  · rw [((agree_addEntry hl.low hlt) j h1 hj).1]
    exact hl.rising j h1 hj
  · rwa [prefixOf_addEntry_self]

theorem Built.grow (hl : l.Built) (clr : Bool) (c : Byte) (hp : p.toNat < l.next) : (l.grow clr p c).Built := by
  unfold Lzw.grow
  split
  · exact .of_empty rfl
  · split
    · next hlt => exact hl.addEntry hlt hp
    · exact hl

/-- Strings depend on the table only. -/
theorem Spells.of_table {l' : Lzw} (h : l.Spells k last) (hnext : l'.next = l.next) (hp : l'.dictP = l.dictP)
    (hc : l'.dictC = l.dictC) : l'.Spells k last := by
  induction h with
  | byte k hk => exact .byte k hk
  | entry k str h1 h2 _ ih =>
    have hprefix : l'.prefixOf k = l.prefixOf k := by rw [prefixOf, prefixOf, hp]
    have hlast : l'.lastByte k = l.lastByte k := by rw [lastByte, lastByte, hc]
    rw [← hlast]
    exact .entry k str h1 (hnext ▸ h2) (hprefix.symm ▸ ih)

theorem spells_byte (l : Lzw) (c : Byte) : l.Spells (c.setWidth 12).toNat [c] := by
  have hnat : (c.setWidth 12).toNat = c.toNat := BitVec.toNat_setWidth_of_le (by decide)
  have hbyte := Spells.byte (l := l) c.toNat c.isLt
  rwa [BitVec.ofNat_toNat, BitVec.setWidth_eq, ← hnat] at hbyte

/-- The encoder's unit is `l` and it has written the codes `ks` for the bytes `raw`: they take a decoder from `d` over
all but the prefix's string, to just behind the encoder. -/
structure Encodes (d l : Lzw) (raw : List Byte) (ks : List Nat) : Prop where
  built : l.Built
  fresh : l.started = false → l.next = 258
  first : l.pfx = none → raw = [] ∧ ks = [] ∧ l.next = 258
  later : ∀ p, l.pfx = some p → ∃ pre last d',
    raw = pre ++ last ∧ l.Spells p.toNat last ∧ d.Expands ks pre d' ∧ d'.Behind l (last.headD 0)

variable {raw : List Byte} {ks : List Nat}

/-- At the start of a stream (R345). -/
theorem encodes_init (d l : Lzw) : d.Encodes l.init [] [] :=
  ⟨.of_empty rfl, fun _ => rfl, fun _ => ⟨rfl, rfl, rfl⟩, nofun⟩

/-- A first byte starts the prefix. -/
theorem Encodes.start (h : d.init.Encodes l raw ks) (hpfx : l.pfx = none) (c : Byte) :
    d.init.Encodes { l with pfx := some (c.setWidth 12) } (raw ++ [c]) ks := by
  obtain ⟨rfl, rfl, hnext⟩ := h.first hpfx
  refine ⟨⟨h.built.low, h.built.high, h.built.rising⟩, h.fresh, nofun, fun p hp => ?_⟩
  cases hp
  exact ⟨[], [c], d.init, rfl, spells_byte _ c, .nil _, .inl ⟨rfl, rfl, hnext⟩⟩

/-- A byte that extends the prefix to a code writes nothing. -/
theorem Encodes.extend (h : d.Encodes l raw ks) (hpfx : l.pfx = some p) (hk : k ∈ l.candidates p c) (tick : Nat) :
    d.Encodes { l with freeTick := tick, pfx := some (BitVec.ofNat 12 k) } (raw ++ [c]) ks := by
  obtain ⟨h1, h2, rfl, rfl⟩ := mem_candidates.1 hk
  obtain ⟨pre, last, d', rfl, hspells, hexp, hbehind⟩ := h.later _ hpfx
  have hhigh := h.built.high
  have hnat : (BitVec.ofNat 12 k).toNat = k := (BitVec.toNat_ofNat ..).trans (Nat.mod_eq_of_lt (by omega))
  have hpos := hspells.length_pos
  refine ⟨⟨h.built.low, hhigh, h.built.rising⟩, h.fresh, nofun, fun p hp => ?_⟩
  cases hp
  refine ⟨pre, last ++ [l.lastByte k], d', List.append_assoc .., ?_, hexp, ?_⟩
  · rw [hnat]
    exact (Spells.entry k last h1 h2 hspells).of_table rfl rfl rfl
  · cases last with
    | nil => simp at hpos
    | cons a last => exact hbehind

/-- A byte that ends the prefix writes its code (R343, R346, R347). -/
theorem Encodes.endPrefix (h : d.Encodes l raw ks) (hpfx : l.pfx = some p) (clr : Bool) (c : Byte) :
    d.Encodes (l.afterPrefix clr p c) (raw ++ [c]) (ks ++ (l.codesFor p ++ l.fillCodes clr)) := by
  obtain ⟨pre, last, d', rfl, hspells, hexp, hbehind⟩ := h.later _ hpfx
  obtain ⟨d'', hcodes, hprev, hnext, hagree⟩ := hbehind.codesFor h.built h.fresh hspells
  have hbuilt : Lzw.Built { l with started := true } := ⟨h.built.low, h.built.high, h.built.rising⟩
  have hgrown := hbuilt.grow clr c (hspells.lt h.built.low)
  obtain ⟨d₃, hfill, hbehind'⟩ := behind_grow (l := { l with started := true }) clr c hbuilt hprev hnext hagree
  refine ⟨⟨hgrown.low, hgrown.high, hgrown.rising⟩, fun hstarted => ?_, nofun, fun q hq => ?_⟩
  · rw [afterPrefix_eq] at hstarted
    cases hstarted
  · cases hq
    have hall := hexp.trans (hcodes.trans hfill)
    rw [List.append_nil] at hall
    exact ⟨pre ++ last, [c], d₃, rfl, spells_byte _ c, hall, hbehind'⟩

/-- The last prefix's code takes the decoder over all the bytes (R349). -/
theorem Encodes.expands (h : d.Encodes l raw ks) : ∃ d', d.Expands (ks ++ l.lastCodes) raw d' := by
  unfold lastCodes
  cases hpfx : l.pfx with
  | none =>
    obtain ⟨rfl, rfl, -⟩ := h.first hpfx
    exact ⟨d, .nil d⟩
  | some p =>
    obtain ⟨pre, last, d', rfl, hspells, hexp, hbehind⟩ := h.later _ hpfx
    obtain ⟨d'', hcodes, -⟩ := hbehind.codesFor h.built h.fresh hspells
    exact ⟨d'', hexp.trans hcodes⟩

end Lzw

/-! ### The encoder's procedures (R346, R349, R360) -/

section
variable {s t : State} {d : Lzw} {raw : List Byte} {ks : List Nat}

theorem ensures_of_emits {m : Engine State Unit} {l : Lzw} {lim : Nat} (h : EmitsWithin lim m s ks l) :
    Ensures m s fun _ t => s.EmitsCodes t ks l := h.mono (fun _ _ h => h) fun _ _ _ => trivial

theorem State.EmitsCodes.refl (hfits : s.out.len ≤ s.params.outCap) (l : Lzw) :
    s.EmitsCodes { s with lzw := l } [] l := ⟨rfl, .refl _, hfits⟩

/-- One byte (R346). -/
theorem lzwEncodeByte_encodes (c : Byte) (hfits : s.out.len ≤ s.params.outCap) (h : d.init.Encodes s.lzw raw ks) :
    Ensures (lzwEncodeByte c) s fun _ t =>
      ∃ new, s.EmitsCodes t new t.lzw ∧ d.init.Encodes t.lzw (raw ++ [c]) (ks ++ new) := by
  cases hpfx : s.lzw.pfx with
  | none =>
    refine (ends_lzwEncodeByte_none hpfx).2 ⟨[], .refl hfits _, ?_⟩
    rw [List.append_nil]
    exact h.start hpfx c
  | some p =>
    rw [Ensures, ends_lzwEncodeByte_some hpfx]
    have hcases := s.lzw.lookup_cases p c
    generalize s.lzw.lookup p c = result at hcases ⊢
    obtain ⟨-, rfl⟩ | ⟨k, tick, hk, rfl⟩ := hcases
    · have hend := endPrefix_emits (lim := s.out.count + 12 * 3) p c ⟨hfits, Nat.le_refl _⟩
      refine (ensures_of_emits hend).mono fun _ t ht =>
        ⟨s.lzw.codesFor p ++ s.lzw.fillCodes s.lzwClrFull, ?_, ?_⟩
      · rw [ht.lzw]
        exact ht
      · rw [ht.lzw]
        exact h.endPrefix hpfx _ c
    · refine ends_extendPrefix_some.2 ⟨[], .refl hfits _, ?_⟩
      rw [List.append_nil]
      exact h.extend hpfx hk tick

theorem Input.slice_succ (i : Input) (a n : Nat) : i.slice a (n + 1) = i.byte a :: i.slice (a + 1) n := rfl

/-- The bytes of the input, one after the other (R360). -/
theorem lzwEncodeBytes_encodes (a n : Nat) (hfits : s.out.len ≤ s.params.outCap) (h : d.init.Encodes s.lzw raw ks) :
    Ensures (lzwEncodeBytes a n) s fun _ t =>
      ∃ new, s.EmitsCodes t new t.lzw ∧ d.init.Encodes t.lzw (raw ++ s.inp.slice a n) (ks ++ new) := by
  induction n generalizing s a raw ks with
  | zero =>
    refine ⟨[], .refl hfits _, ?_⟩
    rwa [List.append_nil, Input.slice, List.range'_zero, List.map_nil, List.append_nil]
  | succ n ih =>
    refine .bind (Q := fun b t => b = s.inp.byte a ∧ t = s) (.get_bind ⟨rfl, rfl⟩) fun b t ⟨hb, ht⟩ => ?_
    subst hb ht
    refine .bind (lzwEncodeByte_encodes _ hfits h) fun _ u ⟨new, hemits, henc⟩ => ?_
    refine (ih (a + 1) hemits.fits henc).mono fun _ v ⟨new', hemits', henc'⟩ => ⟨new ++ new', hemits.trans hemits', ?_⟩
    have hinp : u.inp = t.inp := by rw [hemits.same]
    rwa [hinp, List.append_assoc, List.append_assoc, List.singleton_append, ← Input.slice_succ] at henc'

end

/-! ### `LZW_COMPRESS` (R360) -/

/-- What an `LZW_COMPRESS` that has completed has written behind the verbatim bytes: codes that take a decoder from
`d` over the raw bytes, `STOP` where one is required, and the padding (R346, R349). -/
structure State.LzwStreams (s t : State) (d : Lzw) (ks : List Nat) : Prop where
  accN : t.out.accN = 0
  expands : ∃ d', d.Expands ks (s.inp.slice s.inOffset.toNat (rawSize s)) d'
  stream : ∃ pre pad, pre.length = 8 * s.outOffset.toNat ∧ pad < 8 ∧
    t.out.bits = pre ++ (codeBits (ks ++ if s.lzwStop = true then [257] else []) ++ List.replicate pad false)

theorem lzwCompressRest_streams {s t : State} (d : Lzw) (ht : s.Prepared t) (hfits : t.out.len ≤ t.params.outCap) :
    Ensures lzwCompressRest t fun _ u => ∃ ks, s.LzwStreams u d.init ks := by
  have hcount : t.out.count = 8 * s.outOffset.toNat := by rw [Output.count, ht.accN, ht.len]; rfl
  have hraw : rawSize t = rawSize s := by rw [rawSize, rawSize, ht.same.inp, ht.same.inOffset]
  refine .bind (Q := fun _ u => u = { t with lzw := t.lzw.init }) rfl fun _ u hu => ?_
  subst hu
  refine .get_bind (.bind (lzwEncodeBytes_encodes _ _ hfits (d.init.encodes_init t.lzw))
    fun _ u ⟨ks, hemits, henc⟩ => ?_)
  have hstop : u.lzwStop = s.lzwStop := congrArg (BitVec.getLsbD · 1) (hemits.opt.trans ht.same.opt)
  have hend : Ensures lzwEncodeEnd u _ :=
    (ends_lzwEncodeEnd_codes (lim := u.out.count + 43) hemits.fits (Nat.le_refl _)).mono (fun _ _ h => h)
      fun _ _ _ => trivial
  refine .bind hend fun _ v ⟨_, haccN, pad, hpad, happ⟩ => ?_
  obtain ⟨d', hexp⟩ := henc.expands
  have hexp : d.init.Expands (ks ++ u.lzw.lastCodes) (t.inp.slice t.inOffset.toNat (rawSize t)) d' := hexp
  rw [hraw, ht.same.inp, ht.same.inOffset] at hexp
  refine ⟨ks ++ u.lzw.lastCodes, haccN, ⟨d', hexp⟩, t.out.bits, pad, t.out.length_bits.trans hcount, hpad, ?_⟩
  refine happ.bits.trans ?_
  rw [hemits.appends.bits, State.endCodes, hstop, List.append_assoc ks, codeBits_append ks, List.append_assoc,
    List.append_assoc]

/-- An `LZW_COMPRESS` that has completed without an error. -/
theorem lzwStreams_of_exec {s t : State} (d : Lzw) (he : s.err = 0) (hrange : s.OffsetsInRange)
    (hexec : exec .lzwCompress s = .next t) (ht : t.err = 0) : ∃ ks, s.LzwStreams t d.init ks := by
  refine command_ended (Q := fun t => ∃ ks, s.LzwStreams t d.init ks) (E := fun _ _ => True) he hexec ht ?_
  rw [lzwCompress_eq, ends_bind, ends_checkOffsets hrange, ends_bind]
  rcases Nat.lt_or_ge s.maxExpanded.toNat (rawSize s) with hmax | hmax
  · exact (ends_checkInputSize_above hmax).2 trivial
  · exact (ends_checkInputSize hmax).2 (ends_prepare (Nat.le_refl _)
      (fun u hu hfits => lzwCompressRest_streams d hu hfits) fun _ _ _ => trivial)

/-- An input that is the codes `ks`, `STOP` where one is required, and the padding. -/
theorem holdsStream_of_bits {s : State} {ks : List Nat} {new : List Byte} {pad : Nat} (hin : s.inOffset = 0)
    (hexp : ∃ l, s.lzw.init.Expands ks new l)
    (hbits : s.inp.bits 0 (8 * s.inp.len.toNat) =
      codeBits (ks ++ if s.lzwStop = true then [257] else []) ++ List.replicate pad false)
    (hpad : pad < 8) (hmax : new.length ≤ s.maxExpanded.toNat)
    (hroom : s.outOffset.toNat + new.length ≤ s.params.outCap.toNat) : ∃ used, s.HoldsStream ks new used := by
  have hin0 : 8 * s.inOffset.toNat = 0 := by rw [hin]; rfl
  have hcount := congrArg List.length hbits
  rw [Input.length_bits, List.length_append, length_codeBits, List.length_append, List.length_replicate] at hcount
  rw [codeBits_append, List.append_assoc] at hbits
  have hcodes := (Input.bits_of_append (pre := []) hbits).1
  have hrest := (Input.bits_of_append hbits).1
  rw [List.length_nil, length_codeBits] at hcodes
  rw [length_codeBits] at hrest
  have hends : ∃ used, s.LzwEnds (12 * ks.length) used := by
    cases hstop : s.lzwStop with
    | true =>
      rw [hstop, if_pos rfl, List.length_singleton] at hcount
      rw [hstop, if_pos rfl, codeBits_singleton, length_bitsOf] at hrest
      exact ⟨_, .inl ⟨by omega, hrest, rfl⟩⟩
    | false =>
      rw [hstop, if_neg nofun, List.length_nil] at hcount
      exact ⟨_, .inr ⟨by omega, hstop, rfl⟩⟩
  obtain ⟨used, hends⟩ := hends
  refine ⟨used, hexp, ?_, ?_, ?_, hmax, hroom⟩ <;> rw [hin0]
  · omega
  · exact hcodes
  · rwa [Nat.zero_add]

/-- Settles O51: the codes of the stream take the decoder over the raw bytes, and the stream ends behind them. -/
theorem lzwRoundTrip : Obligations.LzwRoundTrip := by
  intro s t u hs hsin hsout hexec ht hu huin huout hopt hlen hbyte hmax hcap
  obtain ⟨ks, haccN, ⟨d', hexp⟩, pre, pad, hpre, hpad, hstream⟩ :=
    lzwStreams_of_exec u.lzw hs (State.offsetsInRange_of_zero hsin hsout) hexec ht
  have hraw := rawSize_of_zero hsin
  have hu0 : u.inOffset.toNat = 0 := congrArg BitVec.toNat huin
  have hv0 : u.outOffset.toNat = 0 := congrArg BitVec.toNat huout
  have hs0 : s.inOffset.toNat = 0 := congrArg BitVec.toNat hsin
  have hnew : (s.inp.slice s.inOffset.toNat (rawSize s)).length = s.inp.len.toNat := by rw [Input.length_slice, hraw]
  rw [hsout] at hpre
  obtain rfl : pre = [] := List.eq_nil_of_length_eq_zero hpre
  have hbits := Input.bits_of_output hlen hbyte haccN
  rw [hstream, List.nil_append] at hbits
  rw [BitVec.le_def] at hmax hcap
  have hstop : u.lzwStop = s.lzwStop := hopt
  rw [← hstop] at hbits
  obtain ⟨used, hholds⟩ := holdsStream_of_bits huin ⟨d', hexp⟩ hbits hpad (by omega) (by omega)
  obtain ⟨v, hv, hverr, hex⟩ := exec_lzwExpand_of_stream hu (State.offsetsInRange_of_zero huin huout) hholds
  refine ⟨v, hv, hverr, BitVec.eq_of_toNat_eq ?_, fun a ha => ?_⟩
  · rw [hex.len, hv0, hnew, Nat.zero_add]
  · have hout := hex.bytes a (by omega)
    rw [Input.getElem?_slice (by omega), hv0, hs0, Nat.zero_add] at hout
    exact Option.some.inj hout

end Sys2Proof.Machine
end

section
/-! SUPPORT. The states after power-on are legal and sound (70_reset_and_hazards.md R410). -/

namespace Sys2Proof.Machine

theorem resetWith_legal (p : Params) : (State.resetWith p).Legal :=
  (State.legal_iff _).2 ⟨List.mem_cons_self, optReset_reserved, ⟨zero_le_word _, rfl, rfl⟩, Output.legal_empty _ _,
    Window.legalMatch_of_none rfl rfl, Nat.le_refl 258, Nat.le_of_ble_eq_true rfl⟩

theorem resetWith_sound (p : Params) : (State.resetWith p).Sound :=
  ⟨HufTree.initial_sound, (Window.initial_empty _).linked⟩

/-- Settles O56: a step takes the first pending access, and the reset states hold the initial tree and an empty index. -/
theorem idleStepAndSoundReset : Obligations.IdleStepAndSoundReset :=
  ⟨fun _ => step_idle, fun p => ⟨resetWith_legal p, resetWith_sound p⟩, resetWith_legal _, resetWith_sound _⟩

end Sys2Proof.Machine
end

section
/-! SUPPORT. How a command ends with an error (60_exceptions.md R384): by the error entry in the state its procedure
raised in, where the result registers and `R` are not yet written. -/

namespace Sys2Proof.Machine

/-- A command leaves `ERR` 0, or its procedure has raised and the error entry follows (R160, R384). -/
theorem exec_err_zero_or_raise {i : Instr} {s t : State} (he : s.err = 0) (h : exec i s = .next t) :
    t.err = 0 ∨
      ∃ e u, procedure i s = .error (.raise e) u ∧ SameBut (stopPartsOf i) s u ∧ t = errorEntry e u := by
  by_cases h1 : i = .nop
  · subst h1; cases h; exact .inl he
  by_cases h2 : i = .reset
  · subst h2; cases h; exact .inl rfl
  by_cases h3 : i = .clrerr
  · subst h3; cases h; exact .inl rfl
  have hb := Bounded.ofProcedure i s
  rw [exec_eq_command s h1 h2 h3] at h
  rcases command_cases (procedure i) s with ⟨hne, -⟩ | ⟨-, u, hm, hc⟩ | ⟨-, e, u, hm, hc⟩ | ⟨-, why, u, -, hc⟩
  · exact absurd he hne
  · cases hc.symm.trans h
    exact .inl (((Engine.ends_of_ok hm).1 hb).err.trans he)
  · cases hc.symm.trans h
    exact .inr ⟨e, u, hm, ((Engine.ends_of_error hm).1 hb).1, rfl⟩
  · exact nomatch hc.symm.trans h

/-- Settles O12: the error entry discards the output, and before a raise no procedure writes `RES0`, `RES1` or `R`. -/
theorem errorDiscardsOutput : Obligations.ErrorDiscardsOutput := by
  intro i s t he h ht
  obtain ⟨e, u, -, hsame, rfl⟩ := (exec_err_zero_or_raise he h).resolve_left ht
  exact ⟨rfl, rfl, rfl, hsame.res0.resolve_left nofun, hsame.res1.resolve_left nofun, hsame.r.resolve_left nofun⟩

end Sys2Proof.Machine
end

section
/-! SUPPORT. Which errors a procedure raises (60_exceptions.md R381). The insertions of `LZH_COMPRESS` raise none: each is
of a position that is not in the index (44_lzss_codec.md R305, R306). -/

namespace Sys2Proof.Machine

open Engine

/-- If this stop is a raise, it is of one of the errors `E`. -/
def Stop.RaisesIn (E : List ErrCode) (e : Stop) : Prop := ∀ c, e = .raise c → c ∈ E

section
variable {α β : Type} {p q : Parts} {E : List ErrCode} {m : Engine State α} {s : State}

theorem Bounded.raisesIn (h : Bounded p q E m) (s : State) :
    m.Ends s (fun _ t => SameBut p s t) fun e _ => e.RaisesIn E :=
  (h s).mono (fun _ _ h => h) fun _ _ h => h.2

/-- What follows a procedure starts in a state that differs in the procedure's parts only. -/
theorem Bounded.raisesIn_bind {f : α → Engine State β} {Q : β → State → Prop} (h : Bounded p q E m)
    (hf : ∀ a t, SameBut p s t → (f a).Ends t Q fun e _ => e.RaisesIn E) :
    (m >>= f).Ends s Q fun e _ => e.RaisesIn E := by
  rw [ends_bind]
  exact (h.raisesIn s).mono hf fun _ _ h => h

end

/-- The errors `LZH_COMPRESS` raises (R381). -/
def compressErrors : List ErrCode := [.unexpectedEof, .sizeExceeded]

section
variable {s : State} {c : Encoding}

/-- The encoder stands ready beside some decoder. -/
def State.Ready (s : State) (c : Encoding) : Prop := ∃ e, c.Stands s.inp s.win e

/-- The slide cannot stop: each position it inserts is not in the index (R306). -/
theorem ends_slide_ready {n : Nat} {E : Stop → State → Prop} (h : s.Ready c) (hn : n ≤ c.len) :
    (slide n c).Ends s (fun c' t => t.Ready c') E := by
  obtain ⟨e, h⟩ := h
  refine (ends_slide h hn).mono (fun c' t ⟨hsame, hstands, _⟩ => ?_) fun _ _ h => h.elim
  rw [← hsame.inp] at hstands
  exact ⟨_, hstands⟩

/-- Coding a symbol leaves the window and the input. -/
theorem State.Ready.of_coding {t : State} (h : s.Ready c) (ht : SameBut { out := true, huf := true } s t) :
    t.Ready c := by
  rw [State.Ready, ht.inp, ht.win.resolve_left nofun]
  exact h

/-- A pass of the coding loop (R306). -/
theorem ends_encodeStep_ready (h : s.Ready c) (hpos : 0 < c.len) :
    (encodeStep c).Ends s (fun c' t => t.Ready c') fun e _ => e.RaisesIn compressErrors := by
  have hsymbol (y : Sym) : Bounded { out := true, huf := true } { out := true, huf := true } compressErrors
      (encodeSymbol y) := .encodeSymbol rfl rfl (by decide)
  have hdistance (d : Nat) : Bounded { out := true, huf := true } { out := true, huf := true } compressErrors
      (encodePos d) := .putAll rfl rfl (by decide)
  rw [encodeStep, ends_bind, ends_get, ends_ite]
  split
  · exact (hsymbol _).raisesIn_bind fun _ t ht => ends_slide_ready (h.of_coding ht) hpos
  · exact (hsymbol _).raisesIn_bind fun _ t ht => (hdistance _).raisesIn_bind fun _ u hu =>
      ends_slide_ready ((h.of_coding ht).of_coding hu) (by unfold stepLength; omega)

/-- The coding loop (R306). -/
theorem ends_encodeLoop_ready {fuel : Nat} (h : s.Ready c) :
    (encodeLoop fuel c).Ends s (fun c' t => t.Ready c') fun e _ => e.RaisesIn compressErrors := by
  induction fuel generalizing s c with
  | zero =>
    rw [encodeLoop.eq_def, ends_ite]
    split
    · exact h
    · exact nofun
  | succ fuel ih =>
    rw [encodeLoop.eq_def, ends_ite]
    split
    · exact h
    · next hlen =>
      rw [ends_bind]
      exact (ends_encodeStep_ready h (Nat.pos_of_ne_zero hlen)).mono (fun _ _ h' => ih h') fun _ _ h => h

/-- After the verbatim bytes `LZH_COMPRESS` can only run out of OUT memory (R303 to R308). -/
theorem ends_compressRest_raisesIn (hin : s.inOffset ≤ s.inp.len) :
    compressRest.Ends s (fun _ _ => True) fun e _ => e.RaisesIn compressErrors := by
  have hheader : Bounded { out := true } { out := true } compressErrors
      (doIf (s.hdr = true) (writeHeader (rawSize s))) := .doIf (.writeHeader rfl (by decide))
  rw [compressRest, ends_bind, ends_get]
  refine hheader.raisesIn_bind fun _ t ht => ?_
  have hip : s.inOffset.toNat ≤ t.inp.len.toNat := by rw [ht.inp]; exact hin
  rw [ends_bind]
  refine (ends_startEncoding hip 0).mono (fun c u ⟨hsame, _, hstands, _⟩ => ?_) fun _ _ h => h.elim
  rw [← hsame.inp] at hstands
  rw [ends_bind]
  refine (ends_encodeLoop_ready ⟨_, hstands⟩).mono (fun c' v _ => ?_) fun _ _ h => h
  have hend : Bounded Bounded.lzhResults Bounded.lzhParts compressErrors (endEncoding c'.r) :=
    .endEncoding (by decide)
  exact hend.raisesIn_bind fun _ _ _ => trivial

end

theorem ends_lzhCompress_raisesIn (s : State) :
    lzhCompress.Ends s (fun _ _ => True) fun e _ => e.RaisesIn compressErrors := by
  have hsize : Bounded {} {} compressErrors checkInputSize := .checkInputSize (by decide)
  have hinit : Bounded { rd := true, out := true } {} compressErrors bitInit := .bitInit rfl rfl
  have hcopy : Bounded { out := true } { out := true } compressErrors copyPrefix := .copyPrefix rfl (by decide)
  rw [lzhCompress_eq, ends_bind]
  by_cases hrange : s.OffsetsInRange
  · rw [ends_checkOffsets hrange]
    refine hsize.raisesIn_bind fun _ t ht => hinit.raisesIn_bind fun _ u hu => hcopy.raisesIn_bind fun _ v hv =>
      ends_compressRest_raisesIn ?_
    rw [hv.inOffset, hv.inp, hu.inOffset, hu.inp, ht.inOffset, ht.inp]
    exact hrange.1
  · rw [State.OffsetsInRange, BitVec.le_def, BitVec.le_def] at hrange
    rw [ends_checkOffsets_beyond (by omega)]
    rintro _ ⟨⟩
    exact List.mem_cons_self

/-- The codes of the errors each procedure may raise are those of R381, but for the insertions of `LZH_COMPRESS`. -/
theorem errorsOf_eq {i : Instr} (h : i ≠ .lzhCompress) : errorsOf i = (raisesOf i).map ErrCode.code := by
  cases i
  case lzhCompress => exact absurd rfl h
  all_goals rfl

/-- A procedure's raise is of an error that R381 lists for its command. -/
theorem code_mem_errorsOf {i : Instr} {s u : State} {e : ErrCode} (h : procedure i s = .error (.raise e) u) :
    e.code ∈ errorsOf i := by
  by_cases hi : i = .lzhCompress
  · subst hi
    exact List.mem_map_of_mem (f := ErrCode.code) ((ends_of_error h).1 (ends_lzhCompress_raisesIn s) e rfl)
  · rw [errorsOf_eq hi]
    exact List.mem_map_of_mem (((ends_of_error h).1 (Bounded.ofProcedure i s)).2 e rfl)

/-- Settles O13: the error a command leaves is the one its procedure raised. -/
theorem errorsEachCommandRaises : Obligations.ErrorsEachCommandRaises := by
  intro i s t he h
  refine (exec_err_zero_or_raise he h).imp_right ?_
  rintro ⟨e, u, hraise, hsame, rfl⟩
  rw [errorEntry_err, if_pos (hsame.err.trans he)]
  exact code_mem_errorsOf hraise

end Sys2Proof.Machine
end
